-- ==== Sys2Proof/Word.lean ====
section
/-! DEFINITION. The word types of BF-ATF CTE, and the cell of a register that can be UNKNOWN (00_scope.md R15). -/

namespace Sys2Proof

/-- One byte of system memory (20_memory.md R80). -/
abbrev Byte := BitVec 8

/-- A 32-bit register, command word, status word or descriptor word. -/
abbrev Word := BitVec 32

/-- A request operand or a CPU address (CPU_ADDR_BITS = 64, 00_scope.md R9). -/
abbrev DWord := BitVec 64

/-- A state element that can be UNKNOWN (00_scope.md R15): a value, and the mark that says whether it
is one. A read of an element whose mark is off is a fault; the value under such a mark means nothing. -/
structure Latch (α : Type) where
  val   : α
  known : Bool
  deriving DecidableEq, Repr

namespace Latch

variable {α : Type}

/-- The element holds `v`. -/
def holds (v : α) : Latch α := ⟨v, true⟩

/-- The element is UNKNOWN; `v` only fills the cell (DESIGN CHOICE: log 3). -/
def unknown (v : α) : Latch α := ⟨v, false⟩

/-- The element becomes UNKNOWN (10_state.md R55, 44_facade_transfer.md R350). -/
def forget (l : Latch α) : Latch α := ⟨l.val, false⟩

/-- What a read gives: nothing when the element is UNKNOWN. -/
def read? (l : Latch α) : Option α := if l.known then some l.val else none

/-- The element changed by `f`; an UNKNOWN element stays UNKNOWN. -/
def map (f : α → α) (l : Latch α) : Latch α := ⟨f l.val, l.known⟩

@[simp] theorem holds_val (v : α) : (holds v).val = v := rfl
@[simp] theorem holds_known (v : α) : (holds v).known = true := rfl
@[simp] theorem unknown_known (v : α) : (unknown v).known = false := rfl
@[simp] theorem forget_known (l : Latch α) : l.forget.known = false := rfl
@[simp] theorem map_known (f : α → α) (l : Latch α) : (l.map f).known = l.known := rfl
@[simp] theorem map_holds (f : α → α) (v : α) : (holds v).map f = holds (f v) := rfl
@[simp] theorem read_holds (v : α) : (holds v).read? = some v := rfl
@[simp] theorem read_unknown (v : α) : (unknown v).read? = none := rfl
@[simp] theorem read_forget (l : Latch α) : l.forget.read? = none := rfl

/-- A read gives `v` exactly when the element holds `v`. -/
theorem read_eq_some {l : Latch α} {v : α} : l.read? = some v ↔ l = holds v := by
  cases l with
  | mk w k => cases k <;> simp [read?, holds]

end Latch

end Sys2Proof
end

