-- ==== Sys2Proof/Config.lean ====
section
/-! DEFINITION. What the spec leaves to whoever builds a model: the parameters of 00_scope.md R9, and the
constants without a body that stand for what it leaves OPEN. -/

namespace Sys2Proof

/-- The command classes (40_command_encoder.md R160). -/
inductive CmdClass where
  | init | stop | status | read | write | other
  deriving DecidableEq, Repr

/-- `CmdBits`: the bit position of every flag of the command word (30_encoding.md R120). -/
structure CmdBits where
  respExpect    : Nat
  respLong      : Nat
  checkCrc      : Nat
  dataExpected  : Nat
  write         : Nat
  waitPrvdata   : Nat
  stopAbort     : Nat
  sendInit      : Nat
  updateClkOnly : Nat
  useHoldReg    : Nat
  start         : Nat
  deriving DecidableEq, Repr

/-- `IntBits`: the bit position of every RINTSTS bit the block names (30_encoding.md R130). -/
structure IntBits where
  cmdDone : Nat
  dto     : Nat
  rcrc    : Nat
  dcrc    : Nat
  rto     : Nat
  drto    : Nat
  frun    : Nat
  hle     : Nat
  sbe     : Nat
  ebe     : Nat
  deriving DecidableEq, Repr

/-- The values the model takes as arguments (00_scope.md R9). "They are fixed when the model is
constructed and never change during a run." -/
structure Params where
  nBusy          : Nat
  nPoll          : Nat
  nClk           : Nat
  pollDelay      : Nat
  cmdBits        : CmdBits
  intBits        : IntBits
  statusBusyMask : Word
  classTable     : List (Nat × CmdClass)
  deriving DecidableEq, Repr

/-- OPEN (00_scope.md R9): N_BUSY less one. N_BUSY is an integer ≥ 1, and `cnt` (32 bits, 10_state.md
R51) holds it (log 5). -/
opaque Config.busyRetries : Fin 4294967295

/-- OPEN (00_scope.md R9): N_POLL less one. -/
opaque Config.pollRetries : Fin 4294967295

/-- OPEN (00_scope.md R9): N_CLK less one. -/
opaque Config.clkRetries : Fin 4294967295

/-- OPEN (00_scope.md R9): POLL_DELAY. -/
opaque Config.pollDelay : Nat

/-- FREE VALUE: what the environment answers to the n-th draw when State's list of answers is used up
(20_memory.md R91: "any 32-bit value"; log 4). -/
opaque Config.answer : Nat → Word

/-- FREE VALUE: what the DMA engine's n-th draw gives when State's list for it is used up (93 U4, U6, U16; log
4). -/
opaque Config.datum : Nat → Word

/-- CPU_ADDR_BITS (00_scope.md R9). -/
def Config.cpuAddrBits : Nat := 64

/-- DMA_ADDR_BITS (00_scope.md R9). -/
def Config.dmaAddrBits : Nat := 32

end Sys2Proof
end

