-- ==== Sys2Proof/Syntax.lean ====
section
/-! DEFINITION. The instructions: one constructor for every row of spec/opcode_table.json. -/

namespace Sys2Proof

/-- The response shapes (30_encoding.md R114). -/
inductive Shape where
  | none | shortCrc | long136 | noCrc
  deriving DecidableEq, Repr

/-- The data directions (30_encoding.md R115); code 3 is reserved and spells none. -/
inductive Dir where
  | none | read | write
  deriving DecidableEq, Repr

/-- The 13 operations of the request port (30_encoding.md R112), the seven command words the
controller carries out (40_command_encoder.md R171, 30_encoding.md R122) and the four first words of a
descriptor the DMA engine consumes (30_encoding.md R136). An operand that is not in the row's own word
stands in State: the latches `req.a`, `req.b`, `req.c` and the port `cfg_in` (R116). -/
inductive Instr where
  | init
  | encode (idx : Nat) (shape : Shape)
  | sendcmd (idx : Nat) (shape : Shape) (dir : Dir)
  | classify
  | extract
  | updclk
  | setclk
  | setwidth
  | cfgbus
  | build
  | prepare
  | read
  | write
  | cmdwInit (idx : Nat) (shape : Shape)
  | cmdwStop (idx : Nat) (shape : Shape)
  | cmdwStatus (idx : Nat) (shape : Shape)
  | cmdwRead (idx : Nat) (shape : Shape)
  | cmdwWrite (idx : Nat) (shape : Shape)
  | cmdwOther (idx : Nat) (shape : Shape)
  | cmdwHs
  | des0First
  | des0Middle
  | des0Last
  | des0Single
  deriving DecidableEq, Repr

/-- The agents of 00_scope.md R8. -/
inductive Agent where
  | block | controller | engine
  deriving DecidableEq, Repr

/-- Which agent executes an instruction. -/
def Instr.agent : Instr → Agent
  | .init | .encode _ _ | .sendcmd _ _ _ | .classify | .extract | .updclk | .setclk | .setwidth
  | .cfgbus | .build | .prepare | .read | .write => .block
  | .cmdwInit _ _ | .cmdwStop _ _ | .cmdwStatus _ _ | .cmdwRead _ _ | .cmdwWrite _ _
  | .cmdwOther _ _ | .cmdwHs => .controller
  | .des0First | .des0Middle | .des0Last | .des0Single => .engine

end Sys2Proof
end

