-- ==== Sys2Proof/WellFormed.lean ====
section
/-! DEFINITION. When an instruction is well formed, and when the parameters of 00_scope.md R9 are. -/

namespace Sys2Proof

/-- The command index an instruction carries, if it carries one. -/
def Instr.idx? : Instr → Option Nat
  | .encode idx _ | .sendcmd idx _ _ | .cmdwInit idx _ | .cmdwStop idx _ | .cmdwStatus idx _
  | .cmdwRead idx _ | .cmdwWrite idx _ | .cmdwOther idx _ => some idx
  | .init | .classify | .extract | .updclk | .setclk | .setwidth | .cfgbus | .build | .prepare
  | .read | .write | .cmdwHs | .des0First | .des0Middle | .des0Last | .des0Single => none

/-- Well formed: a command index is 6 bits (30_encoding.md R116: "A larger index cannot be spelled").
The shape and the direction have no ill-formed value: their types hold the spec's codes alone. -/
def Instr.wf (i : Instr) : Bool := i.idx?.all (· < 64)

/-- The positions of the command word's flags. -/
def CmdBits.positions (b : CmdBits) : List Nat :=
  [b.respExpect, b.respLong, b.checkCrc, b.dataExpected, b.write, b.waitPrvdata, b.stopAbort,
   b.sendInit, b.updateClkOnly, b.useHoldReg, b.start]

/-- "A model with a different `CmdBits` must keep every named flag at a distinct bit in [31:6]"
(30_encoding.md R121). -/
abbrev CmdBits.wf (b : CmdBits) : Prop :=
  b.positions.Nodup ∧ ∀ p ∈ b.positions, 6 ≤ p ∧ p < 32

/-- The positions of the RINTSTS bits. -/
def IntBits.positions (b : IntBits) : List Nat :=
  [b.cmdDone, b.dto, b.rcrc, b.dcrc, b.rto, b.drto, b.frun, b.hle, b.sbe, b.ebe]

/-- Ten distinct bits of a 32-bit word (30_encoding.md R130). -/
abbrev IntBits.wf (b : IntBits) : Prop :=
  b.positions.Nodup ∧ ∀ p ∈ b.positions, p < 32

/-- The parameters are as 00_scope.md R9 asks: each budget an integer ≥ 1 that `cnt` can hold (log 5),
the flags at distinct bits (30_encoding.md R121), and index 0 of class INIT (40_command_encoder.md R161:
"A model that takes a different table must still give index 0 the class INIT"). -/
abbrev Params.wf (p : Params) : Prop :=
  (1 ≤ p.nBusy ∧ p.nBusy < 4294967296) ∧ (1 ≤ p.nPoll ∧ p.nPoll < 4294967296) ∧
  (1 ≤ p.nClk ∧ p.nClk < 4294967296) ∧ p.cmdBits.wf ∧ p.intBits.wf ∧
  p.classTable.lookup 0 = some .init

end Sys2Proof
end

