-- ==== Sys2Proof/Machine/Flags.lean ====
section
/-! DEFINITION. Every flag computation of the spec: the command word (30_encoding.md R120 to R123,
40_command_encoder.md), the status words (R130 to R133), the first word of a descriptor (R135, R136), and the
default layouts of the parameters. -/

namespace Sys2Proof.Machine

/-- `1 << n` (00_scope.md R11). -/
def bit (n : Nat) : Word := 1#32 <<< n

/-- `w & mask ≠ 0`. -/
def anySet (w mask : Word) : Bool := w &&& mask != 0

/-! ## Default layouts -/

/-- The defaults of `CmdBits` (30_encoding.md R120). PRESUMED: the DesignWare MMC layout (93 IMP1; log 6). -/
def defaultCmdBits : CmdBits where
  respExpect := 6
  respLong := 7
  checkCrc := 8
  dataExpected := 9
  write := 10
  waitPrvdata := 13
  stopAbort := 14
  sendInit := 15
  updateClkOnly := 21
  useHoldReg := 29
  start := 31

/-- The defaults of `IntBits` (30_encoding.md R130). PRESUMED: the DesignWare MMC layout (93 IMP2; log 6). -/
def defaultIntBits : IntBits where
  cmdDone := 2
  dto := 3
  rcrc := 6
  dcrc := 7
  rto := 8
  drto := 9
  frun := 11
  hle := 12
  sbe := 13
  ebe := 15

/-- The default of `STATUS_BUSY_MASK` (30_encoding.md R133). PRESUMED (93 IMP4; log 6). -/
def defaultBusyMask : Word := 0x00000200

/-- The default of `ClassTable` (40_command_encoder.md R161). Index 0 is the source's; the rest PRESUMED
from the eMMC/SD command set (93 IMP7; log 6). -/
def defaultClassTable : List (Nat × CmdClass) :=
  [(0, .init), (12, .stop), (13, .status), (14, .read), (17, .read), (18, .read), (24, .write),
   (25, .write)]

/-- The parameters of a model that takes every default (00_scope.md R9), the OPEN ones being the
constants of Config that have no body (log 5). -/
def defaultParams : Params where
  nBusy := Config.busyRetries.val + 1
  nPoll := Config.pollRetries.val + 1
  nClk := Config.clkRetries.val + 1
  pollDelay := Config.pollDelay
  cmdBits := defaultCmdBits
  intBits := defaultIntBits
  statusBusyMask := defaultBusyMask
  classTable := defaultClassTable

/-! ## The command word -/

/-- The class of a command index: the table's entry, or OTHER (40_command_encoder.md R160, R161). -/
def classOf (table : List (Nat × CmdClass)) (idx : Nat) : CmdClass :=
  (table.lookup idx).getD .other

/-- `CLASS_FLAGS` (40_command_encoder.md R162). The row of WRITE is that of DMA mode; polled mode has no
word for the class (R163), which `encodeCommand` refuses. -/
def classFlags (b : CmdBits) : CmdClass → Word
  | .init => bit b.sendInit
  | .stop => bit b.stopAbort
  | .status => bit b.waitPrvdata
  | .read => bit b.dataExpected ||| bit b.waitPrvdata
  | .write => bit b.write ||| bit b.dataExpected ||| bit b.waitPrvdata
  | .other => 0

/-- `ALWAYS_ON` (40_command_encoder.md R164). -/
def alwaysOn (b : CmdBits) : Word := bit b.useHoldReg ||| bit b.start

/-- `SHAPE_FLAGS` (40_command_encoder.md R165). -/
def shapeFlags (b : CmdBits) : Shape → Word
  | .none => 0
  | .shortCrc => bit b.respExpect ||| bit b.checkCrc
  | .long136 => bit b.respExpect ||| bit b.checkCrc ||| bit b.respLong
  | .noCrc => bit b.respExpect

/-- `CLASS_FLAGS | ALWAYS_ON | SHAPE_FLAGS | idx` (30_encoding.md R123). -/
def commandWord (b : CmdBits) (cls : CmdClass) (shape : Shape) (idx : Nat) : Word :=
  classFlags b cls ||| alwaysOn b ||| shapeFlags b shape ||| BitVec.ofNat 32 idx

/-- `encode(idx, shape, dma)` (40_command_encoder.md R166): a command word, or nothing where the spec says
NOT_SUPPORTED (R163). -/
def encodeCommand (p : Params) (idx : Nat) (shape : Shape) (dma : Bool) : Option Word :=
  let cls := classOf p.classTable idx
  if cls = .write ∧ dma = false then none else some (commandWord p.cmdBits cls shape idx)

/-- `HS_WORD` (30_encoding.md R122). -/
def hsWord (b : CmdBits) : Word := bit b.waitPrvdata ||| bit b.updateClkOnly ||| bit b.start

/-- A command word is data-carrying (40_command_encoder.md R168). -/
def dataCarrying (b : CmdBits) (w : Word) : Bool := anySet w (bit b.dataExpected)

/-- How many response words a command has: `rsp.count` ∈ {0, 1, 4} (10_state.md R55). -/
inductive RespCount where
  | zero | one | four
  deriving DecidableEq, Repr

/-- The number itself. -/
def RespCount.toNat : RespCount → Nat
  | .zero => 0
  | .one => 1
  | .four => 4

/-- `respCount(w)` (40_command_encoder.md R169). -/
def respCount (b : CmdBits) (w : Word) : RespCount :=
  if anySet w (bit b.respExpect) then
    if anySet w (bit b.respLong) then .four else .one
  else .zero

/-! ## Status words -/

/-- `ERR_MASK` (30_encoding.md R131). -/
def errMask (b : IntBits) : Word :=
  bit b.ebe ||| bit b.sbe ||| bit b.hle ||| bit b.frun ||| bit b.drto ||| bit b.rto ||| bit b.dcrc
    ||| bit b.rcrc

/-- `classify(s) = ERROR` (41_command_dispatch.md R204). -/
def isError (b : IntBits) (s : Word) : Bool := anySet s (errMask b)

/-- The controller is busy (30_encoding.md R133). -/
def isBusy (p : Params) (s : Word) : Bool := anySet s p.statusBusyMask

/-- The value that clears every RINTSTS bit (30_encoding.md R132). -/
def clearAll : Word := 0xFFFFFFFF

/-! ## Register values -/

/-- The CTYPE code of a legal bus width (30_encoding.md R140); no other width has one. -/
def ctypeCode (width : Nat) : Option Word :=
  match width with
  | 1 => some 0x00000000
  | 4 => some 0x00000001
  | 8 => some 0x00010000
  | _ => none

/-- CLKENA disables the clock (30_encoding.md R141; PRESUMED, 93 IMP8, log 10). -/
def clkenaOff : Word := 0x00000000

/-- CLKENA enables the clock (30_encoding.md R141; PRESUMED, 93 IMP8, log 10). -/
def clkenaOn : Word := 0x00000001

/-- CLKSRC selects the clock source (30_encoding.md R141; PRESUMED, 93 IMP8, log 10). -/
def clksrcValue : Word := 0x00000000

/-! ## The descriptor -/

/-- DESC_BYTES (00_scope.md R9; PRESUMED, 93 IMP5, log 7). -/
def descBytes : Nat := 16

/-- BS_MAX (00_scope.md R9; PRESUMED, 93 IMP5, log 7). -/
def bsMax : Nat := 8191

/-- DES0 bit 1, the source's "hold" (30_encoding.md R135; PRESUMED, 93 IMP5 and IMP6, log 7). -/
def desDic : Word := 0x00000002

/-- DES0 bit 2, "last-descriptor" (30_encoding.md R135; log 7). -/
def desLd : Word := 0x00000004

/-- DES0 bit 3, "first-segment" (30_encoding.md R135; log 7). -/
def desFs : Word := 0x00000008

/-- DES0 bit 4, "chain" (30_encoding.md R135; log 7). -/
def desCh : Word := 0x00000010

/-- DES0 bit 31, "ownership flag" (30_encoding.md R135; log 7). -/
def desOwn : Word := 0x80000000

/-- The buffer length of DES1: BS1, bits [12:0] (30_encoding.md R135). -/
def desLength (des1 : Word) : Nat := (des1.extractLsb' 0 13).toNat

/-- DES0 of descriptor i of n (43_dma_builder.md R313 to R315). -/
def des0Word (first last : Bool) : Word :=
  desOwn ||| (if last then 0 else desCh ||| desDic) ||| (if first then desFs else 0)
    ||| (if last then desLd else 0)

end Sys2Proof.Machine
end

