-- ==== Sys2Proof/Decode.lean ====
section
/-! DEFINITION. Decoding: from a word of each of the three formats of spec/opcode_table.json to an
instruction, or a rejection by name; and after it the encoder, from the same encoding tables. -/

namespace Sys2Proof

open Machine

/-- Why a word spells no instruction. -/
inductive Reject where
  /-- `op` is 0x0, 0xE or 0xF (30_encoding.md R113). -/
  | reservedOp
  /-- `req_ctl[31:14] ≠ 0` (30_encoding.md R113). -/
  | reservedBits
  /-- `dir = 3` (30_encoding.md R113). -/
  | reservedDir
  /-- A field the operation does not use is not 0 (30_encoding.md R113). -/
  | unusedField
  /-- The shape flags of a command word are none of 40_command_encoder.md R165. -/
  | foreignShape
  /-- The other flags of a command word are none of the groups of 40_command_encoder.md R162 with the
  always-on flags of R164, nor those of 30_encoding.md R122. -/
  | foreignFlags
  /-- A DES0 word that is none of the forms of 30_encoding.md R136. -/
  | foreignDescriptor
  deriving DecidableEq, Repr

/-! ## The request word -/

/-- The shape of a shape code (30_encoding.md R114). -/
def Shape.ofCode (c : BitVec 2) : Shape :=
  if c = 0 then .none else if c = 1 then .shortCrc else if c = 2 then .long136 else .noCrc

/-- The direction of a direction code; 3 is reserved (30_encoding.md R115). -/
def Dir.ofCode (c : BitVec 2) : Option Dir :=
  if c = 0 then Option.some .none else if c = 1 then Option.some .read
  else if c = 2 then Option.some .write else Option.none

/-- The operation of an op code whose request word has no other field (30_encoding.md R112). -/
def plainOperation (op : Nat) : Option Instr :=
  match op with
  | 0x1 => some .init
  | 0x4 => some .classify
  | 0x5 => some .extract
  | 0x6 => some .updclk
  | 0x7 => some .setclk
  | 0x8 => some .setwidth
  | 0x9 => some .cfgbus
  | 0xA => some .build
  | 0xB => some .prepare
  | 0xC => some .read
  | 0xD => some .write
  | _ => none

/-- What a request word spells (30_encoding.md R111 to R113). -/
def decodeRequest (w : Word) : Except Reject Instr :=
  let op := (w.extractLsb' 0 4).toNat
  let idx := (w.extractLsb' 4 6).toNat
  let shape := w.extractLsb' 10 2
  let dir := w.extractLsb' 12 2
  if w.extractLsb' 14 18 ≠ 0 then .error .reservedBits
  else match Dir.ofCode dir with
    | none => .error .reservedDir
    | some d =>
      if op = 0x2 then
        if dir = 0 then .ok (.encode idx (Shape.ofCode shape)) else .error .unusedField
      else if op = 0x3 then .ok (.sendcmd idx (Shape.ofCode shape) d)
      else match plainOperation op with
        | none => .error .reservedOp
        | some i => if idx = 0 ∧ shape = 0 ∧ dir = 0 then .ok i else .error .unusedField

/-! ## The command word -/

/-- The shape whose flags a command word carries (40_command_encoder.md R165). -/
def shapeOfWord (b : CmdBits) (w : Word) : Option Shape :=
  match anySet w (bit b.respExpect), anySet w (bit b.respLong), anySet w (bit b.checkCrc) with
  | false, false, false => some .none
  | true, false, true => some .shortCrc
  | true, true, true => some .long136
  | true, false, false => some .noCrc
  | _, _, _ => none

/-- The class whose flags a command word carries (40_command_encoder.md R162). A word with flags of no
class gives a class that `decodeCommand`'s last comparison then rejects. -/
def classOfWord (b : CmdBits) (w : Word) : CmdClass :=
  if anySet w (bit b.sendInit) then .init
  else if anySet w (bit b.stopAbort) then .stop
  else if anySet w (bit b.write) then .write
  else if anySet w (bit b.dataExpected) then .read
  else if anySet w (bit b.waitPrvdata) then .status
  else .other

/-- The instruction of a command word of a class (40_command_encoder.md R171). -/
def commandInstr (cls : CmdClass) (idx : Nat) (shape : Shape) : Instr :=
  match cls with
  | .init => .cmdwInit idx shape
  | .stop => .cmdwStop idx shape
  | .status => .cmdwStatus idx shape
  | .read => .cmdwRead idx shape
  | .write => .cmdwWrite idx shape
  | .other => .cmdwOther idx shape

/-- What a word written to CMD spells (40_command_encoder.md R171: "a decoder recovers (class group, shape,
idx) from the word alone"; 30_encoding.md R122). No bit outside the groups may be set. -/
def decodeCommand (b : CmdBits) (w : Word) : Except Reject Instr :=
  if w = hsWord b then .ok .cmdwHs
  else match shapeOfWord b w with
    | none => .error .foreignShape
    | some shape =>
      let cls := classOfWord b w
      let idx := (w.extractLsb' 0 6).toNat
      if w = commandWord b cls shape idx then .ok (commandInstr cls idx shape)
      else .error .foreignFlags

/-! ## The first word of a descriptor -/

/-- What a DES0 word spells (30_encoding.md R136). -/
def decodeDes0 (w : Word) : Except Reject Instr :=
  if w = des0Word true false then .ok .des0First
  else if w = des0Word false false then .ok .des0Middle
  else if w = des0Word false true then .ok .des0Last
  else if w = des0Word true true then .ok .des0Single
  else .error .foreignDescriptor

/-! ## All formats together -/

/-- What a word of the opcode table spells, under the default layouts: bit 31 is clear in every request word
(30_encoding.md R113) and set in every command word and DES0 word (R123, R136). -/
def decode (w : Word) : Except Reject Instr :=
  if w.extractLsb' 31 1 = 0 then decodeRequest w
  else match decodeDes0 w with
    | .ok i => .ok i
    | .error _ => decodeCommand defaultCmdBits w

/-- The instruction the decoder reads from a table row's word of `nbits` bits (every bit above is 0). -/
def decodeTableWord (nbits w : Nat) : Option Instr :=
  if nbits ≤ 32 then (decode (BitVec.ofNat 32 (w % 2 ^ nbits))).toOption else none

/-! ## The encoder -/

/-- The shape code (30_encoding.md R114). -/
def Shape.toCode : Shape → BitVec 2
  | .none => 0
  | .shortCrc => 1
  | .long136 => 2
  | .noCrc => 3

/-- The direction code (30_encoding.md R115). -/
def Dir.toCode : Dir → BitVec 2
  | .none => 0
  | .read => 1
  | .write => 2

/-- `{18'b0, dir[1:0], shape[1:0], idx[5:0], op[3:0]}` (30_encoding.md R147). -/
def requestWord (dir shape : BitVec 2) (idx : Nat) (op : BitVec 4) : Word :=
  0#18 ++ dir ++ shape ++ BitVec.ofNat 6 idx ++ op

/-- The word of an instruction: its request word (30_encoding.md R112, R147), its command word
(40_command_encoder.md R171, 30_encoding.md R122) under the default layout, or its DES0 (R136). -/
def encode : Instr → Word
  | .init => requestWord 0 0 0 0x1
  | .encode idx shape => requestWord 0 shape.toCode idx 0x2
  | .sendcmd idx shape dir => requestWord dir.toCode shape.toCode idx 0x3
  | .classify => requestWord 0 0 0 0x4
  | .extract => requestWord 0 0 0 0x5
  | .updclk => requestWord 0 0 0 0x6
  | .setclk => requestWord 0 0 0 0x7
  | .setwidth => requestWord 0 0 0 0x8
  | .cfgbus => requestWord 0 0 0 0x9
  | .build => requestWord 0 0 0 0xA
  | .prepare => requestWord 0 0 0 0xB
  | .read => requestWord 0 0 0 0xC
  | .write => requestWord 0 0 0 0xD
  | .cmdwInit idx shape => commandWord defaultCmdBits .init shape idx
  | .cmdwStop idx shape => commandWord defaultCmdBits .stop shape idx
  | .cmdwStatus idx shape => commandWord defaultCmdBits .status shape idx
  | .cmdwRead idx shape => commandWord defaultCmdBits .read shape idx
  | .cmdwWrite idx shape => commandWord defaultCmdBits .write shape idx
  | .cmdwOther idx shape => commandWord defaultCmdBits .other shape idx
  | .cmdwHs => hsWord defaultCmdBits
  | .des0First => 0x8000001A
  | .des0Middle => 0x80000012
  | .des0Last => 0x80000004
  | .des0Single => 0x8000000C

end Sys2Proof
end

