-- ==== Sys2Proof/Machine/Memory.lean ====
section
/-! DEFINITION. System memory (20_memory.md R80) as a list of cells in one canonical form, the record of
bytes not yet cleaned (10_state.md R70), and the one place that fixes the byte order. -/

namespace Sys2Proof.Machine

/-- The bytes of memory that something has written, addresses strictly rising. An address that is not
listed reads as no value (log 19). -/
abbrev Memory := List Host.Cell

namespace Memory

/-- The canonical form: addresses strictly rising. No entry can equal what an unlisted address reads as,
since that is no value. -/
abbrev wf (m : Memory) : Prop := m.Pairwise (fun a b => a.1 < b.1)

/-- The byte at an address, if anything has written it. -/
def read? : Memory → Nat → Option Byte
  | [], _ => none
  | (a, b) :: rest, x => if x = a then some b else read? rest x

/-- Store one byte. -/
def write : Memory → Nat → Byte → Memory
  | [], x, v => [(x, v)]
  | (a, b) :: rest, x, v =>
    if x < a then (x, v) :: (a, b) :: rest
    else if x = a then (a, v) :: rest
    else (a, b) :: write rest x v

end Memory

/-- The addresses whose last write has not been cleaned, strictly rising (20_memory.md R92, R97). -/
abbrev Dirty := List Nat

namespace Dirty

/-- The canonical form: strictly rising. -/
abbrev wf (d : Dirty) : Prop := d.Pairwise (· < ·)

/-- The byte at `x` has been written. -/
def mark : Dirty → Nat → Dirty
  | [], x => [x]
  | a :: rest, x =>
    if x < a then x :: a :: rest else if x = a then a :: rest else a :: mark rest x

/-- The bytes `[addr, addr+len)` have been cleaned. -/
def clean (d : Dirty) (addr len : Nat) : Dirty :=
  d.filter (fun a => ¬ (addr ≤ a ∧ a < addr + len))

end Dirty

/-! ## Byte order -/

/-- Byte k of a word holds bits [8k+7:8k] (20_memory.md R80: little-endian; PRESUMED, 93 IMP9, log 8). -/
def byteOf (w : Word) (k : Nat) : Byte := w.extractLsb' (8 * k) 8

/-- The word whose bytes, lowest address first, are these (20_memory.md R80). -/
def wordOf (b0 b1 b2 b3 : Byte) : Word := b3 ++ b2 ++ b1 ++ b0

end Sys2Proof.Machine
end

