-- ==== Sys2Proof/Machine/Registers.lean ====
section
/-! DEFINITION. The controller's register map (10_state.md R65) and what the block does with each register. -/

namespace Sys2Proof.Machine

/-- The registers of 10_state.md R65. -/
inductive CtlReg where
  | ctrl | pwren | clkdiv | clksrc | clkena | tmout | ctype | blksiz | bytcnt | intmask | cmdarg | cmd
  | resp0 | resp1 | resp2 | resp3 | rintsts | status | fifoth | bmod | dbaddr | fifo
  deriving DecidableEq, Repr

/-- A register's offset from the controller's base (10_state.md R65). -/
def CtlReg.offset : CtlReg → Nat
  | .ctrl => 0x00
  | .pwren => 0x04
  | .clkdiv => 0x08
  | .clksrc => 0x0c
  | .clkena => 0x10
  | .tmout => 0x14
  | .ctype => 0x18
  | .blksiz => 0x1c
  | .bytcnt => 0x20
  | .intmask => 0x24
  | .cmdarg => 0x28
  | .cmd => 0x2c
  | .resp0 => 0x30
  | .resp1 => 0x34
  | .resp2 => 0x38
  | .resp3 => 0x3c
  | .rintsts => 0x44
  | .status => 0x48
  | .fifoth => 0x4c
  | .bmod => 0x80
  | .dbaddr => 0x88
  | .fifo => 0x200

/-- The block reads this register (10_state.md R65). -/
def CtlReg.blockReads : CtlReg → Bool
  | .cmd | .resp0 | .resp1 | .resp2 | .resp3 | .rintsts | .status | .fifo => true
  | .ctrl | .pwren | .clkdiv | .clksrc | .clkena | .tmout | .ctype | .blksiz | .bytcnt | .intmask
  | .cmdarg | .fifoth | .bmod | .dbaddr => false

/-- The block writes this register (10_state.md R65). -/
def CtlReg.blockWrites : CtlReg → Bool
  | .clkdiv | .clksrc | .clkena | .ctype | .bytcnt | .cmdarg | .cmd | .rintsts | .dbaddr => true
  | .ctrl | .pwren | .tmout | .blksiz | .intmask | .resp0 | .resp1 | .resp2 | .resp3 | .status
  | .fifoth | .bmod | .fifo => false

end Sys2Proof.Machine
end

