-- ==== Sys2Proof/Machine/State.lean ====
section
/-! DEFINITION. The state of the machine: the block (10_state.md R30), its ports (30_encoding.md R110), and
what stands outside it: system memory, the controller and the DMA engine (00_scope.md R8). -/

namespace Sys2Proof.Machine

/-- The configuration registers but `cfg.busWidth` (10_state.md R31): INIT writes all of them at once. -/
structure Cfg where
  regBase    : DWord
  descBase   : Word
  descSize   : Word
  srcClkHz   : Word
  dmaCapable : Bool
  fifoDepth  : Word
  blockSize  : Word
  chunkMax   : Word
  initClkHz  : Word
  initWidth  : BitVec 4
  deriving DecidableEq, Repr

/-- The record `cfg_in` on the request port (44_facade_transfer.md R350). Its `dmaCapable` is wider than the
register, so that check 8 of R351 can fail (log 12). -/
structure CfgIn where
  regBase    : DWord
  descBase   : Word
  descSize   : Word
  srcClkHz   : Word
  dmaCapable : Word
  fifoDepth  : Word
  blockSize  : Word
  chunkMax   : Word
  initClkHz  : Word
  initWidth  : BitVec 4
  deriving DecidableEq, Repr

/-- One request on the request port (30_encoding.md R110). -/
structure Request where
  ctl   : Word
  a     : DWord
  b     : DWord
  c     : DWord
  cfgIn : CfgIn
  deriving DecidableEq, Repr

/-- The result codes (30_encoding.md R117). -/
inductive ResultCode where
  | ok | configError | fatalTimeout | hardwareError | invalidArgument | notSupported | illegalRequest
  deriving DecidableEq, Repr

/-- The response port while `rsp_valid = 1` (30_encoding.md R118). -/
structure Response where
  code   : ResultCode
  value  : DWord
  status : Word
  count  : RespCount
  words  : Vector Word 4
  deriving DecidableEq, Repr

/-- The values of `fsm.state` (10_state.md R40). -/
inductive Fsm where
  | idle | busyWait | issue | pollCompletion | readResponse | exec | halted
  deriving DecidableEq, Repr

/-- The 4-bit code of a sequencer state (10_state.md R40). -/
def Fsm.code : Fsm → BitVec 4
  | .idle => 0x0
  | .busyWait => 0x1
  | .issue => 0x2
  | .pollCompletion => 0x3
  | .readResponse => 0x4
  | .exec => 0x5
  | .halted => 0xF

/-- The 3-bit code of a result (30_encoding.md R117). -/
def ResultCode.code : ResultCode → BitVec 3
  | .ok => 0
  | .configError => 1
  | .fatalTimeout => 2
  | .hardwareError => 3
  | .invalidArgument => 4
  | .notSupported => 5
  | .illegalRequest => 6

/-- The events of the history (20_memory.md R86, and `Delay` of 70_reset_and_hazards.md R470: log 15). A
register access is at `base + r.offset` (R81), with `base` the `cfg.regBase` of its time. -/
inductive Event where
  | regRead (base : DWord) (r : CtlReg) (v : Word)
  | regWrite (base : DWord) (r : CtlReg) (v : Word)
  | memRead (addr n : Nat) (v : Word)
  | memWrite (addr n : Nat) (v : Word)
  | barrier
  | cacheClean (addr len : Nat)
  | delay (ticks : Nat)
  deriving DecidableEq, Repr

/-- The values last written to the controller's registers (95_test_vectors.md P1: "The controller was last
written with ..."). A register READ never gives them: it is a draw (10_state.md R66). -/
structure CtlRegs where
  clkdiv : Latch Word
  clksrc : Latch Word
  clkena : Latch Word
  ctype  : Latch Word
  bytcnt : Latch Word
  cmdarg : Latch Word
  cmd    : Latch Word
  dbaddr : Latch Word
  deriving DecidableEq, Repr

/-- A command or clock update that a CMD write with START has started (20_memory.md R87), with the registers
as they stood at that write and whether the block was in DMA mode (log 16). -/
structure Started where
  word : Word
  regs : CtlRegs
  dma  : Bool
  deriving DecidableEq, Repr

/-- The clock registers the controller has taken up through the handshake (20_memory.md R87). -/
structure ClockRegs where
  div : Latch Word
  src : Latch Word
  ena : Latch Word
  deriving DecidableEq, Repr

/-- One bus transaction, triggered by a command word with its argument (00_scope.md R16). -/
structure BusCommand where
  word : Word
  arg  : Latch Word
  deriving DecidableEq, Repr

/-- The storage controller (00_scope.md R8, agent 2). -/
structure Controller where
  regs    : CtlRegs
  pending : Latch Word
  started : List Started
  clock   : ClockRegs
  bus     : List BusCommand
  deriving DecidableEq, Repr

/-- The controller's DMA engine (00_scope.md R8, agent 3): the address of the descriptor it fetches next
(absent: it is not running), its direction (`toDevice` for a write transfer), and the bytes it has sent to
the device, oldest first. -/
structure Engine where
  cur      : Option Nat
  toDevice : Bool
  sent     : List Byte
  deriving DecidableEq, Repr

/-- The machine. INVENTORY.md, section State, names the rule of every field. -/
structure State where
  params      : Params
  cfg         : Latch Cfg
  cfgValid    : Bool
  busWidth    : Latch (BitVec 4)
  clkDiv      : Latch (BitVec 8)
  clkEnabled  : Latch Bool
  fsm         : Fsm
  halted      : Bool
  reqCtl      : Latch Word
  reqA        : Latch DWord
  reqB        : Latch DWord
  reqC        : Latch DWord
  cnt         : Latch Word
  cmdWord     : Latch Word
  cmdData     : Latch Bool
  pollCmdDone : Latch Bool
  pollDto     : Latch Bool
  rspCount    : RespCount
  rspWords    : Vector (Latch Word) 4
  errStatus   : Latch Word
  chainCount  : Latch Word
  resp        : Option Response
  rst         : Option Nat
  reqs        : List Request
  cfgIn       : CfgIn
  answers     : List Word
  draws       : Nat
  dmaData     : List Word
  dmaDraws    : Nat
  sched       : List Agent
  mem         : Memory
  dirty       : Dirty
  ctl         : Controller
  dma         : Engine
  hist        : List Event
  trace       : List Fsm
  deriving DecidableEq, Repr

/-- The state elements an operation reads that can be UNKNOWN (00_scope.md R15). -/
inductive Element where
  | cfg | reqA | reqB | reqC | rspWords
  deriving DecidableEq, Repr

/-- Why the machine stops with a fault. -/
inductive Fault where
  /-- Raised by a step of the block in HALTED with no reset coming: "A model gives the block no step in
  HALTED: the block is stuck, and the run is not final" (10_state.md R44, 93 U8). Safe: the block of the
  spec takes no step either. -/
  | blockHalted
  /-- Raised where an operation would read an UNKNOWN element (00_scope.md R15, 93 U7). Safe: a stop. No
  operation does so in a state that a run reaches (70_reset_and_hazards.md R451). -/
  | unknownRead (e : Element)
  deriving DecidableEq, Repr

/-- Why the machine has no meaning for what it fetched. -/
inductive Refusal where
  /-- Raised by exec for an instruction without a meaning. Safe: a stop. No arm of exec raises it now. -/
  | notModelled (mnemonic : String)
  /-- Raised when the controller takes up a started CMD word that is none of the forms of
  40_command_encoder.md R171 or 30_encoding.md R122: the spec gives no effect (93 U18). Safe: a stop. -/
  | foreignCommand
  /-- Raised when the DMA engine fetches a DES0 word that is none of the four forms of 30_encoding.md R136
  (OWN clear among them): "The environment's DMA-engine agent decides" (93 U6). Safe: a stop. -/
  | foreignDescriptor
  deriving DecidableEq, Repr

/-- The machine's three outcomes. -/
abbrev Out := Host.Outcome State Fault Refusal

/-- A cfg record of zeros: it only fills the UNKNOWN cell (log 3). -/
def Cfg.zeros : Cfg := ⟨0, 0, 0, 0, false, 0, 0, 0, 0, 0⟩

/-- The `cfg_in` wires with nothing driven (log 29). -/
def CfgIn.zeros : CfgIn := ⟨0, 0, 0, 0, 0, 0, 0, 0, 0, 0⟩

/-- The controller before anything has written it: no source gives a value (10_state.md R66). -/
def Controller.initial : Controller where
  regs := ⟨.unknown 0, .unknown 0, .unknown 0, .unknown 0, .unknown 0, .unknown 0, .unknown 0,
    .unknown 0⟩
  pending := .unknown 0
  started := []
  clock := ⟨.unknown 0, .unknown 0, .unknown 0⟩
  bus := []

/-- The machine right after reset: the values of 10_state.md R75; the fillers of UNKNOWN cells are log 3,
the parameters log 5 and log 6, the environment log 29. -/
def State.reset : State where
  params := defaultParams
  cfg := .unknown Cfg.zeros
  cfgValid := false
  busWidth := .unknown 0
  clkDiv := .unknown 0
  clkEnabled := .unknown false
  fsm := .idle
  halted := false
  reqCtl := .unknown 0
  reqA := .unknown 0
  reqB := .unknown 0
  reqC := .unknown 0
  cnt := .unknown 0
  cmdWord := .unknown 0
  cmdData := .unknown false
  pollCmdDone := .unknown false
  pollDto := .unknown false
  rspCount := .zero
  rspWords := #v[.unknown 0, .unknown 0, .unknown 0, .unknown 0]
  errStatus := .unknown 0
  chainCount := .unknown 0
  resp := none
  rst := none
  reqs := []
  cfgIn := CfgIn.zeros
  answers := []
  draws := 0
  dmaData := []
  dmaDraws := 0
  sched := []
  mem := []
  dirty := []
  ctl := Controller.initial
  dma := ⟨none, false, []⟩
  hist := []
  trace := []

end Sys2Proof.Machine
end

