-- ==== Sys2Proof/Machine/Ops.lean ====
section
/-! DEFINITION. The primitives of 00_scope.md R13, how an operation ends (60_exceptions.md R400), what a reset
does (70_reset_and_hazards.md R450), and the environment's draws. -/

namespace Sys2Proof.Machine

/-! ## How a procedure ends -/

/-- An error result with its information (60_exceptions.md R400 to R406). -/
inductive Err where
  | configError
  | fatalTimeout
  | hardwareError (status value : Word)
  | invalidArgument
  | notSupported
  | illegalRequest
  deriving DecidableEq, Repr

/-- The result code of an error (30_encoding.md R117). -/
def Err.code : Err → ResultCode
  | .configError => .configError
  | .fatalTimeout => .fatalTimeout
  | .hardwareError _ _ => .hardwareError
  | .invalidArgument => .invalidArgument
  | .notSupported => .notSupported
  | .illegalRequest => .illegalRequest

/-- `rsp_status` of an error: the raw status word for HARDWARE_ERROR and 0 otherwise (30_encoding.md R118). -/
def Err.status : Err → Word
  | .hardwareError status _ => status
  | .configError | .fatalTimeout | .invalidArgument | .notSupported | .illegalRequest => 0

/-- `rsp_value` of an error: 0, except for CLASSIFY (30_encoding.md R118, 41_command_dispatch.md R208). -/
def Err.value : Err → Word
  | .hardwareError _ value => value
  | .configError | .fatalTimeout | .invalidArgument | .notSupported | .illegalRequest => 0

/-- Why a procedure ended before its last event. -/
inductive Stop where
  /-- `raise E(info)` (00_scope.md R13). -/
  | raised (e : Err)
  /-- The reset input came (70_reset_and_hazards.md R450). -/
  | reset
  deriving DecidableEq, Repr

/-- What a procedure gives: its value, or why it stopped; and the state it leaves either way ("Nothing is
rolled back", 60_exceptions.md R400). -/
inductive Res (α : Type) where
  | ok (a : α) (s : State)
  | stop (e : Stop) (s : State)
  deriving DecidableEq, Repr

/-- One procedure after another; a stop of the first is the whole's. -/
def Res.bind {α β : Type} (r : Res α) (f : α → State → Res β) : Res β :=
  match r with
  | .ok a s => f a s
  | .stop e s => .stop e s

/-- One procedure after another that gives no value. -/
def Res.andThen {β : Type} (r : Res Unit) (f : State → Res β) : Res β := r.bind fun _ s => f s

/-- `raise E(info)` inside a procedure. -/
def raiseIn {α : Type} (e : Err) (s : State) : Res α := .stop (.raised e) s

/-- A procedure for each of the n numbers from `i` on, in order. -/
def forRange (body : Nat → State → Res Unit) : (i n : Nat) → State → Res Unit
  | _, 0, s => .ok () s
  | i, n + 1, s => (body i s).andThen fun t => forRange body (i + 1) n t

/-! ## Named updates -/

/-- `fsm.state <- f` (00_scope.md R14); the trace keeps every value given. -/
def State.setFsm (f : Fsm) (s : State) : State := { s with fsm := f, trace := s.trace ++ [f] }

/-- An event joins the history, in order (20_memory.md R86). -/
def State.record (e : Event) (s : State) : State := { s with hist := s.hist ++ [e] }

/-- `cnt <- 0` on entry to a loop (10_state.md R51). -/
def State.startCount (s : State) : State := { s with cnt := .holds 0 }

/-- `cnt <- cnt + 1`, once per poll read (10_state.md R51). -/
def State.count (s : State) : State := { s with cnt := s.cnt.map (· + 1) }

/-- `poll.cmdDoneCleared <- v` (10_state.md R54). -/
def State.setCmdDone (v : Bool) (s : State) : State := { s with pollCmdDone := .holds v }

/-- `poll.dtoCleared <- v` (10_state.md R54). -/
def State.setDto (v : Bool) (s : State) : State := { s with pollDto := .holds v }

/-- `err.status <- w` (10_state.md R56). -/
def State.setErrStatus (w : Word) (s : State) : State := { s with errStatus := .holds w }

/-- `cmd.word <- w` and `cmd.data <- data`, together (10_state.md R52, R53). -/
def State.setCommand (w : Word) (data : Bool) (s : State) : State :=
  { s with cmdWord := .holds w, cmdData := .holds data }

/-- `rsp.count <- n`, and the latches `rsp.words` (10_state.md R55). -/
def State.setResponse (n : RespCount) (ws : Vector (Latch Word) 4) (s : State) : State :=
  { s with rspCount := n, rspWords := ws }

/-- `clk.enabled <- v` (10_state.md R35). -/
def State.setClkEnabled (v : Bool) (s : State) : State := { s with clkEnabled := .holds v }

/-- `clk.div <- d` (10_state.md R34). -/
def State.setClkDiv (d : BitVec 8) (s : State) : State := { s with clkDiv := .holds d }

/-- `cfg.busWidth <- width` (10_state.md R31). -/
def State.setBusWidth (width : BitVec 4) (s : State) : State := { s with busWidth := .holds width }

/-- `chain.count <- n` (10_state.md R57). -/
def State.setChainCount (n : Word) (s : State) : State := { s with chainCount := .holds n }

/-- `cfg.* <- c`, `cfg.busWidth <- UNKNOWN` and `cfg.valid <- 1` (44_facade_transfer.md R350). -/
def State.setCfg (c : Cfg) (s : State) : State :=
  { s with cfg := .holds c, busWidth := s.busWidth.forget, cfgValid := true }

/-! ## Draws -/

/-- The environment's next answer: the head of State's list, or the free value when the list is used up
(20_memory.md R91; log 4). -/
def State.nextAnswer (s : State) : Word :=
  match s.answers with
  | a :: _ => a
  | [] => Config.answer s.draws

/-- The state after a draw. -/
def State.drawn (s : State) : State :=
  { s with answers := s.answers.tail, draws := s.draws + 1 }

/-- The DMA engine's next free value: the head of State's list for it, or the constant without a body when the
list is used up (93 U4, U6, U16; log 4). -/
def State.nextDatum (s : State) : Word :=
  match s.dmaData with
  | a :: _ => a
  | [] => Config.datum s.dmaDraws

/-- The state after a draw of the DMA engine. -/
def State.datumDrawn (s : State) : State :=
  { s with dmaData := s.dmaData.tail, dmaDraws := s.dmaDraws + 1 }

/-! ## Events and the reset input -/

/-- The coming reset is `n` moves of the block away (log 11). -/
def State.resetIn (n : Nat) (s : State) : State := { s with rst := some n }

/-- Before an event: if `rst` is asserted the operation is abandoned and the event does not happen;
otherwise one move less stands before the reset, if one is coming (70_reset_and_hazards.md R450; log 11). -/
def tick (s : State) : Res Unit :=
  match s.rst with
  | none => .ok () s
  | some 0 => .stop .reset s
  | some (n + 1) => .ok () (s.resetIn n)

/-- The last values written, after a write of `v` to a register the block writes (10_state.md R65). -/
def CtlRegs.write (r : CtlReg) (v : Word) (g : CtlRegs) : CtlRegs :=
  match r with
  | .clkdiv => { g with clkdiv := .holds v }
  | .clksrc => { g with clksrc := .holds v }
  | .clkena => { g with clkena := .holds v }
  | .ctype => { g with ctype := .holds v }
  | .bytcnt => { g with bytcnt := .holds v }
  | .cmdarg => { g with cmdarg := .holds v }
  | .cmd => { g with cmd := .holds v }
  | .dbaddr => { g with dbaddr := .holds v }
  | .ctrl | .pwren | .tmout | .blksiz | .intmask | .resp0 | .resp1 | .resp2 | .resp3 | .rintsts
  | .status | .fifoth | .bmod | .fifo => g

/-- The pending bits after a write to RINTSTS: each bit that is 1 in `v` is cleared, the others are left
alone (20_memory.md R87, 30_encoding.md R132; PRESUMED, 93 IMP3, log 9). -/
def clearBits (v : Word) (pending : Latch Word) : Latch Word :=
  if v = clearAll then .holds 0 else pending.map (· &&& ~~~v)

/-- The controller after a register write is performed (20_memory.md R87, R90): RINTSTS clears pending
bits, CMD with START starts a command or a clock update, and every other register takes the value. DESIGN CHOICE
(log 32): every HS_WORD written joins the commands started, one that then meets HLE, or that a FATAL_TIMEOUT cuts
off, among them; no rule says whether the controller still carries such a one out (00_scope.md R16, 93 U11). -/
def Controller.perform (start : Word) (dma : Bool) (r : CtlReg) (v : Word) (c : Controller) :
    Controller :=
  let regs := c.regs.write r v
  match r with
  | .rintsts => { c with pending := clearBits v c.pending }
  | .cmd =>
    { c with regs := regs, started := if anySet v start then c.started ++ [⟨v, regs, dma⟩] else c.started }
  | .ctrl | .pwren | .clkdiv | .clksrc | .clkena | .tmout | .ctype | .blksiz | .bytcnt | .intmask
  | .cmdarg | .resp0 | .resp1 | .resp2 | .resp3 | .status | .fifoth | .bmod | .dbaddr | .fifo =>
    { c with regs := regs }

/-- The controller after a register read gave `v`: the bits a read of RINTSTS shows have become pending, and those
that were pending stay so until they are cleared (10_state.md R71); a read of any other register leaves it
(20_memory.md R87; the FIFO's next word is the next draw). -/
def Controller.shown (r : CtlReg) (v : Word) (c : Controller) : Controller :=
  if r = .rintsts then { c with pending := c.pending.map (· ||| v) } else c

/-! ## The primitives of 00_scope.md R13 -/

/-- The state after a register read: its answer is drawn, and the event joins the history. -/
def State.readDone (c : Cfg) (r : CtlReg) (s : State) : State :=
  { s.drawn with
    ctl := s.ctl.shown r s.nextAnswer
    hist := s.hist ++ [.regRead c.regBase r s.nextAnswer] }

/-- The state after a register write: performed at the controller, and the event joins the history. -/
def State.writeDone (c : Cfg) (r : CtlReg) (v : Word) (s : State) : State :=
  { s with
    ctl := s.ctl.perform (bit s.params.cmdBits.start) c.dmaCapable r v
    hist := s.hist ++ [.regWrite c.regBase r v] }

/-- `RegRead(off)`: any 32-bit value (20_memory.md R91). -/
def regRead (c : Cfg) (r : CtlReg) (s : State) : Res Word :=
  (tick s).andThen fun t => .ok t.nextAnswer (t.readDone c r)

/-- `RegWrite(off, v)`: performed at the controller before the next event (20_memory.md R90). -/
def regWrite (c : Cfg) (r : CtlReg) (v : Word) (s : State) : Res Unit :=
  (tick s).andThen fun t => .ok () (t.writeDone c r v)

/-- Store one byte: the block and the CPU see it at once, the DMA engine only after a clean (20_memory.md
R92). -/
def State.storeByte (a : Nat) (b : Byte) (s : State) : State :=
  { s with mem := s.mem.write a b, dirty := Dirty.mark s.dirty a }

/-- Store the four bytes of a word, lowest address first (20_memory.md R80). -/
def State.storeWord (a : Nat) (w : Word) (s : State) : State :=
  (((s.storeByte a (byteOf w 0)).storeByte (a + 1) (byteOf w 1)).storeByte (a + 2) (byteOf w 2)).storeByte
    (a + 3) (byteOf w 3)

/-- `MemWrite(addr, 4, v)` (20_memory.md R85). -/
def memWrite (a : Nat) (w : Word) (s : State) : Res Unit :=
  (tick s).andThen fun t => .ok () ((t.storeWord a w).record (.memWrite a 4 w))

/-- The byte the block or the CPU reads (20_memory.md R92), a draw where nothing has written it (log 19). -/
def readByte (a : Nat) (s : State) : Byte × State :=
  match s.mem.read? a with
  | some b => (b, s)
  | none => (byteOf s.nextAnswer 0, s.drawn)

/-- `MemRead(addr, 4)` (00_scope.md R13). No operation of files 40 to 44 makes one. -/
def memRead (a : Nat) (s : State) : Res Word :=
  (tick s).andThen fun t =>
    let (b0, t) := readByte a t
    let (b1, t) := readByte (a + 1) t
    let (b2, t) := readByte (a + 2) t
    let (b3, t) := readByte (a + 3) t
    .ok (wordOf b0 b1 b2 b3) (t.record (.memRead a 4 (wordOf b0 b1 b2 b3)))

/-- `Barrier()` (20_memory.md R95): under R90 its guarantee already holds; it is a recorded event. -/
def barrier (s : State) : Res Unit :=
  (tick s).andThen fun t => .ok () (t.record .barrier)

/-- The state after a clean: every byte of the range is visible to the DMA engine (20_memory.md R97). -/
def State.cleanDone (a len : Nat) (s : State) : State :=
  { s with dirty := Dirty.clean s.dirty a len, hist := s.hist ++ [.cacheClean a len] }

/-- `CacheClean(addr, len)` (20_memory.md R97). -/
def cacheClean (a len : Nat) (s : State) : Res Unit :=
  (tick s).andThen fun t => .ok () (t.cleanDone a len)

/-- `Delay(POLL_DELAY)`: an event with no other effect (70_reset_and_hazards.md R470; log 15). -/
def delay (s : State) : Res Unit :=
  (tick s).andThen fun t => .ok () (t.record (.delay t.params.pollDelay))

/-! ## The response port, and how an operation ends -/

/-- `rsp_words[k]`: the latch below `rsp_count`, 0 at or above it (30_encoding.md R118). -/
def portWord (s : State) (k : Fin 4) : Option Word :=
  if k.val < s.rspCount.toNat then (s.rspWords[k]).read? else some 0

/-- The four words of the port; nothing if one that must be driven is UNKNOWN (00_scope.md R15). -/
def portWords (s : State) : Option (Vector Word 4) :=
  match portWord s 0, portWord s 1, portWord s 2, portWord s 3 with
  | some a, some b, some c, some d => some #v[a, b, c, d]
  | _, _, _, _ => none

/-- Drive the response port (30_encoding.md R118); a word it must drive that is UNKNOWN is a fault (00_scope.md R15). -/
def respond (code : ResultCode) (value : DWord) (status : Word) (s : State) : Out :=
  match portWords s with
  | none => .fault (.unknownRead .rspWords)
  | some ws =>
    .next { s with resp := some ⟨code, value, status, s.rspCount, ws⟩ }

/-- The reset event (70_reset_and_hazards.md R450): the block's state takes the values of 10_state.md R75;
the parameters, the ports' other inputs, and all that stands outside the block are kept; `rst` is released. -/
def resetEvent (s : State) : State :=
  { State.reset with
    params := s.params
    reqs := s.reqs
    cfgIn := s.cfgIn
    answers := s.answers
    draws := s.draws
    dmaData := s.dmaData
    dmaDraws := s.dmaDraws
    sched := s.sched
    mem := s.mem
    dirty := s.dirty
    ctl := s.ctl
    dma := s.dma
    hist := s.hist
    trace := s.trace ++ [.idle] }

/-- An operation is about to end: if `rst` is asserted it is abandoned and drives no response
(70_reset_and_hazards.md R450; log 11). -/
def unlessReset (s : State) (o : Out) : Out := if s.rst = some 0 then .next (resetEvent s) else o

/-- `finish(value)` (60_exceptions.md R400): code OK, and back to IDLE. -/
def finish (value : DWord) (s : State) : Out := unlessReset s (respond .ok value 0 (s.setFsm .idle))

/-- THE ONE WAY AN ERROR IS TAKEN, `raise E(info)` (60_exceptions.md R400, R415): the response port is driven;
`fsm.state` becomes HALTED, with `halted` set, for FATAL_TIMEOUT (10_state.md R44, R45) and IDLE otherwise. There
is no handler and no return from it (R416). -/
def raiseError (e : Err) (s : State) : Out :=
  unlessReset s (match e with
    | .fatalTimeout => respond e.code 0 e.status { s.setFsm .halted with halted := true }
    | .configError | .hardwareError _ _ | .invalidArgument | .notSupported | .illegalRequest =>
      respond e.code (e.value.setWidth 64) e.status (s.setFsm .idle))

/-- How an operation ends: `finish`, `raise`, or a reset that abandons it without a response. -/
def endOp (r : Res DWord) : Out :=
  match r with
  | .ok value s => finish value s
  | .stop (.raised e) s => raiseError e s
  | .stop .reset s => .next (resetEvent s)

end Sys2Proof.Machine
end

