-- ==== Sys2Proof/Machine/Operands.lean ====
section
/-! DEFINITION. Every operand form: the latches (30_encoding.md R116), the configuration, and the check that
INIT has run (44_facade_transfer.md R358); and the arithmetic the operations do on operands. -/

namespace Sys2Proof.Machine

/-- A 32-bit operand: bits [31:0], as an unsigned integer; bits [63:32] are ignored (30_encoding.md R116). -/
def low32 (x : DWord) : Word := x.setWidth 32

/-- The operand latch A (10_state.md R50); while it is UNKNOWN a read of it is a fault (00_scope.md R15). -/
def withA (s : State) (f : DWord → Out) : Out :=
  match s.reqA.read? with
  | some a => f a
  | none => .fault (.unknownRead .reqA)

/-- The operand latch B (10_state.md R50); while it is UNKNOWN a read of it is a fault (00_scope.md R15). -/
def withB (s : State) (f : DWord → Out) : Out :=
  match s.reqB.read? with
  | some b => f b
  | none => .fault (.unknownRead .reqB)

/-- The operand latch C (10_state.md R50); while it is UNKNOWN a read of it is a fault (00_scope.md R15). -/
def withC (s : State) (f : DWord → Out) : Out :=
  match s.reqC.read? with
  | some c => f c
  | none => .fault (.unknownRead .reqC)

/-- The configuration, for every operation but INIT and CLASSIFY: "While `cfg.valid = 0`, every request
except INIT and CLASSIFY ends with CONFIG_ERROR" (44_facade_transfer.md R358), before every other check. A read of an
UNKNOWN configuration is a fault (00_scope.md R15); INIT writes it before `cfg.valid` is 1. -/
def withCfg (s : State) (f : Cfg → Out) : Out :=
  if s.cfgValid then
    match s.cfg.read? with
    | some c => f c
    | none => .fault (.unknownRead .cfg)
  else raiseError .configError s

/-- An operation of files 42 to 44, and EXTRACT: once it is accepted with `cfg.valid = 1` it enters EXEC, before
its own checks (10_state.md R42); a request before INIT leaves `fsm.state` in IDLE (44_facade_transfer.md R358). -/
def inExec (s : State) (f : Cfg → State → Out) : Out := withCfg s fun c => f c (s.setFsm .exec)

/-- `ceil(a / b)` for b ≥ 1 (00_scope.md R12). -/
def ceilDiv (a b : Nat) : Nat := (a + b - 1) / b

/-- `divisor(src, target)` (42_clock_controller.md R270): the least d in [1, 255] with `src / (2d) ≤ target`,
integer division; nothing for target 0 or where there is none. -/
def divisor (src target : Nat) : Option Nat :=
  if target = 0 then none
  else (List.range' 1 255).find? (fun d => decide (src / (2 * d) ≤ target))

end Sys2Proof.Machine
end

