-- ==== Sys2Proof/Machine/Bus.lean ====
section
/-! DEFINITION. The command words as the storage controller carries them out (00_scope.md R8, agent 2;
20_memory.md R87; log 16). -/

namespace Sys2Proof.Machine

/-- The DMA engine runs from the descriptor at `a` on. -/
def State.engineFrom (toDevice : Bool) (a : Nat) (s : State) : State :=
  { s with dma := { s.dma with cur := some a, toDevice := toDevice } }

/-- The DMA engine starts at the chain base the controller was given (41_command_dispatch.md R202: "with it
the DMA engine for a data-carrying command in DMA mode"; 43_dma_builder.md R318). A base that was never
written is the controller's own value, a draw (10_state.md R66). -/
def startEngine (toDevice : Bool) (base : Latch Word) (s : State) : State :=
  match base.read? with
  | some a => s.engineFrom toDevice a.toNat
  | none => s.datumDrawn.engineFrom toDevice s.nextDatum.toNat

/-- A started command leaves the controller's list. -/
def takeStarted (rest : List Started) (s : State) : State :=
  { s with ctl := { s.ctl with started := rest } }

/-- A bus transaction is triggered. -/
def State.joinBus (k : BusCommand) (s : State) : State :=
  { s with ctl := { s.ctl with bus := s.ctl.bus ++ [k] } }

/-- The controller takes up the clock registers as they stood in `g`. -/
def State.takeClock (g : CtlRegs) (s : State) : State :=
  { s with ctl := { s.ctl with clock := ⟨g.clkdiv, g.clksrc, g.clkena⟩ } }

/-- A command word is "written to trigger one bus transaction" (00_scope.md R16): the transaction joins the
bus record with the argument that stood in CMDARG (70_reset_and_hazards.md R460), and a data-carrying word in
DMA mode starts the engine. -/
def triggered (w : Word) (k : Started) (s : State) : State :=
  let t := s.joinBus ⟨w, k.regs.cmdarg⟩
  if k.dma && dataCarrying s.params.cmdBits w then
    startEngine (anySet w (bit s.params.cmdBits.write)) k.regs.dbaddr t
  else t

/-- The controller carries the oldest command started out, as the word of this class, index and shape. Where no
command has been started there is none to carry out. -/
def carryOut (cls : CmdClass) (idx : Nat) (shape : Shape) (s : State) : Out :=
  match s.ctl.started with
  | [] => .next s
  | k :: rest => .next (triggered (commandWord s.params.cmdBits cls shape idx) k (takeStarted rest s))

/-- The controller carries a started command out, whatever its word: HS_WORD takes the clock registers up, and any
other word triggers a transaction. -/
def carryOne (k : Started) (s : State) : State :=
  if k.word = hsWord s.params.cmdBits then s.takeClock k.regs else triggered k.word k s

/-- The controller carries started commands out, the oldest first (20_memory.md R90). -/
def carryAll : List Started → State → State
  | [], s => s
  | k :: rest, s => carryAll rest (carryOne k s)

/-- The controller has carried out every command started: the block has seen START clear, or CMD_DONE (log 33). -/
def State.carriedOut (s : State) : State := carryAll s.ctl.started (takeStarted [] s)

/-- CMDW.INIT (40_command_encoder.md R171). -/
def execCmdwInit (idx : Nat) (shape : Shape) (s : State) : Out := carryOut .init idx shape s

/-- CMDW.STOP (40_command_encoder.md R171). -/
def execCmdwStop (idx : Nat) (shape : Shape) (s : State) : Out := carryOut .stop idx shape s

/-- CMDW.STATUS (40_command_encoder.md R171). -/
def execCmdwStatus (idx : Nat) (shape : Shape) (s : State) : Out := carryOut .status idx shape s

/-- CMDW.READ (40_command_encoder.md R171): data-carrying, from the device to memory. -/
def execCmdwRead (idx : Nat) (shape : Shape) (s : State) : Out := carryOut .read idx shape s

/-- CMDW.WRITE (40_command_encoder.md R171): data-carrying, from memory to the device. -/
def execCmdwWrite (idx : Nat) (shape : Shape) (s : State) : Out := carryOut .write idx shape s

/-- CMDW.OTHER (40_command_encoder.md R171). -/
def execCmdwOther (idx : Nat) (shape : Shape) (s : State) : Out := carryOut .other idx shape s

/-- CMDW.HS (30_encoding.md R122): "an internal zero-data command". "Writes to CLKDIV, CLKENA and CLKSRC are
taken up by the controller through the update-clock handshake" (20_memory.md R87; log 16, log 32). -/
def execCmdwHs (s : State) : Out :=
  match s.ctl.started with
  | [] => .next s
  | k :: rest => .next ((takeStarted rest s).takeClock k.regs)

end Sys2Proof.Machine
end

