-- ==== Sys2Proof/Machine/Encoder.lean ====
section
/-! DEFINITION. The command word encoder: ENCODE (40_command_encoder.md R170). -/

namespace Sys2Proof.Machine

/-- ENCODE: the encoder alone (40_command_encoder.md R170). No access and no state but the response port. -/
def execEncode (idx : Nat) (shape : Shape) (s : State) : Out :=
  withCfg s fun c =>
    match encodeCommand s.params idx shape c.dmaCapable with
    | none => raiseError .notSupported s
    | some w => finish (w.setWidth 64) s

end Sys2Proof.Machine
end

