-- ==== Sys2Proof/Machine/Engine.lean ====
section
/-! DEFINITION. The descriptors as the DMA engine consumes them (00_scope.md R8, agent 3; R16 "DMA descriptor
chain"; 20_memory.md R97; log 17). -/

namespace Sys2Proof.Machine

/-- What the DMA engine reads at an address: the last write's byte if it has been cleaned, and any value (a
draw) if it has not, or if nothing has written the byte (20_memory.md R97, 93 U4; log 19, log 20). -/
def engineByte (a : Nat) (s : State) : Byte × State :=
  if s.dirty.contains a then (byteOf s.nextDatum 0, s.datumDrawn)
  else match s.mem.read? a with
    | some b => (b, s)
    | none => (byteOf s.nextDatum 0, s.datumDrawn)

/-- A word as the DMA engine reads it, little-endian (20_memory.md R80). -/
def engineWord (a : Nat) (s : State) : Word × State :=
  let (b0, s) := engineByte a s
  let (b1, s) := engineByte (a + 1) s
  let (b2, s) := engineByte (a + 2) s
  let (b3, s) := engineByte (a + 3) s
  (wordOf b0 b1 b2 b3, s)

/-- The engine stores a byte in memory. A byte whose last write on the CPU side has not been cleaned keeps that
write's value, which the next clean writes back over the engine's (20_memory.md R97; log 20). -/
def State.engineStore (a : Nat) (b : Byte) (s : State) : State :=
  { s with mem := if s.dirty.contains a then s.mem else s.mem.write a b }

/-- A read transfer: n bytes of the device's data, any values (93 U16), land at `a` on. -/
def receiveBytes : (a n : Nat) → State → State
  | _, 0, s => s
  | a, n + 1, s => receiveBytes (a + 1) n (s.datumDrawn.engineStore a (byteOf s.nextDatum 0))

/-- The engine sends a byte to the device. -/
def State.engineSend (b : Byte) (s : State) : State :=
  { s with dma := { s.dma with sent := s.dma.sent ++ [b] } }

/-- The engine's place: the descriptor it fetches next, or none when it stops. -/
def State.engineAt (cur : Option Nat) (s : State) : State := { s with dma := { s.dma with cur := cur } }

/-- A write transfer: n bytes from `a` on, as the engine reads them, go to the device. -/
def sendBytes : (a n : Nat) → State → State
  | _, 0, s => s
  | a, n + 1, s =>
    let (b, t) := engineByte a s
    sendBytes (a + 1) n (t.engineSend b)

/-- What becomes of OWN once the descriptor at `a` has been used is the engine's (93 U6): a draw says whether
it stays set. The rest of DES0's top byte is 0 in all four forms (30_encoding.md R136; log 18). -/
def releaseDescriptor (a : Nat) (s : State) : State :=
  s.datumDrawn.engineStore (a + 3) (if s.nextDatum.getLsbD 31 then 0x80 else 0x00)

/-- The pending bits after the engine "signals completion through RINTSTS" (00_scope.md R8): DTO is set. -/
def State.signalDone (s : State) : State :=
  { s with ctl := { s.ctl with pending := s.ctl.pending.map (· ||| bit s.params.intBits.dto) } }

/-- The engine uses the descriptor at `a` (00_scope.md R16): it moves the segment DES1 and DES2 name, then goes to
DES3 when the descriptor is chained, or stops when it is the last (30_encoding.md R135). DESIGN CHOICE: it moves every
length of the chain and never looks at BYTCNT; whether the total of 10_state.md R65 limits it the spec does not say
(log 17). -/
def useDescriptor (chained : Bool) (a : Nat) (s : State) : State :=
  let (des1, t) := engineWord (a + 4) s
  let (des2, t) := engineWord (a + 8) t
  let (des3, t) := engineWord (a + 12) t
  let n := desLength des1
  let t := if t.dma.toDevice then sendBytes des2.toNat n t else receiveBytes des2.toNat n t
  (releaseDescriptor a t).engineAt (if chained then some des3.toNat else none)

/-- The engine consumes the descriptor it is at; with the last one it signals completion (00_scope.md R8). An
engine that is not running consumes none. -/
def consume (chained : Bool) (s : State) : Out :=
  match s.dma.cur with
  | none => .next s
  | some a =>
    let t := useDescriptor chained a s
    .next (if chained then t else t.signalDone)

/-- Whether a DES0 word is one that chains on, or one that ends its chain; a word that is none of the four forms of
30_encoding.md R136 is neither. -/
def chainsOn (w : Word) : Option Bool :=
  if w = des0Word true false ∨ w = des0Word false false then some true
  else if w = des0Word false true ∨ w = des0Word true true then some false
  else none

/-- The engine runs on to the end of its chain, over at most `limit` descriptors, and stops. At a word that is no
descriptor it stops there (93 U6; log 33). -/
def runEngine : (limit : Nat) → State → State
  | 0, s => s.engineAt none
  | limit + 1, s =>
    match s.dma.cur with
    | none => s
    | some a =>
      let (w, t) := engineWord a s
      match chainsOn w with
      | some true => runEngine limit (useDescriptor true a t)
      | some false => useDescriptor false a t
      | none => t.engineAt none

/-- The transfer of a data-carrying command in DMA mode is over: the block has seen the DTO with which the engine
signals completion (00_scope.md R8), "so its transfer is over" (70_reset_and_hazards.md R466). No chain in the ring
has more descriptors than the ring holds (43_dma_builder.md R311; log 33). -/
def State.transferOver (c : Cfg) (s : State) : State := runEngine (c.descSize.toNat / descBytes) s

/-- DES0.FIRST (30_encoding.md R136): the first of several, CH set. -/
def execDes0First (s : State) : Out := consume true s

/-- DES0.MIDDLE (30_encoding.md R136): CH set. -/
def execDes0Middle (s : State) : Out := consume true s

/-- DES0.LAST (30_encoding.md R136): LD set, CH clear. -/
def execDes0Last (s : State) : Out := consume false s

/-- DES0.SINGLE (30_encoding.md R136): first and last, CH clear. -/
def execDes0Single (s : State) : Out := consume false s

end Sys2Proof.Machine
end

