-- ==== Sys2Proof/Machine/Chain.lean ====
section
/-! DEFINITION. The DMA descriptor-chain builder: BUILD (43_dma_builder.md). -/

namespace Sys2Proof.Machine

/-- How many descriptors a transfer has (43_dma_builder.md R310). -/
def chainLength (size chunk : Nat) : Nat := ceilDiv size chunk

/-- The builder's checks in their order (43_dma_builder.md R312, then R311); every one that fails gives
CONFIG_ERROR. -/
def chainAccepted (c : Cfg) (buf size chunk : Nat) : Bool :=
  if chunk = 0 ∨ chunk > bsMax then false
  else if size = 0 then false
  else if buf + size > 2 ^ Config.dmaAddrBits then false
  else if descBytes * chainLength size chunk > c.descSize.toNat then false
  else true

/-- The four words of a descriptor (30_encoding.md R135). -/
structure Descriptor where
  des0 : Word
  des1 : Word
  des2 : Word
  des3 : Word
  deriving DecidableEq, Repr

/-- The address of descriptor i (43_dma_builder.md R317). -/
def descAddr (c : Cfg) (i : Nat) : Nat := c.descBase.toNat + descBytes * i

/-- Descriptor i of n (43_dma_builder.md R313 to R317). -/
def descriptor (c : Cfg) (buf size chunk n i : Nat) : Descriptor :=
  let last := i + 1 == n
  { des0 := des0Word (i == 0) last
    des1 := BitVec.ofNat 32 (if last then size - i * chunk else chunk)
    des2 := BitVec.ofNat 32 (buf + i * chunk)
    des3 := if last then 0 else BitVec.ofNat 32 (descAddr c i + descBytes) }

/-- The four writes of a descriptor, DES0 to DES3 (43_dma_builder.md R321). -/
def writeDescriptor (a : Nat) (d : Descriptor) (s : State) : Res Unit :=
  (memWrite a d.des0 s).andThen fun s =>
  (memWrite (a + 4) d.des1 s).andThen fun s =>
  (memWrite (a + 8) d.des2 s).andThen fun s =>
  memWrite (a + 12) d.des3 s

/-- `buildChain(buf, size, C)` (43_dma_builder.md R321); gives `chain.count`. -/
def buildChain (c : Cfg) (buf size chunk : Nat) (s : State) : Res Nat :=
  if chainAccepted c buf size chunk then
    let n := chainLength size chunk
    (forRange (fun i => writeDescriptor (descAddr c i) (descriptor c buf size chunk n i)) 0 n s).andThen
      fun s =>
    (regWrite c .dbaddr c.descBase s).andThen fun s =>
    (cacheClean c.descBase.toNat (descBytes * n) s).andThen fun s =>
    .ok n (s.setChainCount (BitVec.ofNat 32 n))
  else raiseIn .configError s

/-- BUILD (43_dma_builder.md R321). -/
def execBuild (s : State) : Out :=
  inExec s fun c s => withA s fun a => withB s fun b => withC s fun k =>
    endOp ((buildChain c a.toNat b.toNat k.toNat s).bind fun n t =>
      .ok (BitVec.ofNat 64 n) t)

end Sys2Proof.Machine
end

