-- ==== Sys2Proof/Machine/Command.lean ====
section
/-! DEFINITION. Command dispatch: SENDCMD, CLASSIFY and EXTRACT (41_command_dispatch.md). -/

namespace Sys2Proof.Machine

/-- The reads of `busyWait` with `budget` of them left (41_command_dispatch.md R201). -/
def busyLoop (c : Cfg) : (budget : Nat) → State → Res Unit
  | 0, s => raiseIn .fatalTimeout s
  | n + 1, s =>
    (regRead c .status s).bind fun v t =>
      if isBusy t.params v then busyLoop c n t.count else .ok () t.count

/-- `busyWait()` (41_command_dispatch.md R201): at most N_BUSY reads of STATUS. -/
def busyWait (c : Cfg) (s : State) : Res Unit := busyLoop c s.params.nBusy s.startCount

/-- `issue(arg, w)`: exactly four events (41_command_dispatch.md R202). -/
def issue (c : Cfg) (arg w : Word) (s : State) : Res Unit :=
  (regWrite c .rintsts clearAll s).andThen fun s =>
  (regWrite c .cmdarg arg s).andThen fun s =>
  (barrier s).andThen fun s =>
  regWrite c .cmd w s

/-- `clearPending(s, data)`, its first write: CMD_DONE, once (41_command_dispatch.md R205). Gives the new
`poll.cmdDoneCleared`. -/
def clearCmdDone (c : Cfg) (v : Word) (cleared : Bool) (s : State) : Res Bool :=
  let mask := bit s.params.intBits.cmdDone
  if !cleared && anySet v mask then
    (regWrite c .rintsts mask s).bind fun _ t => .ok true (t.setCmdDone true)
  else .ok cleared s

/-- `clearPending(s, data)`, its second write: DTO, once, and only for a data-carrying command
(41_command_dispatch.md R205). Gives the new `poll.dtoCleared`. -/
def clearDto (c : Cfg) (v : Word) (data cleared : Bool) (s : State) : Res Bool :=
  let mask := bit s.params.intBits.dto
  if data && !cleared && anySet v mask then
    (regWrite c .rintsts mask s).bind fun _ t => .ok true (t.setDto true)
  else .ok cleared s

/-- The reads of `pollCompletion` with `budget` of them left (41_command_dispatch.md R203). In one read the
error check comes first, the clears second, the completion check third. `done` and `dto` are the values of
`poll.cmdDoneCleared` and `poll.dtoCleared`. -/
def pollLoop (c : Cfg) (data : Bool) : (budget : Nat) → (done dto : Bool) → State → Res Unit
  | 0, _, _, s => raiseIn .fatalTimeout s
  | n + 1, done, dto, s =>
    (delay s).andThen fun s =>
    (regRead c .rintsts s).bind fun v t =>
    let t := t.count
    if isError t.params.intBits v then
      raiseIn (.hardwareError v 0) (t.setErrStatus v)
    else
      (clearCmdDone c v done t).bind fun done t =>
      (clearDto c v data dto t).bind fun dto t =>
      if done && (!data || dto) then .ok () t else pollLoop c data n done dto t

/-- `pollCompletion(data)` (41_command_dispatch.md R203): at most N_POLL reads of RINTSTS. -/
def pollCompletion (c : Cfg) (data : Bool) (s : State) : Res Unit :=
  pollLoop c data s.params.nPoll false false ((s.setCmdDone false).setDto false).startCount

/-- The latches `rsp.words`, each of them UNKNOWN (10_state.md R55). -/
def forgetWords (ws : Vector (Latch Word) 4) : Vector (Latch Word) 4 :=
  #v[ws[0].forget, ws[1].forget, ws[2].forget, ws[3].forget]

/-- `extractResponse(w)` (41_command_dispatch.md R206): word k is register RESPk; the latches at index ≥ the
count become UNKNOWN (10_state.md R55). -/
def extractResponse (c : Cfg) (w : Word) (s : State) : Res Unit :=
  match respCount s.params.cmdBits w with
  | .zero => .ok () (s.setResponse .zero (forgetWords s.rspWords))
  | .one =>
    (regRead c .resp0 s).bind fun v0 t =>
    .ok () (t.setResponse .one ((forgetWords t.rspWords).set 0 (.holds v0)))
  | .four =>
    (regRead c .resp0 s).bind fun v0 t =>
    (regRead c .resp1 t).bind fun v1 t =>
    (regRead c .resp2 t).bind fun v2 t =>
    (regRead c .resp3 t).bind fun v3 t =>
    .ok () (t.setResponse .four #v[.holds v0, .holds v1, .holds v2, .holds v3])

/-- What the completion of a command says of the environment: the controller has carried it out, and the transfer of
a data-carrying command in DMA mode is over (70_reset_and_hazards.md R466; log 33). The block itself does nothing
here. -/
def commandOver (c : Cfg) (data : Bool) (s : State) : State :=
  if data && c.dmaCapable then s.carriedOut.transferOver c else s.carriedOut

/-- SENDCMD after its word is encoded: busy wait, issue, completion poll, response words
(41_command_dispatch.md R200). -/
def runCommand (c : Cfg) (w arg : Word) (s : State) : Res Unit :=
  let data := dataCarrying s.params.cmdBits w
  (busyWait c ((s.setCommand w data).setFsm .busyWait)).andThen fun s =>
  (issue c arg w (s.setFsm .issue)).andThen fun s =>
  (pollCompletion c data (s.setFsm .pollCompletion)).andThen fun s =>
  extractResponse c w ((commandOver c data s).setFsm .readResponse)

/-- SENDCMD (41_command_dispatch.md R200). The direction is ignored (40_command_encoder.md R167). -/
def execSendcmd (idx : Nat) (shape : Shape) (_dir : Dir) (s : State) : Out :=
  withCfg s fun c => withA s fun a =>
    let s := s.setResponse .zero s.rspWords
    match encodeCommand s.params idx shape c.dmaCapable with
    | none => raiseError .notSupported s
    | some w => endOp ((runCommand c w (low32 a) s).bind fun _ t => .ok 0 t)

/-- CLASSIFY (41_command_dispatch.md R208): the classifier alone. It is accepted with `cfg.valid = 0`, makes
no access and does not write `err.status`. -/
def execClassify (s : State) : Out :=
  withA s fun a =>
    let v := low32 a
    let errs := v &&& errMask s.params.intBits
    if isError s.params.intBits v then raiseError (.hardwareError v errs) s else finish 0 s

/-- EXTRACT (41_command_dispatch.md R209): the response-word extractor alone. -/
def execExtract (s : State) : Out :=
  inExec s fun c s => withA s fun a =>
    endOp ((extractResponse c (low32 a) s).bind fun _ t => .ok 0 t)

end Sys2Proof.Machine
end

