-- ==== Sys2Proof/Machine/Clock.lean ====
section
/-! DEFINITION. The clock controller: UPDCLK, SETCLK, SETWIDTH and CFGBUS (42_clock_controller.md). -/

namespace Sys2Proof.Machine

/-- "clear that specific bit and reissue the command" (42_clock_controller.md R260). -/
def retryHandshake (c : Cfg) (s : State) : Res Unit :=
  (regWrite c .rintsts (bit s.params.intBits.hle) s).andThen fun s =>
  regWrite c .cmd (hsWord s.params.cmdBits) s

/-- The polls of `handshake` with `budget` reads of CMD left (42_clock_controller.md R260). CMD is read first,
and RINTSTS only while START is set (R261). -/
def handshakeLoop (c : Cfg) : (budget : Nat) → State → Res Unit
  | 0, s => raiseIn .fatalTimeout s
  | n + 1, s =>
    (regRead c .cmd s).bind fun v t =>
    let t := t.count
    if anySet v (bit t.params.cmdBits.start) then
      (regRead c .rintsts t).bind fun r t =>
        if anySet r (bit t.params.intBits.hle) then
          (retryHandshake c t).andThen fun t => handshakeLoop c n t
        else handshakeLoop c n t
    else .ok () t

/-- `handshake()` (42_clock_controller.md R260): at most N_CLK reads of CMD. With "the start bit self-clears" the
controller has taken the clock registers up (20_memory.md R87; log 33). -/
def handshake (c : Cfg) (s : State) : Res Unit :=
  (regWrite c .cmd (hsWord s.params.cmdBits) s.startCount).andThen fun s =>
  (handshakeLoop c s.params.nClk s).andThen fun s => .ok () s.carriedOut

/-- `setClockSeq(d)` (42_clock_controller.md R272). Each `clk.*` update happens at the write it mirrors. -/
def setClockSeq (c : Cfg) (d : Nat) (s : State) : Res Unit :=
  (busyWait c s).andThen fun s =>
  (regWrite c .clkena clkenaOff s).andThen fun s =>
  (handshake c (s.setClkEnabled false)).andThen fun s =>
  (regWrite c .clkdiv (BitVec.ofNat 32 d) s).andThen fun s =>
  (handshake c (s.setClkDiv (BitVec.ofNat 8 d))).andThen fun s =>
  (regWrite c .clkena clkenaOn s).andThen fun s =>
  (regWrite c .clksrc clksrcValue (s.setClkEnabled true)).andThen fun s =>
  handshake c s

/-- The CTYPE write and its record in `cfg.busWidth` (42_clock_controller.md R280). -/
def programWidth (c : Cfg) (width : Nat) (code : Word) (s : State) : Res Unit :=
  (regWrite c .ctype code s).andThen fun s =>
  .ok () (s.setBusWidth (BitVec.ofNat 4 width))

/-- UPDCLK (42_clock_controller.md R264): one handshake alone. -/
def execUpdclk (s : State) : Out :=
  inExec s fun c s => endOp ((handshake c s).bind fun _ t => .ok 0 t)

/-- SETCLK (42_clock_controller.md R273). -/
def execSetclk (s : State) : Out :=
  inExec s fun c s => withA s fun a =>
    match divisor c.srcClkHz.toNat (low32 a).toNat with
    | none => raiseError .configError s
    | some d => endOp ((setClockSeq c d s).bind fun _ t => .ok (BitVec.ofNat 64 d) t)

/-- SETWIDTH (42_clock_controller.md R280). -/
def execSetwidth (s : State) : Out :=
  inExec s fun c s => withA s fun a =>
    let width := (low32 a).toNat
    match ctypeCode width with
    | none => raiseError .configError s
    | some code => endOp ((programWidth c width code s).bind fun _ t => .ok 0 t)

/-- CFGBUS (42_clock_controller.md R285): the width is checked first, then the clock target, then the clock
sequence runs and CTYPE is written. -/
def execCfgbus (s : State) : Out :=
  inExec s fun c s => withA s fun a => withB s fun b =>
    let width := (low32 b).toNat
    match ctypeCode width with
    | none => raiseError .configError s
    | some code =>
      match divisor c.srcClkHz.toNat (low32 a).toNat with
      | none => raiseError .configError s
      | some d =>
        endOp ((setClockSeq c d s).andThen fun s =>
          (programWidth c width code s).bind fun _ t => .ok (BitVec.ofNat 64 d) t)

end Sys2Proof.Machine
end

