-- ==== Sys2Proof/Machine/Transfer.lean ====
section
/-! DEFINITION. Initialisation and the transfer stages: INIT, PREPARE, READ and WRITE
(44_facade_transfer.md). -/

namespace Sys2Proof.Machine

/-- `checkConfig(c)` (44_facade_transfer.md R351), its eight checks in order; every one that fails gives
CONFIG_ERROR. -/
def configAccepted (c : CfgIn) : Bool :=
  (c.blockSize.toNat > 0 && c.blockSize.toNat % descBytes == 0) &&
  (c.regBase.toNat % c.blockSize.toNat == 0 && c.descBase.toNat % c.blockSize.toNat == 0) &&
  c.descSize.toNat > 0 &&
  c.descBase.toNat + c.descSize.toNat ≤ 2 ^ Config.dmaAddrBits &&
  c.srcClkHz.toNat > 0 &&
  (1 ≤ c.chunkMax.toNat && c.chunkMax.toNat ≤ bsMax) &&
  (ctypeCode c.initWidth.toNat).isSome &&
  c.dmaCapable.toNat ≤ 1

/-- `cfg.* <- cfg_in.*` (44_facade_transfer.md R350). -/
def CfgIn.toCfg (c : CfgIn) : Cfg where
  regBase := c.regBase
  descBase := c.descBase
  descSize := c.descSize
  srcClkHz := c.srcClkHz
  dmaCapable := c.dmaCapable == 1
  fifoDepth := c.fifoDepth
  blockSize := c.blockSize
  chunkMax := c.chunkMax
  initClkHz := c.initClkHz
  initWidth := c.initWidth

/-- INIT once its checks have passed (44_facade_transfer.md R350). -/
def loadConfig (c : Cfg) (d : Nat) (code : Word) (s : State) : Res Unit :=
  (setClockSeq c d (s.setCfg c)).andThen fun s =>
  programWidth c c.initWidth.toNat code s

/-- INIT (44_facade_transfer.md R350). A, B and C are ignored. It enters EXEC when it is accepted (10_state.md
R42). -/
def execInit (s : State) : Out :=
  let t := s.setFsm .exec
  if s.cfgValid then raiseError .configError t
  else if configAccepted s.cfgIn then
    match divisor s.cfgIn.srcClkHz.toNat s.cfgIn.initClkHz.toNat, ctypeCode s.cfgIn.initWidth.toNat with
    | some d, some code =>
      endOp ((loadConfig s.cfgIn.toCfg d code t).bind fun _ t => .ok (BitVec.ofNat 64 d) t)
    | _, _ => raiseError .configError t
  else raiseError .configError t

/-- `checkPrepare(buf, size)` (44_facade_transfer.md R354): the first check that fails, if one does. -/
def checkPrepare (c : Cfg) (buf size : Nat) : Option Err :=
  if buf % c.blockSize.toNat ≠ 0 then some .invalidArgument
  else if size % c.blockSize.toNat ≠ 0 then some .invalidArgument
  else if size = 0 ∨ size ≥ 2 ^ 32 then some .invalidArgument
  else if c.dmaCapable then
    if chainAccepted c buf size c.chunkMax.toNat then none else some .configError
  else if size > c.fifoDepth.toNat then some .invalidArgument
  else none

/-- PREPARE once its checks have passed (44_facade_transfer.md R353); gives `rsp_value`. -/
def runPrepare (c : Cfg) (buf size : Nat) (s : State) : Res Nat :=
  (regWrite c .bytcnt (BitVec.ofNat 32 size) s).andThen fun s =>
  (regWrite c .rintsts clearAll s).andThen fun s =>
  if c.dmaCapable then
    (cacheClean buf size s).andThen fun s => buildChain c buf size c.chunkMax.toNat s
  else .ok 0 s

/-- PREPARE (44_facade_transfer.md R353). The block address, operand A, is ignored. -/
def execPrepare (s : State) : Out :=
  inExec s fun c s => withB s fun b => withC s fun k =>
    match checkPrepare c b.toNat k.toNat with
    | some e => raiseError e s
    | none =>
      endOp ((runPrepare c b.toNat k.toNat s).bind fun n t => .ok (BitVec.ofNat 64 n) t)

/-- Word k of the polled READ: pop the FIFO, store little-endian (44_facade_transfer.md R356). -/
def drainWord (c : Cfg) (buf k : Nat) (s : State) : Res Unit :=
  (regRead c .fifo s).bind fun w t => memWrite (buf + 4 * k) w t

/-- READ (44_facade_transfer.md R356). In DMA mode no check is made and nothing happens. -/
def execRead (s : State) : Out :=
  inExec s fun c s => withA s fun a => withB s fun b =>
    let buf := a.toNat
    let size := b.toNat
    if c.dmaCapable then finish 0 s
    else if size % 4 ≠ 0 then raiseError .invalidArgument s
    else if buf + size > 2 ^ Config.cpuAddrBits then raiseError .invalidArgument s
    else
      endOp ((forRange (drainWord c buf) 0 (size / 4) s).bind fun _ t =>
        .ok (BitVec.ofNat 64 (size / 4)) t)

/-- WRITE (44_facade_transfer.md R357). Its arguments are not checked in either mode. -/
def execWrite (s : State) : Out :=
  inExec s fun c s => if c.dmaCapable then finish 0 s else raiseError .notSupported s

end Sys2Proof.Machine
end

