-- ==== Sys2Proof/Machine/Dispatch.lean ====
section
/-! DEFINITION. What every instruction does: one arm per constructor, each one call of its meaning. -/

namespace Sys2Proof.Machine

def exec (i : Instr) (s : State) : Host.Outcome State Fault Refusal :=
  match i with
  | .init => Sys2Proof.Machine.execInit s
  | .encode idx shape => Sys2Proof.Machine.execEncode idx shape s
  | .sendcmd idx shape dir => Sys2Proof.Machine.execSendcmd idx shape dir s
  | .classify => Sys2Proof.Machine.execClassify s
  | .extract => Sys2Proof.Machine.execExtract s
  | .updclk => Sys2Proof.Machine.execUpdclk s
  | .setclk => Sys2Proof.Machine.execSetclk s
  | .setwidth => Sys2Proof.Machine.execSetwidth s
  | .cfgbus => Sys2Proof.Machine.execCfgbus s
  | .build => Sys2Proof.Machine.execBuild s
  | .prepare => Sys2Proof.Machine.execPrepare s
  | .read => Sys2Proof.Machine.execRead s
  | .write => Sys2Proof.Machine.execWrite s
  | .cmdwInit idx shape => Sys2Proof.Machine.execCmdwInit idx shape s
  | .cmdwStop idx shape => Sys2Proof.Machine.execCmdwStop idx shape s
  | .cmdwStatus idx shape => Sys2Proof.Machine.execCmdwStatus idx shape s
  | .cmdwRead idx shape => Sys2Proof.Machine.execCmdwRead idx shape s
  | .cmdwWrite idx shape => Sys2Proof.Machine.execCmdwWrite idx shape s
  | .cmdwOther idx shape => Sys2Proof.Machine.execCmdwOther idx shape s
  | .cmdwHs => Sys2Proof.Machine.execCmdwHs s
  | .des0First => Sys2Proof.Machine.execDes0First s
  | .des0Middle => Sys2Proof.Machine.execDes0Middle s
  | .des0Last => Sys2Proof.Machine.execDes0Last s
  | .des0Single => Sys2Proof.Machine.execDes0Single s

end Sys2Proof.Machine
end

