-- ==== Sys2Proof/Machine/Fetch.lean ====
section
/-! DEFINITION. What the agent that moves next fetches: the block a request from its port, the controller a
started command word, the DMA engine the first word of a descriptor. -/

namespace Sys2Proof.Machine

/-- What a fetch gives: an instruction to run and the state it runs in, or a step that runs none. -/
inductive Fetched where
  | run (i : Instr) (s : State)
  | ends (o : Out)

/-- A cycle of the block without an operation: the response of the last one is over ("for one cycle",
30_encoding.md R118), and a coming reset is one nearer. -/
def idleCycle (s : State) : State :=
  { s with resp := none, rst := s.rst.map (· - 1) }

/-- A request is accepted: the four operand latches take the port's values (10_state.md R50, 30_encoding.md
R110), `cfg_in` is the request's, and a coming reset is one move nearer: it may come before the operation's first
event (70_reset_and_hazards.md R450; log 11). -/
def accept (q : Request) (rest : List Request) (s : State) : State :=
  { s with
    reqCtl := .holds q.ctl
    reqA := .holds q.a
    reqB := .holds q.b
    reqC := .holds q.c
    cfgIn := q.cfgIn
    reqs := rest
    rst := s.rst.map (· - 1)
    resp := none }

/-- `req_ready` (30_encoding.md R110). -/
def reqReady (s : State) : Bool := s.fsm == .idle

/-- The block moves. A reset takes effect in every state (70_reset_and_hazards.md R450). HALTED takes no step
but that (10_state.md R44). A request is accepted only in IDLE and waits in any other state (R43); a word that
spells no operation ends with ILLEGAL_REQUEST, before any other check (30_encoding.md R113). -/
def fetchBlock (s : State) : Fetched :=
  if s.rst = some 0 then .ends (.next (resetEvent s))
  else if s.fsm = .halted then
    if s.rst = none then .ends (.fault .blockHalted) else .ends (.next (idleCycle s))
  else
    match s.reqs with
    | [] => .ends (.next (idleCycle s))
    | q :: rest =>
      if reqReady s then
        match decodeRequest q.ctl with
        | .ok i => .run i (accept q rest s)
        | .error _ => .ends (raiseError .illegalRequest (accept q rest s))
      else .ends (.next (idleCycle s))

/-- The controller moves: it takes up the oldest command started (20_memory.md R87, R90). -/
def fetchController (s : State) : Fetched :=
  match s.ctl.started with
  | [] => .ends (.next s)
  | k :: _ =>
    match decodeCommand s.params.cmdBits k.word with
    | .ok i => .run i s
    | .error _ => .ends (.refused .foreignCommand)

/-- The DMA engine moves: it reads DES0 of the descriptor it is at (00_scope.md R8). -/
def fetchEngine (s : State) : Fetched :=
  match s.dma.cur with
  | none => .ends (.next s)
  | some a =>
    let (w, t) := engineWord a s
    match decodeDes0 w with
    | .ok i => .run i t
    | .error _ => .ends (.refused .foreignDescriptor)

/-- The agent that moves next moves: the head of the schedule, or the block (log 2). -/
def fetch (s : State) : Fetched :=
  match s.sched with
  | [] => fetchBlock s
  | .block :: rest => fetchBlock { s with sched := rest }
  | .controller :: rest => fetchController { s with sched := rest }
  | .engine :: rest => fetchEngine { s with sched := rest }

/-- A request of a bare request word: its operands 0, `cfg_in` as the wires stand. -/
def bareRequest (w : Word) (s : State) : Request := ⟨w, 0, 0, 0, s.cfgIn⟩

/-- A command started by a bare CMD write, the registers as they stand. -/
def bareStarted (w : Word) (s : State) : Started :=
  ⟨w, s.ctl.regs.write .cmd w, s.cfg.known && s.cfg.val.dmaCapable⟩

/-- A descriptor placed in memory, all of its bytes cleaned: its first word, and three words of zeros. -/
def placeDescriptor (a : Nat) (w : Word) (s : State) : State :=
  let t := (((s.storeWord a w).storeWord (a + 4) 0).storeWord (a + 8) 0).storeWord (a + 12) 0
  { t with dirty := Dirty.clean t.dirty a descBytes }

/-- `w` stands where the agent that executes it fetches, and that agent moves next. A word that spells no
instruction stands on the request port. -/
def placeInstruction (w : Word) (s : State) : State :=
  match decode w with
  | .ok i =>
    match i.agent with
    | .block => { s with reqs := bareRequest w s :: s.reqs, sched := .block :: s.sched }
    | .controller =>
      { s with
        ctl := { s.ctl with started := bareStarted w s :: s.ctl.started }
        sched := .controller :: s.sched }
    | .engine =>
      let a := s.dma.cur.getD 0
      let t := placeDescriptor a w s
      { t with dma := { t.dma with cur := some a }, sched := .engine :: s.sched }
  | .error _ => { s with reqs := bareRequest w s :: s.reqs, sched := .block :: s.sched }

end Sys2Proof.Machine
end

