-- ==== Sys2Proof/Machine/Step.lean ====
section
/-! DEFINITION. One step of the machine: the agent that moves next fetches, and what it fetched runs. -/

namespace Sys2Proof.Machine

/-- One step (00_scope.md R8). A step of the block runs one accepted request to its end (10_state.md R43;
log 1). -/
def step (s : State) : Host.Outcome State Fault Refusal :=
  match fetch s with
  | .run i t => exec i t
  | .ends o => o

/-- `s` with the instruction whose word is the low `nbits` bits of `w` placed so that the very next step
runs it (log 21). -/
def State.withFetchWord (s : State) (nbits w : Nat) : State :=
  placeInstruction (BitVec.ofNat 32 (w % 2 ^ nbits)) s

end Sys2Proof.Machine
end

