-- ==== Sys2Proof/Safety.lean ====
section
/-! DEFINITION. What a state a run reaches looks like, and the terms the statements are written in. -/

namespace Sys2Proof.Machine

/-! ## The invariant -/

/-- Memory and the record of uncleaned bytes are in canonical form. -/
def MemoryCanonical (s : State) : Prop := s.mem.wf ∧ s.dirty.wf

/-- `halted` is 1 exactly in HALTED (10_state.md R45), and between two steps of the block no operation is in
progress: every operation ends in IDLE or HALTED (R41, R42). -/
def AtRest (s : State) : Prop :=
  (s.halted = true ↔ s.fsm = .halted) ∧ (s.fsm = .idle ∨ s.fsm = .halted)

/-- What INIT's checks leave of a configuration (44_facade_transfer.md R351), the source's invariants of
10_state.md R33 among them. -/
def Cfg.Legal (c : Cfg) : Prop :=
  (0 < c.blockSize.toNat ∧ c.blockSize.toNat % 16 = 0) ∧
  c.regBase.toNat % c.blockSize.toNat = 0 ∧ c.descBase.toNat % c.blockSize.toNat = 0 ∧
  0 < c.descSize.toNat ∧ c.descBase.toNat + c.descSize.toNat ≤ 4294967296 ∧
  0 < c.srcClkHz.toNat ∧ 1 ≤ c.chunkMax.toNat ∧ c.chunkMax.toNat ≤ 8191 ∧
  (c.initWidth = 1 ∨ c.initWidth = 4 ∨ c.initWidth = 8)

/-- While `cfg.valid = 1` the configuration is known and legal (10_state.md R32, R33). -/
def ConfigLegal (s : State) : Prop := s.cfgValid = true → s.cfg.known = true ∧ s.cfg.val.Legal

/-- `clk.div` is 1 to 255 once it is known (10_state.md R34). -/
def DivisorLegal (s : State) : Prop := s.clkDiv.known = true → 1 ≤ s.clkDiv.val.toNat

/-- `cfg.busWidth` is 1, 4 or 8 once it is known (10_state.md R31). -/
def WidthLegal (s : State) : Prop :=
  s.busWidth.known = true → s.busWidth.val = 1 ∨ s.busWidth.val = 4 ∨ s.busWidth.val = 8

/-- The response words below the count are known (10_state.md R55). -/
def ResponseKnown (s : State) : Prop :=
  ∀ k : Fin 4, k.val < s.rspCount.toNat → (s.rspWords[k]).known = true

/-- What every step keeps. -/
structure Inv (s : State) : Prop where
  params : s.params.wf
  memory : MemoryCanonical s
  atRest : AtRest s
  config : ConfigLegal s
  divisor : DivisorLegal s
  width : WidthLegal s
  response : ResponseKnown s

/-! ## Parts of the state, and frames -/

/-- The parts of the state, one for each field, the fields of the controller and of the DMA engine apart. -/
inductive Part where
  | params | cfg | cfgValid | busWidth | clkDiv | clkEnabled | fsm | halted
  | reqCtl | reqA | reqB | reqC | cnt | cmdWord | cmdData | pollCmdDone | pollDto
  | rspCount | rspWords | errStatus | chainCount | resp
  | rst | reqs | cfgIn | answers | draws | dmaData | dmaDraws | sched | mem | dirty
  | regClkdiv | regClksrc | regClkena | regCtype | regBytcnt | regCmdarg | regCmd | regDbaddr
  | pending | started | clock | bus
  | dmaCur | dmaDirection | dmaSent | hist | trace
  deriving DecidableEq, Repr

/-- The two states agree on a part. -/
def Part.same (p : Part) (s t : State) : Prop :=
  match p with
  | .params => t.params = s.params
  | .cfg => t.cfg = s.cfg
  | .cfgValid => t.cfgValid = s.cfgValid
  | .busWidth => t.busWidth = s.busWidth
  | .clkDiv => t.clkDiv = s.clkDiv
  | .clkEnabled => t.clkEnabled = s.clkEnabled
  | .fsm => t.fsm = s.fsm
  | .halted => t.halted = s.halted
  | .reqCtl => t.reqCtl = s.reqCtl
  | .reqA => t.reqA = s.reqA
  | .reqB => t.reqB = s.reqB
  | .reqC => t.reqC = s.reqC
  | .cnt => t.cnt = s.cnt
  | .cmdWord => t.cmdWord = s.cmdWord
  | .cmdData => t.cmdData = s.cmdData
  | .pollCmdDone => t.pollCmdDone = s.pollCmdDone
  | .pollDto => t.pollDto = s.pollDto
  | .rspCount => t.rspCount = s.rspCount
  | .rspWords => t.rspWords = s.rspWords
  | .errStatus => t.errStatus = s.errStatus
  | .chainCount => t.chainCount = s.chainCount
  | .resp => t.resp = s.resp
  | .rst => t.rst = s.rst
  | .reqs => t.reqs = s.reqs
  | .cfgIn => t.cfgIn = s.cfgIn
  | .answers => t.answers = s.answers
  | .draws => t.draws = s.draws
  | .dmaData => t.dmaData = s.dmaData
  | .dmaDraws => t.dmaDraws = s.dmaDraws
  | .sched => t.sched = s.sched
  | .mem => t.mem = s.mem
  | .dirty => t.dirty = s.dirty
  | .regClkdiv => t.ctl.regs.clkdiv = s.ctl.regs.clkdiv
  | .regClksrc => t.ctl.regs.clksrc = s.ctl.regs.clksrc
  | .regClkena => t.ctl.regs.clkena = s.ctl.regs.clkena
  | .regCtype => t.ctl.regs.ctype = s.ctl.regs.ctype
  | .regBytcnt => t.ctl.regs.bytcnt = s.ctl.regs.bytcnt
  | .regCmdarg => t.ctl.regs.cmdarg = s.ctl.regs.cmdarg
  | .regCmd => t.ctl.regs.cmd = s.ctl.regs.cmd
  | .regDbaddr => t.ctl.regs.dbaddr = s.ctl.regs.dbaddr
  | .pending => t.ctl.pending = s.ctl.pending
  | .started => t.ctl.started = s.ctl.started
  | .clock => t.ctl.clock = s.ctl.clock
  | .bus => t.ctl.bus = s.ctl.bus
  | .dmaCur => t.dma.cur = s.dma.cur
  | .dmaDirection => t.dma.toDevice = s.dma.toDevice
  | .dmaSent => t.dma.sent = s.dma.sent
  | .hist => t.hist = s.hist
  | .trace => t.trace = s.trace

/-- The frame: every part of the state that is not listed is unchanged. -/
def KeepsAllBut (changed : List Part) (s t : State) : Prop := ∀ p, p ∉ changed → p.same s t

/-- Every byte of memory outside `[a, a+n)` reads as before. -/
def MemoryKeptOutside (a n : Nat) (s t : State) : Prop :=
  ∀ x, (x < a ∨ a + n ≤ x) → t.mem.read? x = s.mem.read? x

/-- Every byte of memory outside all of these regions, each an address and a length, reads as before. -/
def MemoryKeptOutsideAll (rs : List (Nat × Nat)) (s t : State) : Prop :=
  ∀ x, (∀ r ∈ rs, x < r.1 ∨ r.1 + r.2 ≤ x) → t.mem.read? x = s.mem.read? x

/-! ## The terms of the statements -/

/-- The words the response port drives when no word it must drive is UNKNOWN (30_encoding.md R118). -/
def drivenWords (s : State) : Vector Word 4 :=
  #v[if 0 < s.rspCount.toNat then s.rspWords[0].val else 0,
     if 1 < s.rspCount.toNat then s.rspWords[1].val else 0,
     if 2 < s.rspCount.toNat then s.rspWords[2].val else 0,
     if 3 < s.rspCount.toNat then s.rspWords[3].val else 0]

/-- The response port drives this result, with the response words as they stand in `s`. -/
def Drives (s : State) (code : ResultCode) (value : DWord) (status : Word) : Prop :=
  s.resp = some ⟨code, value, status, s.rspCount, drivenWords s⟩

/-- `s` after an operation has ended in IDLE with this response and nothing else changed. -/
def answered (code : ResultCode) (value : DWord) (status : Word) (s : State) : State :=
  { s with
    fsm := .idle
    trace := s.trace ++ [.idle]
    resp := some ⟨code, value, status, s.rspCount, drivenWords s⟩ }

/-- `s` after an operation has ended with FATAL_TIMEOUT (60_exceptions.md R402) and nothing else changed. -/
def halts (s : State) : State :=
  { s with
    fsm := .halted
    halted := true
    trace := s.trace ++ [.halted]
    resp := some ⟨.fatalTimeout, 0, 0, s.rspCount, drivenWords s⟩ }

/-- The block has run INIT with configuration `c`, no reset is coming, and the port can be driven. -/
structure Ready (c : Cfg) (s : State) : Prop where
  noReset : s.rst = none
  valid : s.cfgValid = true
  config : s.cfg = .holds c
  response : ResponseKnown s

/-- A state the block moves in next. -/
def blockMoves (s : State) : Prop := s.sched = [] ∨ ∃ rest, s.sched = .block :: rest

/-- `s` with the move of its schedule's head taken. -/
def moved (s : State) : State := { s with sched := s.sched.tail }

/-- The four bytes at `a`, lowest first, are those of the word (20_memory.md R80). -/
def holdsWord (m : Memory) (a : Nat) (w : Word) : Prop :=
  ∀ k, k < 4 → m.read? (a + k) = some (byteOf w k)

/-- The DMA engine sees `b` at `a`: it is the last byte written there, and it has been cleaned (20_memory.md
R97). -/
def engineSees (s : State) (a : Nat) (b : Byte) : Prop :=
  s.mem.read? a = some b ∧ s.dirty.contains a = false

/-- The DMA engine sees the word at `a`. -/
def engineSeesWord (s : State) (a : Nat) (w : Word) : Prop :=
  ∀ k, k < 4 → engineSees s (a + k) (byteOf w k)

/-! ## Answers still to come, and the loops they drive -/

/-- The answer to the (k+1)-th draw from `s` on (20_memory.md R91; log 4). -/
def drawAt (s : State) (k : Nat) : Word := (s.answers[k]?).getD (Config.answer (s.draws + k))

/-- The DMA engine's (k+1)-th draw from `s` on (93 U4, U6, U16; log 4). -/
def datumAt (s : State) (k : Nat) : Word := (s.dmaData[k]?).getD (Config.datum (s.dmaDraws + k))

/-- The busy wait whose reads start at draw `off` returns at its read `m`, counted from 0 (41_command_dispatch.md
R201): every read before shows busy, that one does not, and it is within the budget. -/
def BusyEnds (s : State) (off m : Nat) : Prop :=
  m < s.params.nBusy ∧ (∀ k, k < m → isBusy s.params (drawAt s (off + k)) = true) ∧
  isBusy s.params (drawAt s (off + m)) = false

/-- Every read of the busy wait's budget shows busy. -/
def BusyRunsOut (s : State) (off : Nat) : Prop :=
  ∀ k, k < s.params.nBusy → isBusy s.params (drawAt s (off + k)) = true

/-- The events of n reads of STATUS. -/
def statusReads (c : Cfg) (s : State) (off n : Nat) : List Event :=
  (List.range n).map fun k => .regRead c.regBase .status (drawAt s (off + k))

/-- A read of CMD shows START set (42_clock_controller.md R260). -/
def startSet (s : State) (w : Word) : Bool := anySet w (bit s.params.cmdBits.start)

/-- The handshake whose reads start at draw `off` returns at its CMD read `n`, counted from 0 (42_clock_controller.md
R260, R261): each CMD read before has START set and is followed by one RINTSTS read. -/
def HandshakeEnds (s : State) (off n : Nat) : Prop :=
  n < s.params.nClk ∧ (∀ k, k < n → startSet s (drawAt s (off + 2 * k)) = true) ∧
  startSet s (drawAt s (off + 2 * n)) = false

/-- Every CMD read of the handshake's budget has START set (42_clock_controller.md R262). -/
def HandshakeRunsOut (s : State) (off : Nat) : Prop :=
  ∀ k, k < s.params.nClk → startSet s (drawAt s (off + 2 * k)) = true

/-- The events of one unfinished iteration of the handshake: the two reads, and the clear of HLE and the reissue
when HLE is set (42_clock_controller.md R260). -/
def handshakePoll (c : Cfg) (s : State) (off k : Nat) : List Event :=
  [.regRead c.regBase .cmd (drawAt s (off + 2 * k)),
   .regRead c.regBase .rintsts (drawAt s (off + 2 * k + 1))] ++
  (if anySet (drawAt s (off + 2 * k + 1)) (bit s.params.intBits.hle) then
    [.regWrite c.regBase .rintsts (bit s.params.intBits.hle),
     .regWrite c.regBase .cmd (hsWord s.params.cmdBits)]
  else [])

/-- The events of a handshake's write of HS_WORD and n unfinished iterations. -/
def handshakePolls (c : Cfg) (s : State) (off n : Nat) : List Event :=
  .regWrite c.regBase .cmd (hsWord s.params.cmdBits) :: (List.range n).flatMap (handshakePoll c s off)

/-- The events of a handshake that returns at its CMD read `n`. -/
def handshakeEvents (c : Cfg) (s : State) (off n : Nat) : List Event :=
  handshakePolls c s off n ++ [.regRead c.regBase .cmd (drawAt s (off + 2 * n))]

/-- How many reads a clock sequence makes: the busy wait's, and each handshake's (42_clock_controller.md R272). -/
structure ClockReads where
  busy   : Nat
  first  : Nat
  second : Nat
  third  : Nat
  deriving DecidableEq, Repr

/-- The draw at which the first handshake of a clock sequence starts. -/
def ClockReads.at1 (r : ClockReads) : Nat := r.busy + 1

/-- The draw at which the second starts. -/
def ClockReads.at2 (r : ClockReads) : Nat := r.at1 + (2 * r.first + 1)

/-- The draw at which the third starts. -/
def ClockReads.at3 (r : ClockReads) : Nat := r.at2 + (2 * r.second + 1)

/-- How many draws the whole sequence takes. -/
def ClockReads.total (r : ClockReads) : Nat := r.at3 + (2 * r.third + 1)

/-- The clock sequence from `s` ends: its busy wait and its three handshakes do, at these reads. -/
def ClockEnds (s : State) (r : ClockReads) : Prop :=
  BusyEnds s 0 r.busy ∧ HandshakeEnds s r.at1 r.first ∧ HandshakeEnds s r.at2 r.second ∧
  HandshakeEnds s r.at3 r.third

/-- The events of a clock sequence (42_clock_controller.md R272). -/
def clockEvents (c : Cfg) (s : State) (d : Nat) (r : ClockReads) : List Event :=
  statusReads c s 0 (r.busy + 1) ++
  (.regWrite c.regBase .clkena 0 :: handshakeEvents c s r.at1 r.first) ++
  (.regWrite c.regBase .clkdiv (BitVec.ofNat 32 d) :: handshakeEvents c s r.at2 r.second) ++
  (.regWrite c.regBase .clkena 1 :: .regWrite c.regBase .clksrc 0 :: handshakeEvents c s r.at3 r.third)

/-- The clock sequence from `s` exhausts a budget, after the reads `r` (42_clock_controller.md R272): in the busy wait,
or in the first, second or third handshake. `es` are the events it makes, `enabled` the last value written to CLKENA if
one was, and `written` whether CLKDIV was. -/
def ClockStops (c : Cfg) (s : State) (d : Nat) (r : ClockReads) (es : List Event) (enabled : Option Bool)
    (written : Bool) : Prop :=
  (BusyRunsOut s 0 ∧ es = statusReads c s 0 s.params.nBusy ∧ enabled = none ∧ written = false) ∨
  (BusyEnds s 0 r.busy ∧ HandshakeRunsOut s r.at1 ∧
    es = statusReads c s 0 (r.busy + 1) ++
      (.regWrite c.regBase .clkena 0 :: handshakePolls c s r.at1 s.params.nClk) ∧
    enabled = some false ∧ written = false) ∨
  (BusyEnds s 0 r.busy ∧ HandshakeEnds s r.at1 r.first ∧ HandshakeRunsOut s r.at2 ∧
    es = statusReads c s 0 (r.busy + 1) ++
      (.regWrite c.regBase .clkena 0 :: handshakeEvents c s r.at1 r.first) ++
      (.regWrite c.regBase .clkdiv (BitVec.ofNat 32 d) :: handshakePolls c s r.at2 s.params.nClk) ∧
    enabled = some false ∧ written = true) ∨
  (BusyEnds s 0 r.busy ∧ HandshakeEnds s r.at1 r.first ∧ HandshakeEnds s r.at2 r.second ∧
    HandshakeRunsOut s r.at3 ∧
    es = statusReads c s 0 (r.busy + 1) ++
      (.regWrite c.regBase .clkena 0 :: handshakeEvents c s r.at1 r.first) ++
      (.regWrite c.regBase .clkdiv (BitVec.ofNat 32 d) :: handshakeEvents c s r.at2 r.second) ++
      (.regWrite c.regBase .clkena 1 :: .regWrite c.regBase .clksrc 0 ::
        handshakePolls c s r.at3 s.params.nClk) ∧
    enabled = some true ∧ written = true)

/-- `clk.*` in `t` is as the writes so far left it since `s` (42_clock_controller.md R272). -/
def ClockLeft (d : Nat) (enabled : Option Bool) (written : Bool) (s t : State) : Prop :=
  t.clkEnabled = (match enabled with
    | none => s.clkEnabled
    | some b => .holds b) ∧
  t.clkDiv = if written then .holds (BitVec.ofNat 8 d) else s.clkDiv

/-- One of the first `k` reads of the completion poll whose reads start at draw `off` shows the bit. -/
def sawBit (s : State) (off k : Nat) (mask : Word) : Bool :=
  (List.range k).any fun j => anySet (drawAt s (off + j)) mask

/-- After `k` reads without an error the completion condition holds (41_command_dispatch.md R203). -/
def pollComplete (s : State) (off : Nat) (data : Bool) (k : Nat) : Bool :=
  sawBit s off k (bit s.params.intBits.cmdDone) &&
  (!data || sawBit s off k (bit s.params.intBits.dto))

/-- The first `n` reads of the completion poll show no error and do not complete it. -/
def PollQuiet (s : State) (off : Nat) (data : Bool) (n : Nat) : Prop :=
  ∀ k, k < n → isError s.params.intBits (drawAt s (off + k)) = false ∧
    pollComplete s off data (k + 1) = false

/-- The completion poll returns at its read `n`, counted from 0. -/
def PollEnds (s : State) (off : Nat) (data : Bool) (n : Nat) : Prop :=
  n < s.params.nPoll ∧ PollQuiet s off data n ∧
  isError s.params.intBits (drawAt s (off + n)) = false ∧ pollComplete s off data (n + 1) = true

/-- The completion poll meets an error at its read `n`. -/
def PollFails (s : State) (off : Nat) (data : Bool) (n : Nat) : Prop :=
  n < s.params.nPoll ∧ PollQuiet s off data n ∧
  isError s.params.intBits (drawAt s (off + n)) = true

/-- The delay and the read of one iteration of the completion poll. -/
def pollRead (c : Cfg) (s : State) (off k : Nat) : List Event :=
  [.delay s.params.pollDelay, .regRead c.regBase .rintsts (drawAt s (off + k))]

/-- The clears of one iteration: each bit at the first read that shows it, CMD_DONE first
(41_command_dispatch.md R205). -/
def pollClears (c : Cfg) (s : State) (off : Nat) (data : Bool) (k : Nat) : List Event :=
  let done := bit s.params.intBits.cmdDone
  let dto := bit s.params.intBits.dto
  (if anySet (drawAt s (off + k)) done && !sawBit s off k done then
    [.regWrite c.regBase .rintsts done] else []) ++
  (if data && anySet (drawAt s (off + k)) dto && !sawBit s off k dto then
    [.regWrite c.regBase .rintsts dto] else [])

/-- The events of the first n iterations of the completion poll. -/
def pollEvents (c : Cfg) (s : State) (off : Nat) (data : Bool) (n : Nat) : List Event :=
  (List.range n).flatMap fun k => pollRead c s off k ++ pollClears c s off data k

/-- The events of reading the response words (41_command_dispatch.md R206). -/
def respReads (c : Cfg) (s : State) (off : Nat) : RespCount → List Event
  | .zero => []
  | .one => [.regRead c.regBase .resp0 (drawAt s off)]
  | .four =>
    [.regRead c.regBase .resp0 (drawAt s off), .regRead c.regBase .resp1 (drawAt s (off + 1)),
     .regRead c.regBase .resp2 (drawAt s (off + 2)), .regRead c.regBase .resp3 (drawAt s (off + 3))]

/-- The response latches after reading the response words: those at or above the count are UNKNOWN (10_state.md
R55). -/
def respLatches (s : State) (off : Nat) : RespCount → Vector (Latch Word) 4
  | .zero => forgetWords s.rspWords
  | .one => (forgetWords s.rspWords).set 0 (.holds (drawAt s off))
  | .four =>
    #v[.holds (drawAt s off), .holds (drawAt s (off + 1)), .holds (drawAt s (off + 2)),
       .holds (drawAt s (off + 3))]

/-- The four events of `issue` (41_command_dispatch.md R202). -/
def issueEvents (c : Cfg) (arg w : Word) : List Event :=
  [.regWrite c.regBase .rintsts 0xFFFFFFFF, .regWrite c.regBase .cmdarg arg, .barrier,
   .regWrite c.regBase .cmd w]

/-! ## The builder's events -/

/-- The four events of writing descriptor i of n (43_dma_builder.md R321). -/
def descriptorEvents (c : Cfg) (buf size chunk n i : Nat) : List Event :=
  let d := descriptor c buf size chunk n i
  let a := descAddr c i
  [.memWrite a 4 d.des0, .memWrite (a + 4) 4 d.des1, .memWrite (a + 8) 4 d.des2,
   .memWrite (a + 12) 4 d.des3]

/-- The events of `buildChain` (43_dma_builder.md R321). -/
def chainEvents (c : Cfg) (buf size chunk : Nat) : List Event :=
  let n := chainLength size chunk
  (List.range n).flatMap (descriptorEvents c buf size chunk n) ++
  [.regWrite c.regBase .dbaddr c.descBase, .cacheClean c.descBase.toNat (16 * n)]

/-- The DMA engine sees the whole chain. -/
def engineSeesChain (s : State) (c : Cfg) (buf size chunk : Nat) : Prop :=
  let n := chainLength size chunk
  ∀ i, i < n →
    let d := descriptor c buf size chunk n i
    let a := descAddr c i
    engineSeesWord s a d.des0 ∧ engineSeesWord s (a + 4) d.des1 ∧ engineSeesWord s (a + 8) d.des2 ∧
      engineSeesWord s (a + 12) d.des3

/-- The events of a polled READ of n words (44_facade_transfer.md R356). -/
def drainEvents (c : Cfg) (s : State) (buf n : Nat) : List Event :=
  (List.range n).flatMap fun k =>
    [.regRead c.regBase .fifo (drawAt s k), .memWrite (buf + 4 * k) 4 (drawAt s k)]

/-! ## What the whole machine may do -/

/-- The values the block writes to a controller register (30_encoding.md R123, R132, R140, R141); the index of a command
word has 6 bits (R120, R123). -/
def LegalWrite (p : Params) (r : CtlReg) (v : Word) : Prop :=
  match r with
  | .rintsts =>
    v = 0xFFFFFFFF ∨ v = bit p.intBits.cmdDone ∨ v = bit p.intBits.dto ∨ v = bit p.intBits.hle
  | .cmd => v = hsWord p.cmdBits ∨ ∃ idx shape dma, idx < 64 ∧ encodeCommand p idx shape dma = some v
  | .ctype => v = 0 ∨ v = 1 ∨ v = 0x10000
  | .clkena => v = 0 ∨ v = 1
  | .clksrc => v = 0
  | .clkdiv => 1 ≤ v.toNat ∧ v.toNat ≤ 255
  | .bytcnt | .cmdarg | .dbaddr => True
  | .ctrl | .pwren | .tmout | .blksiz | .intmask | .resp0 | .resp1 | .resp2 | .resp3 | .status
  | .fifoth | .bmod | .fifo => False

/-- The base of the block's register accesses: `cfg.regBase`, which an INIT takes from the request on the port
(20_memory.md R81, 44_facade_transfer.md R350). -/
def portBase (s : State) : DWord :=
  if s.cfgValid then s.cfg.val.regBase
  else match s.reqs with
    | [] => s.cfgIn.regBase
    | q :: _ => q.cfgIn.regBase

/-- The events the block makes: reads of the registers it reads and legal writes of the registers it writes, all from
one base (10_state.md R65, R67), and whole-word stores (20_memory.md R85). It reads no memory (R93). -/
def LegalEvent (p : Params) (base : DWord) : Event → Prop
  | .regRead x r _ => x = base ∧ r.blockReads = true
  | .regWrite x r v => x = base ∧ r.blockWrites = true ∧ LegalWrite p r v
  | .memRead _ _ _ => False
  | .memWrite _ n _ => n = 4
  | .barrier | .cacheClean _ _ | .delay _ => True

/-- Which operation can end with which code (60_exceptions.md R407). Every operation but a malformed request
can end with OK. -/
def mayEndWith (i : Instr) (code : ResultCode) : Bool :=
  match code with
  | .ok => true
  | .configError =>
    match i with
    | .classify => false
    | _ => true
  | .fatalTimeout =>
    match i with
    | .init | .sendcmd _ _ _ | .updclk | .setclk | .cfgbus => true
    | _ => false
  | .hardwareError =>
    match i with
    | .sendcmd _ _ _ | .classify => true
    | _ => false
  | .invalidArgument =>
    match i with
    | .prepare | .read => true
    | _ => false
  | .notSupported =>
    match i with
    | .encode _ _ | .sendcmd _ _ _ | .write => true
    | _ => false
  | .illegalRequest => false

/-- The most events of one handshake, `H` (70_reset_and_hazards.md R471). -/
def handshakeBound (p : Params) : Nat := 1 + 4 * p.nClk

/-- The most events of an operation, with the operands latched in `s` (70_reset_and_hazards.md R471). -/
def eventBound (s : State) (i : Instr) : Nat :=
  let p := s.params
  let sequence := p.nBusy + 4 + 3 * handshakeBound p
  let chain (size chunk : Nat) := 4 * chainLength size chunk + 2
  match i with
  | .init => sequence + 1
  | .encode _ _ => 0
  | .sendcmd _ _ _ => p.nBusy + 4 + 2 * p.nPoll + 2 + 4
  | .classify => 0
  | .extract => 4
  | .updclk => handshakeBound p
  | .setclk => sequence
  | .setwidth => 1
  | .cfgbus => sequence + 1
  | .build => chain s.reqB.val.toNat s.reqC.val.toNat
  | .prepare =>
    if s.cfg.val.dmaCapable then 2 + 1 + chain s.reqC.val.toNat s.cfg.val.chunkMax.toNat else 2
  | .read => if s.cfg.val.dmaCapable then 0 else 2 * (s.reqB.val.toNat / 4)
  | .write => 0
  | .cmdwInit _ _ | .cmdwStop _ _ | .cmdwStatus _ _ | .cmdwRead _ _ | .cmdwWrite _ _ | .cmdwOther _ _
  | .cmdwHs | .des0First | .des0Middle | .des0Last | .des0Single => 0

/-! ## What each operation may change (the lists of State written in files 40 to 44) -/

/-- What an operation that ends in IDLE may change: the response port, the sequencer, and the two records. -/
def endParts : List Part := [.fsm, .resp, .hist, .trace]

/-- What a draw may change: the environment's answers still to come. -/
def drawParts : List Part := [.answers, .draws]

/-- What the controller may change while it carries commands out (log 16). -/
def carriedParts : List Part := [.started, .bus, .clock, .dmaCur, .dmaDirection, .dmaData, .dmaDraws]

/-- What a transfer that ends may change: the DMA engine's (log 17). -/
def transferParts : List Part := [.mem, .dmaCur, .dmaSent, .dmaData, .dmaDraws]

/-- What the environment may change while the block waits for it (log 33). -/
def besideParts : List Part := carriedParts ++ transferParts

/-- What SENDCMD may change up to the end of its completion poll (41_command_dispatch.md R200). -/
def sendcmdStopParts : List Part :=
  endParts ++ drawParts ++ [.pending, .rspCount, .rspWords, .cmdWord, .cmdData, .cnt, .pollCmdDone,
    .pollDto, .regCmdarg, .regCmd, .started]

/-- What SENDCMD may change when it ends with OK: the command has then been carried out, and a transfer of it is over
(log 33). -/
def sendcmdParts : List Part := sendcmdStopParts ++ carriedParts ++ transferParts

/-- What EXTRACT may change (41_command_dispatch.md R209). -/
def extractParts : List Part := endParts ++ drawParts ++ [.rspCount, .rspWords]

/-- What a handshake that does not return may change (42_clock_controller.md R262). -/
def updclkStopParts : List Part := endParts ++ drawParts ++ [.pending, .cnt, .regCmd, .started]

/-- What one handshake may change (42_clock_controller.md R264): the controller has then carried out what was started
(log 33). -/
def updclkParts : List Part := updclkStopParts ++ carriedParts

/-- What a clock sequence writes of the clock (42_clock_controller.md R272). -/
def clockParts : List Part := [.clkDiv, .clkEnabled, .regClkdiv, .regClksrc, .regClkena]

/-- What a clock sequence none of whose handshakes returns may change. -/
def setclkStopParts : List Part := updclkStopParts ++ clockParts

/-- What SETCLK may change (42_clock_controller.md R273). -/
def setclkParts : List Part := updclkParts ++ clockParts

/-- What SETWIDTH may change (42_clock_controller.md R280). -/
def setwidthParts : List Part := endParts ++ [.busWidth, .regCtype]

/-- What CFGBUS may change (42_clock_controller.md R285). -/
def cfgbusParts : List Part := setclkParts ++ [.busWidth, .regCtype]

/-- What INIT may change (44_facade_transfer.md R350). -/
def initParts : List Part := cfgbusParts ++ [.cfg, .cfgValid]

/-- What BUILD may change (43_dma_builder.md R321). -/
def buildParts : List Part := endParts ++ [.mem, .dirty, .chainCount, .regDbaddr]

/-- What PREPARE may change (44_facade_transfer.md R353). -/
def prepareParts : List Part := buildParts ++ [.regBytcnt, .pending]

/-- What READ may change (44_facade_transfer.md R356). -/
def readOpParts : List Part := endParts ++ drawParts ++ [.mem, .dirty]

/-- What an instruction may change, whatever the answers and however it ends, when no reset is coming:
FATAL_TIMEOUT sets `halted`, and HARDWARE_ERROR from SENDCMD writes `err.status` (60_exceptions.md R402, R403). -/
def frameParts : Instr → List Part
  | .init => .halted :: initParts
  | .encode _ _ => endParts
  | .sendcmd _ _ _ => .halted :: .errStatus :: sendcmdParts
  | .classify => endParts
  | .extract => extractParts
  | .updclk => .halted :: updclkParts
  | .setclk => .halted :: setclkParts
  | .setwidth => setwidthParts
  | .cfgbus => .halted :: cfgbusParts
  | .build => buildParts
  | .prepare => prepareParts
  | .read => readOpParts
  | .write => endParts
  | .cmdwInit _ _ | .cmdwStop _ _ | .cmdwStatus _ _ | .cmdwRead _ _ | .cmdwWrite _ _ | .cmdwOther _ _ =>
    [.started, .bus, .dmaCur, .dmaDirection, .dmaData, .dmaDraws]
  | .cmdwHs => [.started, .clock]
  | .des0First | .des0Middle => transferParts
  | .des0Last | .des0Single => .pending :: transferParts

/-- The block's state as a reset leaves it (10_state.md R75). -/
structure BlockReset (s : State) : Prop where
  fsm : s.fsm = .idle
  halted : s.halted = false
  cfgValid : s.cfgValid = false
  cfg : s.cfg.known = false
  busWidth : s.busWidth.known = false
  clkDiv : s.clkDiv.known = false
  clkEnabled : s.clkEnabled.known = false
  reqCtl : s.reqCtl.known = false
  reqA : s.reqA.known = false
  reqB : s.reqB.known = false
  reqC : s.reqC.known = false
  cnt : s.cnt.known = false
  cmdWord : s.cmdWord.known = false
  cmdData : s.cmdData.known = false
  pollCmdDone : s.pollCmdDone.known = false
  pollDto : s.pollDto.known = false
  rspCount : s.rspCount = .zero
  rspWords : ∀ k : Fin 4, (s.rspWords[k]).known = false
  errStatus : s.errStatus.known = false
  chainCount : s.chainCount.known = false
  resp : s.resp = none

/-- The bytes the DMA engine stores to with the descriptor at `a`, as address and length: the segment on a read
transfer, and OWN's byte (log 17, log 18). -/
def descriptorStores (a : Nat) (s : State) : List (Nat × Nat) :=
  let (des1, t) := engineWord (a + 4) s
  let (des2, t) := engineWord (a + 8) t
  (a + 3, 1) :: if t.dma.toDevice then [] else [(des2.toNat, desLength des1)]

/-- The bytes the DMA engine stores to while it runs on to the end of its chain. -/
def runStores : (limit : Nat) → State → List (Nat × Nat)
  | 0, _ => []
  | limit + 1, s =>
    match s.dma.cur with
    | none => []
    | some a =>
      let (w, t) := engineWord a s
      match chainsOn w with
      | some true => descriptorStores a t ++ runStores limit (useDescriptor true a t)
      | some false => descriptorStores a t
      | none => []

/-- A SENDCMD that transfers data by DMA: its word carries data, in DMA mode. -/
def transfersData (i : Instr) (s : State) : Bool :=
  match i with
  | .sendcmd idx shape _ =>
    s.cfg.val.dmaCapable &&
      ((encodeCommand s.params idx shape s.cfg.val.dmaCapable).any (dataCarrying s.params.cmdBits))
  | _ => false

/-- The bytes an instruction may store to, as address and length, with the operands latched in `s`: the region its rule
names (43_dma_builder.md R321, 44_facade_transfer.md R353, R356; log 17). -/
def storesOf (i : Instr) (s : State) : List (Nat × Nat) :=
  let c := s.cfg.val
  let chain (size chunk : Nat) := (c.descBase.toNat, descBytes * chainLength size chunk)
  match i with
  | .build => [chain s.reqB.val.toNat s.reqC.val.toNat]
  | .prepare => if c.dmaCapable then [chain s.reqC.val.toNat c.chunkMax.toNat] else []
  | .read => if c.dmaCapable then [] else [(s.reqA.val.toNat, s.reqB.val.toNat)]
  | .des0First | .des0Middle | .des0Last | .des0Single => (s.dma.cur.map (descriptorStores · s)).getD []
  | .init | .encode _ _ | .sendcmd _ _ _ | .classify | .extract | .updclk | .setclk | .setwidth | .cfgbus
  | .write | .cmdwInit _ _ | .cmdwStop _ _ | .cmdwStatus _ _ | .cmdwRead _ _ | .cmdwWrite _ _
  | .cmdwOther _ _ | .cmdwHs => []

/-- The parts of the state that are the block's own (10_state.md R30), and the reset input. -/
def blockParts : List Part :=
  [.cfg, .cfgValid, .busWidth, .clkDiv, .clkEnabled, .fsm, .halted, .reqCtl, .reqA, .reqB, .reqC, .cnt,
   .cmdWord, .cmdData, .pollCmdDone, .pollDto, .rspCount, .rspWords, .errStatus, .chainCount, .resp, .rst,
   .trace]

/-- The parts of the state outside the block that the controller and the DMA engine may change. -/
def environmentParts : List Part :=
  [.sched, .dmaData, .dmaDraws, .mem, .started, .pending, .clock, .bus, .dmaCur, .dmaDirection, .dmaSent]

/-! ## Tables of the spec -/

/-- The table of 40_command_encoder.md R171. -/
def encodedTable : CmdClass → Shape → Word
  | .init, .none => 0xA0008000
  | .init, .shortCrc => 0xA0008140
  | .init, .long136 => 0xA00081C0
  | .init, .noCrc => 0xA0008040
  | .stop, .none => 0xA0004000
  | .stop, .shortCrc => 0xA0004140
  | .stop, .long136 => 0xA00041C0
  | .stop, .noCrc => 0xA0004040
  | .status, .none => 0xA0002000
  | .status, .shortCrc => 0xA0002140
  | .status, .long136 => 0xA00021C0
  | .status, .noCrc => 0xA0002040
  | .read, .none => 0xA0002200
  | .read, .shortCrc => 0xA0002340
  | .read, .long136 => 0xA00023C0
  | .read, .noCrc => 0xA0002240
  | .write, .none => 0xA0002600
  | .write, .shortCrc => 0xA0002740
  | .write, .long136 => 0xA00027C0
  | .write, .noCrc => 0xA0002640
  | .other, .none => 0xA0000000
  | .other, .shortCrc => 0xA0000140
  | .other, .long136 => 0xA00001C0
  | .other, .noCrc => 0xA0000040

end Sys2Proof.Machine
end

