-- ==== Sys2Proof/Certificates/Slice0/Obligations.lean ====
section
/-! DEFINITION. The statements for the provers. In a statement about an operation, `c` is the configuration the
block holds, `drawAt s k` the answer to the (k+1)-th draw from `s` on, and `KeepsAllBut` the frame: every part of
the state that is not listed is unchanged. -/

open Sys2Proof Sys2Proof.Machine

/-! ## Encoding -/

/-- Decoding the encoded word of a well-formed instruction gives it back, for all 24 rows (30_encoding.md R147,
R122, R136; 40_command_encoder.md R171). The command words are under the default layout. -/
def Obligations.DecodeOfEncodeIsTheInstruction : Prop :=
  ∀ i : Instr, i.wf = true → decode (encode i) = .ok i

/-- A word that decodes has one meaning: it is the encoding of the well-formed instruction it decodes to. -/
def Obligations.EncodeOfDecodedIsTheWord : Prop :=
  ∀ (w : Word) (i : Instr), decode w = .ok i → i.wf = true ∧ encode i = w

/-- Words written out from the spec's encodings decode to the instructions they stand for (30_encoding.md R147's
example, R122, R136; 40_command_encoder.md R171). -/
def Obligations.SpecWordsDecode : Prop :=
  decode 0x00001513 = .ok (.sendcmd 17 .shortCrc .read) ∧ decode 0x00000001 = .ok .init ∧
  decode 0x000003F2 = .ok (.encode 63 .none) ∧ decode 0x0000000B = .ok .prepare ∧
  decode 0xA0008000 = .ok (.cmdwInit 0 .none) ∧ decode 0xA0002751 = .ok (.cmdwWrite 17 .shortCrc) ∧
  decode 0x80202000 = .ok .cmdwHs ∧ decode 0x8000001A = .ok .des0First ∧
  decode 0x8000000C = .ok .des0Single ∧ (decode 0x0000000E).isOk = false ∧
  (decode 0x00003113).isOk = false ∧ (decode 0x80000000).isOk = false

/-- A request word spells no operation exactly in the cases of 30_encoding.md R113. -/
def Obligations.RequestWordSpellsNothingExactly : Prop :=
  ∀ w : Word,
    let op := w.extractLsb' 0 4
    let idx := w.extractLsb' 4 6
    let shape := w.extractLsb' 10 2
    let dir := w.extractLsb' 12 2
    (∃ r, decodeRequest w = .error r) ↔
      (op = 0 ∨ op = 0xE ∨ op = 0xF) ∨ w.extractLsb' 14 18 ≠ 0 ∨ dir = 3 ∨
      (op ≠ 2 ∧ op ≠ 3 ∧ (idx ≠ 0 ∨ shape ≠ 0)) ∨ (op ≠ 3 ∧ dir ≠ 0)

/-- Every flag of an encoded command word is set exactly as 40_command_encoder.md R162, R164, R165, R168 and
R169 say, under every layout of 30_encoding.md R121: the index in bits [5:0], START and USE_HOLD_REG always,
UPDATE_CLK_ONLY never (30_encoding.md R123), and every bit without a name clear. -/
def Obligations.CommandWordFlagsAreTheirGroups : Prop :=
  ∀ (p : Params) (idx : Nat) (shape : Shape) (dma : Bool) (w : Word), p.cmdBits.wf → idx < 64 →
    encodeCommand p idx shape dma = some w →
    let b := p.cmdBits
    let cls := classOf p.classTable idx
    (w.extractLsb' 0 6).toNat = idx ∧
    w.getLsbD b.start = true ∧ w.getLsbD b.useHoldReg = true ∧ w.getLsbD b.updateClkOnly = false ∧
    w.getLsbD b.sendInit = (cls == .init) ∧ w.getLsbD b.stopAbort = (cls == .stop) ∧
    w.getLsbD b.write = (cls == .write) ∧
    w.getLsbD b.waitPrvdata = (cls == .status || cls == .read || cls == .write) ∧
    w.getLsbD b.dataExpected = (cls == .read || cls == .write) ∧
    w.getLsbD b.respExpect = (shape != .none) ∧ w.getLsbD b.respLong = (shape == .long136) ∧
    w.getLsbD b.checkCrc = (shape == .shortCrc || shape == .long136) ∧
    (∀ n, 6 ≤ n → n ∉ b.positions → w.getLsbD n = false) ∧
    dataCarrying b w = (cls == .read || cls == .write) ∧
    respCount b w = (match shape with
      | .none => .zero
      | .shortCrc | .noCrc => .one
      | .long136 => .four)

/-- 40_command_encoder.md R171: under the default parameters every word `encode` returns is the table's, OR'ed
with the index; the rows are distinct in each group; and a decoder recovers class group, shape and index. -/
def Obligations.EncodedWordsAreTheTable : Prop :=
  (∀ (idx : Nat) (shape : Shape) (dma : Bool) (w : Word), idx < 64 →
    encodeCommand defaultParams idx shape dma = some w →
    w = encodedTable (classOf defaultClassTable idx) shape ||| BitVec.ofNat 32 idx) ∧
  (∀ (k k' : CmdClass) (shape shape' : Shape),
    encodedTable k shape &&& 0xE600 = encodedTable k' shape' &&& 0xE600 → k = k') ∧
  (∀ (k k' : CmdClass) (shape shape' : Shape),
    encodedTable k shape &&& 0x1C0 = encodedTable k' shape' &&& 0x1C0 → shape = shape') ∧
  (∀ (idx : Nat) (shape : Shape) (k : CmdClass), idx < 64 →
    decodeCommand defaultCmdBits (encodedTable k shape ||| BitVec.ofNat 32 idx) =
      .ok (commandInstr k idx shape))

/-! ## The step -/

/-- A step runs the decoded instruction: the block the request on its port, with its latches loaded (30_encoding.md
R110); the controller the oldest command started; the DMA engine the descriptor it is at. Acceptance loads the four
operand latches and `cfg_in` from the request (10_state.md R50) and takes it from the port, and nothing else changes
but that the last response is over (30_encoding.md R118) and a coming reset is one move nearer (the model's count,
log 11). The schedule, of which a move takes the head, is the model's own (log 2). -/
def Obligations.StepRunsTheDecodedInstruction : Prop :=
  (∀ (s : State) (q : Request) (rest : List Request) (i : Instr), blockMoves s → s.rst ≠ some 0 →
    s.fsm = .idle → s.reqs = q :: rest → decodeRequest q.ctl = .ok i →
    step s = exec i (accept q rest (moved s))) ∧
  (∀ (s : State) (later : List Agent) (k : Started) (rest : List Started) (i : Instr),
    s.sched = .controller :: later → s.ctl.started = k :: rest →
    decodeCommand s.params.cmdBits k.word = .ok i → step s = exec i (moved s)) ∧
  (∀ (s : State) (later : List Agent) (a : Nat) (w : Word) (i : Instr),
    s.sched = .engine :: later → s.dma.cur = some a → engineSeesWord s a w → decodeDes0 w = .ok i →
    step s = exec i (moved s)) ∧
  (∀ (s : State) (q : Request) (rest : List Request),
    let t := accept q rest s
    t.reqCtl = .holds q.ctl ∧ t.reqA = .holds q.a ∧ t.reqB = .holds q.b ∧ t.reqC = .holds q.c ∧
    t.cfgIn = q.cfgIn ∧ t.reqs = rest ∧ t.resp = none ∧ t.rst = s.rst.map (· - 1) ∧
    KeepsAllBut [.reqCtl, .reqA, .reqB, .reqC, .cfgIn, .reqs, .rst, .resp] s t) ∧
  (∀ s : State, (moved s).sched = s.sched.tail ∧ KeepsAllBut [.sched] s (moved s))

/-- A request that spells no operation ends with ILLEGAL_REQUEST, before any other check, with no access and no
change but the response port (30_encoding.md R113, 60_exceptions.md R406), when no reset comes with it. That it is
accepted like any other, into the operand latches, is the model's reading (log 13), and so is the count of a coming
reset (log 11). -/
def Obligations.MalformedRequestIsAnswered : Prop :=
  ∀ (s : State) (q : Request) (rest : List Request) (r : Reject), blockMoves s → s.rst ≠ some 0 →
    s.rst ≠ some 1 → s.fsm = .idle → ResponseKnown s → s.reqs = q :: rest → decodeRequest q.ctl = .error r →
    step s = .next (answered .illegalRequest 0 0 (accept q rest (moved s)))

/-- 10_state.md R44: in HALTED the block accepts no request, makes no access and changes no state; with no reset
coming it has no step; only reset leaves it. While a reset is coming its move ends the response of the last operation,
which is over after one cycle (30_encoding.md R118). A block in IDLE with no request, and no reset there, waits
(70_reset_and_hazards.md R451 for the run from reset): its move ends that response likewise, and changes nothing else.
THE MODEL'S CHOICES: that there are such moves (log 11, log 26), the schedule they come from (log 2), and the count of a
coming reset that they take one nearer (log 11). -/
def Obligations.HaltedBlockIsStuck : Prop :=
  (∀ s : State, blockMoves s → s.fsm = .halted →
    (s.rst = none → step s = .fault .blockHalted) ∧
    (∀ n, s.rst = some (n + 1) → ∃ t, step s = .next t ∧ t.resp = none ∧ t.rst = some n ∧
      t.sched = s.sched.tail ∧ KeepsAllBut [.sched, .rst, .resp] s t) ∧
    (s.rst = some 0 → ∃ t, step s = .next t ∧ t.fsm = .idle ∧ t.halted = false)) ∧
  (∀ s : State, blockMoves s → s.rst ≠ some 0 → s.fsm = .idle → s.reqs = [] →
    ∃ t, step s = .next t ∧ t.resp = none ∧ t.rst = s.rst.map (· - 1) ∧ t.sched = s.sched.tail ∧
      KeepsAllBut [.sched, .rst, .resp] s t)

/-- 10_state.md R75: the state right after reset. -/
def Obligations.ResetStateIsAsTheSpecSays : Prop := BlockReset State.reset

/-- 70_reset_and_hazards.md R450: a reset takes effect in every state, sets the block's state to the values of
10_state.md R75 and keeps all that is outside the block; it abandons an operation in progress, wherever in it the
reset comes: no event of it follows, and it drives no response. THE MODEL'S CHOICES in it are these: the reset event
releases `rst`, and a coming reset is counted in the block's events and acceptances, so that an operation whose events
are over before it comes is answered (log 11); and a reset takes effect when the block moves (log 2). -/
def Obligations.ResetTakesEffectInEveryState : Prop :=
  (∀ s : State, blockMoves s → s.rst = some 0 →
    ∃ t, step s = .next t ∧ BlockReset t ∧ t.rst = none ∧ KeepsAllBut (.sched :: blockParts) s t) ∧
  (∀ (i : Instr) (s t : State) (n : Nat), i.agent = .block → s.rst = some n → exec i s = .next t →
    (BlockReset t ∧ t.rst = none ∧ t.hist.length = s.hist.length + n) ∨
    (∃ k, 1 ≤ k ∧ t.rst = some k ∧ t.hist.length + k = s.hist.length + n ∧ t.resp ≠ none)) ∧
  (∀ (s : State) (q : Request) (rest : List Request) (i : Instr), blockMoves s → s.rst = some 1 →
    s.fsm = .idle → s.reqs = q :: rest → decodeRequest q.ctl = .ok i → Inv s →
    ∃ t, step s = .next t ∧ BlockReset t ∧ t.hist = s.hist ∧ t.mem = s.mem ∧ t.ctl = s.ctl)

/-- The invariant holds right after reset. -/
def Obligations.ResetHasTheInvariant : Prop := Inv State.reset

/-- Every step of every agent keeps the invariant: the parameters well formed, memory canonical, `halted` and
`fsm.state` as 10_state.md R45 says, a legal configuration while `cfg.valid = 1` (R33), a legal divisor (R34) and
width (R31), and the response words below the count known (R55). -/
def Obligations.StepKeepsTheInvariant : Prop :=
  ∀ s t : State, Inv s → step s = .next t → Inv t

/-- No operation reads an UNKNOWN element (70_reset_and_hazards.md R451, 00_scope.md R15). -/
def Obligations.StepNeverReadsUnknown : Prop :=
  ∀ (s : State) (e : Element), Inv s → step s ≠ .fault (.unknownRead e)

/-- Every accepted request ends with exactly one response, of a code that 60_exceptions.md R407 gives its
operation, whatever the controller answers; the block is then in IDLE, or in HALTED after FATAL_TIMEOUT (R400,
R416); `rsp_status` and `rsp_value` of an error are as R400 says. That one step of the model runs the whole operation
is the model's choice (log 1). -/
def Obligations.EveryRequestIsAnswered : Prop :=
  ∀ (s : State) (q : Request) (rest : List Request) (i : Instr), Inv s → blockMoves s → s.rst = none →
    s.fsm = .idle → s.reqs = q :: rest → decodeRequest q.ctl = .ok i →
    ∃ t code value status, step s = .next t ∧ Drives t code value status ∧ t.reqs = rest ∧
      mayEndWith i code = true ∧ t.fsm = (if code = .fatalTimeout then .halted else .idle) ∧
      (code ≠ .hardwareError → status = 0) ∧ (code ≠ .ok → i ≠ .classify → value = 0)

/-- The parameters of 00_scope.md R9 never change during a run. -/
def Obligations.ParametersNeverChange : Prop :=
  ∀ s t : State, step s = .next t → t.params = s.params

/-- Every step only appends to the history, and only legal events: the block reads and writes only the registers
that 10_state.md R65 marks for it (R67), at `cfg.regBase` (20_memory.md R81) with the offsets of R65's map, with the
values of 30_encoding.md R123 (an index of 6 bits), R132, R140 and R141; it stores whole words (20_memory.md R85) and
reads no memory (R93). -/
def Obligations.HistoryGrowsByLegalEvents : Prop :=
  (∀ s t : State, step s = .next t →
    ∃ es, t.hist = s.hist ++ es ∧ ∀ e ∈ es, LegalEvent s.params (portBase s) e) ∧
  (∀ r : CtlReg, r.offset = match r with
    | .ctrl => 0x00 | .pwren => 0x04 | .clkdiv => 0x08 | .clksrc => 0x0C | .clkena => 0x10 | .tmout => 0x14
    | .ctype => 0x18 | .blksiz => 0x1C | .bytcnt => 0x20 | .intmask => 0x24 | .cmdarg => 0x28 | .cmd => 0x2C
    | .resp0 => 0x30 | .resp1 => 0x34 | .resp2 => 0x38 | .resp3 => 0x3C | .rintsts => 0x44 | .status => 0x48
    | .fifoth => 0x4C | .bmod => 0x80 | .dbaddr => 0x88 | .fifo => 0x200) ∧
  (∀ r : CtlReg, (r.blockReads = true ∨ r.blockWrites = true) ↔
    r.offset ∉ [0x00, 0x04, 0x14, 0x1C, 0x24, 0x4C, 0x80])

/-- 30_encoding.md R132: a write to RINTSTS clears one pending bit for each 1 in the value, and the block writes
exactly three kinds of value: all ones, CMD_DONE or DTO alone, and HLE alone. 10_state.md R71 has a bit stay pending
until it is cleared.
THE MODEL'S CHOICES in it are these (log 9): that the controller's pending bits stand in the record `ctl.pending`, PRESUMED
write-1-to-clear; and that a read leaves a pending bit it does not show in the record, while the bits it shows join it. -/
def Obligations.RintstsWritesClearPendingBits : Prop :=
  (∀ (c : Cfg) (s t : State) (v p : Word), s.ctl.pending = .holds p →
    regWrite c .rintsts v s = .ok () t → t.ctl.pending = .holds (p &&& ~~~v)) ∧
  (∀ (s t : State) (base : DWord) (v : Word) (es : List Event), step s = .next t → t.hist = s.hist ++ es →
    .regWrite base .rintsts v ∈ es →
    v = 0xFFFFFFFF ∨ v = bit s.params.intBits.cmdDone ∨ v = bit s.params.intBits.dto ∨
      v = bit s.params.intBits.hle) ∧
  (∀ (c : Cfg) (s t : State) (v p : Word), s.ctl.pending = .holds p →
    regRead c .rintsts s = .ok v t → t.ctl.pending = .holds (p ||| v)) ∧
  (∀ (c : Cfg) (r : CtlReg) (s t : State) (v : Word), r ≠ .rintsts →
    (regRead c r s = .ok v t ∨ regWrite c r v s = .ok () t) → t.ctl.pending = s.ctl.pending)

/-- Only INIT, SETCLK and CFGBUS write `clk.*`, CLKDIV, CLKENA or CLKSRC (10_state.md R36). -/
def Obligations.ClockIsTheClockControllersAlone : Prop :=
  ∀ (i : Instr) (s t : State), s.rst = none → i ≠ .init → i ≠ .setclk → i ≠ .cfgbus →
    exec i s = .next t →
    t.clkDiv = s.clkDiv ∧ t.clkEnabled = s.clkEnabled ∧
    t.ctl.regs.clkdiv = s.ctl.regs.clkdiv ∧ t.ctl.regs.clkena = s.ctl.regs.clkena ∧
    t.ctl.regs.clksrc = s.ctl.regs.clksrc

/-- THE FRAME of every instruction, whatever the answers and however it ends, in a response or in a reset: it changes
only what its rule's "State written" lists, the response port, and the records (files 40 to 44; log 16, log 17, log 33
for the controller and the engine). No operation writes the operand latches (10_state.md R50), the configuration is
INIT's (R31). Of memory it changes only bytes of the region the rule names (`storesOf`): BUILD's and PREPARE's
descriptors, READ's buffer, a descriptor's segment and OWN byte. A SENDCMD that transfers data by DMA, a reset coming or
not, leaves memory as before, or, once it has seen its command complete, as the transfer of the one command it started
leaves it, and then only segments and OWN bytes of the descriptors the engine used have changed. THE MODEL'S CHOICES in
that clause: an issued command that ends in an error, a timeout or a reset has moved nothing of memory yet (log 2, log
33), and one that completes has moved all that its transfer moves (log 33). -/
def Obligations.InstructionsChangeOnlyTheirState : Prop :=
  (∀ (i : Instr) (s t : State), s.rst = none → exec i s = .next t → KeepsAllBut (frameParts i) s t) ∧
  (∀ (i : Instr) (s t : State), exec i s = .next t →
    KeepsAllBut (.rst :: frameParts i) s t ∨
    ∃ u, KeepsAllBut (.rst :: frameParts i) s u ∧ t = resetEvent u) ∧
  (∀ (i : Instr) (s t : State), exec i s = .next t → transfersData i s = false →
    MemoryKeptOutsideAll (storesOf i s) s t) ∧
  (∀ (idx : Nat) (shape : Shape) (dir : Dir) (s t : State) (w : Word),
    exec (.sendcmd idx shape dir) s = .next t → transfersData (.sendcmd idx shape dir) s = true →
    encodeCommand s.params idx shape s.cfg.val.dmaCapable = some w →
    t.mem = s.mem ∨
    ∃ u, KeepsAllBut (.rst :: .errStatus :: sendcmdStopParts) s u ∧
      (anySet w (bit s.params.cmdBits.start) = true → ∃ k, u.ctl.started = s.ctl.started ++ [k] ∧ k.word = w ∧
        k.regs.dbaddr = s.ctl.regs.dbaddr ∧ k.dma = true) ∧
      t.mem = (u.carriedOut.transferOver s.cfg.val).mem ∧
      MemoryKeptOutsideAll (runStores (s.cfg.val.descSize.toNat / 16) u.carriedOut) s t)

/-- 70_reset_and_hazards.md R471: the most events each operation can make, whatever the controller answers. -/
def Obligations.OperationsMakeBoundedEvents : Prop :=
  ∀ (i : Instr) (s t : State), exec i s = .next t → t.hist.length ≤ s.hist.length + eventBound s i

/-! ## Command dispatch -/

/-- 41_command_dispatch.md R202: `issue` makes exactly four events, in this order, and the CMD write starts the
command in the controller with the argument just written. THE MODEL'S CHOICES: that the clear-all makes the record of
pending bits known (log 9), and that a started command carries the registers of its CMD write (log 16, log 31). -/
def Obligations.IssueMakesFourEvents : Prop :=
  ∀ (c : Cfg) (arg w : Word) (s : State), s.rst = none →
    ∃ t, issue c arg w s = .ok () t ∧
      t.hist = s.hist ++ [.regWrite c.regBase .rintsts 0xFFFFFFFF, .regWrite c.regBase .cmdarg arg, .barrier,
        .regWrite c.regBase .cmd w] ∧
      t.ctl.regs.cmdarg = .holds arg ∧ t.ctl.regs.cmd = .holds w ∧ t.ctl.pending = .holds 0 ∧
      (anySet w (bit s.params.cmdBits.start) = true → ∃ k, t.ctl.started = s.ctl.started ++ [k] ∧
        k.word = w ∧ k.regs.cmdarg = .holds arg ∧ k.dma = c.dmaCapable) ∧
      KeepsAllBut [.hist, .pending, .regCmdarg, .regCmd, .started] s t

/-- 41_command_dispatch.md R201: the busy wait returns on the first read that shows not-busy, even the N_BUSY-th,
and raises FATAL_TIMEOUT after N_BUSY busy reads. -/
def Obligations.BusyWaitIsBounded : Prop :=
  (∀ (c : Cfg) (s : State) (m : Nat), s.rst = none → BusyEnds s 0 m →
    ∃ t, busyWait c s = .ok () t ∧ t.hist = s.hist ++ statusReads c s 0 (m + 1) ∧
      t.cnt = .holds (BitVec.ofNat 32 (m + 1)) ∧ t.draws = s.draws + (m + 1) ∧
      KeepsAllBut [.answers, .draws, .hist, .cnt] s t) ∧
  (∀ (c : Cfg) (s : State), s.rst = none → BusyRunsOut s 0 →
    ∃ t, busyWait c s = .stop (.raised .fatalTimeout) t ∧
      t.hist = s.hist ++ statusReads c s 0 s.params.nBusy ∧
      t.cnt = .holds (BitVec.ofNat 32 s.params.nBusy) ∧
      KeepsAllBut [.answers, .draws, .hist, .cnt] s t)

/-- 41_command_dispatch.md R203 and R205: in one read the error check comes first, the clears second (CMD_DONE,
then DTO, each once), the completion check third; a read that completes the command is a success even when it is
the N_POLL-th; else FATAL_TIMEOUT. -/
def Obligations.CompletionPollFollowsItsChecks : Prop :=
  (∀ (c : Cfg) (data : Bool) (s : State) (n : Nat), s.rst = none → PollEnds s 0 data n →
    ∃ t, pollCompletion c data s = .ok () t ∧ t.hist = s.hist ++ pollEvents c s 0 data (n + 1) ∧
      t.cnt = .holds (BitVec.ofNat 32 (n + 1)) ∧ t.pollCmdDone = .holds true ∧ t.pollDto = .holds data ∧
      KeepsAllBut [.answers, .draws, .hist, .pending, .cnt, .pollCmdDone, .pollDto] s t) ∧
  (∀ (c : Cfg) (data : Bool) (s : State) (n : Nat), s.rst = none → PollFails s 0 data n →
    ∃ t, pollCompletion c data s = .stop (.raised (.hardwareError (drawAt s n) 0)) t ∧
      t.hist = s.hist ++ pollEvents c s 0 data n ++ pollRead c s 0 n ∧ t.errStatus = .holds (drawAt s n) ∧
      KeepsAllBut [.answers, .draws, .hist, .pending, .cnt, .pollCmdDone, .pollDto, .errStatus] s t) ∧
  (∀ (c : Cfg) (data : Bool) (s : State), s.rst = none → PollQuiet s 0 data s.params.nPoll →
    ∃ t, pollCompletion c data s = .stop (.raised .fatalTimeout) t ∧
      t.hist = s.hist ++ pollEvents c s 0 data s.params.nPoll ∧
      t.cnt = .holds (BitVec.ofNat 32 s.params.nPoll) ∧
      KeepsAllBut [.answers, .draws, .hist, .pending, .cnt, .pollCmdDone, .pollDto] s t)

/-- SENDCMD completes (41_command_dispatch.md R200): the whole sequence, its events, its response and its frame,
for every class, shape and direction, when the busy wait and the completion poll end within their budgets. The command
has then been carried out, and the transfer of a data-carrying one in DMA mode is over (70_reset_and_hazards.md R466);
what that does to the controller, the engine and memory is `commandOver`, the model's reading (log 33). -/
def Obligations.SendcmdCompletes : Prop :=
  ∀ (idx : Nat) (shape : Shape) (dir : Dir) (c : Cfg) (s : State) (a : DWord) (w : Word) (m n : Nat),
    Ready c s → s.reqA = .holds a → encodeCommand s.params idx shape c.dmaCapable = some w →
    BusyEnds s 0 m → PollEnds s (m + 1) (dataCarrying s.params.cmdBits w) n →
    let data := dataCarrying s.params.cmdBits w
    let count := respCount s.params.cmdBits w
    ∃ u t, exec (.sendcmd idx shape dir) s = .next t ∧ t.fsm = .idle ∧ Drives t .ok 0 0 ∧
      t.cmdWord = .holds w ∧ t.cmdData = .holds data ∧ t.cnt = .holds (BitVec.ofNat 32 (n + 1)) ∧
      t.pollCmdDone = .holds true ∧ t.pollDto = .holds data ∧
      t.rspCount = count ∧ t.rspWords = respLatches s (m + n + 2) count ∧
      t.ctl.regs.cmdarg = .holds (low32 a) ∧ t.ctl.regs.cmd = .holds w ∧
      t.hist = s.hist ++ (statusReads c s 0 (m + 1) ++ issueEvents c (low32 a) w ++
        pollEvents c s (m + 1) data (n + 1) ++ respReads c s (m + n + 2) count) ∧
      t.trace = s.trace ++ [.busyWait, .issue, .pollCompletion, .readResponse, .idle] ∧
      t.ctl.started = [] ∧ (data = true → c.dmaCapable = true → t.dma.cur = none) ∧
      KeepsAllBut sendcmdStopParts s u ∧
      (anySet w (bit s.params.cmdBits.start) = true → ∃ k, u.ctl.started = s.ctl.started ++ [k] ∧ k.word = w ∧
        k.regs.cmdarg = .holds (low32 a) ∧ k.regs.dbaddr = s.ctl.regs.dbaddr ∧ k.dma = c.dmaCapable) ∧
      KeepsAllBut (endParts ++ drawParts ++ [.rspCount, .rspWords]) (commandOver c data u) t ∧
      KeepsAllBut (if data && c.dmaCapable then sendcmdParts else sendcmdStopParts ++ carriedParts) s t

/-- 41_command_dispatch.md R210: SENDCMD that observes any of the eight error bits reports HARDWARE_ERROR with that
exact status word, without reading a response register. THE MODEL'S CHOICE in its frame: the issued command has moved
nothing yet of memory, of the bus record or of the DMA engine (log 2, log 33). -/
def Obligations.SendcmdReportsHardwareError : Prop :=
  ∀ (idx : Nat) (shape : Shape) (dir : Dir) (c : Cfg) (s : State) (a : DWord) (w : Word) (m n : Nat),
    Ready c s → s.reqA = .holds a → encodeCommand s.params idx shape c.dmaCapable = some w →
    BusyEnds s 0 m → PollFails s (m + 1) (dataCarrying s.params.cmdBits w) n →
    let data := dataCarrying s.params.cmdBits w
    ∃ t, exec (.sendcmd idx shape dir) s = .next t ∧ t.fsm = .idle ∧
      Drives t .hardwareError 0 (drawAt s (m + 1 + n)) ∧ t.errStatus = .holds (drawAt s (m + 1 + n)) ∧
      t.rspCount = .zero ∧ t.rspWords = s.rspWords ∧
      t.hist = s.hist ++ (statusReads c s 0 (m + 1) ++ issueEvents c (low32 a) w ++
        pollEvents c s (m + 1) data n ++ pollRead c s (m + 1) n) ∧
      t.trace = s.trace ++ [.busyWait, .issue, .pollCompletion, .idle] ∧
      KeepsAllBut (.errStatus :: sendcmdStopParts) s t

/-- SENDCMD times out in its busy wait, before any command is issued, or in its completion poll; the block halts
(41_command_dispatch.md R207, 60_exceptions.md R402). THE MODEL'S CHOICE in the frame after an issued command: it has
moved nothing yet of memory, of the bus record or of the DMA engine (log 2, log 33). -/
def Obligations.SendcmdTimesOut : Prop :=
  ∀ (idx : Nat) (shape : Shape) (dir : Dir) (c : Cfg) (s : State) (a : DWord) (w : Word),
    Ready c s → s.reqA = .holds a → encodeCommand s.params idx shape c.dmaCapable = some w →
    (BusyRunsOut s 0 →
      ∃ t, exec (.sendcmd idx shape dir) s = .next t ∧ t.fsm = .halted ∧ t.halted = true ∧
        Drives t .fatalTimeout 0 0 ∧ t.rspCount = .zero ∧
        t.hist = s.hist ++ statusReads c s 0 s.params.nBusy ∧
        t.trace = s.trace ++ [.busyWait, .halted] ∧ KeepsAllBut (.halted :: sendcmdStopParts) s t) ∧
    (∀ m, BusyEnds s 0 m → PollQuiet s (m + 1) (dataCarrying s.params.cmdBits w) s.params.nPoll →
      ∃ t, exec (.sendcmd idx shape dir) s = .next t ∧ t.fsm = .halted ∧ t.halted = true ∧
        Drives t .fatalTimeout 0 0 ∧ t.rspCount = .zero ∧
        t.hist = s.hist ++ (statusReads c s 0 (m + 1) ++ issueEvents c (low32 a) w ++
          pollEvents c s (m + 1) (dataCarrying s.params.cmdBits w) s.params.nPoll) ∧
        t.trace = s.trace ++ [.busyWait, .issue, .pollCompletion, .halted] ∧
        KeepsAllBut (.halted :: sendcmdStopParts) s t)

/-- 41_command_dispatch.md R207: whatever the controller answers, SENDCMD takes one of the paths of the source's
state machine, and its code says which. -/
def Obligations.SendcmdTakesATransitionPath : Prop :=
  ∀ (idx : Nat) (shape : Shape) (dir : Dir) (c : Cfg) (s : State) (a : DWord),
    Ready c s → s.reqA = .holds a →
    ∃ t code value status path, exec (.sendcmd idx shape dir) s = .next t ∧ Drives t code value status ∧
      t.trace = s.trace ++ path ∧
      ((code = .notSupported ∧ path = [.idle]) ∨
       (code = .ok ∧ path = [.busyWait, .issue, .pollCompletion, .readResponse, .idle]) ∨
       (code = .hardwareError ∧ path = [.busyWait, .issue, .pollCompletion, .idle]) ∨
       (code = .fatalTimeout ∧ (path = [.busyWait, .halted] ∨
         path = [.busyWait, .issue, .pollCompletion, .halted])))

/-- 40_command_encoder.md R163, 60_exceptions.md R405: in polled mode ENCODE and SENDCMD of a WRITE-class index and
every WRITE end with NOT_SUPPORTED, with no access; SENDCMD has set `rsp.count` to 0. THE MODEL'S READING: WRITE has
entered EXEC, which 10_state.md R42 says of every operation of its file and the pseudocode of 44_facade_transfer.md R357
does not show (log 14). -/
def Obligations.WriteInPolledModeIsNotSupported : Prop :=
  ∀ (idx : Nat) (shape : Shape) (dir : Dir) (c : Cfg) (s : State) (a : DWord), Ready c s →
    s.reqA = .holds a → c.dmaCapable = false →
    exec .write s = .next (answered .notSupported 0 0 (s.setFsm .exec)) ∧
    (classOf s.params.classTable idx = .write →
      encodeCommand s.params idx shape c.dmaCapable = none ∧
      exec (.encode idx shape) s = .next (answered .notSupported 0 0 s) ∧
      exec (.sendcmd idx shape dir) s =
        .next (answered .notSupported 0 0 (s.setResponse .zero s.rspWords)))

/-- 41_command_dispatch.md R204, R208: a status word is an error exactly when one of the eight error bits is set;
CLASSIFY answers HARDWARE_ERROR with the raw word and `status & ERR_MASK`, or OK with value 0, and changes nothing
but the response port; it runs with `cfg.valid = 0` too. -/
def Obligations.ClassifyAnswersTheErrorBits : Prop :=
  (∀ (b : IntBits) (w : Word), isError b w =
    (w.getLsbD b.ebe || w.getLsbD b.sbe || w.getLsbD b.hle || w.getLsbD b.frun || w.getLsbD b.drto ||
      w.getLsbD b.rto || w.getLsbD b.dcrc || w.getLsbD b.rcrc)) ∧
  (∀ (s : State) (a : DWord), ResponseKnown s → s.rst ≠ some 0 → s.reqA = .holds a →
    let w := low32 a
    let errs := w &&& errMask s.params.intBits
    exec .classify s = .next (if isError s.params.intBits w then
      answered .hardwareError (errs.setWidth 64) w s else answered .ok 0 0 s))

/-- EXTRACT (41_command_dispatch.md R206, R209): word k of the result is register RESPk, for 0, 1 or 4 words as
40_command_encoder.md R169 counts, of any command word: none without RESP_EXPECT, whether or not RESP_LONG is set; the
latches at or above the count become UNKNOWN (10_state.md R55). -/
def Obligations.ExtractReadsTheResponseWords : Prop :=
  (∀ (b : CmdBits) (w : Word), respCount b w =
    if w.getLsbD b.respExpect then (if w.getLsbD b.respLong then .four else .one) else .zero) ∧
  (∀ n : RespCount, n.toNat = match n with
    | .zero => 0
    | .one => 1
    | .four => 4) ∧
  (∀ (c : Cfg) (s : State) (a : DWord), Ready c s → s.reqA = .holds a →
    let count := respCount s.params.cmdBits (low32 a)
    ∃ t, exec .extract s = .next t ∧ t.fsm = .idle ∧ Drives t .ok 0 0 ∧ t.rspCount = count ∧
      t.rspWords = respLatches s 0 count ∧ t.hist = s.hist ++ respReads c s 0 count ∧
      t.trace = s.trace ++ [.exec, .idle] ∧ KeepsAllBut extractParts s t)

/-- ENCODE (40_command_encoder.md R170) answers the command word, zero-extended, and changes nothing else. -/
def Obligations.EncodeAnswersTheWord : Prop :=
  ∀ (idx : Nat) (shape : Shape) (c : Cfg) (s : State) (w : Word), Ready c s →
    encodeCommand s.params idx shape c.dmaCapable = some w →
    exec (.encode idx shape) s = .next (answered .ok (w.setWidth 64) 0 s)

/-! ## The clock controller -/

/-- 42_clock_controller.md R270: the divisor is the least in [1, 255] with `src / (2d) ≤ target`, none for target 0;
and the closed form the rule derives. -/
def Obligations.DivisorIsTheLeast : Prop :=
  (∀ src target d : Nat, divisor src target = some d ↔
    target ≠ 0 ∧ 1 ≤ d ∧ d ≤ 255 ∧ src / (2 * d) ≤ target ∧
      ∀ e, 1 ≤ e → e < d → target < src / (2 * e)) ∧
  (∀ src target : Nat, 1 ≤ target → divisor src target =
    (if src / (2 * (target + 1)) + 1 ≤ 255 then some (src / (2 * (target + 1)) + 1) else none))

/-- 42_clock_controller.md R260 to R262: the handshake returns at the first CMD read with START clear, reads RINTSTS
only while START is set, clears HLE alone and reissues when it is set, and raises FATAL_TIMEOUT after N_CLK reads of
CMD. When START has self-cleared the controller has taken up the clock registers (20_memory.md R87). THE MODEL'S
CHOICES: that it has by then carried out all that was started (log 33), and that a handshake cut off has not moved its
clock, the bus record or the DMA engine (log 32, log 33). -/
def Obligations.HandshakeRetriesAndIsBounded : Prop :=
  (∀ (c : Cfg) (s : State) (n : Nat), s.rst = none → HandshakeEnds s 0 n →
    ∃ t, handshake c s = .ok () t ∧ t.hist = s.hist ++ handshakeEvents c s 0 n ∧
      t.cnt = .holds (BitVec.ofNat 32 (n + 1)) ∧ t.ctl.started = [] ∧
      (s.params.cmdBits.wf →
        t.ctl.clock = ⟨s.ctl.regs.clkdiv, s.ctl.regs.clksrc, s.ctl.regs.clkena⟩) ∧
      KeepsAllBut (.answers :: .draws :: .hist :: .pending :: .cnt :: .regCmd :: carriedParts) s t) ∧
  (∀ (c : Cfg) (s : State), s.rst = none → HandshakeRunsOut s 0 →
    ∃ t, handshake c s = .stop (.raised .fatalTimeout) t ∧
      t.hist = s.hist ++ handshakePolls c s 0 s.params.nClk ∧
      t.cnt = .holds (BitVec.ofNat 32 s.params.nClk) ∧
      KeepsAllBut [.answers, .draws, .hist, .pending, .cnt, .regCmd, .started] s t)

/-- UPDCLK (42_clock_controller.md R264) runs one handshake, and the controller takes the clock registers up
(20_memory.md R87; log 33). -/
def Obligations.UpdclkCompletes : Prop :=
  ∀ (c : Cfg) (s : State) (n : Nat), Ready c s → HandshakeEnds s 0 n →
    ∃ t, exec .updclk s = .next t ∧ t.fsm = .idle ∧ Drives t .ok 0 0 ∧
      t.cnt = .holds (BitVec.ofNat 32 (n + 1)) ∧ t.hist = s.hist ++ handshakeEvents c s 0 n ∧
      (s.params.cmdBits.wf →
        t.ctl.clock = ⟨s.ctl.regs.clkdiv, s.ctl.regs.clksrc, s.ctl.regs.clkena⟩) ∧
      t.trace = s.trace ++ [.exec, .idle] ∧ KeepsAllBut updclkParts s t

/-- SETCLK (42_clock_controller.md R272, R273): the divisor, the whole sequence of events, `clk.*`, the clock
registers, and that the controller has taken them up (20_memory.md R87; log 33). -/
def Obligations.SetclkCompletes : Prop :=
  ∀ (c : Cfg) (s : State) (a : DWord) (d : Nat) (r : ClockReads), Ready c s → s.reqA = .holds a →
    divisor c.srcClkHz.toNat (low32 a).toNat = some d → ClockEnds s r →
    ∃ t, exec .setclk s = .next t ∧ t.fsm = .idle ∧ Drives t .ok (BitVec.ofNat 64 d) 0 ∧
      t.clkDiv = .holds (BitVec.ofNat 8 d) ∧ t.clkEnabled = .holds true ∧
      t.ctl.regs.clkdiv = .holds (BitVec.ofNat 32 d) ∧ t.ctl.regs.clkena = .holds 1 ∧
      t.ctl.regs.clksrc = .holds 0 ∧ t.hist = s.hist ++ clockEvents c s d r ∧
      (s.params.cmdBits.wf → t.ctl.clock = ⟨.holds (BitVec.ofNat 32 d), .holds 0, .holds 1⟩) ∧
      t.trace = s.trace ++ [.exec, .idle] ∧ KeepsAllBut setclkParts s t

/-- SETWIDTH (42_clock_controller.md R280): one CTYPE write and `cfg.busWidth` for widths 1, 4 and 8; CONFIG_ERROR
with no access for every other width. THE MODEL'S READING: EXEC is entered when the request is accepted, before the
width is checked (10_state.md R42; log 14). -/
def Obligations.SetwidthWritesTheCode : Prop :=
  ∀ (c : Cfg) (s : State) (a : DWord), Ready c s → s.reqA = .holds a →
    (∀ (width : Nat) (code : Word), (low32 a).toNat = width →
      ((width = 1 ∧ code = 0) ∨ (width = 4 ∧ code = 1) ∨ (width = 8 ∧ code = 0x10000)) →
      ∃ t, exec .setwidth s = .next t ∧ t.fsm = .idle ∧ Drives t .ok 0 0 ∧
        t.busWidth = .holds (BitVec.ofNat 4 width) ∧ t.ctl.regs.ctype = .holds code ∧
        t.hist = s.hist ++ [.regWrite c.regBase .ctype code] ∧
        t.trace = s.trace ++ [.exec, .idle] ∧ KeepsAllBut setwidthParts s t) ∧
    ((low32 a).toNat ≠ 1 → (low32 a).toNat ≠ 4 → (low32 a).toNat ≠ 8 →
      exec .setwidth s = .next (answered .configError 0 0 (s.setFsm .exec)))

/-- CFGBUS (42_clock_controller.md R285): the clock sequence, then the width. -/
def Obligations.CfgbusCompletes : Prop :=
  ∀ (c : Cfg) (s : State) (a b : DWord) (d : Nat) (code : Word) (r : ClockReads), Ready c s →
    s.reqA = .holds a → s.reqB = .holds b → ctypeCode (low32 b).toNat = some code →
    divisor c.srcClkHz.toNat (low32 a).toNat = some d → ClockEnds s r →
    ∃ t, exec .cfgbus s = .next t ∧ t.fsm = .idle ∧ Drives t .ok (BitVec.ofNat 64 d) 0 ∧
      t.clkDiv = .holds (BitVec.ofNat 8 d) ∧ t.clkEnabled = .holds true ∧
      t.busWidth = .holds (BitVec.ofNat 4 (low32 b).toNat) ∧
      t.ctl.regs.clkdiv = .holds (BitVec.ofNat 32 d) ∧ t.ctl.regs.clkena = .holds 1 ∧
      t.ctl.regs.clksrc = .holds 0 ∧ t.ctl.regs.ctype = .holds code ∧
      t.hist = s.hist ++ (clockEvents c s d r ++ [.regWrite c.regBase .ctype code]) ∧
      t.trace = s.trace ++ [.exec, .idle] ∧ KeepsAllBut cfgbusParts s t

/-- UPDCLK, SETCLK, CFGBUS and INIT when a budget is exhausted (42_clock_controller.md R262, R272, R285,
44_facade_transfer.md R350): the block halts, and `clk.*` is as the writes so far left it: unchanged after the busy wait,
the clock disabled after the first and the second handshake (60_exceptions.md R426), enabled after the third
(`ClockStops`, with the events each makes, and `ClockLeft`). CTYPE is not written, nor `cfg.busWidth` by CFGBUS; INIT has
loaded the configuration, with `cfg.valid = 1` and `cfg.busWidth` UNKNOWN. THE MODEL'S CHOICE in the frames: a handshake
that was cut off leaves the clock registers the controller has taken up, the bus record and the DMA engine as they were,
where 93 U11 allows any value (log 32, log 33). -/
def Obligations.ClockOperationsTimeOut : Prop :=
  (∀ (c : Cfg) (s : State), Ready c s → HandshakeRunsOut s 0 →
    ∃ t, exec .updclk s = .next t ∧ t.fsm = .halted ∧ t.halted = true ∧ Drives t .fatalTimeout 0 0 ∧
      t.hist = s.hist ++ handshakePolls c s 0 s.params.nClk ∧ t.trace = s.trace ++ [.exec, .halted] ∧
      KeepsAllBut (.halted :: updclkStopParts) s t) ∧
  (∀ (c : Cfg) (s : State) (a : DWord) (d : Nat) (r : ClockReads) (es : List Event) (enabled : Option Bool)
    (written : Bool), Ready c s → s.reqA = .holds a → divisor c.srcClkHz.toNat (low32 a).toNat = some d →
    ClockStops c s d r es enabled written →
    (∃ t, exec .setclk s = .next t ∧ t.fsm = .halted ∧ t.halted = true ∧ Drives t .fatalTimeout 0 0 ∧
      t.hist = s.hist ++ es ∧ t.trace = s.trace ++ [.exec, .halted] ∧ ClockLeft d enabled written s t ∧
      KeepsAllBut (.halted :: setclkParts) s t ∧
      (written = false → KeepsAllBut (.halted :: setclkStopParts) s t)) ∧
    (∀ b : DWord, s.reqB = .holds b → (ctypeCode (low32 b).toNat).isSome = true →
      ∃ t, exec .cfgbus s = .next t ∧ t.fsm = .halted ∧ t.halted = true ∧ Drives t .fatalTimeout 0 0 ∧
        t.hist = s.hist ++ es ∧ t.trace = s.trace ++ [.exec, .halted] ∧ ClockLeft d enabled written s t ∧
        t.busWidth = s.busWidth ∧ t.ctl.regs.ctype = s.ctl.regs.ctype ∧
        KeepsAllBut (.halted :: setclkParts) s t)) ∧
  (∀ (s : State) (d : Nat) (r : ClockReads) (es : List Event) (enabled : Option Bool) (written : Bool),
    s.rst = none → ResponseKnown s → s.cfgValid = false → configAccepted s.cfgIn = true →
    divisor s.cfgIn.srcClkHz.toNat s.cfgIn.initClkHz.toNat = some d →
    ClockStops s.cfgIn.toCfg s d r es enabled written →
    ∃ t, exec .init s = .next t ∧ t.fsm = .halted ∧ t.halted = true ∧ Drives t .fatalTimeout 0 0 ∧
      t.cfgValid = true ∧ t.cfg = .holds s.cfgIn.toCfg ∧ t.busWidth.known = false ∧
      t.ctl.regs.ctype = s.ctl.regs.ctype ∧ t.hist = s.hist ++ es ∧ t.trace = s.trace ++ [.exec, .halted] ∧
      ClockLeft d enabled written s t ∧
      KeepsAllBut (.halted :: .cfg :: .cfgValid :: .busWidth :: setclkParts) s t)

/-- 42_clock_controller.md R271, R285: a target with no divisor is CONFIG_ERROR before any access, with `clk.*`
unchanged and the block not halted; so is a CFGBUS width outside 1, 4 and 8, checked first. THE MODEL'S READING: EXEC
is entered when the request is accepted, before these checks (10_state.md R42; log 14). -/
def Obligations.UnreachableClockIsConfigError : Prop :=
  ∀ (c : Cfg) (s : State) (a b : DWord), Ready c s → s.reqA = .holds a → s.reqB = .holds b →
    (divisor c.srcClkHz.toNat (low32 a).toNat = none →
      exec .setclk s = .next (answered .configError 0 0 (s.setFsm .exec)) ∧
      exec .cfgbus s = .next (answered .configError 0 0 (s.setFsm .exec))) ∧
    (ctypeCode (low32 b).toNat = none →
      exec .cfgbus s = .next (answered .configError 0 0 (s.setFsm .exec)))

/-! ## Initialisation -/

/-- INIT (44_facade_transfer.md R350) on an accepted configuration: every `cfg.*` takes its `cfg_in` field, the clock
sequence runs, with its accesses at the new base, and the width is programmed. -/
def Obligations.InitCompletes : Prop :=
  ∀ (s : State) (d : Nat) (code : Word) (r : ClockReads), s.rst = none → ResponseKnown s →
    s.cfgValid = false → configAccepted s.cfgIn = true →
    divisor s.cfgIn.srcClkHz.toNat s.cfgIn.initClkHz.toNat = some d →
    ctypeCode s.cfgIn.initWidth.toNat = some code → ClockEnds s r →
    ∃ (c : Cfg) (t : State), exec .init s = .next t ∧ t.fsm = .idle ∧ Drives t .ok (BitVec.ofNat 64 d) 0 ∧
      t.cfg = .holds c ∧ t.cfgValid = true ∧ t.busWidth = .holds s.cfgIn.initWidth ∧
      c.regBase = s.cfgIn.regBase ∧ c.descBase = s.cfgIn.descBase ∧ c.descSize = s.cfgIn.descSize ∧
      c.srcClkHz = s.cfgIn.srcClkHz ∧ (c.dmaCapable = true ↔ s.cfgIn.dmaCapable = 1) ∧
      c.fifoDepth = s.cfgIn.fifoDepth ∧ c.blockSize = s.cfgIn.blockSize ∧ c.chunkMax = s.cfgIn.chunkMax ∧
      c.initClkHz = s.cfgIn.initClkHz ∧ c.initWidth = s.cfgIn.initWidth ∧
      t.clkDiv = .holds (BitVec.ofNat 8 d) ∧ t.clkEnabled = .holds true ∧
      t.ctl.regs.ctype = .holds code ∧
      t.hist = s.hist ++ (clockEvents c s d r ++ [.regWrite c.regBase .ctype code]) ∧
      t.trace = s.trace ++ [.exec, .idle] ∧ KeepsAllBut initParts s t

/-- 44_facade_transfer.md R351: the eight checks, and that a failed one, like a second INIT or an unreachable
initial clock (R350), is CONFIG_ERROR with no access and `cfg` as it was. THE MODEL'S READING: EXEC is entered when the
request is accepted, before these checks (10_state.md R42; log 14). -/
def Obligations.InitRejectsBadConfigurations : Prop :=
  (∀ c : CfgIn, configAccepted c = true ↔
    (0 < c.blockSize.toNat ∧ c.blockSize.toNat % 16 = 0) ∧
    (c.regBase.toNat % c.blockSize.toNat = 0 ∧ c.descBase.toNat % c.blockSize.toNat = 0) ∧
    0 < c.descSize.toNat ∧ c.descBase.toNat + c.descSize.toNat ≤ 2 ^ 32 ∧ 0 < c.srcClkHz.toNat ∧
    (1 ≤ c.chunkMax.toNat ∧ c.chunkMax.toNat ≤ 8191) ∧
    (c.initWidth = 1 ∨ c.initWidth = 4 ∨ c.initWidth = 8) ∧ (c.dmaCapable = 0 ∨ c.dmaCapable = 1)) ∧
  (∀ s : State, ResponseKnown s → s.rst ≠ some 0 →
    (s.cfgValid = true ∨ configAccepted s.cfgIn = false ∨
      divisor s.cfgIn.srcClkHz.toNat s.cfgIn.initClkHz.toNat = none) →
    exec .init s = .next (answered .configError 0 0 (s.setFsm .exec)))

/-- 44_facade_transfer.md R358: while `cfg.valid = 0` every request except INIT and CLASSIFY ends with CONFIG_ERROR,
with no access and no change but the response port. -/
def Obligations.RequestsBeforeInitAreRefused : Prop :=
  ∀ (i : Instr) (s : State), i.agent = .block → i ≠ .init → i ≠ .classify → s.cfgValid = false →
    ResponseKnown s → s.rst ≠ some 0 → exec i s = .next (answered .configError 0 0 s)

/-! ## The descriptor-chain builder -/

/-- 43_dma_builder.md R322, R323: the invariants of every chain the builder accepts, with descriptor i as the builder
writes it. -/
def Obligations.ChainSatisfiesItsInvariants : Prop :=
  ∀ (c : Cfg) (buf size chunk : Nat), c.Legal → chainAccepted c buf size chunk = true →
    let n := (size + chunk - 1) / chunk
    let d := descriptor c buf size chunk n
    chainLength size chunk = n ∧ 1 ≤ n ∧
    ((List.range n).map fun i => desLength (d i).des1).sum = size ∧
    (∀ i, i < n →
      (d i).des1.toNat = desLength (d i).des1 ∧ (d i).des2.toNat = buf + i * chunk ∧
      (i + 1 < n → desLength (d i).des1 = chunk ∧ (d i).des3.toNat = c.descBase.toNat + 16 * (i + 1)) ∧
      (i + 1 = n → 1 ≤ desLength (d i).des1 ∧ desLength (d i).des1 ≤ chunk ∧ (d i).des3 = 0) ∧
      anySet (d i).des0 desOwn = true ∧ anySet (d i).des0 desFs = (i == 0) ∧
      anySet (d i).des0 desLd = (i + 1 == n) ∧ anySet (d i).des0 desCh = (i + 1 != n) ∧
      anySet (d i).des0 desDic = (i + 1 != n))

/-- BUILD (43_dma_builder.md R321) on accepted operands: the descriptors stand in the ring, cleaned, DBADDR holds the
base; every byte outside the footprint is as before, cleaned or not (10_state.md R70, 20_memory.md R97), and so is every
other part of the state. -/
def Obligations.BuildWritesTheChain : Prop :=
  ∀ (c : Cfg) (s : State) (a b k : DWord), Ready c s → s.reqA = .holds a → s.reqB = .holds b →
    s.reqC = .holds k → chainAccepted c a.toNat b.toNat k.toNat = true →
    let n := chainLength b.toNat k.toNat
    ∃ t, exec .build s = .next t ∧ t.fsm = .idle ∧ Drives t .ok (BitVec.ofNat 64 n) 0 ∧
      t.chainCount = .holds (BitVec.ofNat 32 n) ∧ t.ctl.regs.dbaddr = .holds c.descBase ∧
      engineSeesChain t c a.toNat b.toNat k.toNat ∧
      MemoryKeptOutside c.descBase.toNat (16 * n) s t ∧
      (∀ x, x ∈ t.dirty ↔ x ∈ s.dirty ∧ ¬ (c.descBase.toNat ≤ x ∧ x < c.descBase.toNat + 16 * n)) ∧
      t.hist = s.hist ++ chainEvents c a.toNat b.toNat k.toNat ∧
      t.trace = s.trace ++ [.exec, .idle] ∧ KeepsAllBut buildParts s t

/-- 43_dma_builder.md R311, R312: the builder's checks; each that fails is CONFIG_ERROR with no access. A footprint
equal to the ring's size is accepted. -/
def Obligations.BuildRejectsBadOperands : Prop :=
  (∀ (c : Cfg) (buf size chunk : Nat), chainAccepted c buf size chunk = true ↔
    ¬ (chunk = 0 ∨ chunk > 8191) ∧ size ≠ 0 ∧ ¬ buf + size > 2 ^ 32 ∧
      16 * ((size + chunk - 1) / chunk) ≤ c.descSize.toNat) ∧
  (∀ (c : Cfg) (s : State) (a b k : DWord), Ready c s → s.reqA = .holds a → s.reqB = .holds b →
    s.reqC = .holds k → chainAccepted c a.toNat b.toNat k.toNat = false →
    exec .build s = .next (answered .configError 0 0 (s.setFsm .exec)))

/-! ## PREPARE, READ, WRITE -/

/-- PREPARE in DMA mode (44_facade_transfer.md R353): BYTCNT, the clear-all, the clean of the buffer, and the
chain. The bytes of the buffer and of the chain are cleaned, and every other byte is cleaned or not as before (10_state.md
R70, 20_memory.md R97). That the clear-all makes the record of pending bits known is the model's choice (log 9). -/
def Obligations.PrepareInDmaModeBuildsTheChain : Prop :=
  ∀ (c : Cfg) (s : State) (b k : DWord), Ready c s → s.reqB = .holds b → s.reqC = .holds k →
    c.dmaCapable = true → checkPrepare c b.toNat k.toNat = none →
    let chunk := c.chunkMax.toNat
    let n := chainLength k.toNat chunk
    ∃ t, exec .prepare s = .next t ∧ t.fsm = .idle ∧ Drives t .ok (BitVec.ofNat 64 n) 0 ∧
      t.ctl.regs.bytcnt = .holds (k.setWidth 32) ∧ t.ctl.pending = .holds 0 ∧
      t.ctl.regs.dbaddr = .holds c.descBase ∧ t.chainCount = .holds (BitVec.ofNat 32 n) ∧
      engineSeesChain t c b.toNat k.toNat chunk ∧
      (∀ x, x ∈ t.dirty ↔ x ∈ s.dirty ∧ ¬ (b.toNat ≤ x ∧ x < b.toNat + k.toNat) ∧
        ¬ (c.descBase.toNat ≤ x ∧ x < c.descBase.toNat + 16 * n)) ∧
      MemoryKeptOutside c.descBase.toNat (16 * n) s t ∧
      t.hist = s.hist ++ ([.regWrite c.regBase .bytcnt (k.setWidth 32),
        .regWrite c.regBase .rintsts 0xFFFFFFFF, .cacheClean b.toNat k.toNat] ++
        chainEvents c b.toNat k.toNat chunk) ∧
      t.trace = s.trace ++ [.exec, .idle] ∧ KeepsAllBut prepareParts s t

/-- PREPARE in polled mode (44_facade_transfer.md R353, R355): two register writes, and no memory touched. That
the clear-all makes the record of pending bits known is the model's choice (log 9). -/
def Obligations.PrepareInPolledModeWritesTwoRegisters : Prop :=
  ∀ (c : Cfg) (s : State) (b k : DWord), Ready c s → s.reqB = .holds b → s.reqC = .holds k →
    c.dmaCapable = false → checkPrepare c b.toNat k.toNat = none →
    ∃ t, exec .prepare s = .next t ∧ t.fsm = .idle ∧ Drives t .ok 0 0 ∧
      t.ctl.regs.bytcnt = .holds (k.setWidth 32) ∧ t.ctl.pending = .holds 0 ∧
      t.hist = s.hist ++ [.regWrite c.regBase .bytcnt (k.setWidth 32),
        .regWrite c.regBase .rintsts 0xFFFFFFFF] ∧
      t.trace = s.trace ++ [.exec, .idle] ∧ KeepsAllBut (endParts ++ [.regBytcnt, .pending]) s t

/-- 44_facade_transfer.md R354: PREPARE's checks, in order, before any access. THE MODEL'S READING: EXEC is entered when
the request is accepted, before these checks (10_state.md R42; log 14). -/
def Obligations.PrepareRejectsBadOperands : Prop :=
  ∀ (c : Cfg) (s : State) (b k : DWord), Ready c s → s.reqB = .holds b → s.reqC = .holds k →
    let buf := b.toNat
    let size := k.toNat
    let bs := c.blockSize.toNat
    (buf % bs ≠ 0 ∨ size % bs ≠ 0 ∨ size = 0 ∨ size ≥ 2 ^ 32 →
      exec .prepare s = .next (answered .invalidArgument 0 0 (s.setFsm .exec))) ∧
    (buf % bs = 0 → size % bs = 0 → size ≠ 0 → size < 2 ^ 32 →
      (c.dmaCapable = false → size > c.fifoDepth.toNat →
        exec .prepare s = .next (answered .invalidArgument 0 0 (s.setFsm .exec))) ∧
      (c.dmaCapable = true → chainAccepted c buf size c.chunkMax.toNat = false →
        exec .prepare s = .next (answered .configError 0 0 (s.setFsm .exec))) ∧
      ((c.dmaCapable = false → size ≤ c.fifoDepth.toNat) →
        (c.dmaCapable = true → chainAccepted c buf size c.chunkMax.toNat = true) →
        checkPrepare c buf size = none))

/-- READ in polled mode (44_facade_transfer.md R356): it drains `size / 4` words from the FIFO register into the buffer,
little-endian, and no byte outside the buffer changes. The bytes it stores are not cleaned, so that the DMA engine need not
see them (20_memory.md R92), and every other byte is cleaned or not as before. -/
def Obligations.ReadDrainsTheFifo : Prop :=
  ∀ (c : Cfg) (s : State) (a b : DWord), Ready c s → s.reqA = .holds a → s.reqB = .holds b →
    c.dmaCapable = false → b.toNat % 4 = 0 → a.toNat + b.toNat ≤ 2 ^ 64 →
    ∃ t, exec .read s = .next t ∧ t.fsm = .idle ∧ Drives t .ok (BitVec.ofNat 64 (b.toNat / 4)) 0 ∧
      (∀ k, k < b.toNat / 4 → holdsWord t.mem (a.toNat + 4 * k) (drawAt s k)) ∧
      MemoryKeptOutside a.toNat b.toNat s t ∧
      (∀ x, x ∈ t.dirty ↔ (a.toNat ≤ x ∧ x < a.toNat + b.toNat) ∨ x ∈ s.dirty) ∧
      t.hist = s.hist ++ drainEvents c s a.toNat (b.toNat / 4) ∧
      t.trace = s.trace ++ [.exec, .idle] ∧ KeepsAllBut readOpParts s t

/-- READ otherwise (44_facade_transfer.md R356): in DMA mode nothing is checked and no access is made; in polled mode a
size that is no multiple of 4, or a buffer past the end of the address space, is INVALID_ARGUMENT. THE MODEL'S READING:
EXEC is entered when the request is accepted, before READ finishes or raises (10_state.md R42; log 14). -/
def Obligations.ReadOtherwiseMakesNoAccess : Prop :=
  ∀ (c : Cfg) (s : State) (a b : DWord), Ready c s → s.reqA = .holds a → s.reqB = .holds b →
    (c.dmaCapable = true → exec .read s = .next (answered .ok 0 0 (s.setFsm .exec))) ∧
    (c.dmaCapable = false → (b.toNat % 4 ≠ 0 ∨ a.toNat + b.toNat > 2 ^ 64) →
      exec .read s = .next (answered .invalidArgument 0 0 (s.setFsm .exec)))

/-- WRITE (44_facade_transfer.md R357): no effect in DMA mode, NOT_SUPPORTED in polled mode, its arguments unchecked. THE
MODEL'S READING: EXEC is entered when the request is accepted (10_state.md R42; log 14), which R357's pseudocode does not
show. -/
def Obligations.WriteHasNoEffect : Prop :=
  ∀ (c : Cfg) (s : State), Ready c s →
    (c.dmaCapable = true → exec .write s = .next (answered .ok 0 0 (s.setFsm .exec))) ∧
    (c.dmaCapable = false → exec .write s = .next (answered .notSupported 0 0 (s.setFsm .exec)))

/-- 20_memory.md R88: whatever the answers and the operands, BUILD and PREPARE store only inside the descriptor ring,
and READ only inside the buffer it is given. -/
def Obligations.StoresStayInTheirRegion : Prop :=
  ∀ (c : Cfg) (s t : State), Ready c s →
    (exec .build s = .next t → MemoryKeptOutside c.descBase.toNat c.descSize.toNat s t) ∧
    (exec .prepare s = .next t → MemoryKeptOutside c.descBase.toNat c.descSize.toNat s t) ∧
    (∀ a b : DWord, s.reqA = .holds a → s.reqB = .holds b → exec .read s = .next t →
      MemoryKeptOutside a.toNat b.toNat s t)

/-! ## The controller and the DMA engine -/

/-- The six command-word rows, CMDW.INIT, CMDW.STOP, CMDW.STATUS, CMDW.READ, CMDW.WRITE and CMDW.OTHER
(`commandInstr` of each class): the controller carries the oldest started command out as one bus transaction with
its argument (00_scope.md R16), and a data-carrying one in DMA mode starts the DMA engine at the chain's base
(41_command_dispatch.md R202). How the controller holds this is the model's reading (log 16). THE MODEL'S CHOICES: that
the argument and the chain base are those that stood at the CMD write (log 31), and that the controller does the same when
the block has waited for it (`carryOne`, log 33). -/
def Obligations.CommandWordsAreCarriedOut : Prop :=
  ∀ (cls : CmdClass) (idx : Nat) (shape : Shape) (s : State) (k : Started) (rest : List Started),
    s.ctl.started = k :: rest →
    let b := s.params.cmdBits
    let w := commandWord b cls shape idx
    ∃ t, exec (commandInstr cls idx shape) s = .next t ∧ t.ctl.started = rest ∧
      t.ctl.bus = s.ctl.bus ++ [⟨w, k.regs.cmdarg⟩] ∧
      (k.dma = true → dataCarrying b w = true →
        (∀ a, k.regs.dbaddr = .holds a → t.dma.cur = some a.toNat) ∧
        t.dma.toDevice = anySet w (bit b.write)) ∧
      (¬ (k.dma = true ∧ dataCarrying b w = true) → t.dma = s.dma) ∧
      (b.wf → idx < 64 → k.word = w → t = carryOne k (takeStarted rest s)) ∧
      KeepsAllBut [.started, .bus, .dmaCur, .dmaDirection, .dmaData, .dmaDraws] s t

/-- CMDW.HS (30_encoding.md R122): the controller takes up CLKDIV, CLKSRC and CLKENA through the handshake (20_memory.md
R87; log 16). THE MODEL'S CHOICES: that the values taken up are those that stood at the CMD write (log 31), and that the
controller does the same when the block has waited for it (`carryOne`, log 33). -/
def Obligations.HandshakeWordTakesUpTheClock : Prop :=
  ∀ (s : State) (k : Started) (rest : List Started), s.ctl.started = k :: rest →
    ∃ t, exec .cmdwHs s = .next t ∧ t.ctl.started = rest ∧
      t.ctl.clock = ⟨k.regs.clkdiv, k.regs.clksrc, k.regs.clkena⟩ ∧
      (k.word = hsWord s.params.cmdBits → t = carryOne k (takeStarted rest s)) ∧
      KeepsAllBut [.started, .clock] s t

/-- The four DES0 rows on a read transfer: the engine moves the device's bytes to the buffer DES1 and DES2 name, goes
on to DES3 when the descriptor is chained (FIRST, MIDDLE), and else stops and signals DTO (LAST, SINGLE) (00_scope.md
R8, R16; 30_encoding.md R135, R136). The device's bytes are free values, and so is OWN's bit after use, in byte
`a + 3` (log 17, log 18); a byte the CPU side has written and not cleaned keeps that value (20_memory.md R97, log 20).
THE MODEL'S CHOICES: that every byte DES1 counts moves, whatever BYTCNT holds (log 17), and that a segment, or a
descriptor, that passes 2^32 goes on above it (log 24). -/
def Obligations.DescriptorsReceiveTheirSegment : Prop :=
  ∀ (i : Instr) (chained : Bool) (s : State) (a : Nat) (des1 des2 des3 : Word),
    (chained = true ∧ (i = .des0First ∨ i = .des0Middle)) ∨
      (chained = false ∧ (i = .des0Last ∨ i = .des0Single)) →
    s.dma.cur = some a → s.dma.toDevice = false → engineSeesWord s (a + 4) des1 →
    engineSeesWord s (a + 8) des2 → engineSeesWord s (a + 12) des3 →
    let n := desLength des1
    ∃ t, exec i s = .next t ∧
      t.dma.cur = (if chained then some des3.toNat else none) ∧
      (∀ k, k < n → des2.toNat + k ≠ a + 3 → des2.toNat + k ∉ s.dirty →
        t.mem.read? (des2.toNat + k) = some (byteOf (datumAt s k) 0)) ∧
      (∀ x, (x < des2.toNat ∨ des2.toNat + n ≤ x) → x ≠ a + 3 → t.mem.read? x = s.mem.read? x) ∧
      (∀ x, x ∈ s.dirty → t.mem.read? x = s.mem.read? x) ∧
      t.ctl.pending = (if chained then s.ctl.pending
        else s.ctl.pending.map (· ||| bit s.params.intBits.dto)) ∧
      KeepsAllBut [.dmaData, .dmaDraws, .mem, .dmaCur, .pending] s t

/-- The four DES0 rows on a write transfer: the engine sends the buffer's bytes to the device, in order (00_scope.md R8,
R16; 20_memory.md R97; log 17, log 18), where every byte of the buffer has been written and cleaned. THE MODEL'S CHOICES:
that every byte DES1 counts is sent, whatever BYTCNT holds (log 17), and that a segment, or a descriptor, that passes 2^32
goes on above it (log 24). -/
def Obligations.DescriptorsSendTheirSegment : Prop :=
  ∀ (i : Instr) (chained : Bool) (s : State) (a : Nat) (des1 des2 des3 : Word) (bytes : List Byte),
    (chained = true ∧ (i = .des0First ∨ i = .des0Middle)) ∨
      (chained = false ∧ (i = .des0Last ∨ i = .des0Single)) →
    s.dma.cur = some a → s.dma.toDevice = true → engineSeesWord s (a + 4) des1 →
    engineSeesWord s (a + 8) des2 → engineSeesWord s (a + 12) des3 → bytes.length = desLength des1 →
    (∀ k (h : k < bytes.length), engineSees s (des2.toNat + k) bytes[k]) →
    ∃ t, exec i s = .next t ∧ t.dma.cur = (if chained then some des3.toNat else none) ∧
      t.dma.sent = s.dma.sent ++ bytes ∧
      (∀ x, x ≠ a + 3 → t.mem.read? x = s.mem.read? x) ∧
      t.ctl.pending = (if chained then s.ctl.pending
        else s.ctl.pending.map (· ||| bit s.params.intBits.dto)) ∧
      KeepsAllBut [.dmaData, .dmaDraws, .mem, .dmaCur, .dmaSent, .pending] s t

/-- 20_memory.md R97: after a clean the DMA engine sees the last write of every byte of the range; a DMA read of a byte
whose last write has not been cleaned is a draw; a byte the engine has written and the CPU side has not cleaned reads,
after the next clean, as the CPU side last wrote it (how the model holds this is log 20). That the engine sees its own
store to a byte that is cleaned is the model's choice (log 17). -/
def Obligations.DmaEngineSeesCleanedBytes : Prop :=
  (∀ (a len : Nat) (s : State), s.rst = none →
    ∃ t, cacheClean a len s = .ok () t ∧ t.hist = s.hist ++ [.cacheClean a len] ∧
      (∀ x b, a ≤ x → x < a + len → s.mem.read? x = some b → engineByte x t = (b, t)) ∧
      (∀ x, ¬ (a ≤ x ∧ x < a + len) → (x ∈ t.dirty ↔ x ∈ s.dirty)) ∧
      KeepsAllBut [.dirty, .hist] s t) ∧
  (∀ (x : Nat) (s : State), x ∈ s.dirty → engineByte x s = (byteOf (datumAt s 0) 0, s.datumDrawn)) ∧
  (∀ (x : Nat) (b v : Byte) (s t : State), x ∈ s.dirty → s.mem.read? x = some b →
    cacheClean x 1 (s.engineStore x v) = .ok () t → engineByte x t = (b, t)) ∧
  (∀ (x : Nat) (v : Byte) (s : State), x ∉ s.dirty →
    engineByte x (s.engineStore x v) = (v, s.engineStore x v))

/-- A step of the controller or the DMA engine changes nothing of the block's, no parameter and no event of its
history (00_scope.md R8, 20_memory.md R86; log 2). -/
def Obligations.EnvironmentStepsKeepTheBlock : Prop :=
  ∀ (s t : State) (g : Agent) (later : List Agent), s.sched = g :: later → g ≠ .block →
    step s = .next t → KeepsAllBut environmentParts s t

/-- The transfer that SENDCMD has waited for is over (70_reset_and_hazards.md R466; log 33): the engine is at rest, and
has stored only to the segments and OWN bytes of the descriptors it used. Over a chain as the builder writes it
(43_dma_builder.md R321), cleaned and apart from its buffer, it has moved the whole buffer, byte by byte in order: to the
device, or from it, where each descriptor's release takes one value between the segments (log 18). THE MODEL'S CHOICE:
that it moves every length of the chain, hence the whole buffer, whatever BYTCNT holds (log 17). -/
def Obligations.TransferMovesTheWholeBuffer : Prop :=
  (∀ (c : Cfg) (s : State), (s.transferOver c).dma.cur = none ∧ KeepsAllBut transferParts s (s.transferOver c) ∧
    MemoryKeptOutsideAll (runStores (c.descSize.toNat / 16) s) s (s.transferOver c)) ∧
  (∀ (c : Cfg) (s : State) (buf size chunk : Nat), c.Legal → chainAccepted c buf size chunk = true →
    engineSeesChain s c buf size chunk → s.dma.cur = some c.descBase.toNat →
    (buf + size ≤ c.descBase.toNat ∨ c.descBase.toNat + 16 * chainLength size chunk ≤ buf) →
    let t := s.transferOver c
    (∀ bytes : List Byte, s.dma.toDevice = true → bytes.length = size →
      (∀ k (h : k < bytes.length), engineSees s (buf + k) bytes[k]) → t.dma.sent = s.dma.sent ++ bytes) ∧
    (s.dma.toDevice = false → ∀ k, k < size → buf + k ∉ s.dirty →
      t.mem.read? (buf + k) = some (byteOf (datumAt s (k + k / chunk)) 0)))
end

