-- ==== Sys2Proof/Laws/Bits.lean ====
section
/-! SUPPORT. Single bits and masks of a word, and bit 31 of the words of each format. -/

namespace Sys2Proof.Machine

/-- A mask of one bit asks for that bit. -/
theorem anySet_bit (w : Word) (n : Nat) : anySet w (bit n) = w.getLsbD n := by
  rw [Bool.eq_iff_iff, anySet, bne_iff_ne, ne_eq, bit]
  constructor
  · intro h
    by_contra hn
    refine h (BitVec.eq_of_getLsbD_eq fun i hi => ?_)
    by_cases e : i = n
    · subst e; simp_all
    · simp; omega
  · intro h e
    have hn : n < 32 := BitVec.lt_of_getLsbD h
    have := congrArg (fun x => x.getLsbD n) e
    simp [hn] at this
    simp_all

/-- A mask of several bits asks whether one of them is set. -/
theorem anySet_or (w a b : Word) : anySet w (a ||| b) = (anySet w a || anySet w b) := by
  have e : w &&& (a ||| b) = (w &&& a) ||| (w &&& b) := by ext i; simp [Bool.and_or_distrib_left]
  rw [Bool.eq_iff_iff, Bool.or_eq_true]
  simp only [anySet, bne_iff_ne, ne_eq]
  rw [e, show (0 : Word) = 0#32 from rfl, BitVec.or_eq_zero_iff]
  tauto

/-- Bit i of a single bit. -/
theorem bit_getLsbD (n i : Nat) : (bit n).getLsbD i = (decide (i < 32) && decide (i = n)) := by
  rw [bit, BitVec.getLsbD_shiftLeft]
  by_cases h : i < 32 <;> by_cases e : i = n
  · subst e; simp [h]
  · simp [h, e]; omega
  · simp [h]
  · simp [h]

/-- Bit 31 of a request word is clear (30_encoding.md R113). -/
theorem requestWord_getLsbD_31 (dir shape : BitVec 2) (idx : Nat) (op : BitVec 4) :
    (requestWord dir shape idx op).getLsbD 31 = false := by
  rw [requestWord]
  simp only [BitVec.getLsbD_append]
  simp

/-- START is bit 31 of every command word under the default layout (30_encoding.md R120, R123). -/
theorem commandWord_getLsbD_31 (cls : CmdClass) (shape : Shape) (idx : Nat) :
    (commandWord defaultCmdBits cls shape idx).getLsbD 31 = true := by
  have h : (alwaysOn defaultCmdBits).getLsbD 31 = true := by decide
  simp [commandWord, h]

end Sys2Proof.Machine
end

