-- ==== Sys2Proof/Laws/Memory.lean ====
section
/-! SUPPORT. What a write of memory does to every read, and that every memory operation keeps the canonical
form. -/

namespace Sys2Proof.Machine

namespace Memory

/-- A byte read where it was just written is the byte. -/
@[simp] theorem read_write_same (m : Memory) (x : Nat) (v : Byte) : (m.write x v).read? x = some v := by
  induction m with
  | nil => simp [write, read?]
  | cons c rest ih =>
    obtain ⟨a, b⟩ := c
    by_cases h1 : x < a
    · simp [write, h1, read?]
    · by_cases h2 : x = a
      · subst h2; simp [write, read?]
      · simp [write, h1, h2, read?, ih]

/-- A write leaves every other address alone. -/
theorem read_write_other (m : Memory) {x y : Nat} (v : Byte) (h : y ≠ x) :
    (m.write x v).read? y = m.read? y := by
  induction m with
  | nil => simp [write, read?, h]
  | cons c rest ih =>
    obtain ⟨a, b⟩ := c
    by_cases h1 : x < a
    · simp [write, h1, read?, h]
    · by_cases h2 : x = a
      · subst h2; simp [write, read?, h]
      · by_cases h3 : y = a
        · subst h3; simp [write, h1, h2, read?]
        · simp [write, h1, h2, read?, h3, ih]

/-- Every cell after a write is the written one or an old one. -/
theorem mem_write {m : Memory} {x : Nat} {v : Byte} {c : Host.Cell} (h : c ∈ m.write x v) :
    c = (x, v) ∨ c ∈ m := by
  induction m with
  | nil => simpa [write] using h
  | cons d rest ih =>
    obtain ⟨a, b⟩ := d
    by_cases h1 : x < a
    · simp only [write, h1, if_true, List.mem_cons] at h ⊢; tauto
    · by_cases h2 : x = a
      · simp only [write, h2, if_true, if_false, List.mem_cons, lt_irrefl] at h ⊢; tauto
      · simp only [write, h1, h2, if_false, List.mem_cons] at h ⊢
        rcases h with h | h
        · tauto
        · rcases ih h with h | h <;> tauto

/-- A write keeps the canonical form. -/
theorem write_wf {m : Memory} (h : m.wf) (x : Nat) (v : Byte) : (m.write x v).wf := by
  induction m with
  | nil => simp [write]
  | cons c rest ih =>
    obtain ⟨a, b⟩ := c
    obtain ⟨hall, hrest⟩ := List.pairwise_cons.mp h
    by_cases h1 : x < a
    · simp only [write, h1, if_true]
      refine List.pairwise_cons.mpr ⟨fun d hd => ?_, h⟩
      rcases List.mem_cons.mp hd with rfl | hd
      · exact h1
      · exact lt_trans h1 (hall d hd)
    · by_cases h2 : x = a
      · subst h2; simp only [write, lt_irrefl, if_true, if_false]
        exact List.pairwise_cons.mpr ⟨hall, hrest⟩
      · simp only [write, h1, h2, if_false]
        refine List.pairwise_cons.mpr ⟨fun d hd => ?_, ih hrest⟩
        rcases mem_write hd with rfl | hd
        · exact show a < x by omega
        · exact hall d hd

end Memory

namespace Dirty

/-- Every address after a mark is the marked one or an old one. -/
theorem mem_mark {d : Dirty} {x y : Nat} : y ∈ d.mark x ↔ y = x ∨ y ∈ d := by
  induction d with
  | nil => simp [mark]
  | cons a rest ih =>
    by_cases h1 : x < a
    · simp [mark, h1]
    · by_cases h2 : x = a
      · subst h2; simp [mark]
      · simp only [mark, h1, h2, if_false, List.mem_cons, ih]; tauto

/-- A mark keeps the canonical form. -/
theorem mark_wf {d : Dirty} (h : d.wf) (x : Nat) : (d.mark x).wf := by
  induction d with
  | nil => simp [mark]
  | cons a rest ih =>
    obtain ⟨hall, hrest⟩ := List.pairwise_cons.mp h
    by_cases h1 : x < a
    · simp only [mark, h1, if_true]
      refine List.pairwise_cons.mpr ⟨fun b hb => ?_, h⟩
      rcases List.mem_cons.mp hb with rfl | hb
      · exact h1
      · exact lt_trans h1 (hall b hb)
    · by_cases h2 : x = a
      · subst h2; simp only [mark, lt_irrefl, if_true, if_false]; exact h
      · simp only [mark, h1, h2, if_false]
        refine List.pairwise_cons.mpr ⟨fun b hb => ?_, ih hrest⟩
        rcases mem_mark.mp hb with rfl | hb
        · omega
        · exact hall b hb

/-- After a clean exactly the addresses outside the range stay uncleaned. -/
theorem mem_clean {d : Dirty} {x addr len : Nat} :
    x ∈ d.clean addr len ↔ x ∈ d ∧ ¬ (addr ≤ x ∧ x < addr + len) := by
  simp only [clean, List.mem_filter, decide_eq_true_eq]

/-- A clean keeps the canonical form. -/
theorem clean_wf {d : Dirty} (h : d.wf) (addr len : Nat) : (d.clean addr len).wf :=
  List.Pairwise.sublist List.filter_sublist h

end Dirty

/-- Reset memory has the canonical form. -/
theorem reset_memoryCanonical : MemoryCanonical State.reset := ⟨List.Pairwise.nil, List.Pairwise.nil⟩

/-! ## Words -/

/-- A word stored at `a` is read there, byte by byte. -/
theorem storeWord_holdsWord (a : Nat) (w : Word) (s : State) : holdsWord (s.storeWord a w).mem a w := by
  intro k hk
  have h : k = 0 ∨ k = 1 ∨ k = 2 ∨ k = 3 := by omega
  rcases h with rfl | rfl | rfl | rfl <;>
    simp [State.storeWord, State.storeByte, Memory.read_write_other]

/-- A word stored at `a` leaves every other byte alone. -/
theorem storeWord_read_other (a : Nat) (w : Word) (s : State) {x : Nat} (h : x < a ∨ a + 4 ≤ x) :
    (s.storeWord a w).mem.read? x = s.mem.read? x := by
  have h0 : x ≠ a := by omega
  have h1 : x ≠ a + 1 := by omega
  have h2 : x ≠ a + 2 := by omega
  have h3 : x ≠ a + 3 := by omega
  simp [State.storeWord, State.storeByte, Memory.read_write_other, h0, h1, h2, h3]

/-- The bytes not cleaned after a word is stored at `a`. -/
theorem storeWord_mem_dirty (a : Nat) (w : Word) (s : State) {x : Nat} :
    x ∈ (s.storeWord a w).dirty ↔ (a ≤ x ∧ x < a + 4) ∨ x ∈ s.dirty := by
  simp only [State.storeWord, State.storeByte, Dirty.mem_mark]
  constructor
  · rintro (h | h | h | h | h)
    · left; omega
    · left; omega
    · left; omega
    · left; omega
    · exact .inr h
  · rintro (h | h)
    · have : x = a ∨ x = a + 1 ∨ x = a + 2 ∨ x = a + 3 := by omega
      tauto
    · tauto

/-- Storing a word keeps memory canonical. -/
theorem storeWord_canonical {s : State} (h : MemoryCanonical s) (a : Nat) (w : Word) :
    MemoryCanonical (s.storeWord a w) := by
  refine ⟨?_, ?_⟩
  · exact Memory.write_wf (Memory.write_wf (Memory.write_wf (Memory.write_wf h.1 _ _) _ _) _ _) _ _
  · exact Dirty.mark_wf (Dirty.mark_wf (Dirty.mark_wf (Dirty.mark_wf h.2 _) _) _) _

/-- The four bytes of a word make the word (20_memory.md R80). -/
@[simp] theorem wordOf_byteOf (w : Word) :
    wordOf (byteOf w 0) (byteOf w 1) (byteOf w 2) (byteOf w 3) = w := by
  apply BitVec.eq_of_getLsbD_eq
  intro i hi
  simp only [wordOf, byteOf, BitVec.getLsbD_append, BitVec.getLsbD_extractLsb']
  by_cases h0 : i < 8
  · simp [h0]
  · by_cases h1 : i - 8 < 8
    · simp [h0, h1]; congr 1; omega
    · by_cases h2 : i - 8 - 8 < 8
      · simp [h0, h1, h2]; congr 1; omega
      · have h3 : i - 8 - 8 - 8 < 8 := by omega
        simp [h0, h1, h2, h3]; congr 1; omega

end Sys2Proof.Machine
end

