-- ==== Sys2Proof/Laws/State.lean ====
section
/-! SUPPORT. One lemma per field for every named update of State, true by rfl. -/

namespace Sys2Proof.Machine

/-! ## setFsm -/

@[simp] theorem setFsm_params (f : Fsm) (s : State) : (State.setFsm f s).params = s.params := rfl
@[simp] theorem setFsm_cfg (f : Fsm) (s : State) : (State.setFsm f s).cfg = s.cfg := rfl
@[simp] theorem setFsm_cfgValid (f : Fsm) (s : State) : (State.setFsm f s).cfgValid = s.cfgValid := rfl
@[simp] theorem setFsm_busWidth (f : Fsm) (s : State) : (State.setFsm f s).busWidth = s.busWidth := rfl
@[simp] theorem setFsm_clkDiv (f : Fsm) (s : State) : (State.setFsm f s).clkDiv = s.clkDiv := rfl
@[simp] theorem setFsm_clkEnabled (f : Fsm) (s : State) : (State.setFsm f s).clkEnabled = s.clkEnabled := rfl
@[simp] theorem setFsm_fsm (f : Fsm) (s : State) : (State.setFsm f s).fsm = f := rfl
@[simp] theorem setFsm_halted (f : Fsm) (s : State) : (State.setFsm f s).halted = s.halted := rfl
@[simp] theorem setFsm_reqCtl (f : Fsm) (s : State) : (State.setFsm f s).reqCtl = s.reqCtl := rfl
@[simp] theorem setFsm_reqA (f : Fsm) (s : State) : (State.setFsm f s).reqA = s.reqA := rfl
@[simp] theorem setFsm_reqB (f : Fsm) (s : State) : (State.setFsm f s).reqB = s.reqB := rfl
@[simp] theorem setFsm_reqC (f : Fsm) (s : State) : (State.setFsm f s).reqC = s.reqC := rfl
@[simp] theorem setFsm_cnt (f : Fsm) (s : State) : (State.setFsm f s).cnt = s.cnt := rfl
@[simp] theorem setFsm_cmdWord (f : Fsm) (s : State) : (State.setFsm f s).cmdWord = s.cmdWord := rfl
@[simp] theorem setFsm_cmdData (f : Fsm) (s : State) : (State.setFsm f s).cmdData = s.cmdData := rfl
@[simp] theorem setFsm_pollCmdDone (f : Fsm) (s : State) : (State.setFsm f s).pollCmdDone = s.pollCmdDone := rfl
@[simp] theorem setFsm_pollDto (f : Fsm) (s : State) : (State.setFsm f s).pollDto = s.pollDto := rfl
@[simp] theorem setFsm_rspCount (f : Fsm) (s : State) : (State.setFsm f s).rspCount = s.rspCount := rfl
@[simp] theorem setFsm_rspWords (f : Fsm) (s : State) : (State.setFsm f s).rspWords = s.rspWords := rfl
@[simp] theorem setFsm_errStatus (f : Fsm) (s : State) : (State.setFsm f s).errStatus = s.errStatus := rfl
@[simp] theorem setFsm_chainCount (f : Fsm) (s : State) : (State.setFsm f s).chainCount = s.chainCount := rfl
@[simp] theorem setFsm_resp (f : Fsm) (s : State) : (State.setFsm f s).resp = s.resp := rfl
@[simp] theorem setFsm_rst (f : Fsm) (s : State) : (State.setFsm f s).rst = s.rst := rfl
@[simp] theorem setFsm_reqs (f : Fsm) (s : State) : (State.setFsm f s).reqs = s.reqs := rfl
@[simp] theorem setFsm_cfgIn (f : Fsm) (s : State) : (State.setFsm f s).cfgIn = s.cfgIn := rfl
@[simp] theorem setFsm_answers (f : Fsm) (s : State) : (State.setFsm f s).answers = s.answers := rfl
@[simp] theorem setFsm_draws (f : Fsm) (s : State) : (State.setFsm f s).draws = s.draws := rfl
@[simp] theorem setFsm_dmaData (f : Fsm) (s : State) : (State.setFsm f s).dmaData = s.dmaData := rfl
@[simp] theorem setFsm_dmaDraws (f : Fsm) (s : State) : (State.setFsm f s).dmaDraws = s.dmaDraws := rfl
@[simp] theorem setFsm_sched (f : Fsm) (s : State) : (State.setFsm f s).sched = s.sched := rfl
@[simp] theorem setFsm_mem (f : Fsm) (s : State) : (State.setFsm f s).mem = s.mem := rfl
@[simp] theorem setFsm_dirty (f : Fsm) (s : State) : (State.setFsm f s).dirty = s.dirty := rfl
@[simp] theorem setFsm_ctl (f : Fsm) (s : State) : (State.setFsm f s).ctl = s.ctl := rfl
@[simp] theorem setFsm_dma (f : Fsm) (s : State) : (State.setFsm f s).dma = s.dma := rfl
@[simp] theorem setFsm_hist (f : Fsm) (s : State) : (State.setFsm f s).hist = s.hist := rfl
@[simp] theorem setFsm_trace (f : Fsm) (s : State) : (State.setFsm f s).trace = s.trace ++ [f] := rfl

/-! ## resetIn -/

@[simp] theorem resetIn_params (n : Nat) (s : State) : (State.resetIn n s).params = s.params := rfl
@[simp] theorem resetIn_cfg (n : Nat) (s : State) : (State.resetIn n s).cfg = s.cfg := rfl
@[simp] theorem resetIn_cfgValid (n : Nat) (s : State) : (State.resetIn n s).cfgValid = s.cfgValid := rfl
@[simp] theorem resetIn_busWidth (n : Nat) (s : State) : (State.resetIn n s).busWidth = s.busWidth := rfl
@[simp] theorem resetIn_clkDiv (n : Nat) (s : State) : (State.resetIn n s).clkDiv = s.clkDiv := rfl
@[simp] theorem resetIn_clkEnabled (n : Nat) (s : State) : (State.resetIn n s).clkEnabled = s.clkEnabled := rfl
@[simp] theorem resetIn_fsm (n : Nat) (s : State) : (State.resetIn n s).fsm = s.fsm := rfl
@[simp] theorem resetIn_halted (n : Nat) (s : State) : (State.resetIn n s).halted = s.halted := rfl
@[simp] theorem resetIn_reqCtl (n : Nat) (s : State) : (State.resetIn n s).reqCtl = s.reqCtl := rfl
@[simp] theorem resetIn_reqA (n : Nat) (s : State) : (State.resetIn n s).reqA = s.reqA := rfl
@[simp] theorem resetIn_reqB (n : Nat) (s : State) : (State.resetIn n s).reqB = s.reqB := rfl
@[simp] theorem resetIn_reqC (n : Nat) (s : State) : (State.resetIn n s).reqC = s.reqC := rfl
@[simp] theorem resetIn_cnt (n : Nat) (s : State) : (State.resetIn n s).cnt = s.cnt := rfl
@[simp] theorem resetIn_cmdWord (n : Nat) (s : State) : (State.resetIn n s).cmdWord = s.cmdWord := rfl
@[simp] theorem resetIn_cmdData (n : Nat) (s : State) : (State.resetIn n s).cmdData = s.cmdData := rfl
@[simp] theorem resetIn_pollCmdDone (n : Nat) (s : State) : (State.resetIn n s).pollCmdDone = s.pollCmdDone := rfl
@[simp] theorem resetIn_pollDto (n : Nat) (s : State) : (State.resetIn n s).pollDto = s.pollDto := rfl
@[simp] theorem resetIn_rspCount (n : Nat) (s : State) : (State.resetIn n s).rspCount = s.rspCount := rfl
@[simp] theorem resetIn_rspWords (n : Nat) (s : State) : (State.resetIn n s).rspWords = s.rspWords := rfl
@[simp] theorem resetIn_errStatus (n : Nat) (s : State) : (State.resetIn n s).errStatus = s.errStatus := rfl
@[simp] theorem resetIn_chainCount (n : Nat) (s : State) : (State.resetIn n s).chainCount = s.chainCount := rfl
@[simp] theorem resetIn_resp (n : Nat) (s : State) : (State.resetIn n s).resp = s.resp := rfl
@[simp] theorem resetIn_rst (n : Nat) (s : State) : (State.resetIn n s).rst = some n := rfl
@[simp] theorem resetIn_reqs (n : Nat) (s : State) : (State.resetIn n s).reqs = s.reqs := rfl
@[simp] theorem resetIn_cfgIn (n : Nat) (s : State) : (State.resetIn n s).cfgIn = s.cfgIn := rfl
@[simp] theorem resetIn_answers (n : Nat) (s : State) : (State.resetIn n s).answers = s.answers := rfl
@[simp] theorem resetIn_draws (n : Nat) (s : State) : (State.resetIn n s).draws = s.draws := rfl
@[simp] theorem resetIn_dmaData (n : Nat) (s : State) : (State.resetIn n s).dmaData = s.dmaData := rfl
@[simp] theorem resetIn_dmaDraws (n : Nat) (s : State) : (State.resetIn n s).dmaDraws = s.dmaDraws := rfl
@[simp] theorem resetIn_sched (n : Nat) (s : State) : (State.resetIn n s).sched = s.sched := rfl
@[simp] theorem resetIn_mem (n : Nat) (s : State) : (State.resetIn n s).mem = s.mem := rfl
@[simp] theorem resetIn_dirty (n : Nat) (s : State) : (State.resetIn n s).dirty = s.dirty := rfl
@[simp] theorem resetIn_ctl (n : Nat) (s : State) : (State.resetIn n s).ctl = s.ctl := rfl
@[simp] theorem resetIn_dma (n : Nat) (s : State) : (State.resetIn n s).dma = s.dma := rfl
@[simp] theorem resetIn_hist (n : Nat) (s : State) : (State.resetIn n s).hist = s.hist := rfl
@[simp] theorem resetIn_trace (n : Nat) (s : State) : (State.resetIn n s).trace = s.trace := rfl

/-! ## record -/

@[simp] theorem record_params (e : Event) (s : State) : (State.record e s).params = s.params := rfl
@[simp] theorem record_cfg (e : Event) (s : State) : (State.record e s).cfg = s.cfg := rfl
@[simp] theorem record_cfgValid (e : Event) (s : State) : (State.record e s).cfgValid = s.cfgValid := rfl
@[simp] theorem record_busWidth (e : Event) (s : State) : (State.record e s).busWidth = s.busWidth := rfl
@[simp] theorem record_clkDiv (e : Event) (s : State) : (State.record e s).clkDiv = s.clkDiv := rfl
@[simp] theorem record_clkEnabled (e : Event) (s : State) : (State.record e s).clkEnabled = s.clkEnabled := rfl
@[simp] theorem record_fsm (e : Event) (s : State) : (State.record e s).fsm = s.fsm := rfl
@[simp] theorem record_halted (e : Event) (s : State) : (State.record e s).halted = s.halted := rfl
@[simp] theorem record_reqCtl (e : Event) (s : State) : (State.record e s).reqCtl = s.reqCtl := rfl
@[simp] theorem record_reqA (e : Event) (s : State) : (State.record e s).reqA = s.reqA := rfl
@[simp] theorem record_reqB (e : Event) (s : State) : (State.record e s).reqB = s.reqB := rfl
@[simp] theorem record_reqC (e : Event) (s : State) : (State.record e s).reqC = s.reqC := rfl
@[simp] theorem record_cnt (e : Event) (s : State) : (State.record e s).cnt = s.cnt := rfl
@[simp] theorem record_cmdWord (e : Event) (s : State) : (State.record e s).cmdWord = s.cmdWord := rfl
@[simp] theorem record_cmdData (e : Event) (s : State) : (State.record e s).cmdData = s.cmdData := rfl
@[simp] theorem record_pollCmdDone (e : Event) (s : State) : (State.record e s).pollCmdDone = s.pollCmdDone := rfl
@[simp] theorem record_pollDto (e : Event) (s : State) : (State.record e s).pollDto = s.pollDto := rfl
@[simp] theorem record_rspCount (e : Event) (s : State) : (State.record e s).rspCount = s.rspCount := rfl
@[simp] theorem record_rspWords (e : Event) (s : State) : (State.record e s).rspWords = s.rspWords := rfl
@[simp] theorem record_errStatus (e : Event) (s : State) : (State.record e s).errStatus = s.errStatus := rfl
@[simp] theorem record_chainCount (e : Event) (s : State) : (State.record e s).chainCount = s.chainCount := rfl
@[simp] theorem record_resp (e : Event) (s : State) : (State.record e s).resp = s.resp := rfl
@[simp] theorem record_rst (e : Event) (s : State) : (State.record e s).rst = s.rst := rfl
@[simp] theorem record_reqs (e : Event) (s : State) : (State.record e s).reqs = s.reqs := rfl
@[simp] theorem record_cfgIn (e : Event) (s : State) : (State.record e s).cfgIn = s.cfgIn := rfl
@[simp] theorem record_answers (e : Event) (s : State) : (State.record e s).answers = s.answers := rfl
@[simp] theorem record_draws (e : Event) (s : State) : (State.record e s).draws = s.draws := rfl
@[simp] theorem record_dmaData (e : Event) (s : State) : (State.record e s).dmaData = s.dmaData := rfl
@[simp] theorem record_dmaDraws (e : Event) (s : State) : (State.record e s).dmaDraws = s.dmaDraws := rfl
@[simp] theorem record_sched (e : Event) (s : State) : (State.record e s).sched = s.sched := rfl
@[simp] theorem record_mem (e : Event) (s : State) : (State.record e s).mem = s.mem := rfl
@[simp] theorem record_dirty (e : Event) (s : State) : (State.record e s).dirty = s.dirty := rfl
@[simp] theorem record_ctl (e : Event) (s : State) : (State.record e s).ctl = s.ctl := rfl
@[simp] theorem record_dma (e : Event) (s : State) : (State.record e s).dma = s.dma := rfl
@[simp] theorem record_hist (e : Event) (s : State) : (State.record e s).hist = s.hist ++ [e] := rfl
@[simp] theorem record_trace (e : Event) (s : State) : (State.record e s).trace = s.trace := rfl

/-! ## startCount -/

@[simp] theorem startCount_params (s : State) : (State.startCount s).params = s.params := rfl
@[simp] theorem startCount_cfg (s : State) : (State.startCount s).cfg = s.cfg := rfl
@[simp] theorem startCount_cfgValid (s : State) : (State.startCount s).cfgValid = s.cfgValid := rfl
@[simp] theorem startCount_busWidth (s : State) : (State.startCount s).busWidth = s.busWidth := rfl
@[simp] theorem startCount_clkDiv (s : State) : (State.startCount s).clkDiv = s.clkDiv := rfl
@[simp] theorem startCount_clkEnabled (s : State) : (State.startCount s).clkEnabled = s.clkEnabled := rfl
@[simp] theorem startCount_fsm (s : State) : (State.startCount s).fsm = s.fsm := rfl
@[simp] theorem startCount_halted (s : State) : (State.startCount s).halted = s.halted := rfl
@[simp] theorem startCount_reqCtl (s : State) : (State.startCount s).reqCtl = s.reqCtl := rfl
@[simp] theorem startCount_reqA (s : State) : (State.startCount s).reqA = s.reqA := rfl
@[simp] theorem startCount_reqB (s : State) : (State.startCount s).reqB = s.reqB := rfl
@[simp] theorem startCount_reqC (s : State) : (State.startCount s).reqC = s.reqC := rfl
@[simp] theorem startCount_cnt (s : State) : (State.startCount s).cnt = .holds 0 := rfl
@[simp] theorem startCount_cmdWord (s : State) : (State.startCount s).cmdWord = s.cmdWord := rfl
@[simp] theorem startCount_cmdData (s : State) : (State.startCount s).cmdData = s.cmdData := rfl
@[simp] theorem startCount_pollCmdDone (s : State) : (State.startCount s).pollCmdDone = s.pollCmdDone := rfl
@[simp] theorem startCount_pollDto (s : State) : (State.startCount s).pollDto = s.pollDto := rfl
@[simp] theorem startCount_rspCount (s : State) : (State.startCount s).rspCount = s.rspCount := rfl
@[simp] theorem startCount_rspWords (s : State) : (State.startCount s).rspWords = s.rspWords := rfl
@[simp] theorem startCount_errStatus (s : State) : (State.startCount s).errStatus = s.errStatus := rfl
@[simp] theorem startCount_chainCount (s : State) : (State.startCount s).chainCount = s.chainCount := rfl
@[simp] theorem startCount_resp (s : State) : (State.startCount s).resp = s.resp := rfl
@[simp] theorem startCount_rst (s : State) : (State.startCount s).rst = s.rst := rfl
@[simp] theorem startCount_reqs (s : State) : (State.startCount s).reqs = s.reqs := rfl
@[simp] theorem startCount_cfgIn (s : State) : (State.startCount s).cfgIn = s.cfgIn := rfl
@[simp] theorem startCount_answers (s : State) : (State.startCount s).answers = s.answers := rfl
@[simp] theorem startCount_draws (s : State) : (State.startCount s).draws = s.draws := rfl
@[simp] theorem startCount_dmaData (s : State) : (State.startCount s).dmaData = s.dmaData := rfl
@[simp] theorem startCount_dmaDraws (s : State) : (State.startCount s).dmaDraws = s.dmaDraws := rfl
@[simp] theorem startCount_sched (s : State) : (State.startCount s).sched = s.sched := rfl
@[simp] theorem startCount_mem (s : State) : (State.startCount s).mem = s.mem := rfl
@[simp] theorem startCount_dirty (s : State) : (State.startCount s).dirty = s.dirty := rfl
@[simp] theorem startCount_ctl (s : State) : (State.startCount s).ctl = s.ctl := rfl
@[simp] theorem startCount_dma (s : State) : (State.startCount s).dma = s.dma := rfl
@[simp] theorem startCount_hist (s : State) : (State.startCount s).hist = s.hist := rfl
@[simp] theorem startCount_trace (s : State) : (State.startCount s).trace = s.trace := rfl

/-! ## count -/

@[simp] theorem count_params (s : State) : (State.count s).params = s.params := rfl
@[simp] theorem count_cfg (s : State) : (State.count s).cfg = s.cfg := rfl
@[simp] theorem count_cfgValid (s : State) : (State.count s).cfgValid = s.cfgValid := rfl
@[simp] theorem count_busWidth (s : State) : (State.count s).busWidth = s.busWidth := rfl
@[simp] theorem count_clkDiv (s : State) : (State.count s).clkDiv = s.clkDiv := rfl
@[simp] theorem count_clkEnabled (s : State) : (State.count s).clkEnabled = s.clkEnabled := rfl
@[simp] theorem count_fsm (s : State) : (State.count s).fsm = s.fsm := rfl
@[simp] theorem count_halted (s : State) : (State.count s).halted = s.halted := rfl
@[simp] theorem count_reqCtl (s : State) : (State.count s).reqCtl = s.reqCtl := rfl
@[simp] theorem count_reqA (s : State) : (State.count s).reqA = s.reqA := rfl
@[simp] theorem count_reqB (s : State) : (State.count s).reqB = s.reqB := rfl
@[simp] theorem count_reqC (s : State) : (State.count s).reqC = s.reqC := rfl
@[simp] theorem count_cnt (s : State) : (State.count s).cnt = s.cnt.map (· + 1) := rfl
@[simp] theorem count_cmdWord (s : State) : (State.count s).cmdWord = s.cmdWord := rfl
@[simp] theorem count_cmdData (s : State) : (State.count s).cmdData = s.cmdData := rfl
@[simp] theorem count_pollCmdDone (s : State) : (State.count s).pollCmdDone = s.pollCmdDone := rfl
@[simp] theorem count_pollDto (s : State) : (State.count s).pollDto = s.pollDto := rfl
@[simp] theorem count_rspCount (s : State) : (State.count s).rspCount = s.rspCount := rfl
@[simp] theorem count_rspWords (s : State) : (State.count s).rspWords = s.rspWords := rfl
@[simp] theorem count_errStatus (s : State) : (State.count s).errStatus = s.errStatus := rfl
@[simp] theorem count_chainCount (s : State) : (State.count s).chainCount = s.chainCount := rfl
@[simp] theorem count_resp (s : State) : (State.count s).resp = s.resp := rfl
@[simp] theorem count_rst (s : State) : (State.count s).rst = s.rst := rfl
@[simp] theorem count_reqs (s : State) : (State.count s).reqs = s.reqs := rfl
@[simp] theorem count_cfgIn (s : State) : (State.count s).cfgIn = s.cfgIn := rfl
@[simp] theorem count_answers (s : State) : (State.count s).answers = s.answers := rfl
@[simp] theorem count_draws (s : State) : (State.count s).draws = s.draws := rfl
@[simp] theorem count_dmaData (s : State) : (State.count s).dmaData = s.dmaData := rfl
@[simp] theorem count_dmaDraws (s : State) : (State.count s).dmaDraws = s.dmaDraws := rfl
@[simp] theorem count_sched (s : State) : (State.count s).sched = s.sched := rfl
@[simp] theorem count_mem (s : State) : (State.count s).mem = s.mem := rfl
@[simp] theorem count_dirty (s : State) : (State.count s).dirty = s.dirty := rfl
@[simp] theorem count_ctl (s : State) : (State.count s).ctl = s.ctl := rfl
@[simp] theorem count_dma (s : State) : (State.count s).dma = s.dma := rfl
@[simp] theorem count_hist (s : State) : (State.count s).hist = s.hist := rfl
@[simp] theorem count_trace (s : State) : (State.count s).trace = s.trace := rfl

/-! ## setCmdDone -/

@[simp] theorem setCmdDone_params (v : Bool) (s : State) : (State.setCmdDone v s).params = s.params := rfl
@[simp] theorem setCmdDone_cfg (v : Bool) (s : State) : (State.setCmdDone v s).cfg = s.cfg := rfl
@[simp] theorem setCmdDone_cfgValid (v : Bool) (s : State) :
    (State.setCmdDone v s).cfgValid = s.cfgValid := rfl
@[simp] theorem setCmdDone_busWidth (v : Bool) (s : State) :
    (State.setCmdDone v s).busWidth = s.busWidth := rfl
@[simp] theorem setCmdDone_clkDiv (v : Bool) (s : State) : (State.setCmdDone v s).clkDiv = s.clkDiv := rfl
@[simp] theorem setCmdDone_clkEnabled (v : Bool) (s : State) :
    (State.setCmdDone v s).clkEnabled = s.clkEnabled := rfl
@[simp] theorem setCmdDone_fsm (v : Bool) (s : State) : (State.setCmdDone v s).fsm = s.fsm := rfl
@[simp] theorem setCmdDone_halted (v : Bool) (s : State) : (State.setCmdDone v s).halted = s.halted := rfl
@[simp] theorem setCmdDone_reqCtl (v : Bool) (s : State) : (State.setCmdDone v s).reqCtl = s.reqCtl := rfl
@[simp] theorem setCmdDone_reqA (v : Bool) (s : State) : (State.setCmdDone v s).reqA = s.reqA := rfl
@[simp] theorem setCmdDone_reqB (v : Bool) (s : State) : (State.setCmdDone v s).reqB = s.reqB := rfl
@[simp] theorem setCmdDone_reqC (v : Bool) (s : State) : (State.setCmdDone v s).reqC = s.reqC := rfl
@[simp] theorem setCmdDone_cnt (v : Bool) (s : State) : (State.setCmdDone v s).cnt = s.cnt := rfl
@[simp] theorem setCmdDone_cmdWord (v : Bool) (s : State) : (State.setCmdDone v s).cmdWord = s.cmdWord := rfl
@[simp] theorem setCmdDone_cmdData (v : Bool) (s : State) : (State.setCmdDone v s).cmdData = s.cmdData := rfl
@[simp] theorem setCmdDone_pollCmdDone (v : Bool) (s : State) :
    (State.setCmdDone v s).pollCmdDone = .holds v := rfl
@[simp] theorem setCmdDone_pollDto (v : Bool) (s : State) : (State.setCmdDone v s).pollDto = s.pollDto := rfl
@[simp] theorem setCmdDone_rspCount (v : Bool) (s : State) :
    (State.setCmdDone v s).rspCount = s.rspCount := rfl
@[simp] theorem setCmdDone_rspWords (v : Bool) (s : State) :
    (State.setCmdDone v s).rspWords = s.rspWords := rfl
@[simp] theorem setCmdDone_errStatus (v : Bool) (s : State) :
    (State.setCmdDone v s).errStatus = s.errStatus := rfl
@[simp] theorem setCmdDone_chainCount (v : Bool) (s : State) :
    (State.setCmdDone v s).chainCount = s.chainCount := rfl
@[simp] theorem setCmdDone_resp (v : Bool) (s : State) : (State.setCmdDone v s).resp = s.resp := rfl
@[simp] theorem setCmdDone_rst (v : Bool) (s : State) : (State.setCmdDone v s).rst = s.rst := rfl
@[simp] theorem setCmdDone_reqs (v : Bool) (s : State) : (State.setCmdDone v s).reqs = s.reqs := rfl
@[simp] theorem setCmdDone_cfgIn (v : Bool) (s : State) : (State.setCmdDone v s).cfgIn = s.cfgIn := rfl
@[simp] theorem setCmdDone_answers (v : Bool) (s : State) : (State.setCmdDone v s).answers = s.answers := rfl
@[simp] theorem setCmdDone_draws (v : Bool) (s : State) : (State.setCmdDone v s).draws = s.draws := rfl
@[simp] theorem setCmdDone_dmaData (v : Bool) (s : State) : (State.setCmdDone v s).dmaData = s.dmaData := rfl
@[simp] theorem setCmdDone_dmaDraws (v : Bool) (s : State) : (State.setCmdDone v s).dmaDraws = s.dmaDraws := rfl
@[simp] theorem setCmdDone_sched (v : Bool) (s : State) : (State.setCmdDone v s).sched = s.sched := rfl
@[simp] theorem setCmdDone_mem (v : Bool) (s : State) : (State.setCmdDone v s).mem = s.mem := rfl
@[simp] theorem setCmdDone_dirty (v : Bool) (s : State) : (State.setCmdDone v s).dirty = s.dirty := rfl
@[simp] theorem setCmdDone_ctl (v : Bool) (s : State) : (State.setCmdDone v s).ctl = s.ctl := rfl
@[simp] theorem setCmdDone_dma (v : Bool) (s : State) : (State.setCmdDone v s).dma = s.dma := rfl
@[simp] theorem setCmdDone_hist (v : Bool) (s : State) : (State.setCmdDone v s).hist = s.hist := rfl
@[simp] theorem setCmdDone_trace (v : Bool) (s : State) : (State.setCmdDone v s).trace = s.trace := rfl

/-! ## setDto -/

@[simp] theorem setDto_params (v : Bool) (s : State) : (State.setDto v s).params = s.params := rfl
@[simp] theorem setDto_cfg (v : Bool) (s : State) : (State.setDto v s).cfg = s.cfg := rfl
@[simp] theorem setDto_cfgValid (v : Bool) (s : State) : (State.setDto v s).cfgValid = s.cfgValid := rfl
@[simp] theorem setDto_busWidth (v : Bool) (s : State) : (State.setDto v s).busWidth = s.busWidth := rfl
@[simp] theorem setDto_clkDiv (v : Bool) (s : State) : (State.setDto v s).clkDiv = s.clkDiv := rfl
@[simp] theorem setDto_clkEnabled (v : Bool) (s : State) : (State.setDto v s).clkEnabled = s.clkEnabled := rfl
@[simp] theorem setDto_fsm (v : Bool) (s : State) : (State.setDto v s).fsm = s.fsm := rfl
@[simp] theorem setDto_halted (v : Bool) (s : State) : (State.setDto v s).halted = s.halted := rfl
@[simp] theorem setDto_reqCtl (v : Bool) (s : State) : (State.setDto v s).reqCtl = s.reqCtl := rfl
@[simp] theorem setDto_reqA (v : Bool) (s : State) : (State.setDto v s).reqA = s.reqA := rfl
@[simp] theorem setDto_reqB (v : Bool) (s : State) : (State.setDto v s).reqB = s.reqB := rfl
@[simp] theorem setDto_reqC (v : Bool) (s : State) : (State.setDto v s).reqC = s.reqC := rfl
@[simp] theorem setDto_cnt (v : Bool) (s : State) : (State.setDto v s).cnt = s.cnt := rfl
@[simp] theorem setDto_cmdWord (v : Bool) (s : State) : (State.setDto v s).cmdWord = s.cmdWord := rfl
@[simp] theorem setDto_cmdData (v : Bool) (s : State) : (State.setDto v s).cmdData = s.cmdData := rfl
@[simp] theorem setDto_pollCmdDone (v : Bool) (s : State) :
    (State.setDto v s).pollCmdDone = s.pollCmdDone := rfl
@[simp] theorem setDto_pollDto (v : Bool) (s : State) : (State.setDto v s).pollDto = .holds v := rfl
@[simp] theorem setDto_rspCount (v : Bool) (s : State) : (State.setDto v s).rspCount = s.rspCount := rfl
@[simp] theorem setDto_rspWords (v : Bool) (s : State) : (State.setDto v s).rspWords = s.rspWords := rfl
@[simp] theorem setDto_errStatus (v : Bool) (s : State) : (State.setDto v s).errStatus = s.errStatus := rfl
@[simp] theorem setDto_chainCount (v : Bool) (s : State) : (State.setDto v s).chainCount = s.chainCount := rfl
@[simp] theorem setDto_resp (v : Bool) (s : State) : (State.setDto v s).resp = s.resp := rfl
@[simp] theorem setDto_rst (v : Bool) (s : State) : (State.setDto v s).rst = s.rst := rfl
@[simp] theorem setDto_reqs (v : Bool) (s : State) : (State.setDto v s).reqs = s.reqs := rfl
@[simp] theorem setDto_cfgIn (v : Bool) (s : State) : (State.setDto v s).cfgIn = s.cfgIn := rfl
@[simp] theorem setDto_answers (v : Bool) (s : State) : (State.setDto v s).answers = s.answers := rfl
@[simp] theorem setDto_draws (v : Bool) (s : State) : (State.setDto v s).draws = s.draws := rfl
@[simp] theorem setDto_dmaData (v : Bool) (s : State) : (State.setDto v s).dmaData = s.dmaData := rfl
@[simp] theorem setDto_dmaDraws (v : Bool) (s : State) : (State.setDto v s).dmaDraws = s.dmaDraws := rfl
@[simp] theorem setDto_sched (v : Bool) (s : State) : (State.setDto v s).sched = s.sched := rfl
@[simp] theorem setDto_mem (v : Bool) (s : State) : (State.setDto v s).mem = s.mem := rfl
@[simp] theorem setDto_dirty (v : Bool) (s : State) : (State.setDto v s).dirty = s.dirty := rfl
@[simp] theorem setDto_ctl (v : Bool) (s : State) : (State.setDto v s).ctl = s.ctl := rfl
@[simp] theorem setDto_dma (v : Bool) (s : State) : (State.setDto v s).dma = s.dma := rfl
@[simp] theorem setDto_hist (v : Bool) (s : State) : (State.setDto v s).hist = s.hist := rfl
@[simp] theorem setDto_trace (v : Bool) (s : State) : (State.setDto v s).trace = s.trace := rfl

/-! ## setErrStatus -/

@[simp] theorem setErrStatus_params (w : Word) (s : State) : (State.setErrStatus w s).params = s.params := rfl
@[simp] theorem setErrStatus_cfg (w : Word) (s : State) : (State.setErrStatus w s).cfg = s.cfg := rfl
@[simp] theorem setErrStatus_cfgValid (w : Word) (s : State) :
    (State.setErrStatus w s).cfgValid = s.cfgValid := rfl
@[simp] theorem setErrStatus_busWidth (w : Word) (s : State) :
    (State.setErrStatus w s).busWidth = s.busWidth := rfl
@[simp] theorem setErrStatus_clkDiv (w : Word) (s : State) : (State.setErrStatus w s).clkDiv = s.clkDiv := rfl
@[simp] theorem setErrStatus_clkEnabled (w : Word) (s : State) :
    (State.setErrStatus w s).clkEnabled = s.clkEnabled := rfl
@[simp] theorem setErrStatus_fsm (w : Word) (s : State) : (State.setErrStatus w s).fsm = s.fsm := rfl
@[simp] theorem setErrStatus_halted (w : Word) (s : State) : (State.setErrStatus w s).halted = s.halted := rfl
@[simp] theorem setErrStatus_reqCtl (w : Word) (s : State) : (State.setErrStatus w s).reqCtl = s.reqCtl := rfl
@[simp] theorem setErrStatus_reqA (w : Word) (s : State) : (State.setErrStatus w s).reqA = s.reqA := rfl
@[simp] theorem setErrStatus_reqB (w : Word) (s : State) : (State.setErrStatus w s).reqB = s.reqB := rfl
@[simp] theorem setErrStatus_reqC (w : Word) (s : State) : (State.setErrStatus w s).reqC = s.reqC := rfl
@[simp] theorem setErrStatus_cnt (w : Word) (s : State) : (State.setErrStatus w s).cnt = s.cnt := rfl
@[simp] theorem setErrStatus_cmdWord (w : Word) (s : State) :
    (State.setErrStatus w s).cmdWord = s.cmdWord := rfl
@[simp] theorem setErrStatus_cmdData (w : Word) (s : State) :
    (State.setErrStatus w s).cmdData = s.cmdData := rfl
@[simp] theorem setErrStatus_pollCmdDone (w : Word) (s : State) :
    (State.setErrStatus w s).pollCmdDone = s.pollCmdDone := rfl
@[simp] theorem setErrStatus_pollDto (w : Word) (s : State) :
    (State.setErrStatus w s).pollDto = s.pollDto := rfl
@[simp] theorem setErrStatus_rspCount (w : Word) (s : State) :
    (State.setErrStatus w s).rspCount = s.rspCount := rfl
@[simp] theorem setErrStatus_rspWords (w : Word) (s : State) :
    (State.setErrStatus w s).rspWords = s.rspWords := rfl
@[simp] theorem setErrStatus_errStatus (w : Word) (s : State) :
    (State.setErrStatus w s).errStatus = .holds w := rfl
@[simp] theorem setErrStatus_chainCount (w : Word) (s : State) :
    (State.setErrStatus w s).chainCount = s.chainCount := rfl
@[simp] theorem setErrStatus_resp (w : Word) (s : State) : (State.setErrStatus w s).resp = s.resp := rfl
@[simp] theorem setErrStatus_rst (w : Word) (s : State) : (State.setErrStatus w s).rst = s.rst := rfl
@[simp] theorem setErrStatus_reqs (w : Word) (s : State) : (State.setErrStatus w s).reqs = s.reqs := rfl
@[simp] theorem setErrStatus_cfgIn (w : Word) (s : State) : (State.setErrStatus w s).cfgIn = s.cfgIn := rfl
@[simp] theorem setErrStatus_answers (w : Word) (s : State) :
    (State.setErrStatus w s).answers = s.answers := rfl
@[simp] theorem setErrStatus_draws (w : Word) (s : State) : (State.setErrStatus w s).draws = s.draws := rfl
@[simp] theorem setErrStatus_dmaData (w : Word) (s : State) : (State.setErrStatus w s).dmaData = s.dmaData := rfl
@[simp] theorem setErrStatus_dmaDraws (w : Word) (s : State) : (State.setErrStatus w s).dmaDraws = s.dmaDraws := rfl
@[simp] theorem setErrStatus_sched (w : Word) (s : State) : (State.setErrStatus w s).sched = s.sched := rfl
@[simp] theorem setErrStatus_mem (w : Word) (s : State) : (State.setErrStatus w s).mem = s.mem := rfl
@[simp] theorem setErrStatus_dirty (w : Word) (s : State) : (State.setErrStatus w s).dirty = s.dirty := rfl
@[simp] theorem setErrStatus_ctl (w : Word) (s : State) : (State.setErrStatus w s).ctl = s.ctl := rfl
@[simp] theorem setErrStatus_dma (w : Word) (s : State) : (State.setErrStatus w s).dma = s.dma := rfl
@[simp] theorem setErrStatus_hist (w : Word) (s : State) : (State.setErrStatus w s).hist = s.hist := rfl
@[simp] theorem setErrStatus_trace (w : Word) (s : State) : (State.setErrStatus w s).trace = s.trace := rfl

/-! ## setCommand -/

@[simp] theorem setCommand_params (w : Word) (d : Bool) (s : State) :
    (State.setCommand w d s).params = s.params := rfl
@[simp] theorem setCommand_cfg (w : Word) (d : Bool) (s : State) : (State.setCommand w d s).cfg = s.cfg := rfl
@[simp] theorem setCommand_cfgValid (w : Word) (d : Bool) (s : State) :
    (State.setCommand w d s).cfgValid = s.cfgValid := rfl
@[simp] theorem setCommand_busWidth (w : Word) (d : Bool) (s : State) :
    (State.setCommand w d s).busWidth = s.busWidth := rfl
@[simp] theorem setCommand_clkDiv (w : Word) (d : Bool) (s : State) :
    (State.setCommand w d s).clkDiv = s.clkDiv := rfl
@[simp] theorem setCommand_clkEnabled (w : Word) (d : Bool) (s : State) :
    (State.setCommand w d s).clkEnabled = s.clkEnabled := rfl
@[simp] theorem setCommand_fsm (w : Word) (d : Bool) (s : State) : (State.setCommand w d s).fsm = s.fsm := rfl
@[simp] theorem setCommand_halted (w : Word) (d : Bool) (s : State) :
    (State.setCommand w d s).halted = s.halted := rfl
@[simp] theorem setCommand_reqCtl (w : Word) (d : Bool) (s : State) :
    (State.setCommand w d s).reqCtl = s.reqCtl := rfl
@[simp] theorem setCommand_reqA (w : Word) (d : Bool) (s : State) :
    (State.setCommand w d s).reqA = s.reqA := rfl
@[simp] theorem setCommand_reqB (w : Word) (d : Bool) (s : State) :
    (State.setCommand w d s).reqB = s.reqB := rfl
@[simp] theorem setCommand_reqC (w : Word) (d : Bool) (s : State) :
    (State.setCommand w d s).reqC = s.reqC := rfl
@[simp] theorem setCommand_cnt (w : Word) (d : Bool) (s : State) : (State.setCommand w d s).cnt = s.cnt := rfl
@[simp] theorem setCommand_cmdWord (w : Word) (d : Bool) (s : State) :
    (State.setCommand w d s).cmdWord = .holds w := rfl
@[simp] theorem setCommand_cmdData (w : Word) (d : Bool) (s : State) :
    (State.setCommand w d s).cmdData = .holds d := rfl
@[simp] theorem setCommand_pollCmdDone (w : Word) (d : Bool) (s : State) :
    (State.setCommand w d s).pollCmdDone = s.pollCmdDone := rfl
@[simp] theorem setCommand_pollDto (w : Word) (d : Bool) (s : State) :
    (State.setCommand w d s).pollDto = s.pollDto := rfl
@[simp] theorem setCommand_rspCount (w : Word) (d : Bool) (s : State) :
    (State.setCommand w d s).rspCount = s.rspCount := rfl
@[simp] theorem setCommand_rspWords (w : Word) (d : Bool) (s : State) :
    (State.setCommand w d s).rspWords = s.rspWords := rfl
@[simp] theorem setCommand_errStatus (w : Word) (d : Bool) (s : State) :
    (State.setCommand w d s).errStatus = s.errStatus := rfl
@[simp] theorem setCommand_chainCount (w : Word) (d : Bool) (s : State) :
    (State.setCommand w d s).chainCount = s.chainCount := rfl
@[simp] theorem setCommand_resp (w : Word) (d : Bool) (s : State) :
    (State.setCommand w d s).resp = s.resp := rfl
@[simp] theorem setCommand_rst (w : Word) (d : Bool) (s : State) : (State.setCommand w d s).rst = s.rst := rfl
@[simp] theorem setCommand_reqs (w : Word) (d : Bool) (s : State) :
    (State.setCommand w d s).reqs = s.reqs := rfl
@[simp] theorem setCommand_cfgIn (w : Word) (d : Bool) (s : State) :
    (State.setCommand w d s).cfgIn = s.cfgIn := rfl
@[simp] theorem setCommand_answers (w : Word) (d : Bool) (s : State) :
    (State.setCommand w d s).answers = s.answers := rfl
@[simp] theorem setCommand_draws (w : Word) (d : Bool) (s : State) :
    (State.setCommand w d s).draws = s.draws := rfl
@[simp] theorem setCommand_dmaData (w : Word) (d : Bool) (s : State) :
    (State.setCommand w d s).dmaData = s.dmaData := rfl
@[simp] theorem setCommand_dmaDraws (w : Word) (d : Bool) (s : State) :
    (State.setCommand w d s).dmaDraws = s.dmaDraws := rfl
@[simp] theorem setCommand_sched (w : Word) (d : Bool) (s : State) :
    (State.setCommand w d s).sched = s.sched := rfl
@[simp] theorem setCommand_mem (w : Word) (d : Bool) (s : State) : (State.setCommand w d s).mem = s.mem := rfl
@[simp] theorem setCommand_dirty (w : Word) (d : Bool) (s : State) :
    (State.setCommand w d s).dirty = s.dirty := rfl
@[simp] theorem setCommand_ctl (w : Word) (d : Bool) (s : State) : (State.setCommand w d s).ctl = s.ctl := rfl
@[simp] theorem setCommand_dma (w : Word) (d : Bool) (s : State) : (State.setCommand w d s).dma = s.dma := rfl
@[simp] theorem setCommand_hist (w : Word) (d : Bool) (s : State) :
    (State.setCommand w d s).hist = s.hist := rfl
@[simp] theorem setCommand_trace (w : Word) (d : Bool) (s : State) :
    (State.setCommand w d s).trace = s.trace := rfl

/-! ## setResponse -/

@[simp] theorem setResponse_params (n : RespCount) (ws : Vector (Latch Word) 4) (s : State) :
    (State.setResponse n ws s).params = s.params := rfl
@[simp] theorem setResponse_cfg (n : RespCount) (ws : Vector (Latch Word) 4) (s : State) :
    (State.setResponse n ws s).cfg = s.cfg := rfl
@[simp] theorem setResponse_cfgValid (n : RespCount) (ws : Vector (Latch Word) 4) (s : State) :
    (State.setResponse n ws s).cfgValid = s.cfgValid := rfl
@[simp] theorem setResponse_busWidth (n : RespCount) (ws : Vector (Latch Word) 4) (s : State) :
    (State.setResponse n ws s).busWidth = s.busWidth := rfl
@[simp] theorem setResponse_clkDiv (n : RespCount) (ws : Vector (Latch Word) 4) (s : State) :
    (State.setResponse n ws s).clkDiv = s.clkDiv := rfl
@[simp] theorem setResponse_clkEnabled (n : RespCount) (ws : Vector (Latch Word) 4) (s : State) :
    (State.setResponse n ws s).clkEnabled = s.clkEnabled := rfl
@[simp] theorem setResponse_fsm (n : RespCount) (ws : Vector (Latch Word) 4) (s : State) :
    (State.setResponse n ws s).fsm = s.fsm := rfl
@[simp] theorem setResponse_halted (n : RespCount) (ws : Vector (Latch Word) 4) (s : State) :
    (State.setResponse n ws s).halted = s.halted := rfl
@[simp] theorem setResponse_reqCtl (n : RespCount) (ws : Vector (Latch Word) 4) (s : State) :
    (State.setResponse n ws s).reqCtl = s.reqCtl := rfl
@[simp] theorem setResponse_reqA (n : RespCount) (ws : Vector (Latch Word) 4) (s : State) :
    (State.setResponse n ws s).reqA = s.reqA := rfl
@[simp] theorem setResponse_reqB (n : RespCount) (ws : Vector (Latch Word) 4) (s : State) :
    (State.setResponse n ws s).reqB = s.reqB := rfl
@[simp] theorem setResponse_reqC (n : RespCount) (ws : Vector (Latch Word) 4) (s : State) :
    (State.setResponse n ws s).reqC = s.reqC := rfl
@[simp] theorem setResponse_cnt (n : RespCount) (ws : Vector (Latch Word) 4) (s : State) :
    (State.setResponse n ws s).cnt = s.cnt := rfl
@[simp] theorem setResponse_cmdWord (n : RespCount) (ws : Vector (Latch Word) 4) (s : State) :
    (State.setResponse n ws s).cmdWord = s.cmdWord := rfl
@[simp] theorem setResponse_cmdData (n : RespCount) (ws : Vector (Latch Word) 4) (s : State) :
    (State.setResponse n ws s).cmdData = s.cmdData := rfl
@[simp] theorem setResponse_pollCmdDone (n : RespCount) (ws : Vector (Latch Word) 4) (s : State) :
    (State.setResponse n ws s).pollCmdDone = s.pollCmdDone := rfl
@[simp] theorem setResponse_pollDto (n : RespCount) (ws : Vector (Latch Word) 4) (s : State) :
    (State.setResponse n ws s).pollDto = s.pollDto := rfl
@[simp] theorem setResponse_rspCount (n : RespCount) (ws : Vector (Latch Word) 4) (s : State) :
    (State.setResponse n ws s).rspCount = n := rfl
@[simp] theorem setResponse_rspWords (n : RespCount) (ws : Vector (Latch Word) 4) (s : State) :
    (State.setResponse n ws s).rspWords = ws := rfl
@[simp] theorem setResponse_errStatus (n : RespCount) (ws : Vector (Latch Word) 4) (s : State) :
    (State.setResponse n ws s).errStatus = s.errStatus := rfl
@[simp] theorem setResponse_chainCount (n : RespCount) (ws : Vector (Latch Word) 4) (s : State) :
    (State.setResponse n ws s).chainCount = s.chainCount := rfl
@[simp] theorem setResponse_resp (n : RespCount) (ws : Vector (Latch Word) 4) (s : State) :
    (State.setResponse n ws s).resp = s.resp := rfl
@[simp] theorem setResponse_rst (n : RespCount) (ws : Vector (Latch Word) 4) (s : State) :
    (State.setResponse n ws s).rst = s.rst := rfl
@[simp] theorem setResponse_reqs (n : RespCount) (ws : Vector (Latch Word) 4) (s : State) :
    (State.setResponse n ws s).reqs = s.reqs := rfl
@[simp] theorem setResponse_cfgIn (n : RespCount) (ws : Vector (Latch Word) 4) (s : State) :
    (State.setResponse n ws s).cfgIn = s.cfgIn := rfl
@[simp] theorem setResponse_answers (n : RespCount) (ws : Vector (Latch Word) 4) (s : State) :
    (State.setResponse n ws s).answers = s.answers := rfl
@[simp] theorem setResponse_draws (n : RespCount) (ws : Vector (Latch Word) 4) (s : State) :
    (State.setResponse n ws s).draws = s.draws := rfl
@[simp] theorem setResponse_dmaData (n : RespCount) (ws : Vector (Latch Word) 4) (s : State) :
    (State.setResponse n ws s).dmaData = s.dmaData := rfl
@[simp] theorem setResponse_dmaDraws (n : RespCount) (ws : Vector (Latch Word) 4) (s : State) :
    (State.setResponse n ws s).dmaDraws = s.dmaDraws := rfl
@[simp] theorem setResponse_sched (n : RespCount) (ws : Vector (Latch Word) 4) (s : State) :
    (State.setResponse n ws s).sched = s.sched := rfl
@[simp] theorem setResponse_mem (n : RespCount) (ws : Vector (Latch Word) 4) (s : State) :
    (State.setResponse n ws s).mem = s.mem := rfl
@[simp] theorem setResponse_dirty (n : RespCount) (ws : Vector (Latch Word) 4) (s : State) :
    (State.setResponse n ws s).dirty = s.dirty := rfl
@[simp] theorem setResponse_ctl (n : RespCount) (ws : Vector (Latch Word) 4) (s : State) :
    (State.setResponse n ws s).ctl = s.ctl := rfl
@[simp] theorem setResponse_dma (n : RespCount) (ws : Vector (Latch Word) 4) (s : State) :
    (State.setResponse n ws s).dma = s.dma := rfl
@[simp] theorem setResponse_hist (n : RespCount) (ws : Vector (Latch Word) 4) (s : State) :
    (State.setResponse n ws s).hist = s.hist := rfl
@[simp] theorem setResponse_trace (n : RespCount) (ws : Vector (Latch Word) 4) (s : State) :
    (State.setResponse n ws s).trace = s.trace := rfl

/-! ## setClkEnabled -/

@[simp] theorem setClkEnabled_params (v : Bool) (s : State) :
    (State.setClkEnabled v s).params = s.params := rfl
@[simp] theorem setClkEnabled_cfg (v : Bool) (s : State) : (State.setClkEnabled v s).cfg = s.cfg := rfl
@[simp] theorem setClkEnabled_cfgValid (v : Bool) (s : State) :
    (State.setClkEnabled v s).cfgValid = s.cfgValid := rfl
@[simp] theorem setClkEnabled_busWidth (v : Bool) (s : State) :
    (State.setClkEnabled v s).busWidth = s.busWidth := rfl
@[simp] theorem setClkEnabled_clkDiv (v : Bool) (s : State) :
    (State.setClkEnabled v s).clkDiv = s.clkDiv := rfl
@[simp] theorem setClkEnabled_clkEnabled (v : Bool) (s : State) :
    (State.setClkEnabled v s).clkEnabled = .holds v := rfl
@[simp] theorem setClkEnabled_fsm (v : Bool) (s : State) : (State.setClkEnabled v s).fsm = s.fsm := rfl
@[simp] theorem setClkEnabled_halted (v : Bool) (s : State) :
    (State.setClkEnabled v s).halted = s.halted := rfl
@[simp] theorem setClkEnabled_reqCtl (v : Bool) (s : State) :
    (State.setClkEnabled v s).reqCtl = s.reqCtl := rfl
@[simp] theorem setClkEnabled_reqA (v : Bool) (s : State) : (State.setClkEnabled v s).reqA = s.reqA := rfl
@[simp] theorem setClkEnabled_reqB (v : Bool) (s : State) : (State.setClkEnabled v s).reqB = s.reqB := rfl
@[simp] theorem setClkEnabled_reqC (v : Bool) (s : State) : (State.setClkEnabled v s).reqC = s.reqC := rfl
@[simp] theorem setClkEnabled_cnt (v : Bool) (s : State) : (State.setClkEnabled v s).cnt = s.cnt := rfl
@[simp] theorem setClkEnabled_cmdWord (v : Bool) (s : State) :
    (State.setClkEnabled v s).cmdWord = s.cmdWord := rfl
@[simp] theorem setClkEnabled_cmdData (v : Bool) (s : State) :
    (State.setClkEnabled v s).cmdData = s.cmdData := rfl
@[simp] theorem setClkEnabled_pollCmdDone (v : Bool) (s : State) :
    (State.setClkEnabled v s).pollCmdDone = s.pollCmdDone := rfl
@[simp] theorem setClkEnabled_pollDto (v : Bool) (s : State) :
    (State.setClkEnabled v s).pollDto = s.pollDto := rfl
@[simp] theorem setClkEnabled_rspCount (v : Bool) (s : State) :
    (State.setClkEnabled v s).rspCount = s.rspCount := rfl
@[simp] theorem setClkEnabled_rspWords (v : Bool) (s : State) :
    (State.setClkEnabled v s).rspWords = s.rspWords := rfl
@[simp] theorem setClkEnabled_errStatus (v : Bool) (s : State) :
    (State.setClkEnabled v s).errStatus = s.errStatus := rfl
@[simp] theorem setClkEnabled_chainCount (v : Bool) (s : State) :
    (State.setClkEnabled v s).chainCount = s.chainCount := rfl
@[simp] theorem setClkEnabled_resp (v : Bool) (s : State) : (State.setClkEnabled v s).resp = s.resp := rfl
@[simp] theorem setClkEnabled_rst (v : Bool) (s : State) : (State.setClkEnabled v s).rst = s.rst := rfl
@[simp] theorem setClkEnabled_reqs (v : Bool) (s : State) : (State.setClkEnabled v s).reqs = s.reqs := rfl
@[simp] theorem setClkEnabled_cfgIn (v : Bool) (s : State) : (State.setClkEnabled v s).cfgIn = s.cfgIn := rfl
@[simp] theorem setClkEnabled_answers (v : Bool) (s : State) :
    (State.setClkEnabled v s).answers = s.answers := rfl
@[simp] theorem setClkEnabled_draws (v : Bool) (s : State) : (State.setClkEnabled v s).draws = s.draws := rfl
@[simp] theorem setClkEnabled_dmaData (v : Bool) (s : State) : (State.setClkEnabled v s).dmaData = s.dmaData := rfl
@[simp] theorem setClkEnabled_dmaDraws (v : Bool) (s : State) : (State.setClkEnabled v s).dmaDraws = s.dmaDraws := rfl
@[simp] theorem setClkEnabled_sched (v : Bool) (s : State) : (State.setClkEnabled v s).sched = s.sched := rfl
@[simp] theorem setClkEnabled_mem (v : Bool) (s : State) : (State.setClkEnabled v s).mem = s.mem := rfl
@[simp] theorem setClkEnabled_dirty (v : Bool) (s : State) : (State.setClkEnabled v s).dirty = s.dirty := rfl
@[simp] theorem setClkEnabled_ctl (v : Bool) (s : State) : (State.setClkEnabled v s).ctl = s.ctl := rfl
@[simp] theorem setClkEnabled_dma (v : Bool) (s : State) : (State.setClkEnabled v s).dma = s.dma := rfl
@[simp] theorem setClkEnabled_hist (v : Bool) (s : State) : (State.setClkEnabled v s).hist = s.hist := rfl
@[simp] theorem setClkEnabled_trace (v : Bool) (s : State) : (State.setClkEnabled v s).trace = s.trace := rfl

/-! ## setClkDiv -/

@[simp] theorem setClkDiv_params (d : BitVec 8) (s : State) : (State.setClkDiv d s).params = s.params := rfl
@[simp] theorem setClkDiv_cfg (d : BitVec 8) (s : State) : (State.setClkDiv d s).cfg = s.cfg := rfl
@[simp] theorem setClkDiv_cfgValid (d : BitVec 8) (s : State) :
    (State.setClkDiv d s).cfgValid = s.cfgValid := rfl
@[simp] theorem setClkDiv_busWidth (d : BitVec 8) (s : State) :
    (State.setClkDiv d s).busWidth = s.busWidth := rfl
@[simp] theorem setClkDiv_clkDiv (d : BitVec 8) (s : State) : (State.setClkDiv d s).clkDiv = .holds d := rfl
@[simp] theorem setClkDiv_clkEnabled (d : BitVec 8) (s : State) :
    (State.setClkDiv d s).clkEnabled = s.clkEnabled := rfl
@[simp] theorem setClkDiv_fsm (d : BitVec 8) (s : State) : (State.setClkDiv d s).fsm = s.fsm := rfl
@[simp] theorem setClkDiv_halted (d : BitVec 8) (s : State) : (State.setClkDiv d s).halted = s.halted := rfl
@[simp] theorem setClkDiv_reqCtl (d : BitVec 8) (s : State) : (State.setClkDiv d s).reqCtl = s.reqCtl := rfl
@[simp] theorem setClkDiv_reqA (d : BitVec 8) (s : State) : (State.setClkDiv d s).reqA = s.reqA := rfl
@[simp] theorem setClkDiv_reqB (d : BitVec 8) (s : State) : (State.setClkDiv d s).reqB = s.reqB := rfl
@[simp] theorem setClkDiv_reqC (d : BitVec 8) (s : State) : (State.setClkDiv d s).reqC = s.reqC := rfl
@[simp] theorem setClkDiv_cnt (d : BitVec 8) (s : State) : (State.setClkDiv d s).cnt = s.cnt := rfl
@[simp] theorem setClkDiv_cmdWord (d : BitVec 8) (s : State) :
    (State.setClkDiv d s).cmdWord = s.cmdWord := rfl
@[simp] theorem setClkDiv_cmdData (d : BitVec 8) (s : State) :
    (State.setClkDiv d s).cmdData = s.cmdData := rfl
@[simp] theorem setClkDiv_pollCmdDone (d : BitVec 8) (s : State) :
    (State.setClkDiv d s).pollCmdDone = s.pollCmdDone := rfl
@[simp] theorem setClkDiv_pollDto (d : BitVec 8) (s : State) :
    (State.setClkDiv d s).pollDto = s.pollDto := rfl
@[simp] theorem setClkDiv_rspCount (d : BitVec 8) (s : State) :
    (State.setClkDiv d s).rspCount = s.rspCount := rfl
@[simp] theorem setClkDiv_rspWords (d : BitVec 8) (s : State) :
    (State.setClkDiv d s).rspWords = s.rspWords := rfl
@[simp] theorem setClkDiv_errStatus (d : BitVec 8) (s : State) :
    (State.setClkDiv d s).errStatus = s.errStatus := rfl
@[simp] theorem setClkDiv_chainCount (d : BitVec 8) (s : State) :
    (State.setClkDiv d s).chainCount = s.chainCount := rfl
@[simp] theorem setClkDiv_resp (d : BitVec 8) (s : State) : (State.setClkDiv d s).resp = s.resp := rfl
@[simp] theorem setClkDiv_rst (d : BitVec 8) (s : State) : (State.setClkDiv d s).rst = s.rst := rfl
@[simp] theorem setClkDiv_reqs (d : BitVec 8) (s : State) : (State.setClkDiv d s).reqs = s.reqs := rfl
@[simp] theorem setClkDiv_cfgIn (d : BitVec 8) (s : State) : (State.setClkDiv d s).cfgIn = s.cfgIn := rfl
@[simp] theorem setClkDiv_answers (d : BitVec 8) (s : State) :
    (State.setClkDiv d s).answers = s.answers := rfl
@[simp] theorem setClkDiv_draws (d : BitVec 8) (s : State) : (State.setClkDiv d s).draws = s.draws := rfl
@[simp] theorem setClkDiv_dmaData (d : BitVec 8) (s : State) : (State.setClkDiv d s).dmaData = s.dmaData := rfl
@[simp] theorem setClkDiv_dmaDraws (d : BitVec 8) (s : State) : (State.setClkDiv d s).dmaDraws = s.dmaDraws := rfl
@[simp] theorem setClkDiv_sched (d : BitVec 8) (s : State) : (State.setClkDiv d s).sched = s.sched := rfl
@[simp] theorem setClkDiv_mem (d : BitVec 8) (s : State) : (State.setClkDiv d s).mem = s.mem := rfl
@[simp] theorem setClkDiv_dirty (d : BitVec 8) (s : State) : (State.setClkDiv d s).dirty = s.dirty := rfl
@[simp] theorem setClkDiv_ctl (d : BitVec 8) (s : State) : (State.setClkDiv d s).ctl = s.ctl := rfl
@[simp] theorem setClkDiv_dma (d : BitVec 8) (s : State) : (State.setClkDiv d s).dma = s.dma := rfl
@[simp] theorem setClkDiv_hist (d : BitVec 8) (s : State) : (State.setClkDiv d s).hist = s.hist := rfl
@[simp] theorem setClkDiv_trace (d : BitVec 8) (s : State) : (State.setClkDiv d s).trace = s.trace := rfl

/-! ## setBusWidth -/

@[simp] theorem setBusWidth_params (d : BitVec 4) (s : State) :
    (State.setBusWidth d s).params = s.params := rfl
@[simp] theorem setBusWidth_cfg (d : BitVec 4) (s : State) : (State.setBusWidth d s).cfg = s.cfg := rfl
@[simp] theorem setBusWidth_cfgValid (d : BitVec 4) (s : State) :
    (State.setBusWidth d s).cfgValid = s.cfgValid := rfl
@[simp] theorem setBusWidth_busWidth (d : BitVec 4) (s : State) :
    (State.setBusWidth d s).busWidth = .holds d := rfl
@[simp] theorem setBusWidth_clkDiv (d : BitVec 4) (s : State) :
    (State.setBusWidth d s).clkDiv = s.clkDiv := rfl
@[simp] theorem setBusWidth_clkEnabled (d : BitVec 4) (s : State) :
    (State.setBusWidth d s).clkEnabled = s.clkEnabled := rfl
@[simp] theorem setBusWidth_fsm (d : BitVec 4) (s : State) : (State.setBusWidth d s).fsm = s.fsm := rfl
@[simp] theorem setBusWidth_halted (d : BitVec 4) (s : State) :
    (State.setBusWidth d s).halted = s.halted := rfl
@[simp] theorem setBusWidth_reqCtl (d : BitVec 4) (s : State) :
    (State.setBusWidth d s).reqCtl = s.reqCtl := rfl
@[simp] theorem setBusWidth_reqA (d : BitVec 4) (s : State) : (State.setBusWidth d s).reqA = s.reqA := rfl
@[simp] theorem setBusWidth_reqB (d : BitVec 4) (s : State) : (State.setBusWidth d s).reqB = s.reqB := rfl
@[simp] theorem setBusWidth_reqC (d : BitVec 4) (s : State) : (State.setBusWidth d s).reqC = s.reqC := rfl
@[simp] theorem setBusWidth_cnt (d : BitVec 4) (s : State) : (State.setBusWidth d s).cnt = s.cnt := rfl
@[simp] theorem setBusWidth_cmdWord (d : BitVec 4) (s : State) :
    (State.setBusWidth d s).cmdWord = s.cmdWord := rfl
@[simp] theorem setBusWidth_cmdData (d : BitVec 4) (s : State) :
    (State.setBusWidth d s).cmdData = s.cmdData := rfl
@[simp] theorem setBusWidth_pollCmdDone (d : BitVec 4) (s : State) :
    (State.setBusWidth d s).pollCmdDone = s.pollCmdDone := rfl
@[simp] theorem setBusWidth_pollDto (d : BitVec 4) (s : State) :
    (State.setBusWidth d s).pollDto = s.pollDto := rfl
@[simp] theorem setBusWidth_rspCount (d : BitVec 4) (s : State) :
    (State.setBusWidth d s).rspCount = s.rspCount := rfl
@[simp] theorem setBusWidth_rspWords (d : BitVec 4) (s : State) :
    (State.setBusWidth d s).rspWords = s.rspWords := rfl
@[simp] theorem setBusWidth_errStatus (d : BitVec 4) (s : State) :
    (State.setBusWidth d s).errStatus = s.errStatus := rfl
@[simp] theorem setBusWidth_chainCount (d : BitVec 4) (s : State) :
    (State.setBusWidth d s).chainCount = s.chainCount := rfl
@[simp] theorem setBusWidth_resp (d : BitVec 4) (s : State) : (State.setBusWidth d s).resp = s.resp := rfl
@[simp] theorem setBusWidth_rst (d : BitVec 4) (s : State) : (State.setBusWidth d s).rst = s.rst := rfl
@[simp] theorem setBusWidth_reqs (d : BitVec 4) (s : State) : (State.setBusWidth d s).reqs = s.reqs := rfl
@[simp] theorem setBusWidth_cfgIn (d : BitVec 4) (s : State) : (State.setBusWidth d s).cfgIn = s.cfgIn := rfl
@[simp] theorem setBusWidth_answers (d : BitVec 4) (s : State) :
    (State.setBusWidth d s).answers = s.answers := rfl
@[simp] theorem setBusWidth_draws (d : BitVec 4) (s : State) : (State.setBusWidth d s).draws = s.draws := rfl
@[simp] theorem setBusWidth_dmaData (d : BitVec 4) (s : State) : (State.setBusWidth d s).dmaData = s.dmaData := rfl
@[simp] theorem setBusWidth_dmaDraws (d : BitVec 4) (s : State) : (State.setBusWidth d s).dmaDraws = s.dmaDraws := rfl
@[simp] theorem setBusWidth_sched (d : BitVec 4) (s : State) : (State.setBusWidth d s).sched = s.sched := rfl
@[simp] theorem setBusWidth_mem (d : BitVec 4) (s : State) : (State.setBusWidth d s).mem = s.mem := rfl
@[simp] theorem setBusWidth_dirty (d : BitVec 4) (s : State) : (State.setBusWidth d s).dirty = s.dirty := rfl
@[simp] theorem setBusWidth_ctl (d : BitVec 4) (s : State) : (State.setBusWidth d s).ctl = s.ctl := rfl
@[simp] theorem setBusWidth_dma (d : BitVec 4) (s : State) : (State.setBusWidth d s).dma = s.dma := rfl
@[simp] theorem setBusWidth_hist (d : BitVec 4) (s : State) : (State.setBusWidth d s).hist = s.hist := rfl
@[simp] theorem setBusWidth_trace (d : BitVec 4) (s : State) : (State.setBusWidth d s).trace = s.trace := rfl

/-! ## setChainCount -/

@[simp] theorem setChainCount_params (n : Word) (s : State) :
    (State.setChainCount n s).params = s.params := rfl
@[simp] theorem setChainCount_cfg (n : Word) (s : State) : (State.setChainCount n s).cfg = s.cfg := rfl
@[simp] theorem setChainCount_cfgValid (n : Word) (s : State) :
    (State.setChainCount n s).cfgValid = s.cfgValid := rfl
@[simp] theorem setChainCount_busWidth (n : Word) (s : State) :
    (State.setChainCount n s).busWidth = s.busWidth := rfl
@[simp] theorem setChainCount_clkDiv (n : Word) (s : State) :
    (State.setChainCount n s).clkDiv = s.clkDiv := rfl
@[simp] theorem setChainCount_clkEnabled (n : Word) (s : State) :
    (State.setChainCount n s).clkEnabled = s.clkEnabled := rfl
@[simp] theorem setChainCount_fsm (n : Word) (s : State) : (State.setChainCount n s).fsm = s.fsm := rfl
@[simp] theorem setChainCount_halted (n : Word) (s : State) :
    (State.setChainCount n s).halted = s.halted := rfl
@[simp] theorem setChainCount_reqCtl (n : Word) (s : State) :
    (State.setChainCount n s).reqCtl = s.reqCtl := rfl
@[simp] theorem setChainCount_reqA (n : Word) (s : State) : (State.setChainCount n s).reqA = s.reqA := rfl
@[simp] theorem setChainCount_reqB (n : Word) (s : State) : (State.setChainCount n s).reqB = s.reqB := rfl
@[simp] theorem setChainCount_reqC (n : Word) (s : State) : (State.setChainCount n s).reqC = s.reqC := rfl
@[simp] theorem setChainCount_cnt (n : Word) (s : State) : (State.setChainCount n s).cnt = s.cnt := rfl
@[simp] theorem setChainCount_cmdWord (n : Word) (s : State) :
    (State.setChainCount n s).cmdWord = s.cmdWord := rfl
@[simp] theorem setChainCount_cmdData (n : Word) (s : State) :
    (State.setChainCount n s).cmdData = s.cmdData := rfl
@[simp] theorem setChainCount_pollCmdDone (n : Word) (s : State) :
    (State.setChainCount n s).pollCmdDone = s.pollCmdDone := rfl
@[simp] theorem setChainCount_pollDto (n : Word) (s : State) :
    (State.setChainCount n s).pollDto = s.pollDto := rfl
@[simp] theorem setChainCount_rspCount (n : Word) (s : State) :
    (State.setChainCount n s).rspCount = s.rspCount := rfl
@[simp] theorem setChainCount_rspWords (n : Word) (s : State) :
    (State.setChainCount n s).rspWords = s.rspWords := rfl
@[simp] theorem setChainCount_errStatus (n : Word) (s : State) :
    (State.setChainCount n s).errStatus = s.errStatus := rfl
@[simp] theorem setChainCount_chainCount (n : Word) (s : State) :
    (State.setChainCount n s).chainCount = .holds n := rfl
@[simp] theorem setChainCount_resp (n : Word) (s : State) : (State.setChainCount n s).resp = s.resp := rfl
@[simp] theorem setChainCount_rst (n : Word) (s : State) : (State.setChainCount n s).rst = s.rst := rfl
@[simp] theorem setChainCount_reqs (n : Word) (s : State) : (State.setChainCount n s).reqs = s.reqs := rfl
@[simp] theorem setChainCount_cfgIn (n : Word) (s : State) : (State.setChainCount n s).cfgIn = s.cfgIn := rfl
@[simp] theorem setChainCount_answers (n : Word) (s : State) :
    (State.setChainCount n s).answers = s.answers := rfl
@[simp] theorem setChainCount_draws (n : Word) (s : State) : (State.setChainCount n s).draws = s.draws := rfl
@[simp] theorem setChainCount_dmaData (n : Word) (s : State) : (State.setChainCount n s).dmaData = s.dmaData := rfl
@[simp] theorem setChainCount_dmaDraws (n : Word) (s : State) : (State.setChainCount n s).dmaDraws = s.dmaDraws := rfl
@[simp] theorem setChainCount_sched (n : Word) (s : State) : (State.setChainCount n s).sched = s.sched := rfl
@[simp] theorem setChainCount_mem (n : Word) (s : State) : (State.setChainCount n s).mem = s.mem := rfl
@[simp] theorem setChainCount_dirty (n : Word) (s : State) : (State.setChainCount n s).dirty = s.dirty := rfl
@[simp] theorem setChainCount_ctl (n : Word) (s : State) : (State.setChainCount n s).ctl = s.ctl := rfl
@[simp] theorem setChainCount_dma (n : Word) (s : State) : (State.setChainCount n s).dma = s.dma := rfl
@[simp] theorem setChainCount_hist (n : Word) (s : State) : (State.setChainCount n s).hist = s.hist := rfl
@[simp] theorem setChainCount_trace (n : Word) (s : State) : (State.setChainCount n s).trace = s.trace := rfl

/-! ## setCfg -/

@[simp] theorem setCfg_params (c : Cfg) (s : State) : (State.setCfg c s).params = s.params := rfl
@[simp] theorem setCfg_cfg (c : Cfg) (s : State) : (State.setCfg c s).cfg = .holds c := rfl
@[simp] theorem setCfg_cfgValid (c : Cfg) (s : State) : (State.setCfg c s).cfgValid = true := rfl
@[simp] theorem setCfg_busWidth (c : Cfg) (s : State) : (State.setCfg c s).busWidth = s.busWidth.forget := rfl
@[simp] theorem setCfg_clkDiv (c : Cfg) (s : State) : (State.setCfg c s).clkDiv = s.clkDiv := rfl
@[simp] theorem setCfg_clkEnabled (c : Cfg) (s : State) : (State.setCfg c s).clkEnabled = s.clkEnabled := rfl
@[simp] theorem setCfg_fsm (c : Cfg) (s : State) : (State.setCfg c s).fsm = s.fsm := rfl
@[simp] theorem setCfg_halted (c : Cfg) (s : State) : (State.setCfg c s).halted = s.halted := rfl
@[simp] theorem setCfg_reqCtl (c : Cfg) (s : State) : (State.setCfg c s).reqCtl = s.reqCtl := rfl
@[simp] theorem setCfg_reqA (c : Cfg) (s : State) : (State.setCfg c s).reqA = s.reqA := rfl
@[simp] theorem setCfg_reqB (c : Cfg) (s : State) : (State.setCfg c s).reqB = s.reqB := rfl
@[simp] theorem setCfg_reqC (c : Cfg) (s : State) : (State.setCfg c s).reqC = s.reqC := rfl
@[simp] theorem setCfg_cnt (c : Cfg) (s : State) : (State.setCfg c s).cnt = s.cnt := rfl
@[simp] theorem setCfg_cmdWord (c : Cfg) (s : State) : (State.setCfg c s).cmdWord = s.cmdWord := rfl
@[simp] theorem setCfg_cmdData (c : Cfg) (s : State) : (State.setCfg c s).cmdData = s.cmdData := rfl
@[simp] theorem setCfg_pollCmdDone (c : Cfg) (s : State) :
    (State.setCfg c s).pollCmdDone = s.pollCmdDone := rfl
@[simp] theorem setCfg_pollDto (c : Cfg) (s : State) : (State.setCfg c s).pollDto = s.pollDto := rfl
@[simp] theorem setCfg_rspCount (c : Cfg) (s : State) : (State.setCfg c s).rspCount = s.rspCount := rfl
@[simp] theorem setCfg_rspWords (c : Cfg) (s : State) : (State.setCfg c s).rspWords = s.rspWords := rfl
@[simp] theorem setCfg_errStatus (c : Cfg) (s : State) : (State.setCfg c s).errStatus = s.errStatus := rfl
@[simp] theorem setCfg_chainCount (c : Cfg) (s : State) : (State.setCfg c s).chainCount = s.chainCount := rfl
@[simp] theorem setCfg_resp (c : Cfg) (s : State) : (State.setCfg c s).resp = s.resp := rfl
@[simp] theorem setCfg_rst (c : Cfg) (s : State) : (State.setCfg c s).rst = s.rst := rfl
@[simp] theorem setCfg_reqs (c : Cfg) (s : State) : (State.setCfg c s).reqs = s.reqs := rfl
@[simp] theorem setCfg_cfgIn (c : Cfg) (s : State) : (State.setCfg c s).cfgIn = s.cfgIn := rfl
@[simp] theorem setCfg_answers (c : Cfg) (s : State) : (State.setCfg c s).answers = s.answers := rfl
@[simp] theorem setCfg_draws (c : Cfg) (s : State) : (State.setCfg c s).draws = s.draws := rfl
@[simp] theorem setCfg_dmaData (c : Cfg) (s : State) : (State.setCfg c s).dmaData = s.dmaData := rfl
@[simp] theorem setCfg_dmaDraws (c : Cfg) (s : State) : (State.setCfg c s).dmaDraws = s.dmaDraws := rfl
@[simp] theorem setCfg_sched (c : Cfg) (s : State) : (State.setCfg c s).sched = s.sched := rfl
@[simp] theorem setCfg_mem (c : Cfg) (s : State) : (State.setCfg c s).mem = s.mem := rfl
@[simp] theorem setCfg_dirty (c : Cfg) (s : State) : (State.setCfg c s).dirty = s.dirty := rfl
@[simp] theorem setCfg_ctl (c : Cfg) (s : State) : (State.setCfg c s).ctl = s.ctl := rfl
@[simp] theorem setCfg_dma (c : Cfg) (s : State) : (State.setCfg c s).dma = s.dma := rfl
@[simp] theorem setCfg_hist (c : Cfg) (s : State) : (State.setCfg c s).hist = s.hist := rfl
@[simp] theorem setCfg_trace (c : Cfg) (s : State) : (State.setCfg c s).trace = s.trace := rfl

/-! ## engineFrom -/

@[simp] theorem engineFrom_params (d : Bool) (a : Nat) (s : State) :
    (State.engineFrom d a s).params = s.params := rfl
@[simp] theorem engineFrom_cfg (d : Bool) (a : Nat) (s : State) : (State.engineFrom d a s).cfg = s.cfg := rfl
@[simp] theorem engineFrom_cfgValid (d : Bool) (a : Nat) (s : State) :
    (State.engineFrom d a s).cfgValid = s.cfgValid := rfl
@[simp] theorem engineFrom_busWidth (d : Bool) (a : Nat) (s : State) :
    (State.engineFrom d a s).busWidth = s.busWidth := rfl
@[simp] theorem engineFrom_clkDiv (d : Bool) (a : Nat) (s : State) :
    (State.engineFrom d a s).clkDiv = s.clkDiv := rfl
@[simp] theorem engineFrom_clkEnabled (d : Bool) (a : Nat) (s : State) :
    (State.engineFrom d a s).clkEnabled = s.clkEnabled := rfl
@[simp] theorem engineFrom_fsm (d : Bool) (a : Nat) (s : State) : (State.engineFrom d a s).fsm = s.fsm := rfl
@[simp] theorem engineFrom_halted (d : Bool) (a : Nat) (s : State) :
    (State.engineFrom d a s).halted = s.halted := rfl
@[simp] theorem engineFrom_reqCtl (d : Bool) (a : Nat) (s : State) :
    (State.engineFrom d a s).reqCtl = s.reqCtl := rfl
@[simp] theorem engineFrom_reqA (d : Bool) (a : Nat) (s : State) :
    (State.engineFrom d a s).reqA = s.reqA := rfl
@[simp] theorem engineFrom_reqB (d : Bool) (a : Nat) (s : State) :
    (State.engineFrom d a s).reqB = s.reqB := rfl
@[simp] theorem engineFrom_reqC (d : Bool) (a : Nat) (s : State) :
    (State.engineFrom d a s).reqC = s.reqC := rfl
@[simp] theorem engineFrom_cnt (d : Bool) (a : Nat) (s : State) : (State.engineFrom d a s).cnt = s.cnt := rfl
@[simp] theorem engineFrom_cmdWord (d : Bool) (a : Nat) (s : State) :
    (State.engineFrom d a s).cmdWord = s.cmdWord := rfl
@[simp] theorem engineFrom_cmdData (d : Bool) (a : Nat) (s : State) :
    (State.engineFrom d a s).cmdData = s.cmdData := rfl
@[simp] theorem engineFrom_pollCmdDone (d : Bool) (a : Nat) (s : State) :
    (State.engineFrom d a s).pollCmdDone = s.pollCmdDone := rfl
@[simp] theorem engineFrom_pollDto (d : Bool) (a : Nat) (s : State) :
    (State.engineFrom d a s).pollDto = s.pollDto := rfl
@[simp] theorem engineFrom_rspCount (d : Bool) (a : Nat) (s : State) :
    (State.engineFrom d a s).rspCount = s.rspCount := rfl
@[simp] theorem engineFrom_rspWords (d : Bool) (a : Nat) (s : State) :
    (State.engineFrom d a s).rspWords = s.rspWords := rfl
@[simp] theorem engineFrom_errStatus (d : Bool) (a : Nat) (s : State) :
    (State.engineFrom d a s).errStatus = s.errStatus := rfl
@[simp] theorem engineFrom_chainCount (d : Bool) (a : Nat) (s : State) :
    (State.engineFrom d a s).chainCount = s.chainCount := rfl
@[simp] theorem engineFrom_resp (d : Bool) (a : Nat) (s : State) :
    (State.engineFrom d a s).resp = s.resp := rfl
@[simp] theorem engineFrom_rst (d : Bool) (a : Nat) (s : State) : (State.engineFrom d a s).rst = s.rst := rfl
@[simp] theorem engineFrom_reqs (d : Bool) (a : Nat) (s : State) :
    (State.engineFrom d a s).reqs = s.reqs := rfl
@[simp] theorem engineFrom_cfgIn (d : Bool) (a : Nat) (s : State) :
    (State.engineFrom d a s).cfgIn = s.cfgIn := rfl
@[simp] theorem engineFrom_answers (d : Bool) (a : Nat) (s : State) :
    (State.engineFrom d a s).answers = s.answers := rfl
@[simp] theorem engineFrom_draws (d : Bool) (a : Nat) (s : State) :
    (State.engineFrom d a s).draws = s.draws := rfl
@[simp] theorem engineFrom_dmaData (d : Bool) (a : Nat) (s : State) :
    (State.engineFrom d a s).dmaData = s.dmaData := rfl
@[simp] theorem engineFrom_dmaDraws (d : Bool) (a : Nat) (s : State) :
    (State.engineFrom d a s).dmaDraws = s.dmaDraws := rfl
@[simp] theorem engineFrom_sched (d : Bool) (a : Nat) (s : State) :
    (State.engineFrom d a s).sched = s.sched := rfl
@[simp] theorem engineFrom_mem (d : Bool) (a : Nat) (s : State) : (State.engineFrom d a s).mem = s.mem := rfl
@[simp] theorem engineFrom_dirty (d : Bool) (a : Nat) (s : State) :
    (State.engineFrom d a s).dirty = s.dirty := rfl
@[simp] theorem engineFrom_ctl (d : Bool) (a : Nat) (s : State) : (State.engineFrom d a s).ctl = s.ctl := rfl
@[simp] theorem engineFrom_dma (d : Bool) (a : Nat) (s : State) :
    (State.engineFrom d a s).dma = { s.dma with cur := some a, toDevice := d } := rfl
@[simp] theorem engineFrom_hist (d : Bool) (a : Nat) (s : State) :
    (State.engineFrom d a s).hist = s.hist := rfl
@[simp] theorem engineFrom_trace (d : Bool) (a : Nat) (s : State) :
    (State.engineFrom d a s).trace = s.trace := rfl

/-! ## joinBus -/

@[simp] theorem joinBus_params (k : BusCommand) (s : State) : (State.joinBus k s).params = s.params := rfl
@[simp] theorem joinBus_cfg (k : BusCommand) (s : State) : (State.joinBus k s).cfg = s.cfg := rfl
@[simp] theorem joinBus_cfgValid (k : BusCommand) (s : State) :
    (State.joinBus k s).cfgValid = s.cfgValid := rfl
@[simp] theorem joinBus_busWidth (k : BusCommand) (s : State) :
    (State.joinBus k s).busWidth = s.busWidth := rfl
@[simp] theorem joinBus_clkDiv (k : BusCommand) (s : State) : (State.joinBus k s).clkDiv = s.clkDiv := rfl
@[simp] theorem joinBus_clkEnabled (k : BusCommand) (s : State) :
    (State.joinBus k s).clkEnabled = s.clkEnabled := rfl
@[simp] theorem joinBus_fsm (k : BusCommand) (s : State) : (State.joinBus k s).fsm = s.fsm := rfl
@[simp] theorem joinBus_halted (k : BusCommand) (s : State) : (State.joinBus k s).halted = s.halted := rfl
@[simp] theorem joinBus_reqCtl (k : BusCommand) (s : State) : (State.joinBus k s).reqCtl = s.reqCtl := rfl
@[simp] theorem joinBus_reqA (k : BusCommand) (s : State) : (State.joinBus k s).reqA = s.reqA := rfl
@[simp] theorem joinBus_reqB (k : BusCommand) (s : State) : (State.joinBus k s).reqB = s.reqB := rfl
@[simp] theorem joinBus_reqC (k : BusCommand) (s : State) : (State.joinBus k s).reqC = s.reqC := rfl
@[simp] theorem joinBus_cnt (k : BusCommand) (s : State) : (State.joinBus k s).cnt = s.cnt := rfl
@[simp] theorem joinBus_cmdWord (k : BusCommand) (s : State) : (State.joinBus k s).cmdWord = s.cmdWord := rfl
@[simp] theorem joinBus_cmdData (k : BusCommand) (s : State) : (State.joinBus k s).cmdData = s.cmdData := rfl
@[simp] theorem joinBus_pollCmdDone (k : BusCommand) (s : State) :
    (State.joinBus k s).pollCmdDone = s.pollCmdDone := rfl
@[simp] theorem joinBus_pollDto (k : BusCommand) (s : State) : (State.joinBus k s).pollDto = s.pollDto := rfl
@[simp] theorem joinBus_rspCount (k : BusCommand) (s : State) :
    (State.joinBus k s).rspCount = s.rspCount := rfl
@[simp] theorem joinBus_rspWords (k : BusCommand) (s : State) :
    (State.joinBus k s).rspWords = s.rspWords := rfl
@[simp] theorem joinBus_errStatus (k : BusCommand) (s : State) :
    (State.joinBus k s).errStatus = s.errStatus := rfl
@[simp] theorem joinBus_chainCount (k : BusCommand) (s : State) :
    (State.joinBus k s).chainCount = s.chainCount := rfl
@[simp] theorem joinBus_resp (k : BusCommand) (s : State) : (State.joinBus k s).resp = s.resp := rfl
@[simp] theorem joinBus_rst (k : BusCommand) (s : State) : (State.joinBus k s).rst = s.rst := rfl
@[simp] theorem joinBus_reqs (k : BusCommand) (s : State) : (State.joinBus k s).reqs = s.reqs := rfl
@[simp] theorem joinBus_cfgIn (k : BusCommand) (s : State) : (State.joinBus k s).cfgIn = s.cfgIn := rfl
@[simp] theorem joinBus_answers (k : BusCommand) (s : State) : (State.joinBus k s).answers = s.answers := rfl
@[simp] theorem joinBus_draws (k : BusCommand) (s : State) : (State.joinBus k s).draws = s.draws := rfl
@[simp] theorem joinBus_dmaData (k : BusCommand) (s : State) : (State.joinBus k s).dmaData = s.dmaData := rfl
@[simp] theorem joinBus_dmaDraws (k : BusCommand) (s : State) : (State.joinBus k s).dmaDraws = s.dmaDraws := rfl
@[simp] theorem joinBus_sched (k : BusCommand) (s : State) : (State.joinBus k s).sched = s.sched := rfl
@[simp] theorem joinBus_mem (k : BusCommand) (s : State) : (State.joinBus k s).mem = s.mem := rfl
@[simp] theorem joinBus_dirty (k : BusCommand) (s : State) : (State.joinBus k s).dirty = s.dirty := rfl
@[simp] theorem joinBus_ctl (k : BusCommand) (s : State) :
    (State.joinBus k s).ctl = { s.ctl with bus := s.ctl.bus ++ [k] } := rfl
@[simp] theorem joinBus_dma (k : BusCommand) (s : State) : (State.joinBus k s).dma = s.dma := rfl
@[simp] theorem joinBus_hist (k : BusCommand) (s : State) : (State.joinBus k s).hist = s.hist := rfl
@[simp] theorem joinBus_trace (k : BusCommand) (s : State) : (State.joinBus k s).trace = s.trace := rfl

/-! ## takeClock -/

@[simp] theorem takeClock_params (g : CtlRegs) (s : State) : (State.takeClock g s).params = s.params := rfl
@[simp] theorem takeClock_cfg (g : CtlRegs) (s : State) : (State.takeClock g s).cfg = s.cfg := rfl
@[simp] theorem takeClock_cfgValid (g : CtlRegs) (s : State) :
    (State.takeClock g s).cfgValid = s.cfgValid := rfl
@[simp] theorem takeClock_busWidth (g : CtlRegs) (s : State) :
    (State.takeClock g s).busWidth = s.busWidth := rfl
@[simp] theorem takeClock_clkDiv (g : CtlRegs) (s : State) : (State.takeClock g s).clkDiv = s.clkDiv := rfl
@[simp] theorem takeClock_clkEnabled (g : CtlRegs) (s : State) :
    (State.takeClock g s).clkEnabled = s.clkEnabled := rfl
@[simp] theorem takeClock_fsm (g : CtlRegs) (s : State) : (State.takeClock g s).fsm = s.fsm := rfl
@[simp] theorem takeClock_halted (g : CtlRegs) (s : State) : (State.takeClock g s).halted = s.halted := rfl
@[simp] theorem takeClock_reqCtl (g : CtlRegs) (s : State) : (State.takeClock g s).reqCtl = s.reqCtl := rfl
@[simp] theorem takeClock_reqA (g : CtlRegs) (s : State) : (State.takeClock g s).reqA = s.reqA := rfl
@[simp] theorem takeClock_reqB (g : CtlRegs) (s : State) : (State.takeClock g s).reqB = s.reqB := rfl
@[simp] theorem takeClock_reqC (g : CtlRegs) (s : State) : (State.takeClock g s).reqC = s.reqC := rfl
@[simp] theorem takeClock_cnt (g : CtlRegs) (s : State) : (State.takeClock g s).cnt = s.cnt := rfl
@[simp] theorem takeClock_cmdWord (g : CtlRegs) (s : State) : (State.takeClock g s).cmdWord = s.cmdWord := rfl
@[simp] theorem takeClock_cmdData (g : CtlRegs) (s : State) : (State.takeClock g s).cmdData = s.cmdData := rfl
@[simp] theorem takeClock_pollCmdDone (g : CtlRegs) (s : State) :
    (State.takeClock g s).pollCmdDone = s.pollCmdDone := rfl
@[simp] theorem takeClock_pollDto (g : CtlRegs) (s : State) : (State.takeClock g s).pollDto = s.pollDto := rfl
@[simp] theorem takeClock_rspCount (g : CtlRegs) (s : State) :
    (State.takeClock g s).rspCount = s.rspCount := rfl
@[simp] theorem takeClock_rspWords (g : CtlRegs) (s : State) :
    (State.takeClock g s).rspWords = s.rspWords := rfl
@[simp] theorem takeClock_errStatus (g : CtlRegs) (s : State) :
    (State.takeClock g s).errStatus = s.errStatus := rfl
@[simp] theorem takeClock_chainCount (g : CtlRegs) (s : State) :
    (State.takeClock g s).chainCount = s.chainCount := rfl
@[simp] theorem takeClock_resp (g : CtlRegs) (s : State) : (State.takeClock g s).resp = s.resp := rfl
@[simp] theorem takeClock_rst (g : CtlRegs) (s : State) : (State.takeClock g s).rst = s.rst := rfl
@[simp] theorem takeClock_reqs (g : CtlRegs) (s : State) : (State.takeClock g s).reqs = s.reqs := rfl
@[simp] theorem takeClock_cfgIn (g : CtlRegs) (s : State) : (State.takeClock g s).cfgIn = s.cfgIn := rfl
@[simp] theorem takeClock_answers (g : CtlRegs) (s : State) : (State.takeClock g s).answers = s.answers := rfl
@[simp] theorem takeClock_draws (g : CtlRegs) (s : State) : (State.takeClock g s).draws = s.draws := rfl
@[simp] theorem takeClock_dmaData (g : CtlRegs) (s : State) : (State.takeClock g s).dmaData = s.dmaData := rfl
@[simp] theorem takeClock_dmaDraws (g : CtlRegs) (s : State) : (State.takeClock g s).dmaDraws = s.dmaDraws := rfl
@[simp] theorem takeClock_sched (g : CtlRegs) (s : State) : (State.takeClock g s).sched = s.sched := rfl
@[simp] theorem takeClock_mem (g : CtlRegs) (s : State) : (State.takeClock g s).mem = s.mem := rfl
@[simp] theorem takeClock_dirty (g : CtlRegs) (s : State) : (State.takeClock g s).dirty = s.dirty := rfl
@[simp] theorem takeClock_ctl (g : CtlRegs) (s : State) :
    (State.takeClock g s).ctl = { s.ctl with clock := ⟨g.clkdiv, g.clksrc, g.clkena⟩ } := rfl
@[simp] theorem takeClock_dma (g : CtlRegs) (s : State) : (State.takeClock g s).dma = s.dma := rfl
@[simp] theorem takeClock_hist (g : CtlRegs) (s : State) : (State.takeClock g s).hist = s.hist := rfl
@[simp] theorem takeClock_trace (g : CtlRegs) (s : State) : (State.takeClock g s).trace = s.trace := rfl

/-! ## engineSend -/

@[simp] theorem engineSend_params (b : Byte) (s : State) : (State.engineSend b s).params = s.params := rfl
@[simp] theorem engineSend_cfg (b : Byte) (s : State) : (State.engineSend b s).cfg = s.cfg := rfl
@[simp] theorem engineSend_cfgValid (b : Byte) (s : State) :
    (State.engineSend b s).cfgValid = s.cfgValid := rfl
@[simp] theorem engineSend_busWidth (b : Byte) (s : State) :
    (State.engineSend b s).busWidth = s.busWidth := rfl
@[simp] theorem engineSend_clkDiv (b : Byte) (s : State) : (State.engineSend b s).clkDiv = s.clkDiv := rfl
@[simp] theorem engineSend_clkEnabled (b : Byte) (s : State) :
    (State.engineSend b s).clkEnabled = s.clkEnabled := rfl
@[simp] theorem engineSend_fsm (b : Byte) (s : State) : (State.engineSend b s).fsm = s.fsm := rfl
@[simp] theorem engineSend_halted (b : Byte) (s : State) : (State.engineSend b s).halted = s.halted := rfl
@[simp] theorem engineSend_reqCtl (b : Byte) (s : State) : (State.engineSend b s).reqCtl = s.reqCtl := rfl
@[simp] theorem engineSend_reqA (b : Byte) (s : State) : (State.engineSend b s).reqA = s.reqA := rfl
@[simp] theorem engineSend_reqB (b : Byte) (s : State) : (State.engineSend b s).reqB = s.reqB := rfl
@[simp] theorem engineSend_reqC (b : Byte) (s : State) : (State.engineSend b s).reqC = s.reqC := rfl
@[simp] theorem engineSend_cnt (b : Byte) (s : State) : (State.engineSend b s).cnt = s.cnt := rfl
@[simp] theorem engineSend_cmdWord (b : Byte) (s : State) : (State.engineSend b s).cmdWord = s.cmdWord := rfl
@[simp] theorem engineSend_cmdData (b : Byte) (s : State) : (State.engineSend b s).cmdData = s.cmdData := rfl
@[simp] theorem engineSend_pollCmdDone (b : Byte) (s : State) :
    (State.engineSend b s).pollCmdDone = s.pollCmdDone := rfl
@[simp] theorem engineSend_pollDto (b : Byte) (s : State) : (State.engineSend b s).pollDto = s.pollDto := rfl
@[simp] theorem engineSend_rspCount (b : Byte) (s : State) :
    (State.engineSend b s).rspCount = s.rspCount := rfl
@[simp] theorem engineSend_rspWords (b : Byte) (s : State) :
    (State.engineSend b s).rspWords = s.rspWords := rfl
@[simp] theorem engineSend_errStatus (b : Byte) (s : State) :
    (State.engineSend b s).errStatus = s.errStatus := rfl
@[simp] theorem engineSend_chainCount (b : Byte) (s : State) :
    (State.engineSend b s).chainCount = s.chainCount := rfl
@[simp] theorem engineSend_resp (b : Byte) (s : State) : (State.engineSend b s).resp = s.resp := rfl
@[simp] theorem engineSend_rst (b : Byte) (s : State) : (State.engineSend b s).rst = s.rst := rfl
@[simp] theorem engineSend_reqs (b : Byte) (s : State) : (State.engineSend b s).reqs = s.reqs := rfl
@[simp] theorem engineSend_cfgIn (b : Byte) (s : State) : (State.engineSend b s).cfgIn = s.cfgIn := rfl
@[simp] theorem engineSend_answers (b : Byte) (s : State) : (State.engineSend b s).answers = s.answers := rfl
@[simp] theorem engineSend_draws (b : Byte) (s : State) : (State.engineSend b s).draws = s.draws := rfl
@[simp] theorem engineSend_dmaData (b : Byte) (s : State) : (State.engineSend b s).dmaData = s.dmaData := rfl
@[simp] theorem engineSend_dmaDraws (b : Byte) (s : State) : (State.engineSend b s).dmaDraws = s.dmaDraws := rfl
@[simp] theorem engineSend_sched (b : Byte) (s : State) : (State.engineSend b s).sched = s.sched := rfl
@[simp] theorem engineSend_mem (b : Byte) (s : State) : (State.engineSend b s).mem = s.mem := rfl
@[simp] theorem engineSend_dirty (b : Byte) (s : State) : (State.engineSend b s).dirty = s.dirty := rfl
@[simp] theorem engineSend_ctl (b : Byte) (s : State) : (State.engineSend b s).ctl = s.ctl := rfl
@[simp] theorem engineSend_dma (b : Byte) (s : State) :
    (State.engineSend b s).dma = { s.dma with sent := s.dma.sent ++ [b] } := rfl
@[simp] theorem engineSend_hist (b : Byte) (s : State) : (State.engineSend b s).hist = s.hist := rfl
@[simp] theorem engineSend_trace (b : Byte) (s : State) : (State.engineSend b s).trace = s.trace := rfl

/-! ## engineAt -/

@[simp] theorem engineAt_params (cur : Option Nat) (s : State) :
    (State.engineAt cur s).params = s.params := rfl
@[simp] theorem engineAt_cfg (cur : Option Nat) (s : State) : (State.engineAt cur s).cfg = s.cfg := rfl
@[simp] theorem engineAt_cfgValid (cur : Option Nat) (s : State) :
    (State.engineAt cur s).cfgValid = s.cfgValid := rfl
@[simp] theorem engineAt_busWidth (cur : Option Nat) (s : State) :
    (State.engineAt cur s).busWidth = s.busWidth := rfl
@[simp] theorem engineAt_clkDiv (cur : Option Nat) (s : State) :
    (State.engineAt cur s).clkDiv = s.clkDiv := rfl
@[simp] theorem engineAt_clkEnabled (cur : Option Nat) (s : State) :
    (State.engineAt cur s).clkEnabled = s.clkEnabled := rfl
@[simp] theorem engineAt_fsm (cur : Option Nat) (s : State) : (State.engineAt cur s).fsm = s.fsm := rfl
@[simp] theorem engineAt_halted (cur : Option Nat) (s : State) :
    (State.engineAt cur s).halted = s.halted := rfl
@[simp] theorem engineAt_reqCtl (cur : Option Nat) (s : State) :
    (State.engineAt cur s).reqCtl = s.reqCtl := rfl
@[simp] theorem engineAt_reqA (cur : Option Nat) (s : State) : (State.engineAt cur s).reqA = s.reqA := rfl
@[simp] theorem engineAt_reqB (cur : Option Nat) (s : State) : (State.engineAt cur s).reqB = s.reqB := rfl
@[simp] theorem engineAt_reqC (cur : Option Nat) (s : State) : (State.engineAt cur s).reqC = s.reqC := rfl
@[simp] theorem engineAt_cnt (cur : Option Nat) (s : State) : (State.engineAt cur s).cnt = s.cnt := rfl
@[simp] theorem engineAt_cmdWord (cur : Option Nat) (s : State) :
    (State.engineAt cur s).cmdWord = s.cmdWord := rfl
@[simp] theorem engineAt_cmdData (cur : Option Nat) (s : State) :
    (State.engineAt cur s).cmdData = s.cmdData := rfl
@[simp] theorem engineAt_pollCmdDone (cur : Option Nat) (s : State) :
    (State.engineAt cur s).pollCmdDone = s.pollCmdDone := rfl
@[simp] theorem engineAt_pollDto (cur : Option Nat) (s : State) :
    (State.engineAt cur s).pollDto = s.pollDto := rfl
@[simp] theorem engineAt_rspCount (cur : Option Nat) (s : State) :
    (State.engineAt cur s).rspCount = s.rspCount := rfl
@[simp] theorem engineAt_rspWords (cur : Option Nat) (s : State) :
    (State.engineAt cur s).rspWords = s.rspWords := rfl
@[simp] theorem engineAt_errStatus (cur : Option Nat) (s : State) :
    (State.engineAt cur s).errStatus = s.errStatus := rfl
@[simp] theorem engineAt_chainCount (cur : Option Nat) (s : State) :
    (State.engineAt cur s).chainCount = s.chainCount := rfl
@[simp] theorem engineAt_resp (cur : Option Nat) (s : State) : (State.engineAt cur s).resp = s.resp := rfl
@[simp] theorem engineAt_rst (cur : Option Nat) (s : State) : (State.engineAt cur s).rst = s.rst := rfl
@[simp] theorem engineAt_reqs (cur : Option Nat) (s : State) : (State.engineAt cur s).reqs = s.reqs := rfl
@[simp] theorem engineAt_cfgIn (cur : Option Nat) (s : State) : (State.engineAt cur s).cfgIn = s.cfgIn := rfl
@[simp] theorem engineAt_answers (cur : Option Nat) (s : State) :
    (State.engineAt cur s).answers = s.answers := rfl
@[simp] theorem engineAt_draws (cur : Option Nat) (s : State) : (State.engineAt cur s).draws = s.draws := rfl
@[simp] theorem engineAt_dmaData (cur : Option Nat) (s : State) : (State.engineAt cur s).dmaData = s.dmaData := rfl
@[simp] theorem engineAt_dmaDraws (cur : Option Nat) (s : State) : (State.engineAt cur s).dmaDraws = s.dmaDraws := rfl
@[simp] theorem engineAt_sched (cur : Option Nat) (s : State) : (State.engineAt cur s).sched = s.sched := rfl
@[simp] theorem engineAt_mem (cur : Option Nat) (s : State) : (State.engineAt cur s).mem = s.mem := rfl
@[simp] theorem engineAt_dirty (cur : Option Nat) (s : State) : (State.engineAt cur s).dirty = s.dirty := rfl
@[simp] theorem engineAt_ctl (cur : Option Nat) (s : State) : (State.engineAt cur s).ctl = s.ctl := rfl
@[simp] theorem engineAt_dma (cur : Option Nat) (s : State) :
    (State.engineAt cur s).dma = { s.dma with cur := cur } := rfl
@[simp] theorem engineAt_hist (cur : Option Nat) (s : State) : (State.engineAt cur s).hist = s.hist := rfl
@[simp] theorem engineAt_trace (cur : Option Nat) (s : State) : (State.engineAt cur s).trace = s.trace := rfl

/-! ## signalDone -/

@[simp] theorem signalDone_params (s : State) : (State.signalDone s).params = s.params := rfl
@[simp] theorem signalDone_cfg (s : State) : (State.signalDone s).cfg = s.cfg := rfl
@[simp] theorem signalDone_cfgValid (s : State) : (State.signalDone s).cfgValid = s.cfgValid := rfl
@[simp] theorem signalDone_busWidth (s : State) : (State.signalDone s).busWidth = s.busWidth := rfl
@[simp] theorem signalDone_clkDiv (s : State) : (State.signalDone s).clkDiv = s.clkDiv := rfl
@[simp] theorem signalDone_clkEnabled (s : State) : (State.signalDone s).clkEnabled = s.clkEnabled := rfl
@[simp] theorem signalDone_fsm (s : State) : (State.signalDone s).fsm = s.fsm := rfl
@[simp] theorem signalDone_halted (s : State) : (State.signalDone s).halted = s.halted := rfl
@[simp] theorem signalDone_reqCtl (s : State) : (State.signalDone s).reqCtl = s.reqCtl := rfl
@[simp] theorem signalDone_reqA (s : State) : (State.signalDone s).reqA = s.reqA := rfl
@[simp] theorem signalDone_reqB (s : State) : (State.signalDone s).reqB = s.reqB := rfl
@[simp] theorem signalDone_reqC (s : State) : (State.signalDone s).reqC = s.reqC := rfl
@[simp] theorem signalDone_cnt (s : State) : (State.signalDone s).cnt = s.cnt := rfl
@[simp] theorem signalDone_cmdWord (s : State) : (State.signalDone s).cmdWord = s.cmdWord := rfl
@[simp] theorem signalDone_cmdData (s : State) : (State.signalDone s).cmdData = s.cmdData := rfl
@[simp] theorem signalDone_pollCmdDone (s : State) : (State.signalDone s).pollCmdDone = s.pollCmdDone := rfl
@[simp] theorem signalDone_pollDto (s : State) : (State.signalDone s).pollDto = s.pollDto := rfl
@[simp] theorem signalDone_rspCount (s : State) : (State.signalDone s).rspCount = s.rspCount := rfl
@[simp] theorem signalDone_rspWords (s : State) : (State.signalDone s).rspWords = s.rspWords := rfl
@[simp] theorem signalDone_errStatus (s : State) : (State.signalDone s).errStatus = s.errStatus := rfl
@[simp] theorem signalDone_chainCount (s : State) : (State.signalDone s).chainCount = s.chainCount := rfl
@[simp] theorem signalDone_resp (s : State) : (State.signalDone s).resp = s.resp := rfl
@[simp] theorem signalDone_rst (s : State) : (State.signalDone s).rst = s.rst := rfl
@[simp] theorem signalDone_reqs (s : State) : (State.signalDone s).reqs = s.reqs := rfl
@[simp] theorem signalDone_cfgIn (s : State) : (State.signalDone s).cfgIn = s.cfgIn := rfl
@[simp] theorem signalDone_answers (s : State) : (State.signalDone s).answers = s.answers := rfl
@[simp] theorem signalDone_draws (s : State) : (State.signalDone s).draws = s.draws := rfl
@[simp] theorem signalDone_dmaData (s : State) : (State.signalDone s).dmaData = s.dmaData := rfl
@[simp] theorem signalDone_dmaDraws (s : State) : (State.signalDone s).dmaDraws = s.dmaDraws := rfl
@[simp] theorem signalDone_sched (s : State) : (State.signalDone s).sched = s.sched := rfl
@[simp] theorem signalDone_mem (s : State) : (State.signalDone s).mem = s.mem := rfl
@[simp] theorem signalDone_dirty (s : State) : (State.signalDone s).dirty = s.dirty := rfl
@[simp] theorem signalDone_ctl (s : State) :
    (State.signalDone s).ctl = { s.ctl with pending := s.ctl.pending.map (· ||| bit s.params.intBits.dto) } := rfl
@[simp] theorem signalDone_dma (s : State) : (State.signalDone s).dma = s.dma := rfl
@[simp] theorem signalDone_hist (s : State) : (State.signalDone s).hist = s.hist := rfl
@[simp] theorem signalDone_trace (s : State) : (State.signalDone s).trace = s.trace := rfl

/-! ## drawn -/

@[simp] theorem drawn_params (s : State) : (State.drawn s).params = s.params := rfl
@[simp] theorem drawn_cfg (s : State) : (State.drawn s).cfg = s.cfg := rfl
@[simp] theorem drawn_cfgValid (s : State) : (State.drawn s).cfgValid = s.cfgValid := rfl
@[simp] theorem drawn_busWidth (s : State) : (State.drawn s).busWidth = s.busWidth := rfl
@[simp] theorem drawn_clkDiv (s : State) : (State.drawn s).clkDiv = s.clkDiv := rfl
@[simp] theorem drawn_clkEnabled (s : State) : (State.drawn s).clkEnabled = s.clkEnabled := rfl
@[simp] theorem drawn_fsm (s : State) : (State.drawn s).fsm = s.fsm := rfl
@[simp] theorem drawn_halted (s : State) : (State.drawn s).halted = s.halted := rfl
@[simp] theorem drawn_reqCtl (s : State) : (State.drawn s).reqCtl = s.reqCtl := rfl
@[simp] theorem drawn_reqA (s : State) : (State.drawn s).reqA = s.reqA := rfl
@[simp] theorem drawn_reqB (s : State) : (State.drawn s).reqB = s.reqB := rfl
@[simp] theorem drawn_reqC (s : State) : (State.drawn s).reqC = s.reqC := rfl
@[simp] theorem drawn_cnt (s : State) : (State.drawn s).cnt = s.cnt := rfl
@[simp] theorem drawn_cmdWord (s : State) : (State.drawn s).cmdWord = s.cmdWord := rfl
@[simp] theorem drawn_cmdData (s : State) : (State.drawn s).cmdData = s.cmdData := rfl
@[simp] theorem drawn_pollCmdDone (s : State) : (State.drawn s).pollCmdDone = s.pollCmdDone := rfl
@[simp] theorem drawn_pollDto (s : State) : (State.drawn s).pollDto = s.pollDto := rfl
@[simp] theorem drawn_rspCount (s : State) : (State.drawn s).rspCount = s.rspCount := rfl
@[simp] theorem drawn_rspWords (s : State) : (State.drawn s).rspWords = s.rspWords := rfl
@[simp] theorem drawn_errStatus (s : State) : (State.drawn s).errStatus = s.errStatus := rfl
@[simp] theorem drawn_chainCount (s : State) : (State.drawn s).chainCount = s.chainCount := rfl
@[simp] theorem drawn_resp (s : State) : (State.drawn s).resp = s.resp := rfl
@[simp] theorem drawn_rst (s : State) : (State.drawn s).rst = s.rst := rfl
@[simp] theorem drawn_reqs (s : State) : (State.drawn s).reqs = s.reqs := rfl
@[simp] theorem drawn_cfgIn (s : State) : (State.drawn s).cfgIn = s.cfgIn := rfl
@[simp] theorem drawn_answers (s : State) : (State.drawn s).answers = s.answers.tail := rfl
@[simp] theorem drawn_draws (s : State) : (State.drawn s).draws = s.draws + 1 := rfl
@[simp] theorem drawn_dmaData (s : State) : (State.drawn s).dmaData = s.dmaData := rfl
@[simp] theorem drawn_dmaDraws (s : State) : (State.drawn s).dmaDraws = s.dmaDraws := rfl
@[simp] theorem drawn_sched (s : State) : (State.drawn s).sched = s.sched := rfl
@[simp] theorem drawn_mem (s : State) : (State.drawn s).mem = s.mem := rfl
@[simp] theorem drawn_dirty (s : State) : (State.drawn s).dirty = s.dirty := rfl
@[simp] theorem drawn_ctl (s : State) : (State.drawn s).ctl = s.ctl := rfl
@[simp] theorem drawn_dma (s : State) : (State.drawn s).dma = s.dma := rfl
@[simp] theorem drawn_hist (s : State) : (State.drawn s).hist = s.hist := rfl
@[simp] theorem drawn_trace (s : State) : (State.drawn s).trace = s.trace := rfl

/-! ## datumDrawn -/

@[simp] theorem datumDrawn_params (s : State) : (State.datumDrawn s).params = s.params := rfl
@[simp] theorem datumDrawn_cfg (s : State) : (State.datumDrawn s).cfg = s.cfg := rfl
@[simp] theorem datumDrawn_cfgValid (s : State) : (State.datumDrawn s).cfgValid = s.cfgValid := rfl
@[simp] theorem datumDrawn_busWidth (s : State) : (State.datumDrawn s).busWidth = s.busWidth := rfl
@[simp] theorem datumDrawn_clkDiv (s : State) : (State.datumDrawn s).clkDiv = s.clkDiv := rfl
@[simp] theorem datumDrawn_clkEnabled (s : State) : (State.datumDrawn s).clkEnabled = s.clkEnabled := rfl
@[simp] theorem datumDrawn_fsm (s : State) : (State.datumDrawn s).fsm = s.fsm := rfl
@[simp] theorem datumDrawn_halted (s : State) : (State.datumDrawn s).halted = s.halted := rfl
@[simp] theorem datumDrawn_reqCtl (s : State) : (State.datumDrawn s).reqCtl = s.reqCtl := rfl
@[simp] theorem datumDrawn_reqA (s : State) : (State.datumDrawn s).reqA = s.reqA := rfl
@[simp] theorem datumDrawn_reqB (s : State) : (State.datumDrawn s).reqB = s.reqB := rfl
@[simp] theorem datumDrawn_reqC (s : State) : (State.datumDrawn s).reqC = s.reqC := rfl
@[simp] theorem datumDrawn_cnt (s : State) : (State.datumDrawn s).cnt = s.cnt := rfl
@[simp] theorem datumDrawn_cmdWord (s : State) : (State.datumDrawn s).cmdWord = s.cmdWord := rfl
@[simp] theorem datumDrawn_cmdData (s : State) : (State.datumDrawn s).cmdData = s.cmdData := rfl
@[simp] theorem datumDrawn_pollCmdDone (s : State) : (State.datumDrawn s).pollCmdDone = s.pollCmdDone := rfl
@[simp] theorem datumDrawn_pollDto (s : State) : (State.datumDrawn s).pollDto = s.pollDto := rfl
@[simp] theorem datumDrawn_rspCount (s : State) : (State.datumDrawn s).rspCount = s.rspCount := rfl
@[simp] theorem datumDrawn_rspWords (s : State) : (State.datumDrawn s).rspWords = s.rspWords := rfl
@[simp] theorem datumDrawn_errStatus (s : State) : (State.datumDrawn s).errStatus = s.errStatus := rfl
@[simp] theorem datumDrawn_chainCount (s : State) : (State.datumDrawn s).chainCount = s.chainCount := rfl
@[simp] theorem datumDrawn_resp (s : State) : (State.datumDrawn s).resp = s.resp := rfl
@[simp] theorem datumDrawn_rst (s : State) : (State.datumDrawn s).rst = s.rst := rfl
@[simp] theorem datumDrawn_reqs (s : State) : (State.datumDrawn s).reqs = s.reqs := rfl
@[simp] theorem datumDrawn_cfgIn (s : State) : (State.datumDrawn s).cfgIn = s.cfgIn := rfl
@[simp] theorem datumDrawn_answers (s : State) : (State.datumDrawn s).answers = s.answers := rfl
@[simp] theorem datumDrawn_draws (s : State) : (State.datumDrawn s).draws = s.draws := rfl
@[simp] theorem datumDrawn_dmaData (s : State) : (State.datumDrawn s).dmaData = s.dmaData.tail := rfl
@[simp] theorem datumDrawn_dmaDraws (s : State) : (State.datumDrawn s).dmaDraws = s.dmaDraws + 1 := rfl
@[simp] theorem datumDrawn_sched (s : State) : (State.datumDrawn s).sched = s.sched := rfl
@[simp] theorem datumDrawn_mem (s : State) : (State.datumDrawn s).mem = s.mem := rfl
@[simp] theorem datumDrawn_dirty (s : State) : (State.datumDrawn s).dirty = s.dirty := rfl
@[simp] theorem datumDrawn_ctl (s : State) : (State.datumDrawn s).ctl = s.ctl := rfl
@[simp] theorem datumDrawn_dma (s : State) : (State.datumDrawn s).dma = s.dma := rfl
@[simp] theorem datumDrawn_hist (s : State) : (State.datumDrawn s).hist = s.hist := rfl
@[simp] theorem datumDrawn_trace (s : State) : (State.datumDrawn s).trace = s.trace := rfl

/-! ## storeByte -/

@[simp] theorem storeByte_params (a : Nat) (b : Byte) (s : State) : (State.storeByte a b s).params = s.params := rfl
@[simp] theorem storeByte_cfg (a : Nat) (b : Byte) (s : State) : (State.storeByte a b s).cfg = s.cfg := rfl
@[simp] theorem storeByte_cfgValid (a : Nat) (b : Byte) (s : State) : (State.storeByte a b s).cfgValid = s.cfgValid := rfl
@[simp] theorem storeByte_busWidth (a : Nat) (b : Byte) (s : State) : (State.storeByte a b s).busWidth = s.busWidth := rfl
@[simp] theorem storeByte_clkDiv (a : Nat) (b : Byte) (s : State) : (State.storeByte a b s).clkDiv = s.clkDiv := rfl
@[simp] theorem storeByte_clkEnabled (a : Nat) (b : Byte) (s : State) : (State.storeByte a b s).clkEnabled = s.clkEnabled := rfl
@[simp] theorem storeByte_fsm (a : Nat) (b : Byte) (s : State) : (State.storeByte a b s).fsm = s.fsm := rfl
@[simp] theorem storeByte_halted (a : Nat) (b : Byte) (s : State) : (State.storeByte a b s).halted = s.halted := rfl
@[simp] theorem storeByte_reqCtl (a : Nat) (b : Byte) (s : State) : (State.storeByte a b s).reqCtl = s.reqCtl := rfl
@[simp] theorem storeByte_reqA (a : Nat) (b : Byte) (s : State) : (State.storeByte a b s).reqA = s.reqA := rfl
@[simp] theorem storeByte_reqB (a : Nat) (b : Byte) (s : State) : (State.storeByte a b s).reqB = s.reqB := rfl
@[simp] theorem storeByte_reqC (a : Nat) (b : Byte) (s : State) : (State.storeByte a b s).reqC = s.reqC := rfl
@[simp] theorem storeByte_cnt (a : Nat) (b : Byte) (s : State) : (State.storeByte a b s).cnt = s.cnt := rfl
@[simp] theorem storeByte_cmdWord (a : Nat) (b : Byte) (s : State) : (State.storeByte a b s).cmdWord = s.cmdWord := rfl
@[simp] theorem storeByte_cmdData (a : Nat) (b : Byte) (s : State) : (State.storeByte a b s).cmdData = s.cmdData := rfl
@[simp] theorem storeByte_pollCmdDone (a : Nat) (b : Byte) (s : State) : (State.storeByte a b s).pollCmdDone = s.pollCmdDone := rfl
@[simp] theorem storeByte_pollDto (a : Nat) (b : Byte) (s : State) : (State.storeByte a b s).pollDto = s.pollDto := rfl
@[simp] theorem storeByte_rspCount (a : Nat) (b : Byte) (s : State) : (State.storeByte a b s).rspCount = s.rspCount := rfl
@[simp] theorem storeByte_rspWords (a : Nat) (b : Byte) (s : State) : (State.storeByte a b s).rspWords = s.rspWords := rfl
@[simp] theorem storeByte_errStatus (a : Nat) (b : Byte) (s : State) : (State.storeByte a b s).errStatus = s.errStatus := rfl
@[simp] theorem storeByte_chainCount (a : Nat) (b : Byte) (s : State) : (State.storeByte a b s).chainCount = s.chainCount := rfl
@[simp] theorem storeByte_resp (a : Nat) (b : Byte) (s : State) : (State.storeByte a b s).resp = s.resp := rfl
@[simp] theorem storeByte_rst (a : Nat) (b : Byte) (s : State) : (State.storeByte a b s).rst = s.rst := rfl
@[simp] theorem storeByte_reqs (a : Nat) (b : Byte) (s : State) : (State.storeByte a b s).reqs = s.reqs := rfl
@[simp] theorem storeByte_cfgIn (a : Nat) (b : Byte) (s : State) : (State.storeByte a b s).cfgIn = s.cfgIn := rfl
@[simp] theorem storeByte_answers (a : Nat) (b : Byte) (s : State) : (State.storeByte a b s).answers = s.answers := rfl
@[simp] theorem storeByte_draws (a : Nat) (b : Byte) (s : State) : (State.storeByte a b s).draws = s.draws := rfl
@[simp] theorem storeByte_dmaData (a : Nat) (b : Byte) (s : State) : (State.storeByte a b s).dmaData = s.dmaData := rfl
@[simp] theorem storeByte_dmaDraws (a : Nat) (b : Byte) (s : State) : (State.storeByte a b s).dmaDraws = s.dmaDraws := rfl
@[simp] theorem storeByte_sched (a : Nat) (b : Byte) (s : State) : (State.storeByte a b s).sched = s.sched := rfl
@[simp] theorem storeByte_mem (a : Nat) (b : Byte) (s : State) : (State.storeByte a b s).mem = s.mem.write a b := rfl
@[simp] theorem storeByte_dirty (a : Nat) (b : Byte) (s : State) : (State.storeByte a b s).dirty = Dirty.mark s.dirty a := rfl
@[simp] theorem storeByte_ctl (a : Nat) (b : Byte) (s : State) : (State.storeByte a b s).ctl = s.ctl := rfl
@[simp] theorem storeByte_dma (a : Nat) (b : Byte) (s : State) : (State.storeByte a b s).dma = s.dma := rfl
@[simp] theorem storeByte_hist (a : Nat) (b : Byte) (s : State) : (State.storeByte a b s).hist = s.hist := rfl
@[simp] theorem storeByte_trace (a : Nat) (b : Byte) (s : State) : (State.storeByte a b s).trace = s.trace := rfl

/-! ## storeWord -/

@[simp] theorem storeWord_params (a : Nat) (w : Word) (s : State) : (State.storeWord a w s).params = s.params := by
  simp only [State.storeWord, storeByte_params]
@[simp] theorem storeWord_cfg (a : Nat) (w : Word) (s : State) : (State.storeWord a w s).cfg = s.cfg := by
  simp only [State.storeWord, storeByte_cfg]
@[simp] theorem storeWord_cfgValid (a : Nat) (w : Word) (s : State) : (State.storeWord a w s).cfgValid = s.cfgValid := by
  simp only [State.storeWord, storeByte_cfgValid]
@[simp] theorem storeWord_busWidth (a : Nat) (w : Word) (s : State) : (State.storeWord a w s).busWidth = s.busWidth := by
  simp only [State.storeWord, storeByte_busWidth]
@[simp] theorem storeWord_clkDiv (a : Nat) (w : Word) (s : State) : (State.storeWord a w s).clkDiv = s.clkDiv := by
  simp only [State.storeWord, storeByte_clkDiv]
@[simp] theorem storeWord_clkEnabled (a : Nat) (w : Word) (s : State) : (State.storeWord a w s).clkEnabled = s.clkEnabled := by
  simp only [State.storeWord, storeByte_clkEnabled]
@[simp] theorem storeWord_fsm (a : Nat) (w : Word) (s : State) : (State.storeWord a w s).fsm = s.fsm := by
  simp only [State.storeWord, storeByte_fsm]
@[simp] theorem storeWord_halted (a : Nat) (w : Word) (s : State) : (State.storeWord a w s).halted = s.halted := by
  simp only [State.storeWord, storeByte_halted]
@[simp] theorem storeWord_reqCtl (a : Nat) (w : Word) (s : State) : (State.storeWord a w s).reqCtl = s.reqCtl := by
  simp only [State.storeWord, storeByte_reqCtl]
@[simp] theorem storeWord_reqA (a : Nat) (w : Word) (s : State) : (State.storeWord a w s).reqA = s.reqA := by
  simp only [State.storeWord, storeByte_reqA]
@[simp] theorem storeWord_reqB (a : Nat) (w : Word) (s : State) : (State.storeWord a w s).reqB = s.reqB := by
  simp only [State.storeWord, storeByte_reqB]
@[simp] theorem storeWord_reqC (a : Nat) (w : Word) (s : State) : (State.storeWord a w s).reqC = s.reqC := by
  simp only [State.storeWord, storeByte_reqC]
@[simp] theorem storeWord_cnt (a : Nat) (w : Word) (s : State) : (State.storeWord a w s).cnt = s.cnt := by
  simp only [State.storeWord, storeByte_cnt]
@[simp] theorem storeWord_cmdWord (a : Nat) (w : Word) (s : State) : (State.storeWord a w s).cmdWord = s.cmdWord := by
  simp only [State.storeWord, storeByte_cmdWord]
@[simp] theorem storeWord_cmdData (a : Nat) (w : Word) (s : State) : (State.storeWord a w s).cmdData = s.cmdData := by
  simp only [State.storeWord, storeByte_cmdData]
@[simp] theorem storeWord_pollCmdDone (a : Nat) (w : Word) (s : State) : (State.storeWord a w s).pollCmdDone = s.pollCmdDone := by
  simp only [State.storeWord, storeByte_pollCmdDone]
@[simp] theorem storeWord_pollDto (a : Nat) (w : Word) (s : State) : (State.storeWord a w s).pollDto = s.pollDto := by
  simp only [State.storeWord, storeByte_pollDto]
@[simp] theorem storeWord_rspCount (a : Nat) (w : Word) (s : State) : (State.storeWord a w s).rspCount = s.rspCount := by
  simp only [State.storeWord, storeByte_rspCount]
@[simp] theorem storeWord_rspWords (a : Nat) (w : Word) (s : State) : (State.storeWord a w s).rspWords = s.rspWords := by
  simp only [State.storeWord, storeByte_rspWords]
@[simp] theorem storeWord_errStatus (a : Nat) (w : Word) (s : State) : (State.storeWord a w s).errStatus = s.errStatus := by
  simp only [State.storeWord, storeByte_errStatus]
@[simp] theorem storeWord_chainCount (a : Nat) (w : Word) (s : State) : (State.storeWord a w s).chainCount = s.chainCount := by
  simp only [State.storeWord, storeByte_chainCount]
@[simp] theorem storeWord_resp (a : Nat) (w : Word) (s : State) : (State.storeWord a w s).resp = s.resp := by
  simp only [State.storeWord, storeByte_resp]
@[simp] theorem storeWord_rst (a : Nat) (w : Word) (s : State) : (State.storeWord a w s).rst = s.rst := by
  simp only [State.storeWord, storeByte_rst]
@[simp] theorem storeWord_reqs (a : Nat) (w : Word) (s : State) : (State.storeWord a w s).reqs = s.reqs := by
  simp only [State.storeWord, storeByte_reqs]
@[simp] theorem storeWord_cfgIn (a : Nat) (w : Word) (s : State) : (State.storeWord a w s).cfgIn = s.cfgIn := by
  simp only [State.storeWord, storeByte_cfgIn]
@[simp] theorem storeWord_answers (a : Nat) (w : Word) (s : State) : (State.storeWord a w s).answers = s.answers := by
  simp only [State.storeWord, storeByte_answers]
@[simp] theorem storeWord_draws (a : Nat) (w : Word) (s : State) : (State.storeWord a w s).draws = s.draws := by
  simp only [State.storeWord, storeByte_draws]
@[simp] theorem storeWord_dmaData (a : Nat) (w : Word) (s : State) : (State.storeWord a w s).dmaData = s.dmaData := by
  simp only [State.storeWord, storeByte_dmaData]
@[simp] theorem storeWord_dmaDraws (a : Nat) (w : Word) (s : State) : (State.storeWord a w s).dmaDraws = s.dmaDraws := by
  simp only [State.storeWord, storeByte_dmaDraws]
@[simp] theorem storeWord_sched (a : Nat) (w : Word) (s : State) : (State.storeWord a w s).sched = s.sched := by
  simp only [State.storeWord, storeByte_sched]
@[simp] theorem storeWord_ctl (a : Nat) (w : Word) (s : State) : (State.storeWord a w s).ctl = s.ctl := by
  simp only [State.storeWord, storeByte_ctl]
@[simp] theorem storeWord_dma (a : Nat) (w : Word) (s : State) : (State.storeWord a w s).dma = s.dma := by
  simp only [State.storeWord, storeByte_dma]
@[simp] theorem storeWord_hist (a : Nat) (w : Word) (s : State) : (State.storeWord a w s).hist = s.hist := by
  simp only [State.storeWord, storeByte_hist]
@[simp] theorem storeWord_trace (a : Nat) (w : Word) (s : State) : (State.storeWord a w s).trace = s.trace := by
  simp only [State.storeWord, storeByte_trace]

/-! ## engineStore -/

@[simp] theorem engineStore_params (a : Nat) (b : Byte) (s : State) : (State.engineStore a b s).params = s.params := rfl
@[simp] theorem engineStore_cfg (a : Nat) (b : Byte) (s : State) : (State.engineStore a b s).cfg = s.cfg := rfl
@[simp] theorem engineStore_cfgValid (a : Nat) (b : Byte) (s : State) : (State.engineStore a b s).cfgValid = s.cfgValid := rfl
@[simp] theorem engineStore_busWidth (a : Nat) (b : Byte) (s : State) : (State.engineStore a b s).busWidth = s.busWidth := rfl
@[simp] theorem engineStore_clkDiv (a : Nat) (b : Byte) (s : State) : (State.engineStore a b s).clkDiv = s.clkDiv := rfl
@[simp] theorem engineStore_clkEnabled (a : Nat) (b : Byte) (s : State) : (State.engineStore a b s).clkEnabled = s.clkEnabled := rfl
@[simp] theorem engineStore_fsm (a : Nat) (b : Byte) (s : State) : (State.engineStore a b s).fsm = s.fsm := rfl
@[simp] theorem engineStore_halted (a : Nat) (b : Byte) (s : State) : (State.engineStore a b s).halted = s.halted := rfl
@[simp] theorem engineStore_reqCtl (a : Nat) (b : Byte) (s : State) : (State.engineStore a b s).reqCtl = s.reqCtl := rfl
@[simp] theorem engineStore_reqA (a : Nat) (b : Byte) (s : State) : (State.engineStore a b s).reqA = s.reqA := rfl
@[simp] theorem engineStore_reqB (a : Nat) (b : Byte) (s : State) : (State.engineStore a b s).reqB = s.reqB := rfl
@[simp] theorem engineStore_reqC (a : Nat) (b : Byte) (s : State) : (State.engineStore a b s).reqC = s.reqC := rfl
@[simp] theorem engineStore_cnt (a : Nat) (b : Byte) (s : State) : (State.engineStore a b s).cnt = s.cnt := rfl
@[simp] theorem engineStore_cmdWord (a : Nat) (b : Byte) (s : State) : (State.engineStore a b s).cmdWord = s.cmdWord := rfl
@[simp] theorem engineStore_cmdData (a : Nat) (b : Byte) (s : State) : (State.engineStore a b s).cmdData = s.cmdData := rfl
@[simp] theorem engineStore_pollCmdDone (a : Nat) (b : Byte) (s : State) : (State.engineStore a b s).pollCmdDone = s.pollCmdDone := rfl
@[simp] theorem engineStore_pollDto (a : Nat) (b : Byte) (s : State) : (State.engineStore a b s).pollDto = s.pollDto := rfl
@[simp] theorem engineStore_rspCount (a : Nat) (b : Byte) (s : State) : (State.engineStore a b s).rspCount = s.rspCount := rfl
@[simp] theorem engineStore_rspWords (a : Nat) (b : Byte) (s : State) : (State.engineStore a b s).rspWords = s.rspWords := rfl
@[simp] theorem engineStore_errStatus (a : Nat) (b : Byte) (s : State) : (State.engineStore a b s).errStatus = s.errStatus := rfl
@[simp] theorem engineStore_chainCount (a : Nat) (b : Byte) (s : State) : (State.engineStore a b s).chainCount = s.chainCount := rfl
@[simp] theorem engineStore_resp (a : Nat) (b : Byte) (s : State) : (State.engineStore a b s).resp = s.resp := rfl
@[simp] theorem engineStore_rst (a : Nat) (b : Byte) (s : State) : (State.engineStore a b s).rst = s.rst := rfl
@[simp] theorem engineStore_reqs (a : Nat) (b : Byte) (s : State) : (State.engineStore a b s).reqs = s.reqs := rfl
@[simp] theorem engineStore_cfgIn (a : Nat) (b : Byte) (s : State) : (State.engineStore a b s).cfgIn = s.cfgIn := rfl
@[simp] theorem engineStore_answers (a : Nat) (b : Byte) (s : State) : (State.engineStore a b s).answers = s.answers := rfl
@[simp] theorem engineStore_draws (a : Nat) (b : Byte) (s : State) : (State.engineStore a b s).draws = s.draws := rfl
@[simp] theorem engineStore_dmaData (a : Nat) (b : Byte) (s : State) : (State.engineStore a b s).dmaData = s.dmaData := rfl
@[simp] theorem engineStore_dmaDraws (a : Nat) (b : Byte) (s : State) : (State.engineStore a b s).dmaDraws = s.dmaDraws := rfl
@[simp] theorem engineStore_sched (a : Nat) (b : Byte) (s : State) : (State.engineStore a b s).sched = s.sched := rfl
@[simp] theorem engineStore_mem (a : Nat) (b : Byte) (s : State) : (State.engineStore a b s).mem =
    if s.dirty.contains a then s.mem else s.mem.write a b := rfl
@[simp] theorem engineStore_dirty (a : Nat) (b : Byte) (s : State) : (State.engineStore a b s).dirty = s.dirty := rfl
@[simp] theorem engineStore_ctl (a : Nat) (b : Byte) (s : State) : (State.engineStore a b s).ctl = s.ctl := rfl
@[simp] theorem engineStore_dma (a : Nat) (b : Byte) (s : State) : (State.engineStore a b s).dma = s.dma := rfl
@[simp] theorem engineStore_hist (a : Nat) (b : Byte) (s : State) : (State.engineStore a b s).hist = s.hist := rfl
@[simp] theorem engineStore_trace (a : Nat) (b : Byte) (s : State) : (State.engineStore a b s).trace = s.trace := rfl

/-! ## takeStarted -/

@[simp] theorem takeStarted_params (r : List Started) (s : State) : (takeStarted r s).params = s.params := rfl
@[simp] theorem takeStarted_cfg (r : List Started) (s : State) : (takeStarted r s).cfg = s.cfg := rfl
@[simp] theorem takeStarted_cfgValid (r : List Started) (s : State) : (takeStarted r s).cfgValid = s.cfgValid := rfl
@[simp] theorem takeStarted_busWidth (r : List Started) (s : State) : (takeStarted r s).busWidth = s.busWidth := rfl
@[simp] theorem takeStarted_clkDiv (r : List Started) (s : State) : (takeStarted r s).clkDiv = s.clkDiv := rfl
@[simp] theorem takeStarted_clkEnabled (r : List Started) (s : State) : (takeStarted r s).clkEnabled = s.clkEnabled := rfl
@[simp] theorem takeStarted_fsm (r : List Started) (s : State) : (takeStarted r s).fsm = s.fsm := rfl
@[simp] theorem takeStarted_halted (r : List Started) (s : State) : (takeStarted r s).halted = s.halted := rfl
@[simp] theorem takeStarted_reqCtl (r : List Started) (s : State) : (takeStarted r s).reqCtl = s.reqCtl := rfl
@[simp] theorem takeStarted_reqA (r : List Started) (s : State) : (takeStarted r s).reqA = s.reqA := rfl
@[simp] theorem takeStarted_reqB (r : List Started) (s : State) : (takeStarted r s).reqB = s.reqB := rfl
@[simp] theorem takeStarted_reqC (r : List Started) (s : State) : (takeStarted r s).reqC = s.reqC := rfl
@[simp] theorem takeStarted_cnt (r : List Started) (s : State) : (takeStarted r s).cnt = s.cnt := rfl
@[simp] theorem takeStarted_cmdWord (r : List Started) (s : State) : (takeStarted r s).cmdWord = s.cmdWord := rfl
@[simp] theorem takeStarted_cmdData (r : List Started) (s : State) : (takeStarted r s).cmdData = s.cmdData := rfl
@[simp] theorem takeStarted_pollCmdDone (r : List Started) (s : State) : (takeStarted r s).pollCmdDone = s.pollCmdDone := rfl
@[simp] theorem takeStarted_pollDto (r : List Started) (s : State) : (takeStarted r s).pollDto = s.pollDto := rfl
@[simp] theorem takeStarted_rspCount (r : List Started) (s : State) : (takeStarted r s).rspCount = s.rspCount := rfl
@[simp] theorem takeStarted_rspWords (r : List Started) (s : State) : (takeStarted r s).rspWords = s.rspWords := rfl
@[simp] theorem takeStarted_errStatus (r : List Started) (s : State) : (takeStarted r s).errStatus = s.errStatus := rfl
@[simp] theorem takeStarted_chainCount (r : List Started) (s : State) : (takeStarted r s).chainCount = s.chainCount := rfl
@[simp] theorem takeStarted_resp (r : List Started) (s : State) : (takeStarted r s).resp = s.resp := rfl
@[simp] theorem takeStarted_rst (r : List Started) (s : State) : (takeStarted r s).rst = s.rst := rfl
@[simp] theorem takeStarted_reqs (r : List Started) (s : State) : (takeStarted r s).reqs = s.reqs := rfl
@[simp] theorem takeStarted_cfgIn (r : List Started) (s : State) : (takeStarted r s).cfgIn = s.cfgIn := rfl
@[simp] theorem takeStarted_answers (r : List Started) (s : State) : (takeStarted r s).answers = s.answers := rfl
@[simp] theorem takeStarted_draws (r : List Started) (s : State) : (takeStarted r s).draws = s.draws := rfl
@[simp] theorem takeStarted_dmaData (r : List Started) (s : State) : (takeStarted r s).dmaData = s.dmaData := rfl
@[simp] theorem takeStarted_dmaDraws (r : List Started) (s : State) : (takeStarted r s).dmaDraws = s.dmaDraws := rfl
@[simp] theorem takeStarted_sched (r : List Started) (s : State) : (takeStarted r s).sched = s.sched := rfl
@[simp] theorem takeStarted_mem (r : List Started) (s : State) : (takeStarted r s).mem = s.mem := rfl
@[simp] theorem takeStarted_dirty (r : List Started) (s : State) : (takeStarted r s).dirty = s.dirty := rfl
@[simp] theorem takeStarted_dma (r : List Started) (s : State) : (takeStarted r s).dma = s.dma := rfl
@[simp] theorem takeStarted_hist (r : List Started) (s : State) : (takeStarted r s).hist = s.hist := rfl
@[simp] theorem takeStarted_trace (r : List Started) (s : State) : (takeStarted r s).trace = s.trace := rfl

/-! ## accept -/

@[simp] theorem accept_params (q : Request) (r : List Request) (s : State) : (accept q r s).params = s.params := rfl
@[simp] theorem accept_cfg (q : Request) (r : List Request) (s : State) : (accept q r s).cfg = s.cfg := rfl
@[simp] theorem accept_cfgValid (q : Request) (r : List Request) (s : State) : (accept q r s).cfgValid = s.cfgValid := rfl
@[simp] theorem accept_busWidth (q : Request) (r : List Request) (s : State) : (accept q r s).busWidth = s.busWidth := rfl
@[simp] theorem accept_clkDiv (q : Request) (r : List Request) (s : State) : (accept q r s).clkDiv = s.clkDiv := rfl
@[simp] theorem accept_clkEnabled (q : Request) (r : List Request) (s : State) : (accept q r s).clkEnabled = s.clkEnabled := rfl
@[simp] theorem accept_fsm (q : Request) (r : List Request) (s : State) : (accept q r s).fsm = s.fsm := rfl
@[simp] theorem accept_halted (q : Request) (r : List Request) (s : State) : (accept q r s).halted = s.halted := rfl
@[simp] theorem accept_reqCtl (q : Request) (r : List Request) (s : State) : (accept q r s).reqCtl = .holds q.ctl := rfl
@[simp] theorem accept_reqA (q : Request) (r : List Request) (s : State) : (accept q r s).reqA = .holds q.a := rfl
@[simp] theorem accept_reqB (q : Request) (r : List Request) (s : State) : (accept q r s).reqB = .holds q.b := rfl
@[simp] theorem accept_reqC (q : Request) (r : List Request) (s : State) : (accept q r s).reqC = .holds q.c := rfl
@[simp] theorem accept_cnt (q : Request) (r : List Request) (s : State) : (accept q r s).cnt = s.cnt := rfl
@[simp] theorem accept_cmdWord (q : Request) (r : List Request) (s : State) : (accept q r s).cmdWord = s.cmdWord := rfl
@[simp] theorem accept_cmdData (q : Request) (r : List Request) (s : State) : (accept q r s).cmdData = s.cmdData := rfl
@[simp] theorem accept_pollCmdDone (q : Request) (r : List Request) (s : State) : (accept q r s).pollCmdDone = s.pollCmdDone := rfl
@[simp] theorem accept_pollDto (q : Request) (r : List Request) (s : State) : (accept q r s).pollDto = s.pollDto := rfl
@[simp] theorem accept_rspCount (q : Request) (r : List Request) (s : State) : (accept q r s).rspCount = s.rspCount := rfl
@[simp] theorem accept_rspWords (q : Request) (r : List Request) (s : State) : (accept q r s).rspWords = s.rspWords := rfl
@[simp] theorem accept_errStatus (q : Request) (r : List Request) (s : State) : (accept q r s).errStatus = s.errStatus := rfl
@[simp] theorem accept_chainCount (q : Request) (r : List Request) (s : State) : (accept q r s).chainCount = s.chainCount := rfl
@[simp] theorem accept_resp (q : Request) (r : List Request) (s : State) : (accept q r s).resp = none := rfl
@[simp] theorem accept_rst (q : Request) (r : List Request) (s : State) : (accept q r s).rst = s.rst.map (· - 1) := rfl
@[simp] theorem accept_reqs (q : Request) (r : List Request) (s : State) : (accept q r s).reqs = r := rfl
@[simp] theorem accept_cfgIn (q : Request) (r : List Request) (s : State) : (accept q r s).cfgIn = q.cfgIn := rfl
@[simp] theorem accept_answers (q : Request) (r : List Request) (s : State) : (accept q r s).answers = s.answers := rfl
@[simp] theorem accept_draws (q : Request) (r : List Request) (s : State) : (accept q r s).draws = s.draws := rfl
@[simp] theorem accept_dmaData (q : Request) (r : List Request) (s : State) : (accept q r s).dmaData = s.dmaData := rfl
@[simp] theorem accept_dmaDraws (q : Request) (r : List Request) (s : State) : (accept q r s).dmaDraws = s.dmaDraws := rfl
@[simp] theorem accept_sched (q : Request) (r : List Request) (s : State) : (accept q r s).sched = s.sched := rfl
@[simp] theorem accept_mem (q : Request) (r : List Request) (s : State) : (accept q r s).mem = s.mem := rfl
@[simp] theorem accept_dirty (q : Request) (r : List Request) (s : State) : (accept q r s).dirty = s.dirty := rfl
@[simp] theorem accept_ctl (q : Request) (r : List Request) (s : State) : (accept q r s).ctl = s.ctl := rfl
@[simp] theorem accept_dma (q : Request) (r : List Request) (s : State) : (accept q r s).dma = s.dma := rfl
@[simp] theorem accept_hist (q : Request) (r : List Request) (s : State) : (accept q r s).hist = s.hist := rfl
@[simp] theorem accept_trace (q : Request) (r : List Request) (s : State) : (accept q r s).trace = s.trace := rfl

/-! ## idleCycle -/

@[simp] theorem idleCycle_params (s : State) : (idleCycle s).params = s.params := rfl
@[simp] theorem idleCycle_cfg (s : State) : (idleCycle s).cfg = s.cfg := rfl
@[simp] theorem idleCycle_cfgValid (s : State) : (idleCycle s).cfgValid = s.cfgValid := rfl
@[simp] theorem idleCycle_busWidth (s : State) : (idleCycle s).busWidth = s.busWidth := rfl
@[simp] theorem idleCycle_clkDiv (s : State) : (idleCycle s).clkDiv = s.clkDiv := rfl
@[simp] theorem idleCycle_clkEnabled (s : State) : (idleCycle s).clkEnabled = s.clkEnabled := rfl
@[simp] theorem idleCycle_fsm (s : State) : (idleCycle s).fsm = s.fsm := rfl
@[simp] theorem idleCycle_halted (s : State) : (idleCycle s).halted = s.halted := rfl
@[simp] theorem idleCycle_reqCtl (s : State) : (idleCycle s).reqCtl = s.reqCtl := rfl
@[simp] theorem idleCycle_reqA (s : State) : (idleCycle s).reqA = s.reqA := rfl
@[simp] theorem idleCycle_reqB (s : State) : (idleCycle s).reqB = s.reqB := rfl
@[simp] theorem idleCycle_reqC (s : State) : (idleCycle s).reqC = s.reqC := rfl
@[simp] theorem idleCycle_cnt (s : State) : (idleCycle s).cnt = s.cnt := rfl
@[simp] theorem idleCycle_cmdWord (s : State) : (idleCycle s).cmdWord = s.cmdWord := rfl
@[simp] theorem idleCycle_cmdData (s : State) : (idleCycle s).cmdData = s.cmdData := rfl
@[simp] theorem idleCycle_pollCmdDone (s : State) : (idleCycle s).pollCmdDone = s.pollCmdDone := rfl
@[simp] theorem idleCycle_pollDto (s : State) : (idleCycle s).pollDto = s.pollDto := rfl
@[simp] theorem idleCycle_rspCount (s : State) : (idleCycle s).rspCount = s.rspCount := rfl
@[simp] theorem idleCycle_rspWords (s : State) : (idleCycle s).rspWords = s.rspWords := rfl
@[simp] theorem idleCycle_errStatus (s : State) : (idleCycle s).errStatus = s.errStatus := rfl
@[simp] theorem idleCycle_chainCount (s : State) : (idleCycle s).chainCount = s.chainCount := rfl
@[simp] theorem idleCycle_resp (s : State) : (idleCycle s).resp = none := rfl
@[simp] theorem idleCycle_rst (s : State) : (idleCycle s).rst = s.rst.map (· - 1) := rfl
@[simp] theorem idleCycle_reqs (s : State) : (idleCycle s).reqs = s.reqs := rfl
@[simp] theorem idleCycle_cfgIn (s : State) : (idleCycle s).cfgIn = s.cfgIn := rfl
@[simp] theorem idleCycle_answers (s : State) : (idleCycle s).answers = s.answers := rfl
@[simp] theorem idleCycle_draws (s : State) : (idleCycle s).draws = s.draws := rfl
@[simp] theorem idleCycle_dmaData (s : State) : (idleCycle s).dmaData = s.dmaData := rfl
@[simp] theorem idleCycle_dmaDraws (s : State) : (idleCycle s).dmaDraws = s.dmaDraws := rfl
@[simp] theorem idleCycle_sched (s : State) : (idleCycle s).sched = s.sched := rfl
@[simp] theorem idleCycle_mem (s : State) : (idleCycle s).mem = s.mem := rfl
@[simp] theorem idleCycle_dirty (s : State) : (idleCycle s).dirty = s.dirty := rfl
@[simp] theorem idleCycle_ctl (s : State) : (idleCycle s).ctl = s.ctl := rfl
@[simp] theorem idleCycle_dma (s : State) : (idleCycle s).dma = s.dma := rfl
@[simp] theorem idleCycle_hist (s : State) : (idleCycle s).hist = s.hist := rfl
@[simp] theorem idleCycle_trace (s : State) : (idleCycle s).trace = s.trace := rfl

/-! ## moved -/

@[simp] theorem moved_params (s : State) : (moved s).params = s.params := rfl
@[simp] theorem moved_cfg (s : State) : (moved s).cfg = s.cfg := rfl
@[simp] theorem moved_cfgValid (s : State) : (moved s).cfgValid = s.cfgValid := rfl
@[simp] theorem moved_busWidth (s : State) : (moved s).busWidth = s.busWidth := rfl
@[simp] theorem moved_clkDiv (s : State) : (moved s).clkDiv = s.clkDiv := rfl
@[simp] theorem moved_clkEnabled (s : State) : (moved s).clkEnabled = s.clkEnabled := rfl
@[simp] theorem moved_fsm (s : State) : (moved s).fsm = s.fsm := rfl
@[simp] theorem moved_halted (s : State) : (moved s).halted = s.halted := rfl
@[simp] theorem moved_reqCtl (s : State) : (moved s).reqCtl = s.reqCtl := rfl
@[simp] theorem moved_reqA (s : State) : (moved s).reqA = s.reqA := rfl
@[simp] theorem moved_reqB (s : State) : (moved s).reqB = s.reqB := rfl
@[simp] theorem moved_reqC (s : State) : (moved s).reqC = s.reqC := rfl
@[simp] theorem moved_cnt (s : State) : (moved s).cnt = s.cnt := rfl
@[simp] theorem moved_cmdWord (s : State) : (moved s).cmdWord = s.cmdWord := rfl
@[simp] theorem moved_cmdData (s : State) : (moved s).cmdData = s.cmdData := rfl
@[simp] theorem moved_pollCmdDone (s : State) : (moved s).pollCmdDone = s.pollCmdDone := rfl
@[simp] theorem moved_pollDto (s : State) : (moved s).pollDto = s.pollDto := rfl
@[simp] theorem moved_rspCount (s : State) : (moved s).rspCount = s.rspCount := rfl
@[simp] theorem moved_rspWords (s : State) : (moved s).rspWords = s.rspWords := rfl
@[simp] theorem moved_errStatus (s : State) : (moved s).errStatus = s.errStatus := rfl
@[simp] theorem moved_chainCount (s : State) : (moved s).chainCount = s.chainCount := rfl
@[simp] theorem moved_resp (s : State) : (moved s).resp = s.resp := rfl
@[simp] theorem moved_rst (s : State) : (moved s).rst = s.rst := rfl
@[simp] theorem moved_reqs (s : State) : (moved s).reqs = s.reqs := rfl
@[simp] theorem moved_cfgIn (s : State) : (moved s).cfgIn = s.cfgIn := rfl
@[simp] theorem moved_answers (s : State) : (moved s).answers = s.answers := rfl
@[simp] theorem moved_draws (s : State) : (moved s).draws = s.draws := rfl
@[simp] theorem moved_dmaData (s : State) : (moved s).dmaData = s.dmaData := rfl
@[simp] theorem moved_dmaDraws (s : State) : (moved s).dmaDraws = s.dmaDraws := rfl
@[simp] theorem moved_sched (s : State) : (moved s).sched = s.sched.tail := rfl
@[simp] theorem moved_mem (s : State) : (moved s).mem = s.mem := rfl
@[simp] theorem moved_dirty (s : State) : (moved s).dirty = s.dirty := rfl
@[simp] theorem moved_ctl (s : State) : (moved s).ctl = s.ctl := rfl
@[simp] theorem moved_dma (s : State) : (moved s).dma = s.dma := rfl
@[simp] theorem moved_hist (s : State) : (moved s).hist = s.hist := rfl
@[simp] theorem moved_trace (s : State) : (moved s).trace = s.trace := rfl

/-! ## answered -/

@[simp] theorem answered_params (c : ResultCode) (v : DWord) (w : Word) (s : State) : (answered c v w s).params = s.params := rfl
@[simp] theorem answered_cfg (c : ResultCode) (v : DWord) (w : Word) (s : State) : (answered c v w s).cfg = s.cfg := rfl
@[simp] theorem answered_cfgValid (c : ResultCode) (v : DWord) (w : Word) (s : State) : (answered c v w s).cfgValid = s.cfgValid := rfl
@[simp] theorem answered_busWidth (c : ResultCode) (v : DWord) (w : Word) (s : State) : (answered c v w s).busWidth = s.busWidth := rfl
@[simp] theorem answered_clkDiv (c : ResultCode) (v : DWord) (w : Word) (s : State) : (answered c v w s).clkDiv = s.clkDiv := rfl
@[simp] theorem answered_clkEnabled (c : ResultCode) (v : DWord) (w : Word) (s : State) : (answered c v w s).clkEnabled = s.clkEnabled := rfl
@[simp] theorem answered_fsm (c : ResultCode) (v : DWord) (w : Word) (s : State) : (answered c v w s).fsm = .idle := rfl
@[simp] theorem answered_halted (c : ResultCode) (v : DWord) (w : Word) (s : State) : (answered c v w s).halted = s.halted := rfl
@[simp] theorem answered_reqCtl (c : ResultCode) (v : DWord) (w : Word) (s : State) : (answered c v w s).reqCtl = s.reqCtl := rfl
@[simp] theorem answered_reqA (c : ResultCode) (v : DWord) (w : Word) (s : State) : (answered c v w s).reqA = s.reqA := rfl
@[simp] theorem answered_reqB (c : ResultCode) (v : DWord) (w : Word) (s : State) : (answered c v w s).reqB = s.reqB := rfl
@[simp] theorem answered_reqC (c : ResultCode) (v : DWord) (w : Word) (s : State) : (answered c v w s).reqC = s.reqC := rfl
@[simp] theorem answered_cnt (c : ResultCode) (v : DWord) (w : Word) (s : State) : (answered c v w s).cnt = s.cnt := rfl
@[simp] theorem answered_cmdWord (c : ResultCode) (v : DWord) (w : Word) (s : State) : (answered c v w s).cmdWord = s.cmdWord := rfl
@[simp] theorem answered_cmdData (c : ResultCode) (v : DWord) (w : Word) (s : State) : (answered c v w s).cmdData = s.cmdData := rfl
@[simp] theorem answered_pollCmdDone (c : ResultCode) (v : DWord) (w : Word) (s : State) : (answered c v w s).pollCmdDone = s.pollCmdDone := rfl
@[simp] theorem answered_pollDto (c : ResultCode) (v : DWord) (w : Word) (s : State) : (answered c v w s).pollDto = s.pollDto := rfl
@[simp] theorem answered_rspCount (c : ResultCode) (v : DWord) (w : Word) (s : State) : (answered c v w s).rspCount = s.rspCount := rfl
@[simp] theorem answered_rspWords (c : ResultCode) (v : DWord) (w : Word) (s : State) : (answered c v w s).rspWords = s.rspWords := rfl
@[simp] theorem answered_errStatus (c : ResultCode) (v : DWord) (w : Word) (s : State) : (answered c v w s).errStatus = s.errStatus := rfl
@[simp] theorem answered_chainCount (c : ResultCode) (v : DWord) (w : Word) (s : State) : (answered c v w s).chainCount = s.chainCount := rfl
@[simp] theorem answered_rst (c : ResultCode) (v : DWord) (w : Word) (s : State) : (answered c v w s).rst = s.rst := rfl
@[simp] theorem answered_reqs (c : ResultCode) (v : DWord) (w : Word) (s : State) : (answered c v w s).reqs = s.reqs := rfl
@[simp] theorem answered_cfgIn (c : ResultCode) (v : DWord) (w : Word) (s : State) : (answered c v w s).cfgIn = s.cfgIn := rfl
@[simp] theorem answered_answers (c : ResultCode) (v : DWord) (w : Word) (s : State) : (answered c v w s).answers = s.answers := rfl
@[simp] theorem answered_draws (c : ResultCode) (v : DWord) (w : Word) (s : State) : (answered c v w s).draws = s.draws := rfl
@[simp] theorem answered_dmaData (c : ResultCode) (v : DWord) (w : Word) (s : State) : (answered c v w s).dmaData = s.dmaData := rfl
@[simp] theorem answered_dmaDraws (c : ResultCode) (v : DWord) (w : Word) (s : State) : (answered c v w s).dmaDraws = s.dmaDraws := rfl
@[simp] theorem answered_sched (c : ResultCode) (v : DWord) (w : Word) (s : State) : (answered c v w s).sched = s.sched := rfl
@[simp] theorem answered_mem (c : ResultCode) (v : DWord) (w : Word) (s : State) : (answered c v w s).mem = s.mem := rfl
@[simp] theorem answered_dirty (c : ResultCode) (v : DWord) (w : Word) (s : State) : (answered c v w s).dirty = s.dirty := rfl
@[simp] theorem answered_ctl (c : ResultCode) (v : DWord) (w : Word) (s : State) : (answered c v w s).ctl = s.ctl := rfl
@[simp] theorem answered_dma (c : ResultCode) (v : DWord) (w : Word) (s : State) : (answered c v w s).dma = s.dma := rfl
@[simp] theorem answered_hist (c : ResultCode) (v : DWord) (w : Word) (s : State) : (answered c v w s).hist = s.hist := rfl
@[simp] theorem answered_trace (c : ResultCode) (v : DWord) (w : Word) (s : State) : (answered c v w s).trace = s.trace ++ [.idle] := rfl

/-! ## halts -/

@[simp] theorem halts_params (s : State) : (halts s).params = s.params := rfl
@[simp] theorem halts_cfg (s : State) : (halts s).cfg = s.cfg := rfl
@[simp] theorem halts_cfgValid (s : State) : (halts s).cfgValid = s.cfgValid := rfl
@[simp] theorem halts_busWidth (s : State) : (halts s).busWidth = s.busWidth := rfl
@[simp] theorem halts_clkDiv (s : State) : (halts s).clkDiv = s.clkDiv := rfl
@[simp] theorem halts_clkEnabled (s : State) : (halts s).clkEnabled = s.clkEnabled := rfl
@[simp] theorem halts_fsm (s : State) : (halts s).fsm = .halted := rfl
@[simp] theorem halts_halted (s : State) : (halts s).halted = true := rfl
@[simp] theorem halts_reqCtl (s : State) : (halts s).reqCtl = s.reqCtl := rfl
@[simp] theorem halts_reqA (s : State) : (halts s).reqA = s.reqA := rfl
@[simp] theorem halts_reqB (s : State) : (halts s).reqB = s.reqB := rfl
@[simp] theorem halts_reqC (s : State) : (halts s).reqC = s.reqC := rfl
@[simp] theorem halts_cnt (s : State) : (halts s).cnt = s.cnt := rfl
@[simp] theorem halts_cmdWord (s : State) : (halts s).cmdWord = s.cmdWord := rfl
@[simp] theorem halts_cmdData (s : State) : (halts s).cmdData = s.cmdData := rfl
@[simp] theorem halts_pollCmdDone (s : State) : (halts s).pollCmdDone = s.pollCmdDone := rfl
@[simp] theorem halts_pollDto (s : State) : (halts s).pollDto = s.pollDto := rfl
@[simp] theorem halts_rspCount (s : State) : (halts s).rspCount = s.rspCount := rfl
@[simp] theorem halts_rspWords (s : State) : (halts s).rspWords = s.rspWords := rfl
@[simp] theorem halts_errStatus (s : State) : (halts s).errStatus = s.errStatus := rfl
@[simp] theorem halts_chainCount (s : State) : (halts s).chainCount = s.chainCount := rfl
@[simp] theorem halts_rst (s : State) : (halts s).rst = s.rst := rfl
@[simp] theorem halts_reqs (s : State) : (halts s).reqs = s.reqs := rfl
@[simp] theorem halts_cfgIn (s : State) : (halts s).cfgIn = s.cfgIn := rfl
@[simp] theorem halts_answers (s : State) : (halts s).answers = s.answers := rfl
@[simp] theorem halts_draws (s : State) : (halts s).draws = s.draws := rfl
@[simp] theorem halts_dmaData (s : State) : (halts s).dmaData = s.dmaData := rfl
@[simp] theorem halts_dmaDraws (s : State) : (halts s).dmaDraws = s.dmaDraws := rfl
@[simp] theorem halts_sched (s : State) : (halts s).sched = s.sched := rfl
@[simp] theorem halts_mem (s : State) : (halts s).mem = s.mem := rfl
@[simp] theorem halts_dirty (s : State) : (halts s).dirty = s.dirty := rfl
@[simp] theorem halts_ctl (s : State) : (halts s).ctl = s.ctl := rfl
@[simp] theorem halts_dma (s : State) : (halts s).dma = s.dma := rfl
@[simp] theorem halts_hist (s : State) : (halts s).hist = s.hist := rfl
@[simp] theorem halts_trace (s : State) : (halts s).trace = s.trace ++ [.halted] := rfl

/-! ## readDone -/

@[simp] theorem readDone_params (c : Cfg) (r : CtlReg) (s : State) :
    (State.readDone c r s).params = s.params := rfl
@[simp] theorem readDone_cfg (c : Cfg) (r : CtlReg) (s : State) :
    (State.readDone c r s).cfg = s.cfg := rfl
@[simp] theorem readDone_cfgValid (c : Cfg) (r : CtlReg) (s : State) :
    (State.readDone c r s).cfgValid = s.cfgValid := rfl
@[simp] theorem readDone_busWidth (c : Cfg) (r : CtlReg) (s : State) :
    (State.readDone c r s).busWidth = s.busWidth := rfl
@[simp] theorem readDone_clkDiv (c : Cfg) (r : CtlReg) (s : State) :
    (State.readDone c r s).clkDiv = s.clkDiv := rfl
@[simp] theorem readDone_clkEnabled (c : Cfg) (r : CtlReg) (s : State) :
    (State.readDone c r s).clkEnabled = s.clkEnabled := rfl
@[simp] theorem readDone_fsm (c : Cfg) (r : CtlReg) (s : State) :
    (State.readDone c r s).fsm = s.fsm := rfl
@[simp] theorem readDone_halted (c : Cfg) (r : CtlReg) (s : State) :
    (State.readDone c r s).halted = s.halted := rfl
@[simp] theorem readDone_reqCtl (c : Cfg) (r : CtlReg) (s : State) :
    (State.readDone c r s).reqCtl = s.reqCtl := rfl
@[simp] theorem readDone_reqA (c : Cfg) (r : CtlReg) (s : State) :
    (State.readDone c r s).reqA = s.reqA := rfl
@[simp] theorem readDone_reqB (c : Cfg) (r : CtlReg) (s : State) :
    (State.readDone c r s).reqB = s.reqB := rfl
@[simp] theorem readDone_reqC (c : Cfg) (r : CtlReg) (s : State) :
    (State.readDone c r s).reqC = s.reqC := rfl
@[simp] theorem readDone_cnt (c : Cfg) (r : CtlReg) (s : State) :
    (State.readDone c r s).cnt = s.cnt := rfl
@[simp] theorem readDone_cmdWord (c : Cfg) (r : CtlReg) (s : State) :
    (State.readDone c r s).cmdWord = s.cmdWord := rfl
@[simp] theorem readDone_cmdData (c : Cfg) (r : CtlReg) (s : State) :
    (State.readDone c r s).cmdData = s.cmdData := rfl
@[simp] theorem readDone_pollCmdDone (c : Cfg) (r : CtlReg) (s : State) :
    (State.readDone c r s).pollCmdDone = s.pollCmdDone := rfl
@[simp] theorem readDone_pollDto (c : Cfg) (r : CtlReg) (s : State) :
    (State.readDone c r s).pollDto = s.pollDto := rfl
@[simp] theorem readDone_rspCount (c : Cfg) (r : CtlReg) (s : State) :
    (State.readDone c r s).rspCount = s.rspCount := rfl
@[simp] theorem readDone_rspWords (c : Cfg) (r : CtlReg) (s : State) :
    (State.readDone c r s).rspWords = s.rspWords := rfl
@[simp] theorem readDone_errStatus (c : Cfg) (r : CtlReg) (s : State) :
    (State.readDone c r s).errStatus = s.errStatus := rfl
@[simp] theorem readDone_chainCount (c : Cfg) (r : CtlReg) (s : State) :
    (State.readDone c r s).chainCount = s.chainCount := rfl
@[simp] theorem readDone_resp (c : Cfg) (r : CtlReg) (s : State) :
    (State.readDone c r s).resp = s.resp := rfl
@[simp] theorem readDone_rst (c : Cfg) (r : CtlReg) (s : State) :
    (State.readDone c r s).rst = s.rst := rfl
@[simp] theorem readDone_reqs (c : Cfg) (r : CtlReg) (s : State) :
    (State.readDone c r s).reqs = s.reqs := rfl
@[simp] theorem readDone_cfgIn (c : Cfg) (r : CtlReg) (s : State) :
    (State.readDone c r s).cfgIn = s.cfgIn := rfl
@[simp] theorem readDone_answers (c : Cfg) (r : CtlReg) (s : State) :
    (State.readDone c r s).answers = s.answers.tail := rfl
@[simp] theorem readDone_draws (c : Cfg) (r : CtlReg) (s : State) :
    (State.readDone c r s).draws = s.draws + 1 := rfl
@[simp] theorem readDone_dmaData (c : Cfg) (r : CtlReg) (s : State) :
    (State.readDone c r s).dmaData = s.dmaData := rfl
@[simp] theorem readDone_dmaDraws (c : Cfg) (r : CtlReg) (s : State) :
    (State.readDone c r s).dmaDraws = s.dmaDraws := rfl
@[simp] theorem readDone_sched (c : Cfg) (r : CtlReg) (s : State) :
    (State.readDone c r s).sched = s.sched := rfl
@[simp] theorem readDone_mem (c : Cfg) (r : CtlReg) (s : State) :
    (State.readDone c r s).mem = s.mem := rfl
@[simp] theorem readDone_dirty (c : Cfg) (r : CtlReg) (s : State) :
    (State.readDone c r s).dirty = s.dirty := rfl
@[simp] theorem readDone_ctl (c : Cfg) (r : CtlReg) (s : State) :
    (State.readDone c r s).ctl = s.ctl.shown r s.nextAnswer := rfl
@[simp] theorem readDone_dma (c : Cfg) (r : CtlReg) (s : State) :
    (State.readDone c r s).dma = s.dma := rfl
@[simp] theorem readDone_hist (c : Cfg) (r : CtlReg) (s : State) :
    (State.readDone c r s).hist = s.hist ++ [.regRead c.regBase r s.nextAnswer] := rfl
@[simp] theorem readDone_trace (c : Cfg) (r : CtlReg) (s : State) :
    (State.readDone c r s).trace = s.trace := rfl

/-! ## writeDone -/

@[simp] theorem writeDone_params (c : Cfg) (r : CtlReg) (v : Word) (s : State) :
    (State.writeDone c r v s).params = s.params := rfl
@[simp] theorem writeDone_cfg (c : Cfg) (r : CtlReg) (v : Word) (s : State) :
    (State.writeDone c r v s).cfg = s.cfg := rfl
@[simp] theorem writeDone_cfgValid (c : Cfg) (r : CtlReg) (v : Word) (s : State) :
    (State.writeDone c r v s).cfgValid = s.cfgValid := rfl
@[simp] theorem writeDone_busWidth (c : Cfg) (r : CtlReg) (v : Word) (s : State) :
    (State.writeDone c r v s).busWidth = s.busWidth := rfl
@[simp] theorem writeDone_clkDiv (c : Cfg) (r : CtlReg) (v : Word) (s : State) :
    (State.writeDone c r v s).clkDiv = s.clkDiv := rfl
@[simp] theorem writeDone_clkEnabled (c : Cfg) (r : CtlReg) (v : Word) (s : State) :
    (State.writeDone c r v s).clkEnabled = s.clkEnabled := rfl
@[simp] theorem writeDone_fsm (c : Cfg) (r : CtlReg) (v : Word) (s : State) :
    (State.writeDone c r v s).fsm = s.fsm := rfl
@[simp] theorem writeDone_halted (c : Cfg) (r : CtlReg) (v : Word) (s : State) :
    (State.writeDone c r v s).halted = s.halted := rfl
@[simp] theorem writeDone_reqCtl (c : Cfg) (r : CtlReg) (v : Word) (s : State) :
    (State.writeDone c r v s).reqCtl = s.reqCtl := rfl
@[simp] theorem writeDone_reqA (c : Cfg) (r : CtlReg) (v : Word) (s : State) :
    (State.writeDone c r v s).reqA = s.reqA := rfl
@[simp] theorem writeDone_reqB (c : Cfg) (r : CtlReg) (v : Word) (s : State) :
    (State.writeDone c r v s).reqB = s.reqB := rfl
@[simp] theorem writeDone_reqC (c : Cfg) (r : CtlReg) (v : Word) (s : State) :
    (State.writeDone c r v s).reqC = s.reqC := rfl
@[simp] theorem writeDone_cnt (c : Cfg) (r : CtlReg) (v : Word) (s : State) :
    (State.writeDone c r v s).cnt = s.cnt := rfl
@[simp] theorem writeDone_cmdWord (c : Cfg) (r : CtlReg) (v : Word) (s : State) :
    (State.writeDone c r v s).cmdWord = s.cmdWord := rfl
@[simp] theorem writeDone_cmdData (c : Cfg) (r : CtlReg) (v : Word) (s : State) :
    (State.writeDone c r v s).cmdData = s.cmdData := rfl
@[simp] theorem writeDone_pollCmdDone (c : Cfg) (r : CtlReg) (v : Word) (s : State) :
    (State.writeDone c r v s).pollCmdDone = s.pollCmdDone := rfl
@[simp] theorem writeDone_pollDto (c : Cfg) (r : CtlReg) (v : Word) (s : State) :
    (State.writeDone c r v s).pollDto = s.pollDto := rfl
@[simp] theorem writeDone_rspCount (c : Cfg) (r : CtlReg) (v : Word) (s : State) :
    (State.writeDone c r v s).rspCount = s.rspCount := rfl
@[simp] theorem writeDone_rspWords (c : Cfg) (r : CtlReg) (v : Word) (s : State) :
    (State.writeDone c r v s).rspWords = s.rspWords := rfl
@[simp] theorem writeDone_errStatus (c : Cfg) (r : CtlReg) (v : Word) (s : State) :
    (State.writeDone c r v s).errStatus = s.errStatus := rfl
@[simp] theorem writeDone_chainCount (c : Cfg) (r : CtlReg) (v : Word) (s : State) :
    (State.writeDone c r v s).chainCount = s.chainCount := rfl
@[simp] theorem writeDone_resp (c : Cfg) (r : CtlReg) (v : Word) (s : State) :
    (State.writeDone c r v s).resp = s.resp := rfl
@[simp] theorem writeDone_rst (c : Cfg) (r : CtlReg) (v : Word) (s : State) :
    (State.writeDone c r v s).rst = s.rst := rfl
@[simp] theorem writeDone_reqs (c : Cfg) (r : CtlReg) (v : Word) (s : State) :
    (State.writeDone c r v s).reqs = s.reqs := rfl
@[simp] theorem writeDone_cfgIn (c : Cfg) (r : CtlReg) (v : Word) (s : State) :
    (State.writeDone c r v s).cfgIn = s.cfgIn := rfl
@[simp] theorem writeDone_answers (c : Cfg) (r : CtlReg) (v : Word) (s : State) :
    (State.writeDone c r v s).answers = s.answers := rfl
@[simp] theorem writeDone_draws (c : Cfg) (r : CtlReg) (v : Word) (s : State) :
    (State.writeDone c r v s).draws = s.draws := rfl
@[simp] theorem writeDone_dmaData (c : Cfg) (r : CtlReg) (v : Word) (s : State) :
    (State.writeDone c r v s).dmaData = s.dmaData := rfl
@[simp] theorem writeDone_dmaDraws (c : Cfg) (r : CtlReg) (v : Word) (s : State) :
    (State.writeDone c r v s).dmaDraws = s.dmaDraws := rfl
@[simp] theorem writeDone_sched (c : Cfg) (r : CtlReg) (v : Word) (s : State) :
    (State.writeDone c r v s).sched = s.sched := rfl
@[simp] theorem writeDone_mem (c : Cfg) (r : CtlReg) (v : Word) (s : State) :
    (State.writeDone c r v s).mem = s.mem := rfl
@[simp] theorem writeDone_dirty (c : Cfg) (r : CtlReg) (v : Word) (s : State) :
    (State.writeDone c r v s).dirty = s.dirty := rfl
@[simp] theorem writeDone_ctl (c : Cfg) (r : CtlReg) (v : Word) (s : State) :
    (State.writeDone c r v s).ctl = s.ctl.perform (bit s.params.cmdBits.start) c.dmaCapable r v := rfl
@[simp] theorem writeDone_dma (c : Cfg) (r : CtlReg) (v : Word) (s : State) :
    (State.writeDone c r v s).dma = s.dma := rfl
@[simp] theorem writeDone_hist (c : Cfg) (r : CtlReg) (v : Word) (s : State) :
    (State.writeDone c r v s).hist = s.hist ++ [.regWrite c.regBase r v] := rfl
@[simp] theorem writeDone_trace (c : Cfg) (r : CtlReg) (v : Word) (s : State) :
    (State.writeDone c r v s).trace = s.trace := rfl

/-! ## cleanDone -/

@[simp] theorem cleanDone_params (a n : Nat) (s : State) :
    (State.cleanDone a n s).params = s.params := rfl
@[simp] theorem cleanDone_cfg (a n : Nat) (s : State) :
    (State.cleanDone a n s).cfg = s.cfg := rfl
@[simp] theorem cleanDone_cfgValid (a n : Nat) (s : State) :
    (State.cleanDone a n s).cfgValid = s.cfgValid := rfl
@[simp] theorem cleanDone_busWidth (a n : Nat) (s : State) :
    (State.cleanDone a n s).busWidth = s.busWidth := rfl
@[simp] theorem cleanDone_clkDiv (a n : Nat) (s : State) :
    (State.cleanDone a n s).clkDiv = s.clkDiv := rfl
@[simp] theorem cleanDone_clkEnabled (a n : Nat) (s : State) :
    (State.cleanDone a n s).clkEnabled = s.clkEnabled := rfl
@[simp] theorem cleanDone_fsm (a n : Nat) (s : State) :
    (State.cleanDone a n s).fsm = s.fsm := rfl
@[simp] theorem cleanDone_halted (a n : Nat) (s : State) :
    (State.cleanDone a n s).halted = s.halted := rfl
@[simp] theorem cleanDone_reqCtl (a n : Nat) (s : State) :
    (State.cleanDone a n s).reqCtl = s.reqCtl := rfl
@[simp] theorem cleanDone_reqA (a n : Nat) (s : State) :
    (State.cleanDone a n s).reqA = s.reqA := rfl
@[simp] theorem cleanDone_reqB (a n : Nat) (s : State) :
    (State.cleanDone a n s).reqB = s.reqB := rfl
@[simp] theorem cleanDone_reqC (a n : Nat) (s : State) :
    (State.cleanDone a n s).reqC = s.reqC := rfl
@[simp] theorem cleanDone_cnt (a n : Nat) (s : State) :
    (State.cleanDone a n s).cnt = s.cnt := rfl
@[simp] theorem cleanDone_cmdWord (a n : Nat) (s : State) :
    (State.cleanDone a n s).cmdWord = s.cmdWord := rfl
@[simp] theorem cleanDone_cmdData (a n : Nat) (s : State) :
    (State.cleanDone a n s).cmdData = s.cmdData := rfl
@[simp] theorem cleanDone_pollCmdDone (a n : Nat) (s : State) :
    (State.cleanDone a n s).pollCmdDone = s.pollCmdDone := rfl
@[simp] theorem cleanDone_pollDto (a n : Nat) (s : State) :
    (State.cleanDone a n s).pollDto = s.pollDto := rfl
@[simp] theorem cleanDone_rspCount (a n : Nat) (s : State) :
    (State.cleanDone a n s).rspCount = s.rspCount := rfl
@[simp] theorem cleanDone_rspWords (a n : Nat) (s : State) :
    (State.cleanDone a n s).rspWords = s.rspWords := rfl
@[simp] theorem cleanDone_errStatus (a n : Nat) (s : State) :
    (State.cleanDone a n s).errStatus = s.errStatus := rfl
@[simp] theorem cleanDone_chainCount (a n : Nat) (s : State) :
    (State.cleanDone a n s).chainCount = s.chainCount := rfl
@[simp] theorem cleanDone_resp (a n : Nat) (s : State) :
    (State.cleanDone a n s).resp = s.resp := rfl
@[simp] theorem cleanDone_rst (a n : Nat) (s : State) :
    (State.cleanDone a n s).rst = s.rst := rfl
@[simp] theorem cleanDone_reqs (a n : Nat) (s : State) :
    (State.cleanDone a n s).reqs = s.reqs := rfl
@[simp] theorem cleanDone_cfgIn (a n : Nat) (s : State) :
    (State.cleanDone a n s).cfgIn = s.cfgIn := rfl
@[simp] theorem cleanDone_answers (a n : Nat) (s : State) :
    (State.cleanDone a n s).answers = s.answers := rfl
@[simp] theorem cleanDone_draws (a n : Nat) (s : State) :
    (State.cleanDone a n s).draws = s.draws := rfl
@[simp] theorem cleanDone_dmaData (a n : Nat) (s : State) :
    (State.cleanDone a n s).dmaData = s.dmaData := rfl
@[simp] theorem cleanDone_dmaDraws (a n : Nat) (s : State) :
    (State.cleanDone a n s).dmaDraws = s.dmaDraws := rfl
@[simp] theorem cleanDone_sched (a n : Nat) (s : State) :
    (State.cleanDone a n s).sched = s.sched := rfl
@[simp] theorem cleanDone_mem (a n : Nat) (s : State) :
    (State.cleanDone a n s).mem = s.mem := rfl
@[simp] theorem cleanDone_dirty (a n : Nat) (s : State) :
    (State.cleanDone a n s).dirty = Dirty.clean s.dirty a n := rfl
@[simp] theorem cleanDone_ctl (a n : Nat) (s : State) :
    (State.cleanDone a n s).ctl = s.ctl := rfl
@[simp] theorem cleanDone_dma (a n : Nat) (s : State) :
    (State.cleanDone a n s).dma = s.dma := rfl
@[simp] theorem cleanDone_hist (a n : Nat) (s : State) :
    (State.cleanDone a n s).hist = s.hist ++ [.cacheClean a n] := rfl
@[simp] theorem cleanDone_trace (a n : Nat) (s : State) :
    (State.cleanDone a n s).trace = s.trace := rfl

/-! ## resetEvent -/

@[simp] theorem resetEvent_params (s : State) : (resetEvent s).params = s.params := rfl
@[simp] theorem resetEvent_cfg (s : State) : (resetEvent s).cfg = State.reset.cfg := rfl
@[simp] theorem resetEvent_cfgValid (s : State) : (resetEvent s).cfgValid = State.reset.cfgValid := rfl
@[simp] theorem resetEvent_busWidth (s : State) : (resetEvent s).busWidth = State.reset.busWidth := rfl
@[simp] theorem resetEvent_clkDiv (s : State) : (resetEvent s).clkDiv = State.reset.clkDiv := rfl
@[simp] theorem resetEvent_clkEnabled (s : State) : (resetEvent s).clkEnabled = State.reset.clkEnabled := rfl
@[simp] theorem resetEvent_fsm (s : State) : (resetEvent s).fsm = State.reset.fsm := rfl
@[simp] theorem resetEvent_halted (s : State) : (resetEvent s).halted = State.reset.halted := rfl
@[simp] theorem resetEvent_reqCtl (s : State) : (resetEvent s).reqCtl = State.reset.reqCtl := rfl
@[simp] theorem resetEvent_reqA (s : State) : (resetEvent s).reqA = State.reset.reqA := rfl
@[simp] theorem resetEvent_reqB (s : State) : (resetEvent s).reqB = State.reset.reqB := rfl
@[simp] theorem resetEvent_reqC (s : State) : (resetEvent s).reqC = State.reset.reqC := rfl
@[simp] theorem resetEvent_cnt (s : State) : (resetEvent s).cnt = State.reset.cnt := rfl
@[simp] theorem resetEvent_cmdWord (s : State) : (resetEvent s).cmdWord = State.reset.cmdWord := rfl
@[simp] theorem resetEvent_cmdData (s : State) : (resetEvent s).cmdData = State.reset.cmdData := rfl
@[simp] theorem resetEvent_pollCmdDone (s : State) : (resetEvent s).pollCmdDone = State.reset.pollCmdDone := rfl
@[simp] theorem resetEvent_pollDto (s : State) : (resetEvent s).pollDto = State.reset.pollDto := rfl
@[simp] theorem resetEvent_rspCount (s : State) : (resetEvent s).rspCount = State.reset.rspCount := rfl
@[simp] theorem resetEvent_rspWords (s : State) : (resetEvent s).rspWords = State.reset.rspWords := rfl
@[simp] theorem resetEvent_errStatus (s : State) : (resetEvent s).errStatus = State.reset.errStatus := rfl
@[simp] theorem resetEvent_chainCount (s : State) : (resetEvent s).chainCount = State.reset.chainCount := rfl
@[simp] theorem resetEvent_resp (s : State) : (resetEvent s).resp = State.reset.resp := rfl
@[simp] theorem resetEvent_rst (s : State) : (resetEvent s).rst = State.reset.rst := rfl
@[simp] theorem resetEvent_reqs (s : State) : (resetEvent s).reqs = s.reqs := rfl
@[simp] theorem resetEvent_cfgIn (s : State) : (resetEvent s).cfgIn = s.cfgIn := rfl
@[simp] theorem resetEvent_answers (s : State) : (resetEvent s).answers = s.answers := rfl
@[simp] theorem resetEvent_draws (s : State) : (resetEvent s).draws = s.draws := rfl
@[simp] theorem resetEvent_dmaData (s : State) : (resetEvent s).dmaData = s.dmaData := rfl
@[simp] theorem resetEvent_dmaDraws (s : State) : (resetEvent s).dmaDraws = s.dmaDraws := rfl
@[simp] theorem resetEvent_sched (s : State) : (resetEvent s).sched = s.sched := rfl
@[simp] theorem resetEvent_mem (s : State) : (resetEvent s).mem = s.mem := rfl
@[simp] theorem resetEvent_dirty (s : State) : (resetEvent s).dirty = s.dirty := rfl
@[simp] theorem resetEvent_ctl (s : State) : (resetEvent s).ctl = s.ctl := rfl
@[simp] theorem resetEvent_dma (s : State) : (resetEvent s).dma = s.dma := rfl
@[simp] theorem resetEvent_hist (s : State) : (resetEvent s).hist = s.hist := rfl
@[simp] theorem resetEvent_trace (s : State) : (resetEvent s).trace = s.trace ++ [.idle] := rfl

end Sys2Proof.Machine
end

