-- ==== Sys2Proof/Laws/Ops.lean ====
section
/-! SUPPORT. What each shared operation can do, for the provers to cite: sequencing, frames of the named
updates, the primitives when no reset is coming, and the three ways an operation ends. -/

namespace Sys2Proof.Machine

/-! ## Sequencing -/

section

variable {α β : Type}

@[simp] theorem bind_ok (a : α) (s : State) (f : α → State → Res β) : (Res.ok a s).bind f = f a s := rfl

@[simp] theorem bind_stop (e : Stop) (s : State) (f : α → State → Res β) :
    (Res.stop e s : Res α).bind f = .stop e s := rfl

@[simp] theorem andThen_ok (u : Unit) (s : State) (f : State → Res β) :
    (Res.ok u s).andThen f = f s := rfl

@[simp] theorem andThen_stop (e : Stop) (s : State) (f : State → Res β) :
    (Res.stop e s : Res Unit).andThen f = .stop e s := rfl

@[simp] theorem raiseIn_eq (e : Err) (s : State) : (raiseIn e s : Res α) = .stop (.raised e) s := rfl

/-- A sequence answers `ok` when both procedures do. -/
theorem bind_eq_ok {r : Res α} {f : α → State → Res β} {b : β} {u : State} :
    r.bind f = .ok b u ↔ ∃ a t, r = .ok a t ∧ f a t = .ok b u := by
  cases r <;> simp

/-- A sequence stops when one of its procedures does. -/
theorem bind_eq_stop {r : Res α} {f : α → State → Res β} {e : Stop} {u : State} :
    r.bind f = .stop e u ↔ r = .stop e u ∨ ∃ a t, r = .ok a t ∧ f a t = .stop e u := by
  cases r <;> simp

end

/-- The state a procedure leaves. -/
def Res.state {α : Type} : Res α → State
  | .ok _ s => s
  | .stop _ s => s

@[simp] theorem state_ok {α : Type} (a : α) (s : State) : (Res.ok a s).state = s := rfl
@[simp] theorem state_stop {α : Type} (e : Stop) (s : State) : (Res.stop e s : Res α).state = s := rfl

/-! ## Frames -/

theorem KeepsAllBut.refl (ps : List Part) (s : State) : KeepsAllBut ps s s := by
  intro p _; cases p <;> rfl

theorem Part.same_trans {p : Part} {s t u : State} (h : p.same s t) (g : p.same t u) : p.same s u := by
  cases p <;> exact g.trans h

theorem KeepsAllBut.trans {ps qs : List Part} {s t u : State} (h : KeepsAllBut ps s t)
    (g : KeepsAllBut qs t u) : KeepsAllBut (ps ++ qs) s u := fun p hp =>
  Part.same_trans (h p fun m => hp (List.mem_append_left _ m)) (g p fun m => hp (List.mem_append_right _ m))

theorem KeepsAllBut.mono {ps qs : List Part} {s t : State} (h : KeepsAllBut ps s t) (hs : ps ⊆ qs) :
    KeepsAllBut qs s t := fun p hp => h p fun m => hp (hs m)

theorem KeepsAllBut.trans_same {ps : List Part} {s t u : State} (h : KeepsAllBut ps s t)
    (g : KeepsAllBut ps t u) : KeepsAllBut ps s u := fun p hp => Part.same_trans (h p hp) (g p hp)

theorem setFsm_keeps (f : Fsm) (s : State) : KeepsAllBut [.fsm, .trace] s (s.setFsm f) := by
  intro p hp; cases p <;> first | rfl | simp at hp

theorem record_keeps (e : Event) (s : State) : KeepsAllBut [.hist] s (s.record e) := by
  intro p hp; cases p <;> first | rfl | simp at hp

theorem startCount_keeps (s : State) : KeepsAllBut [.cnt] s s.startCount := by
  intro p hp; cases p <;> first | rfl | simp at hp

theorem count_keeps (s : State) : KeepsAllBut [.cnt] s s.count := by
  intro p hp; cases p <;> first | rfl | simp at hp

theorem setCmdDone_keeps (v : Bool) (s : State) :
    KeepsAllBut [.pollCmdDone] s (s.setCmdDone v) := by
  intro p hp; cases p <;> first | rfl | simp at hp

theorem setDto_keeps (v : Bool) (s : State) :
    KeepsAllBut [.pollDto] s (s.setDto v) := by
  intro p hp; cases p <;> first | rfl | simp at hp

theorem setErrStatus_keeps (w : Word) (s : State) :
    KeepsAllBut [.errStatus] s (s.setErrStatus w) := by
  intro p hp; cases p <;> first | rfl | simp at hp

theorem setCommand_keeps (w : Word) (d : Bool) (s : State) :
    KeepsAllBut [.cmdWord, .cmdData] s (s.setCommand w d) := by
  intro p hp; cases p <;> first | rfl | simp at hp

theorem setResponse_keeps (n : RespCount) (ws : Vector (Latch Word) 4) (s : State) :
    KeepsAllBut [.rspCount, .rspWords] s (s.setResponse n ws) := by
  intro p hp; cases p <;> first | rfl | simp at hp

theorem setClkEnabled_keeps (v : Bool) (s : State) :
    KeepsAllBut [.clkEnabled] s (s.setClkEnabled v) := by
  intro p hp; cases p <;> first | rfl | simp at hp

theorem setClkDiv_keeps (d : BitVec 8) (s : State) :
    KeepsAllBut [.clkDiv] s (s.setClkDiv d) := by
  intro p hp; cases p <;> first | rfl | simp at hp

theorem setBusWidth_keeps (d : BitVec 4) (s : State) :
    KeepsAllBut [.busWidth] s (s.setBusWidth d) := by
  intro p hp; cases p <;> first | rfl | simp at hp

theorem setChainCount_keeps (n : Word) (s : State) :
    KeepsAllBut [.chainCount] s (s.setChainCount n) := by
  intro p hp; cases p <;> first | rfl | simp at hp

theorem setCfg_keeps (c : Cfg) (s : State) :
    KeepsAllBut [.cfg, .busWidth, .cfgValid] s (s.setCfg c) := by
  intro p hp; cases p <;> first | rfl | simp at hp

theorem engineFrom_keeps (d : Bool) (a : Nat) (s : State) :
    KeepsAllBut [.dmaCur, .dmaDirection] s (s.engineFrom d a) := by
  intro p hp; cases p <;> first | rfl | simp at hp

theorem joinBus_keeps (k : BusCommand) (s : State) :
    KeepsAllBut [.bus] s (s.joinBus k) := by
  intro p hp; cases p <;> first | rfl | simp at hp

theorem takeClock_keeps (g : CtlRegs) (s : State) :
    KeepsAllBut [.clock] s (s.takeClock g) := by
  intro p hp; cases p <;> first | rfl | simp at hp

theorem engineSend_keeps (b : Byte) (s : State) :
    KeepsAllBut [.dmaSent] s (s.engineSend b) := by
  intro p hp; cases p <;> first | rfl | simp at hp

theorem engineAt_keeps (cur : Option Nat) (s : State) :
    KeepsAllBut [.dmaCur] s (s.engineAt cur) := by
  intro p hp; cases p <;> first | rfl | simp at hp

theorem signalDone_keeps (s : State) :
    KeepsAllBut [.pending] s (s.signalDone) := by
  intro p hp; cases p <;> first | rfl | simp at hp

theorem drawn_keeps (s : State) : KeepsAllBut [.answers, .draws] s s.drawn := by
  intro p hp; cases p <;> first | rfl | simp at hp

theorem datumDrawn_keeps (s : State) : KeepsAllBut [.dmaData, .dmaDraws] s s.datumDrawn := by
  intro p hp; cases p <;> first | rfl | simp at hp

/-- What a register read may change: a read of RINTSTS shows the pending bits (10_state.md R71). -/
def shownParts : CtlReg → List Part
  | .rintsts => [.pending]
  | .ctrl | .pwren | .clkdiv | .clksrc | .clkena | .tmout | .ctype | .blksiz | .bytcnt | .intmask
  | .cmdarg | .cmd | .resp0 | .resp1 | .resp2 | .resp3 | .status | .fifoth | .bmod | .dbaddr | .fifo => []

/-- A register read changes the environment's answers, the history and, at RINTSTS, the pending bits shown. -/
theorem readDone_keeps (c : Cfg) (r : CtlReg) (s : State) :
    KeepsAllBut (.answers :: .draws :: .hist :: shownParts r) s (s.readDone c r) := by
  intro p hp
  cases p <;> first
    | rfl
    | (simp at hp; done)
    | (cases r <;> first | rfl | simp [shownParts] at hp)

/-- The controller's parts that a write to a register changes (20_memory.md R87). -/
def writeParts : CtlReg → List Part
  | .rintsts => [.pending]
  | .cmd => [.regCmd, .started]
  | .clkdiv => [.regClkdiv]
  | .clksrc => [.regClksrc]
  | .clkena => [.regClkena]
  | .ctype => [.regCtype]
  | .bytcnt => [.regBytcnt]
  | .cmdarg => [.regCmdarg]
  | .dbaddr => [.regDbaddr]
  | .ctrl | .pwren | .tmout | .blksiz | .intmask | .resp0 | .resp1 | .resp2 | .resp3 | .status
  | .fifoth | .bmod | .fifo => []

/-- A register write changes the history and what that register stands for in the controller. -/
theorem writeDone_keeps (c : Cfg) (r : CtlReg) (v : Word) (s : State) :
    KeepsAllBut (.hist :: writeParts r) s (s.writeDone c r v) := by
  intro p hp
  cases p <;> first
    | rfl
    | (simp at hp; done)
    | (cases r <;> first | rfl | simp [writeParts] at hp)

/-- A stored word changes memory and the record of uncleaned bytes. -/
theorem storeWord_keeps (a : Nat) (w : Word) (s : State) :
    KeepsAllBut [.mem, .dirty] s (s.storeWord a w) := by
  intro p hp
  cases p <;> first
    | (simp at hp; done)
    | simp [Part.same]

theorem cleanDone_keeps (a len : Nat) (s : State) :
    KeepsAllBut [.dirty, .hist] s (s.cleanDone a len) := by
  intro p hp; cases p <;> first | rfl | simp at hp

/-! ## Draws -/

/-- The next answer is the first of those still to come. -/
theorem nextAnswer_eq (s : State) : s.nextAnswer = drawAt s 0 := by
  unfold State.nextAnswer drawAt
  cases s.answers <;> rfl

/-- `t` stands `k` draws after `s`. -/
structure Drew (k : Nat) (s t : State) : Prop where
  answers : t.answers = s.answers.drop k
  draws : t.draws = s.draws + k

theorem Drew.refl (s : State) : Drew 0 s s := ⟨rfl, rfl⟩

theorem Drew.trans {j k : Nat} {s t u : State} (h : Drew j s t) (g : Drew k t u) : Drew (j + k) s u :=
  ⟨by rw [g.answers, h.answers, List.drop_drop], by rw [g.draws, h.draws, Nat.add_assoc]⟩

theorem Drew.drawn (s : State) : Drew 1 s s.drawn := ⟨by simp, by simp⟩

/-- The answers still to come after `k` draws. -/
theorem Drew.drawAt {k : Nat} {s t : State} (h : Drew k s t) (j : Nat) :
    drawAt t j = drawAt s (k + j) := by
  simp only [Machine.drawAt, h.answers, h.draws, List.getElem?_drop, Nat.add_assoc]

/-- The DMA engine's next value is the first of those still to come. -/
theorem nextDatum_eq (s : State) : s.nextDatum = datumAt s 0 := by
  unfold State.nextDatum datumAt
  cases s.dmaData <;> rfl

/-- `t` stands `k` draws of the DMA engine after `s`. -/
structure DrewData (k : Nat) (s t : State) : Prop where
  data : t.dmaData = s.dmaData.drop k
  draws : t.dmaDraws = s.dmaDraws + k

theorem DrewData.refl (s : State) : DrewData 0 s s := ⟨rfl, rfl⟩

theorem DrewData.trans {j k : Nat} {s t u : State} (h : DrewData j s t) (g : DrewData k t u) :
    DrewData (j + k) s u :=
  ⟨by rw [g.data, h.data, List.drop_drop], by rw [g.draws, h.draws, Nat.add_assoc]⟩

/-- The engine's values still to come after `k` draws. -/
theorem DrewData.datumAt {k : Nat} {s t : State} (h : DrewData k s t) (j : Nat) :
    datumAt t j = datumAt s (k + j) := by
  simp only [Machine.datumAt, h.data, h.draws, List.getElem?_drop, Nat.add_assoc]

theorem resetIn_keeps (n : Nat) (s : State) : KeepsAllBut [.rst] s (s.resetIn n) := by
  intro p hp; cases p <;> first | rfl | simp at hp

/-! ## The primitives -/

/-- Everything a tick can do. -/
theorem tick_cases (s : State) :
    (s.rst = none ∧ tick s = .ok () s) ∨ (s.rst = some 0 ∧ tick s = .stop .reset s) ∨
    ∃ n, s.rst = some (n + 1) ∧ tick s = .ok () (s.resetIn n) := by
  unfold tick
  split
  · exact .inl ⟨by assumption, rfl⟩
  · exact .inr (.inl ⟨by assumption, rfl⟩)
  · exact .inr (.inr ⟨_, by assumption, rfl⟩)

section

variable {s : State} (h : s.rst = none)
include h

theorem tick_none : tick s = .ok () s := by simp [tick, h]

theorem regRead_none (c : Cfg) (r : CtlReg) : regRead c r s = .ok (drawAt s 0) (s.readDone c r) := by
  simp [regRead, tick_none h, nextAnswer_eq]

theorem regWrite_none (c : Cfg) (r : CtlReg) (v : Word) :
    regWrite c r v s = .ok () (s.writeDone c r v) := by
  simp [regWrite, tick_none h]

theorem memWrite_none (a : Nat) (w : Word) :
    memWrite a w s = .ok () ((s.storeWord a w).record (.memWrite a 4 w)) := by
  simp [memWrite, tick_none h]

theorem barrier_none : barrier s = .ok () (s.record .barrier) := by
  simp [barrier, tick_none h]

theorem cacheClean_none (a len : Nat) : cacheClean a len s = .ok () (s.cleanDone a len) := by
  simp [cacheClean, tick_none h]

theorem delay_none : delay s = .ok () (s.record (.delay s.params.pollDelay)) := by
  simp [delay, tick_none h]

end

/-! ## The response port, and how an operation ends -/

/-- Words that are known stay known while the response latches do not change. -/
theorem ResponseKnown.of {s t : State} (h : ResponseKnown s) (hc : t.rspCount = s.rspCount)
    (hw : t.rspWords = s.rspWords) : ResponseKnown t := fun k hk => by
  rw [hw]; exact h k (by rw [← hc]; exact hk)

theorem portWord_known {s : State} (h : ResponseKnown s) (k : Fin 4) :
    portWord s k = some (if k.val < s.rspCount.toNat then (s.rspWords[k]).val else 0) := by
  unfold portWord
  by_cases hk : k.val < s.rspCount.toNat
  · simp only [hk, if_true]
    have := h k hk
    simp only [Latch.read?, this, if_true]
  · simp [hk]

/-- The port can be driven when the words below the count are known. -/
theorem portWords_known {s : State} (h : ResponseKnown s) : portWords s = some (drivenWords s) := by
  simp only [portWords, portWord_known h, drivenWords]
  rfl

/-- Unless `rst` is asserted an operation ends as it would. -/
theorem unlessReset_pos {s : State} (h : s.rst ≠ some 0) (o : Out) : unlessReset s o = o := if_neg h

/-- With `rst` asserted an operation that is about to end is abandoned (70_reset_and_hazards.md R450). -/
theorem unlessReset_zero {s : State} (h : s.rst = some 0) (o : Out) : unlessReset s o = .next (resetEvent s) :=
  if_pos h

theorem finish_reset {s : State} (h : s.rst = some 0) (value : DWord) :
    finish value s = .next (resetEvent s) := unlessReset_zero h _

theorem raiseError_reset {s : State} (h : s.rst = some 0) (e : Err) :
    raiseError e s = .next (resetEvent s) := unlessReset_zero h _

/-- `finish`, when the port can be driven and `rst` is not asserted. -/
theorem finish_known {s : State} (h : ResponseKnown s) (hr : s.rst ≠ some 0) (value : DWord) :
    finish value s = .next (answered .ok value 0 s) := by
  have h' : ResponseKnown (s.setFsm .idle) := h
  rw [finish, unlessReset_pos hr]
  simp only [respond, portWords_known h']
  rfl

/-- `raise FATAL_TIMEOUT`, when the port can be driven and `rst` is not asserted. -/
theorem raiseError_fatal {s : State} (h : ResponseKnown s) (hr : s.rst ≠ some 0) :
    raiseError .fatalTimeout s = .next (halts s) := by
  have h' : ResponseKnown { s.setFsm .halted with halted := true } := h
  simp only [raiseError, unlessReset_pos hr, respond, portWords_known h']
  rfl

/-- `raise` of any other error, when the port can be driven and `rst` is not asserted. -/
theorem raiseError_known {s : State} (h : ResponseKnown s) (hr : s.rst ≠ some 0) {e : Err}
    (he : e ≠ .fatalTimeout) :
    raiseError e s = .next (answered e.code (e.value.setWidth 64) e.status s) := by
  have h' : ResponseKnown (s.setFsm .idle) := h
  cases e with
  | fatalTimeout => exact absurd rfl he
  | _ => simp only [raiseError, unlessReset_pos hr, respond, portWords_known h']; rfl

@[simp] theorem endOp_ok (v : DWord) (s : State) : endOp (.ok v s) = finish v s := rfl
@[simp] theorem endOp_raised (e : Err) (s : State) : endOp (.stop (.raised e) s) = raiseError e s := rfl
@[simp] theorem endOp_reset (s : State) : endOp (.stop .reset s) = .next (resetEvent s) := rfl

theorem answered_keeps (code : ResultCode) (value : DWord) (status : Word) (s : State) :
    KeepsAllBut [.fsm, .resp, .trace] s (answered code value status s) := by
  intro p hp; cases p <;> first | rfl | simp at hp

theorem halts_keeps (s : State) : KeepsAllBut [.fsm, .halted, .resp, .trace] s (halts s) := by
  intro p hp; cases p <;> first | rfl | simp at hp

/-! ## Operands -/

section

variable {s : State} {f : DWord → Out} {x : DWord}

theorem withA_holds (h : s.reqA = .holds x) : withA s f = f x := by simp [withA, h]
theorem withB_holds (h : s.reqB = .holds x) : withB s f = f x := by simp [withB, h]
theorem withC_holds (h : s.reqC = .holds x) : withC s f = f x := by simp [withC, h]

end

theorem withCfg_ready {c : Cfg} {s : State} (h : Ready c s) (f : Cfg → Out) : withCfg s f = f c := by
  simp [withCfg, h.valid, h.config]

/-- Before INIT (44_facade_transfer.md R358). -/
theorem withCfg_invalid {s : State} (h : s.cfgValid = false) (f : Cfg → Out) :
    withCfg s f = raiseError .configError s := by
  simp [withCfg, h]

theorem inExec_ready {c : Cfg} {s : State} (h : Ready c s) (f : Cfg → State → Out) :
    inExec s f = f c (s.setFsm .exec) := withCfg_ready h _

theorem inExec_invalid {s : State} (h : s.cfgValid = false) (f : Cfg → State → Out) :
    inExec s f = raiseError .configError s := withCfg_invalid h _

/-- A block that is ready is so in EXEC. -/
theorem Ready.inExec {c : Cfg} {s : State} (h : Ready c s) : Ready c (s.setFsm .exec) :=
  ⟨h.noReset, h.valid, h.config, h.response⟩

theorem Ready.going {c : Cfg} {s : State} (h : Ready c s) : s.rst ≠ some 0 := by rw [h.noReset]; simp

end Sys2Proof.Machine
end

