-- ==== Sys2Proof/Laws/Environment.lean ====
section
/-! SUPPORT. What the controller and the DMA engine can do. -/

namespace Sys2Proof.Machine

/-! ## The controller -/

theorem takeStarted_keeps (rest : List Started) (s : State) : KeepsAllBut [.started] s (takeStarted rest s) := by
  intro p hp; cases p <;> first | rfl | simp at hp

/-- The engine starts at the base the controller was given, or at one it draws. -/
theorem startEngine_keeps (d : Bool) (base : Latch Word) (s : State) :
    KeepsAllBut [.dmaCur, .dmaDirection, .dmaData, .dmaDraws] s (startEngine d base s) := by
  unfold startEngine
  split
  · exact (engineFrom_keeps d _ s).mono (by decide)
  · exact ((datumDrawn_keeps s).trans (engineFrom_keeps d _ _)).mono (by decide)

/-- What a transaction may change. -/
def triggerParts : List Part := [.bus, .dmaCur, .dmaDirection, .dmaData, .dmaDraws]

/-- A transaction is triggered (00_scope.md R16). -/
theorem triggered_keeps (w : Word) (k : Started) (s : State) :
    KeepsAllBut triggerParts s (triggered w k s) := by
  have k1 := joinBus_keeps ⟨w, k.regs.cmdarg⟩ s
  simp only [triggered]
  split
  · exact (k1.trans (startEngine_keeps _ _ _)).mono (by decide)
  · exact k1.mono (by decide)

@[simp] theorem startEngine_bus (d : Bool) (base : Latch Word) (s : State) :
    (startEngine d base s).ctl.bus = s.ctl.bus := startEngine_keeps d base s .bus (by decide)

/-- A transaction joins the bus record. -/
theorem triggered_bus (w : Word) (k : Started) (s : State) :
    (triggered w k s).ctl.bus = s.ctl.bus ++ [⟨w, k.regs.cmdarg⟩] := by
  simp only [triggered]
  split <;> simp

/-- A started command is carried out. -/
theorem carryOut_next (cls : CmdClass) (idx : Nat) (shape : Shape) (s : State) :
    ∃ t, carryOut cls idx shape s = .next t ∧
      KeepsAllBut [.started, .bus, .dmaCur, .dmaDirection, .dmaData, .dmaDraws] s t := by
  unfold carryOut
  split
  · exact ⟨s, rfl, .refl _ _⟩
  · exact ⟨_, rfl, (takeStarted_keeps _ s).trans (triggered_keeps _ _ _)⟩

/-- The clock registers are taken up (20_memory.md R87). -/
theorem execCmdwHs_next (s : State) : ∃ t, execCmdwHs s = .next t ∧ KeepsAllBut [.started, .clock] s t := by
  unfold execCmdwHs
  split
  · exact ⟨s, rfl, .refl _ _⟩
  · exact ⟨_, rfl, (takeStarted_keeps _ s).trans (takeClock_keeps _ _)⟩

/-! ## The controller carries out all that was started -/

/-- What carrying one command out may change. -/
theorem carryOne_keeps (k : Started) (s : State) : KeepsAllBut (.clock :: triggerParts) s (carryOne k s) := by
  unfold carryOne
  split
  · exact (takeClock_keeps _ s).mono (by decide)
  · exact (triggered_keeps _ _ s).mono (by decide)

theorem carryAll_keeps (ks : List Started) : ∀ s, KeepsAllBut (.clock :: triggerParts) s (carryAll ks s) := by
  induction ks with
  | nil => exact fun s => .refl _ _
  | cons k rest ih => exact fun s => (carryOne_keeps k s).trans_same (ih _)

/-- The last command started is carried out last. -/
theorem carryAll_last (ks : List Started) (k : Started) : ∀ s, carryAll (ks ++ [k]) s = carryOne k (carryAll ks s) := by
  induction ks with
  | nil => exact fun _ => rfl
  | cons j rest ih => exact fun s => ih _

/-- Everything the controller can do while the block waits for it. -/
theorem carriedOut_keeps (s : State) : KeepsAllBut carriedParts s s.carriedOut :=
  ((takeStarted_keeps [] s).trans (carryAll_keeps _ _)).mono (by decide)

@[simp] theorem carriedOut_started (s : State) : s.carriedOut.ctl.started = [] :=
  carryAll_keeps s.ctl.started (takeStarted [] s) .started (by decide)

/-- When the last word started is a clock update, its registers are those taken up. -/
theorem carriedOut_clock {s : State} {ks : List Started} {k : Started} (h : s.ctl.started = ks ++ [k])
    (hk : k.word = hsWord s.params.cmdBits) :
    s.carriedOut.ctl.clock = ⟨k.regs.clkdiv, k.regs.clksrc, k.regs.clkena⟩ := by
  have p : (carryAll ks (takeStarted [] s)).params = s.params := carryAll_keeps ks _ .params (by decide)
  rw [State.carriedOut, h, carryAll_last, carryOne, if_pos (by rw [p]; exact hk)]
  rfl

/-- When the last word started is a command, its transaction is the last on the bus. -/
theorem carriedOut_bus {s : State} {ks : List Started} {k : Started} (h : s.ctl.started = ks ++ [k])
    (hk : k.word ≠ hsWord s.params.cmdBits) :
    ∃ bs, s.carriedOut.ctl.bus = bs ++ [⟨k.word, k.regs.cmdarg⟩] := by
  have p : (carryAll ks (takeStarted [] s)).params = s.params := carryAll_keeps ks _ .params (by decide)
  rw [State.carriedOut, h, carryAll_last, carryOne, if_neg (by rw [p]; exact hk)]
  exact ⟨_, triggered_bus _ _ _⟩

/-! ## The DMA engine's reads -/

theorem readByte_keeps (a : Nat) (s : State) : KeepsAllBut [.answers, .draws] s (readByte a s).2 := by
  unfold readByte
  split
  · exact .refl _ _
  · exact drawn_keeps s

theorem engineByte_keeps (a : Nat) (s : State) : KeepsAllBut [.dmaData, .dmaDraws] s (engineByte a s).2 := by
  unfold engineByte
  split
  · exact datumDrawn_keeps s
  · split
    · exact .refl _ _
    · exact datumDrawn_keeps s

theorem engineWord_keeps (a : Nat) (s : State) : KeepsAllBut [.dmaData, .dmaDraws] s (engineWord a s).2 :=
  (((engineByte_keeps a s).trans_same (engineByte_keeps _ _)).trans_same (engineByte_keeps _ _)).trans_same
    (engineByte_keeps _ _)

/-- The engine reads a cleaned byte as it was last written (20_memory.md R97). -/
theorem engineByte_sees {s : State} {a : Nat} {b : Byte} (h : engineSees s a b) : engineByte a s = (b, s) := by
  rw [engineByte, if_neg (by rw [h.2]; simp), h.1]

/-- The engine reads a cleaned word as it was last written. -/
theorem engineWord_sees {s : State} {a : Nat} {w : Word} (h : engineSeesWord s a w) :
    engineWord a s = (w, s) := by
  have h0 := engineByte_sees (h 0 (by omega))
  have h1 := engineByte_sees (h 1 (by omega))
  have h2 := engineByte_sees (h 2 (by omega))
  have h3 := engineByte_sees (h 3 (by omega))
  rw [Nat.add_zero] at h0
  simp only [engineWord, h0, h1, h2, h3, wordOf_byteOf]

/-! ## The DMA engine's transfers -/

theorem engineStore_keeps (a : Nat) (b : Byte) (s : State) : KeepsAllBut [.mem] s (s.engineStore a b) := by
  intro p hp; cases p <;> first | rfl | simp at hp

/-- A byte the CPU side has not cleaned keeps its value (20_memory.md R97; log 20). -/
theorem engineStore_kept {a : Nat} {s : State} (h : s.dirty.contains a = true) (b : Byte) :
    (s.engineStore a b).mem = s.mem := by simp only [State.engineStore, h, if_true]

/-- Any other byte takes the engine's. -/
theorem engineStore_clean {a : Nat} {s : State} (h : s.dirty.contains a = false) (b : Byte) :
    (s.engineStore a b).mem = s.mem.write a b := by
  simp only [State.engineStore, h, Bool.false_eq_true, if_false]

theorem engineStore_read_other (a : Nat) (b : Byte) (s : State) {x : Nat} (h : x ≠ a) :
    (s.engineStore a b).mem.read? x = s.mem.read? x := by
  simp only [State.engineStore]
  split
  · rfl
  · exact Memory.read_write_other _ _ h

theorem engineStore_wf {s : State} (h : s.mem.wf) (a : Nat) (b : Byte) : (s.engineStore a b).mem.wf := by
  simp only [State.engineStore]
  split
  · exact h
  · exact Memory.write_wf h _ _

/-- A read transfer: the device's bytes land at `a` on, but for those the CPU side holds, and no other byte
changes. -/
theorem receiveBytes_does (n : Nat) : ∀ (a : Nat) (s : State),
    KeepsAllBut [.mem, .dmaData, .dmaDraws] s (receiveBytes a n s) ∧
    DrewData n s (receiveBytes a n s) ∧
    (∀ k, k < n → s.dirty.contains (a + k) = false →
      (receiveBytes a n s).mem.read? (a + k) = some (byteOf (datumAt s k) 0)) ∧
    (∀ x, (x < a ∨ a + n ≤ x ∨ s.dirty.contains x = true) →
      (receiveBytes a n s).mem.read? x = s.mem.read? x) ∧
    (s.mem.wf → (receiveBytes a n s).mem.wf) := by
  induction n with
  | zero =>
    exact fun a s => ⟨.refl _ _, .refl _, fun k hk => absurd hk (Nat.not_lt_zero _), fun _ _ => rfl, id⟩
  | succ n ih =>
    intro a s
    have k1 := ((datumDrawn_keeps s).trans
      (engineStore_keeps a (byteOf s.nextDatum 0) s.datumDrawn)).mono (qs := [.mem, .dmaData, .dmaDraws])
      (by decide)
    have d1 : DrewData 1 s (s.datumDrawn.engineStore a (byteOf s.nextDatum 0)) :=
      ⟨by simp [State.engineStore], by simp [State.engineStore]⟩
    obtain ⟨g1, g2, g3, g4, g5⟩ := ih (a + 1) (s.datumDrawn.engineStore a (byteOf s.nextDatum 0))
    have hd : (s.datumDrawn.engineStore a (byteOf s.nextDatum 0)).dirty = s.dirty := rfl
    rw [hd] at g3 g4
    refine ⟨k1.trans_same g1, ?_, fun k hk hc => ?_, fun x hx => ?_,
      fun hw => g5 (engineStore_wf (by simpa using hw) _ _)⟩
    · have := d1.trans g2
      rwa [Nat.add_comm 1 n] at this
    · cases k with
      | zero =>
        rw [Nat.add_zero] at hc
        rw [receiveBytes, g4 _ (by omega), engineStore_clean (by exact hc)]
        simp [nextDatum_eq]
      | succ k =>
        have := g3 k (by omega) (by rw [show a + 1 + k = a + (k + 1) by omega]; exact hc)
        rw [d1.datumAt] at this
        rw [receiveBytes, show a + (k + 1) = a + 1 + k by omega, this, Nat.add_comm]
    · have hx' : x < a + 1 ∨ a + 1 + n ≤ x ∨ s.dirty.contains x = true := by
        rcases hx with h | h | h
        · left; omega
        · right; left; omega
        · exact .inr (.inr h)
      rw [receiveBytes, g4 _ hx']
      by_cases he : x = a
      · subst he
        have hc : s.datumDrawn.dirty.contains x = true := by
          rcases hx with h | h | h
          · omega
          · omega
          · exact h
        rw [engineStore_kept hc]; simp
      · rw [engineStore_read_other _ _ _ he]; simp

/-- A write transfer changes no memory. -/
theorem sendBytes_keeps (n : Nat) : ∀ (a : Nat) (s : State),
    KeepsAllBut [.dmaData, .dmaDraws, .dmaSent] s (sendBytes a n s) := by
  induction n with
  | zero => exact fun _ _ => .refl _ _
  | succ n ih =>
    intro a s
    exact (((engineByte_keeps a s).trans (engineSend_keeps _ _)).mono (by decide)).trans_same (ih _ _)

/-- A write transfer of cleaned bytes sends them, in order. -/
theorem sendBytes_sees (bytes : List Byte) : ∀ (a : Nat) (s : State),
    (∀ k (h : k < bytes.length), engineSees s (a + k) bytes[k]) →
    KeepsAllBut [.dmaSent] s (sendBytes a bytes.length s) ∧
      (sendBytes a bytes.length s).dma.sent = s.dma.sent ++ bytes := by
  induction bytes with
  | nil => intro a s _; exact ⟨.refl _ _, by simp [sendBytes]⟩
  | cons b rest ih =>
    intro a s h
    have h0 := engineByte_sees (h 0 (by simp))
    rw [Nat.add_zero] at h0
    obtain ⟨g1, g2⟩ := ih (a + 1) (s.engineSend b) fun k hk => by
      have := h (k + 1) (by simp; omega)
      rw [show a + (k + 1) = a + 1 + k by omega] at this
      exact this
    simp only [List.length_cons, sendBytes, h0]
    refine ⟨(engineSend_keeps b s).trans_same g1, ?_⟩
    simp only [List.getElem_cons_zero]
    rw [g2]; simp [State.engineSend]

theorem releaseDescriptor_keeps (a : Nat) (s : State) :
    KeepsAllBut [.dmaData, .dmaDraws, .mem] s (releaseDescriptor a s) :=
  (datumDrawn_keeps s).trans (engineStore_keeps _ _ _)

/-- Only the byte that holds OWN changes. -/
theorem releaseDescriptor_read (a : Nat) (s : State) {x : Nat} (h : x ≠ a + 3) :
    (releaseDescriptor a s).mem.read? x = s.mem.read? x := by
  rw [releaseDescriptor, engineStore_read_other _ _ _ h]; simp

/-- The engine's transfer of a segment, in either direction. -/
theorem segment_does (a n : Nat) (s : State) :
    KeepsAllBut [.mem, .dmaData, .dmaDraws, .dmaSent] s
      (if s.dma.toDevice then sendBytes a n s else receiveBytes a n s) ∧
    MemoryKeptOutsideAll (if s.dma.toDevice then [] else [(a, n)]) s
      (if s.dma.toDevice then sendBytes a n s else receiveBytes a n s) ∧
    (s.mem.wf → (if s.dma.toDevice then sendBytes a n s else receiveBytes a n s).mem.wf) := by
  split
  · have m : (sendBytes a n s).mem = s.mem := sendBytes_keeps n a s .mem (by decide)
    exact ⟨(sendBytes_keeps n a s).mono (by decide), fun x _ => by rw [m], fun h => by rw [m]; exact h⟩
  · obtain ⟨g1, -, -, g4, g5⟩ := receiveBytes_does n a s
    exact ⟨g1.mono (by decide), fun x hx => g4 x ((hx _ (List.mem_singleton.mpr rfl)).imp_right .inl), g5⟩

/-- A descriptor is used (00_scope.md R16). -/
theorem useDescriptor_does (chained : Bool) (a : Nat) (s : State) :
    KeepsAllBut transferParts s (useDescriptor chained a s) ∧
    MemoryKeptOutsideAll (descriptorStores a s) s (useDescriptor chained a s) ∧
    (s.mem.wf → (useDescriptor chained a s).mem.wf) ∧
    (chained = false → (useDescriptor chained a s).dma.cur = none) := by
  unfold useDescriptor descriptorStores
  have k1 := engineWord_keeps (a + 4) s
  generalize engineWord (a + 4) s = p1 at k1 ⊢
  obtain ⟨des1, s1⟩ := p1
  have k2 := engineWord_keeps (a + 8) s1
  dsimp only at k1 k2 ⊢
  generalize engineWord (a + 8) s1 = p2 at k2 ⊢
  obtain ⟨des2, s2⟩ := p2
  have k3 := engineWord_keeps (a + 12) s2
  dsimp only at k2 k3 ⊢
  generalize engineWord (a + 12) s2 = p3 at k3 ⊢
  obtain ⟨des3, s3⟩ := p3
  obtain ⟨k4, m4, w4⟩ := segment_does des2.toNat (desLength des1) s3
  dsimp only at k3 k4 m4 w4 ⊢
  rw [show s3.dma.toDevice = s2.dma.toDevice from k3 .dmaDirection (by decide)] at k4 m4 w4 ⊢
  generalize (if s2.dma.toDevice then sendBytes des2.toNat (desLength des1) s3
    else receiveBytes des2.toNat (desLength des1) s3) = s4 at k4 m4 w4 ⊢
  have m3 : s3.mem = s.mem := ((k1.trans_same k2).trans_same k3) .mem (by decide)
  have k5 := (((k1.trans_same k2).trans_same k3).trans k4).trans (releaseDescriptor_keeps a s4)
  refine ⟨(k5.trans (engineAt_keeps _ _)).mono (by decide), fun x hx => ?_, fun h => ?_, ?_⟩
  · have h3 : x ≠ a + 3 := by have := hx (a + 3, 1) (by simp); dsimp only at this; omega
    show (releaseDescriptor a s4).mem.read? x = _
    rw [releaseDescriptor_read a s4 h3, m4 x fun r hr => hx r (List.mem_cons_of_mem _ hr), m3]
  · show (releaseDescriptor a s4).mem.wf
    rw [releaseDescriptor]
    exact engineStore_wf (by rw [datumDrawn_mem]; exact w4 (by rw [m3]; exact h)) _ _
  · rintro rfl
    rw [engineAt_dma]; rfl

/-- A descriptor is consumed: the outcome is always a next state. -/
theorem consume_next (chained : Bool) (s : State) :
    ∃ t, consume chained s = .next t ∧
      KeepsAllBut ((if chained then [] else [.pending]) ++ transferParts) s t ∧ (s.mem.wf → t.mem.wf) := by
  unfold consume
  split
  · exact ⟨s, rfl, .refl _ _, id⟩
  · rename_i a _
    obtain ⟨k, -, w, -⟩ := useDescriptor_does chained a s
    generalize useDescriptor chained a s = t at k w ⊢
    cases chained with
    | true => exact ⟨t, rfl, k, w⟩
    | false => exact ⟨t.signalDone, rfl, (k.trans (signalDone_keeps _)).mono (by decide), w⟩

/-- The engine runs on to the end of its chain, and stops. -/
theorem runEngine_does (n : Nat) : ∀ s,
    KeepsAllBut transferParts s (runEngine n s) ∧ MemoryKeptOutsideAll (runStores n s) s (runEngine n s) ∧
    (s.mem.wf → (runEngine n s).mem.wf) ∧ (runEngine n s).dma.cur = none := by
  induction n with
  | zero => exact fun s => ⟨(engineAt_keeps none s).mono (by decide), fun _ _ => rfl, id, rfl⟩
  | succ n ih =>
    intro s
    cases hc : s.dma.cur with
    | none =>
      simp only [runEngine, runStores, hc]
      exact ⟨.refl _ _, fun _ _ => rfl, id, trivial⟩
    | some a =>
      simp only [runEngine, runStores, hc]
      have k0 := engineWord_keeps a s
      generalize engineWord a s = p0 at k0 ⊢
      obtain ⟨w, u⟩ := p0
      dsimp only at k0 ⊢
      have m0 : u.mem = s.mem := k0 .mem (by decide)
      have k0' := k0.mono (qs := transferParts) (by decide)
      rcases chainsOn w with _ | _ | _
      rotate_right
      all_goals dsimp only
      · obtain ⟨k1, m1, w1, -⟩ := useDescriptor_does true a u
        obtain ⟨k2, m2, w2, c2⟩ := ih (useDescriptor true a u)
        refine ⟨(k0'.trans_same k1).trans_same k2, fun x hx => ?_, fun h => w2 (w1 (by rw [m0]; exact h)), c2⟩
        rw [m2 x fun r hr => hx r (List.mem_append_right _ hr),
          m1 x fun r hr => hx r (List.mem_append_left _ hr), m0]
      · exact ⟨k0'.trans_same ((engineAt_keeps none u).mono (by decide)),
          fun x _ => by rw [engineAt_mem, m0], fun h => by rw [engineAt_mem, m0]; exact h,
          by rw [engineAt_dma]⟩
      · obtain ⟨k1, m1, w1, c1⟩ := useDescriptor_does false a u
        exact ⟨k0'.trans_same k1, fun x hx => by rw [m1 x hx, m0], fun h => w1 (by rw [m0]; exact h), c1 rfl⟩

/-- The environment while the block has waited for the completion of a command (log 33). -/
theorem commandOver_keeps (c : Cfg) (data : Bool) (s : State) :
    KeepsAllBut (if data && c.dmaCapable then besideParts else carriedParts) s (commandOver c data s) := by
  unfold commandOver
  split
  · exact (carriedOut_keeps s).trans (runEngine_does _ _).1
  · exact carriedOut_keeps s

theorem commandOver_beside (c : Cfg) (data : Bool) (s : State) :
    KeepsAllBut besideParts s (commandOver c data s) := by
  refine (commandOver_keeps c data s).mono ?_
  split
  · exact List.Subset.refl _
  · decide

theorem commandOver_wf (c : Cfg) (data : Bool) {s : State} (h : s.mem.wf) : (commandOver c data s).mem.wf := by
  have m : s.carriedOut.mem = s.mem := carriedOut_keeps s .mem (by decide)
  unfold commandOver
  split
  · exact (runEngine_does _ _).2.2.1 (by rw [m]; exact h)
  · rw [m]; exact h

@[simp] theorem commandOver_started (c : Cfg) (data : Bool) (s : State) :
    (commandOver c data s).ctl.started = [] := by
  unfold commandOver
  split
  · exact ((runEngine_does _ s.carriedOut).1 .started (by decide)).trans (carriedOut_started s)
  · exact carriedOut_started s

/-- A command that moves no data by DMA leaves memory and what the engine has sent alone. -/
theorem commandOver_noData (c : Cfg) {data : Bool} {s : State} (h : (data && c.dmaCapable) = false) :
    KeepsAllBut carriedParts s (commandOver c data s) := by
  have := commandOver_keeps c data s
  rwa [h] at this

/-- After a transfer by DMA the engine is at rest. -/
theorem commandOver_cur (c : Cfg) {data : Bool} {s : State} (h : (data && c.dmaCapable) = true) :
    (commandOver c data s).dma.cur = none := by
  rw [commandOver, if_pos h]
  exact (runEngine_does _ _).2.2.2

/-- What every instruction of the controller and of the engine can do. -/
theorem exec_environment {i : Instr} (h : i.agent ≠ .block) (s : State) :
    ∃ t, exec i s = .next t ∧ KeepsAllBut (frameParts i) s t ∧ (s.mem.wf → t.mem.wf) := by
  have bus : ∀ cls idx shape, ∃ t, carryOut cls idx shape s = .next t ∧
      KeepsAllBut [.started, .bus, .dmaCur, .dmaDirection, .dmaData, .dmaDraws] s t ∧
      (s.mem.wf → t.mem.wf) := by
    intro cls idx shape
    obtain ⟨t, e, k⟩ := carryOut_next cls idx shape s
    exact ⟨t, e, k, fun g => by rw [show t.mem = s.mem from k .mem (by decide)]; exact g⟩
  cases i with
  | init => exact absurd rfl h
  | encode idx shape => exact absurd rfl h
  | sendcmd idx shape dir => exact absurd rfl h
  | classify => exact absurd rfl h
  | extract => exact absurd rfl h
  | updclk => exact absurd rfl h
  | setclk => exact absurd rfl h
  | setwidth => exact absurd rfl h
  | cfgbus => exact absurd rfl h
  | build => exact absurd rfl h
  | prepare => exact absurd rfl h
  | read => exact absurd rfl h
  | write => exact absurd rfl h
  | cmdwInit idx shape => exact bus .init idx shape
  | cmdwStop idx shape => exact bus .stop idx shape
  | cmdwStatus idx shape => exact bus .status idx shape
  | cmdwRead idx shape => exact bus .read idx shape
  | cmdwWrite idx shape => exact bus .write idx shape
  | cmdwOther idx shape => exact bus .other idx shape
  | cmdwHs =>
    obtain ⟨t, e, k⟩ := execCmdwHs_next s
    exact ⟨t, e, k, fun g => by rw [show t.mem = s.mem from k .mem (by decide)]; exact g⟩
  | des0First => exact consume_next true s
  | des0Middle => exact consume_next true s
  | des0Last => exact consume_next false s
  | des0Single => exact consume_next false s

end Sys2Proof.Machine
end

