-- ==== Sys2Proof/Laws/Does.lean ====
section
/-! SUPPORT. Everything a procedure of the block can do, whatever the answers and whenever a reset comes: one
lemma per procedure. -/

namespace Sys2Proof.Machine

variable {L : Prop}

/-! ## The moves procedures are made of -/

/-- What an update of latches alone may change. -/
def latchParts : List Part :=
  [.fsm, .trace, .cnt, .cmdWord, .cmdData, .pollCmdDone, .pollDto, .rspCount, .rspWords, .errStatus,
   .chainCount, .clkDiv, .clkEnabled, .busWidth]

/-- One move of a procedure: an event, an update of latches that keeps what is known of them, or what the
environment does while the block waits for it (log 33). The values written are legal where `L` holds: that the index of
the command to send has 6 bits. -/
inductive Move (L : Prop) (c : Cfg) (s : State) : State → Prop where
  | read (r : CtlReg) (u : State) (hr : r.blockReads = true) (ht : tick s = .ok () u) :
      Move L c s (u.readDone c r)
  | write (r : CtlReg) (v : Word) (u : State) (hr : r.blockWrites = true) (hv : L → LegalWrite s.params r v)
      (ht : tick s = .ok () u) : Move L c s (u.writeDone c r v)
  | store (a : Nat) (w : Word) (u : State) (ht : tick s = .ok () u) :
      Move L c s ((u.storeWord a w).record (.memWrite a 4 w))
  | barrier (u : State) (ht : tick s = .ok () u) : Move L c s (u.record .barrier)
  | clean (a len : Nat) (u : State) (ht : tick s = .ok () u) : Move L c s (u.cleanDone a len)
  | delay (n : Nat) (u : State) (ht : tick s = .ok () u) : Move L c s (u.record (.delay n))
  | latch (t : State) (hk : KeepsAllBut latchParts s t) (hd : DivisorLegal s → DivisorLegal t)
      (hw : WidthLegal s → WidthLegal t) (hr : ResponseKnown s → ResponseKnown t) : Move L c s t
  | beside (t : State) (hk : KeepsAllBut besideParts s t) (hm : s.mem.wf → t.mem.wf) : Move L c s t

/-- Everything a procedure can do: it only makes moves; it changes only `ps` (and takes a coming reset nearer);
it makes at most `n` events; it stops by reset only when one is asserted; and it raises only errors of `E`. -/
structure Does {α : Type} (L : Prop) (c : Cfg) (E : Err → Prop) (ps : List Part) (n : Nat) (s : State)
    (r : Res α) : Prop where
  path : Relation.ReflTransGen (Move L c) s r.state
  frame : KeepsAllBut (.rst :: ps) s r.state
  bound : r.state.hist.length ≤ s.hist.length + n
  reset : ∀ t, r = .stop .reset t → t.rst = some 0
  raised : ∀ e t, r = .stop (.raised e) t → E e

/-- No error. -/
def NoErr : Err → Prop := fun _ => False

/-- FATAL_TIMEOUT alone. -/
def FatalErr : Err → Prop := fun e => e = .fatalTimeout

section

variable {α β : Type} {c : Cfg} {E F : Err → Prop} {ps qs : List Part} {n m : Nat} {s : State}

theorem Does.ret (a : α) : Does L c E ps n s (.ok a s) :=
  ⟨.refl, .refl _ _, Nat.le_add_right _ _, (fun _ h => nomatch h), (fun _ _ h => nomatch h)⟩

theorem Does.fail (e : Err) (h : E e) : Does L c E ps n s (.stop (.raised e) s : Res α) := by
  refine ⟨.refl, .refl _ _, Nat.le_add_right _ _, (fun _ h => nomatch h), ?_⟩
  rintro e' t h'
  cases h'; exact h

theorem Does.mono {r : Res α} (h : Does L c E ps n s r) (hE : ∀ e, E e → F e) (hp : ps ⊆ qs) (hn : n ≤ m) :
    Does L c F qs m s r :=
  ⟨h.path, h.frame.mono (List.cons_subset_cons _ hp), h.bound.trans (by omega), h.reset,
    fun e t g => hE e (h.raised e t g)⟩

/-- One procedure after another. -/
theorem Does.bind {r : Res α} {f : α → State → Res β} (h : Does L c E ps n s r)
    (g : ∀ a t, r = .ok a t → Does L c E ps m t (f a t)) : Does L c E ps (n + m) s (r.bind f) := by
  cases r with
  | ok a t =>
    have k := g a t rfl
    exact ⟨h.path.trans k.path, h.frame.trans_same k.frame, by
      have h1 := h.bound; have h2 := k.bound; simp only [state_ok] at h1; simp only [bind_ok]; omega,
      k.reset, k.raised⟩
  | stop e t =>
    exact ⟨h.path, h.frame, h.bound.trans (by omega), fun u hu => h.reset u (by cases hu; rfl),
      fun e' u hu => h.raised e' u (by cases hu; rfl)⟩

theorem Does.andThen {r : Res Unit} {f : State → Res β} (h : Does L c E ps n s r)
    (g : ∀ t, r = .ok () t → Does L c E ps m t (f t)) : Does L c E ps (n + m) s (r.andThen f) :=
  h.bind fun _ t e => g t e

/-- An update of latches before a procedure. -/
theorem Does.after {t : State} {r : Res α} (hk : KeepsAllBut latchParts s t) (hp : KeepsAllBut ps s t)
    (hd : DivisorLegal s → DivisorLegal t) (hw : WidthLegal s → WidthLegal t)
    (hr : ResponseKnown s → ResponseKnown t) (h : Does L c E ps n t r) : Does L c E ps n s r := by
  have hh : t.hist = s.hist := hk .hist (by decide)
  exact ⟨.head (.latch t hk hd hw hr) h.path, (hp.mono (List.subset_cons_self _ _)).trans_same h.frame,
    by rw [← hh]; exact h.bound, h.reset, h.raised⟩

/-- What the environment does while the block waits, before a procedure. -/
theorem Does.besides {t : State} {r : Res α} (hk : KeepsAllBut besideParts s t) (hp : KeepsAllBut ps s t)
    (hm : s.mem.wf → t.mem.wf) (h : Does L c E ps n t r) : Does L c E ps n s r := by
  have hh : t.hist = s.hist := hk .hist (by decide)
  exact ⟨.head (.beside t hk hm) h.path, (hp.mono (List.subset_cons_self _ _)).trans_same h.frame,
    by rw [← hh]; exact h.bound, h.reset, h.raised⟩

/-- The controller has carried out what was started. -/
theorem Does.carriedOut {r : Res α} (h : Does L c E ps n s.carriedOut r) (hp : carriedParts ⊆ ps := by decide) :
    Does L c E ps n s r :=
  .besides ((carriedOut_keeps s).mono (by decide)) ((carriedOut_keeps s).mono hp)
    (fun g => by rw [show s.carriedOut.mem = s.mem from carriedOut_keeps s .mem (by decide)]; exact g) h

end

/-! ## The primitives -/

/-- What a tick leaves. -/
theorem tick_keeps {s u : State} (h : tick s = .ok () u) : KeepsAllBut [.rst] s u := by
  rcases tick_cases s with ⟨_, e⟩ | ⟨_, e⟩ | ⟨n, _, e⟩
  · obtain ⟨-, rfl⟩ := Res.ok.inj (e.symm.trans h); exact .refl _ _
  · exact nomatch e.symm.trans h
  · obtain ⟨-, rfl⟩ := Res.ok.inj (e.symm.trans h); exact resetIn_keeps n s

/-- An event, from its move and its frame. -/
theorem does_event {α : Type} {c : Cfg} {E : Err → Prop} {ps : List Part} {s : State} (g : State → State)
    (v : State → α) (hm : ∀ u, tick s = .ok () u → Move L c s (g u)) (hk : ∀ u, KeepsAllBut ps u (g u))
    (hh : ∀ u, (g u).hist.length = u.hist.length + 1) :
    Does L c E ps 1 s ((tick s).andThen fun u => .ok (v u) (g u)) := by
  rcases tick_cases s with ⟨hr, e⟩ | ⟨hr, e⟩ | ⟨n, hr, e⟩
  · rw [e]
    exact ⟨.single (hm _ e), (hk s).mono (List.subset_cons_self _ _), by simp [hh],
      (fun _ h => nomatch h), (fun _ _ h => nomatch h)⟩
  · rw [e]
    refine ⟨.refl, .refl _ _, Nat.le_add_right _ _, ?_, (fun _ _ h => nomatch h)⟩
    rintro t h; cases h; exact hr
  · have k := tick_keeps e
    rw [e]
    exact ⟨.single (hm _ e), (k.trans (hk _)).mono (by simp), by simp [hh],
      (fun _ h => nomatch h), (fun _ _ h => nomatch h)⟩

theorem regRead_does (c : Cfg) (E : Err → Prop) (r : CtlReg) (s : State) (hr : r.blockReads = true) :
    Does L c E (.answers :: .draws :: .hist :: shownParts r) 1 s (regRead c r s) :=
  does_event (fun u => u.readDone c r) State.nextAnswer (fun u h => .read r u hr h)
    (fun u => readDone_keeps c r u) (fun u => by simp)

/-- A register write whose value is legal where `L` holds. -/
theorem regWrite_where (c : Cfg) (E : Err → Prop) (r : CtlReg) (v : Word) (s : State)
    (hr : r.blockWrites = true) (hv : L → LegalWrite s.params r v) :
    Does L c E (.hist :: writeParts r) 1 s (regWrite c r v s) :=
  does_event (fun u => u.writeDone c r v) (fun _ => ()) (fun u h => .write r v u hr hv h)
    (fun u => writeDone_keeps c r v u) (fun u => by simp)

theorem regWrite_does (c : Cfg) (E : Err → Prop) (r : CtlReg) (v : Word) (s : State)
    (hr : r.blockWrites = true) (hv : LegalWrite s.params r v) :
    Does L c E (.hist :: writeParts r) 1 s (regWrite c r v s) := regWrite_where c E r v s hr fun _ => hv

theorem memWrite_does (c : Cfg) (E : Err → Prop) (a : Nat) (w : Word) (s : State) :
    Does L c E [.mem, .dirty, .hist] 1 s (memWrite a w s) :=
  does_event (fun u => (u.storeWord a w).record (.memWrite a 4 w)) (fun _ => ())
    (fun u h => .store a w u h) (fun u => (storeWord_keeps a w u).trans (record_keeps _ _))
    (fun u => by simp)

theorem barrier_does (c : Cfg) (E : Err → Prop) (s : State) : Does L c E [.hist] 1 s (barrier s) :=
  does_event (fun u => u.record .barrier) (fun _ => ()) (fun u h => .barrier u h)
    (fun u => record_keeps _ u) (fun u => by simp)

theorem cacheClean_does (c : Cfg) (E : Err → Prop) (a len : Nat) (s : State) :
    Does L c E [.dirty, .hist] 1 s (cacheClean a len s) :=
  does_event (fun u => u.cleanDone a len) (fun _ => ()) (fun u h => .clean a len u h)
    (fun u => cleanDone_keeps a len u) (fun u => by simp)

theorem delay_does (c : Cfg) (E : Err → Prop) (s : State) : Does L c E [.hist] 1 s (delay s) :=
  does_event (fun u => u.record (.delay u.params.pollDelay)) (fun _ => ())
    (fun u h => .delay _ u h) (fun u => record_keeps _ u) (fun u => by simp)

/-- Ready-made use of `Does.mono` for a list of parts that decides. -/
theorem Does.sub {α : Type} {c : Cfg} {E : Err → Prop} {ps qs : List Part} {n : Nat} {s : State} {r : Res α}
    (h : Does L c E ps n s r) (hp : ps ⊆ qs := by decide) : Does L c E qs n s r :=
  h.mono (fun _ => id) hp le_rfl

/-! ## Updates of latches -/

theorem setFsm_latch {α : Type} {c : Cfg} {E : Err → Prop} {ps : List Part} {n : Nat} {f : Fsm} {s : State}
    {r : Res α} (h : Does L c E ps n (s.setFsm f) r) (hp : [.fsm, .trace] ⊆ ps := by decide) :
    Does L c E ps n s r :=
  .after ((setFsm_keeps f s).mono (by decide)) ((setFsm_keeps f s).mono hp) id id id h

theorem startCount_latch {α : Type} {c : Cfg} {E : Err → Prop} {ps : List Part} {n : Nat} {s : State}
    {r : Res α} (h : Does L c E ps n s.startCount r) (hp : [.cnt] ⊆ ps := by decide) : Does L c E ps n s r :=
  .after ((startCount_keeps s).mono (by decide)) ((startCount_keeps s).mono hp) id id id h

theorem count_latch {α : Type} {c : Cfg} {E : Err → Prop} {ps : List Part} {n : Nat} {s : State}
    {r : Res α} (h : Does L c E ps n s.count r) (hp : [.cnt] ⊆ ps := by decide) : Does L c E ps n s r :=
  .after ((count_keeps s).mono (by decide)) ((count_keeps s).mono hp) id id id h

/-! ## The dispatcher's procedures -/

/-- What a poll of STATUS may change. -/
def busyParts : List Part := [.answers, .draws, .hist, .cnt]

theorem busyLoop_does (c : Cfg) {E : Err → Prop} (hE : E .fatalTimeout) (n : Nat) (s : State) :
    Does L c E busyParts n s (busyLoop c n s) := by
  induction n generalizing s with
  | zero => exact .fail _ hE
  | succ n ih =>
    rw [busyLoop, Nat.add_comm]
    refine ((regRead_does c E .status s rfl).sub).bind fun v t _ => ?_
    split
    · exact count_latch (ih _)
    · exact count_latch (.ret ())

/-- The busy wait (41_command_dispatch.md R201): at most N_BUSY events. -/
theorem busyWait_does (c : Cfg) {E : Err → Prop} (hE : E .fatalTimeout) (s : State) :
    Does L c E busyParts s.params.nBusy s (busyWait c s) :=
  startCount_latch (busyLoop_does c hE _ _)

/-- What `issue` may change. -/
def issueParts : List Part := [.hist, .pending, .regCmdarg, .regCmd, .started]

/-- A procedure that does not change the parameters keeps them. -/
theorem Does.params {α : Type} {c : Cfg} {E : Err → Prop} {ps : List Part} {n : Nat} {s t : State} {a : α}
    {r : Res α} (h : Does L c E ps n s r) (e : r = .ok a t) (hp : .params ∉ ps := by decide) :
    t.params = s.params := by
  have k := h.frame .params (by simp only [List.mem_cons, not_or]; exact ⟨by decide, hp⟩)
  rw [e] at k; exact k

/-- `issue` (41_command_dispatch.md R202). -/
theorem issue_does (c : Cfg) (E : Err → Prop) (arg w : Word) (s : State)
    (hw : L → LegalWrite s.params .cmd w) : Does L c E issueParts 4 s (issue c arg w s) := by
  have h1 := (regWrite_does (L := L) c E .rintsts clearAll s rfl (.inl rfl)).sub (qs := issueParts)
  refine h1.andThen (m := 3) fun t e1 => ?_
  have h2 := (regWrite_does (L := L) c E .cmdarg arg t rfl trivial).sub (qs := issueParts)
  refine h2.andThen (m := 2) fun u e2 => ?_
  have h3 := (barrier_does (L := L) c E u).sub (qs := issueParts)
  refine h3.andThen (m := 1) fun v e3 => ?_
  exact (regWrite_where c E .cmd w v rfl (by rw [h3.params e3, h2.params e2, h1.params e1]; exact hw)).sub

/-- Any update of one latch, before a procedure. -/
theorem latch_update {α : Type} {c : Cfg} {E : Err → Prop} {ps : List Part} {n : Nat} {s t : State}
    {r : Res α} (qs : List Part) (hk : KeepsAllBut qs s t) (h : Does L c E ps n t r)
    (hd : DivisorLegal s → DivisorLegal t := by exact id) (hw : WidthLegal s → WidthLegal t := by exact id)
    (hr : ResponseKnown s → ResponseKnown t := by exact id) (hq : qs ⊆ latchParts := by decide)
    (hp : qs ⊆ ps := by decide) : Does L c E ps n s r :=
  .after (hk.mono hq) (hk.mono hp) hd hw hr h

/-- What the completion poll may change. -/
def pollParts : List Part :=
  [.answers, .draws, .hist, .pending, .cnt, .pollCmdDone, .pollDto, .errStatus]

/-- `clearPending` of CMD_DONE writes at most once per command. -/
theorem clearCmdDone_cases (c : Cfg) (v : Word) (done : Bool) (s : State) :
    clearCmdDone c v done s = .ok done s ∨
    done = false ∧ clearCmdDone c v done s =
      (regWrite c .rintsts (bit s.params.intBits.cmdDone) s).bind fun _ t => .ok true (t.setCmdDone true) := by
  simp only [clearCmdDone]
  cases done <;> by_cases h : anySet v (bit s.params.intBits.cmdDone) = true <;> simp [h]

/-- `clearPending` of DTO writes at most once per command. -/
theorem clearDto_cases (c : Cfg) (v : Word) (data dto : Bool) (s : State) :
    clearDto c v data dto s = .ok dto s ∨
    dto = false ∧ clearDto c v data dto s =
      (regWrite c .rintsts (bit s.params.intBits.dto) s).bind fun _ t => .ok true (t.setDto true) := by
  simp only [clearDto]
  cases data <;> cases dto <;> by_cases h : anySet v (bit s.params.intBits.dto) = true <;> simp [h]

/-- The events `clearPending` has left. -/
def clearsLeft (done dto : Bool) : Nat := (if done then 0 else 1) + (if dto then 0 else 1)

theorem clearCmdDone_does {α : Type} {c : Cfg} {E : Err → Prop} {v : Word} {done : Bool} {n : Nat}
    {s : State} {f : Bool → State → Res α}
    (h : ∀ d t, Does L c E pollParts (n + if d then 0 else 1) t (f d t)) :
    Does L c E pollParts (n + if done then 0 else 1) s ((clearCmdDone c v done s).bind f) := by
  rcases clearCmdDone_cases c v done s with e | ⟨rfl, e⟩
  · rw [e]; exact h done s
  · rw [e, Nat.add_comm]
    have h1 := (regWrite_does (L := L) c E .rintsts (bit s.params.intBits.cmdDone) s rfl
      (.inr (.inl rfl))).sub (qs := pollParts)
    cases hw : regWrite c .rintsts (bit s.params.intBits.cmdDone) s with
    | ok u t =>
      have h2 := h1.bind (f := fun _ t => f true (t.setCmdDone true)) (m := n) fun _ t _ =>
        latch_update _ (setCmdDone_keeps true t) (h true _)
      rw [hw] at h2; exact h2
    | stop e' t =>
      have h2 := h1.bind (f := fun _ t => f true (t.setCmdDone true)) (m := n) fun _ t _ =>
        latch_update _ (setCmdDone_keeps true t) (h true _)
      rw [hw] at h2; exact h2

theorem clearDto_does {α : Type} {c : Cfg} {E : Err → Prop} {v : Word} {data dto : Bool} {n : Nat}
    {s : State} {f : Bool → State → Res α}
    (h : ∀ d t, Does L c E pollParts (n + if d then 0 else 1) t (f d t)) :
    Does L c E pollParts (n + if dto then 0 else 1) s ((clearDto c v data dto s).bind f) := by
  rcases clearDto_cases c v data dto s with e | ⟨rfl, e⟩
  · rw [e]; exact h dto s
  · rw [e, Nat.add_comm]
    have h1 := (regWrite_does (L := L) c E .rintsts (bit s.params.intBits.dto) s rfl
      (.inr (.inr (.inl rfl)))).sub (qs := pollParts)
    have h2 := h1.bind (f := fun _ t => f true (t.setDto true)) (m := n) fun _ t _ =>
      latch_update _ (setDto_keeps true t) (h true _)
    cases hw : regWrite c .rintsts (bit s.params.intBits.dto) s <;> (rw [hw] at h2; exact h2)

/-- The errors of SENDCMD's procedures. -/
def SendErr : Err → Prop := fun e => e = .fatalTimeout ∨ ∃ v, e = .hardwareError v 0

theorem pollLoop_does (c : Cfg) (data : Bool) (n : Nat) (done dto : Bool) (s : State) :
    Does L c SendErr pollParts (2 * n + clearsLeft done dto) s (pollLoop c data n done dto s) := by
  induction n generalizing done dto s with
  | zero => exact .fail _ (.inl rfl)
  | succ n ih =>
    rw [pollLoop]
    have e : 2 * (n + 1) + clearsLeft done dto = 1 + (1 + (2 * n + clearsLeft done dto)) := by omega
    rw [e]
    refine (delay_does c _ s).sub.andThen fun t _ => ?_
    refine (regRead_does c _ .rintsts t rfl).sub.bind fun v u _ => ?_
    refine count_latch ?_
    dsimp only
    split
    · exact latch_update _ (setErrStatus_keeps v _) (.fail _ (.inr ⟨v, rfl⟩))
    · have e2 : 2 * n + clearsLeft done dto = (2 * n + if dto then 0 else 1) + if done then 0 else 1 := by
        simp only [clearsLeft]; omega
      rw [e2]
      refine clearCmdDone_does fun done t => ?_
      have e3 : (2 * n + if dto then 0 else 1) + (if done then 0 else 1) =
          (2 * n + if done then 0 else 1) + if dto then 0 else 1 := by omega
      rw [e3]
      refine clearDto_does fun dto t => ?_
      by_cases hc : (done && (!data || dto)) = true
      · rw [if_pos hc]; exact .ret ()
      · rw [if_neg hc]
        refine (ih done dto t).mono (fun _ => id) (List.Subset.refl _) ?_
        simp only [clearsLeft]; omega

/-- The completion poll (41_command_dispatch.md R203): at most N_POLL delays and reads, and two clears. -/
theorem pollCompletion_does (c : Cfg) (data : Bool) (s : State) :
    Does L c SendErr pollParts (2 * s.params.nPoll + 2) s (pollCompletion c data s) :=
  latch_update _ (setCmdDone_keeps false s) <| latch_update _ (setDto_keeps false _) <|
    startCount_latch (pollLoop_does c data _ false false _)

/-- What `extractResponse` may change. -/
def responseParts : List Part := [.answers, .draws, .hist, .rspCount, .rspWords]

theorem setResponse_latch {α : Type} {c : Cfg} {E : Err → Prop} {n : Nat} {s : State} (k : RespCount)
    (ws : Vector (Latch Word) 4) (a : α) (h : ResponseKnown (s.setResponse k ws)) :
    Does L c E responseParts n s (.ok a (s.setResponse k ws)) :=
  latch_update _ (setResponse_keeps k ws s) (.ret a) (hr := fun _ => h)

/-- The response-word extractor (41_command_dispatch.md R206): at most four reads. -/
theorem extractResponse_does (c : Cfg) (E : Err → Prop) (w : Word) (s : State) :
    Does L c E responseParts 4 s (extractResponse c w s) := by
  simp only [extractResponse]
  split
  · exact setResponse_latch _ _ _ fun k hk => absurd hk (Nat.not_lt_zero _)
  · refine (regRead_does c _ .resp0 s rfl).sub.bind (m := 3) fun v t _ => ?_
    refine setResponse_latch _ _ _ fun k hk => ?_
    have : k = 0 := Fin.ext (by simpa [RespCount.toNat] using hk)
    subst this; simp
  · refine (regRead_does c _ .resp0 s rfl).sub.bind (m := 3) fun v0 t _ => ?_
    refine (regRead_does c _ .resp1 t rfl).sub.bind (m := 2) fun v1 t _ => ?_
    refine (regRead_does c _ .resp2 t rfl).sub.bind (m := 1) fun v2 t _ => ?_
    refine (regRead_does c _ .resp3 t rfl).sub.bind (m := 0) fun v3 t _ => ?_
    refine setResponse_latch _ _ _ fun k _ => ?_
    fin_cases k <;> rfl

/-- What SENDCMD's run may change of the block and of the registers it writes. -/
def runParts : List Part :=
  [.answers, .draws, .hist, .pending, .cnt, .pollCmdDone, .pollDto, .errStatus, .regCmdarg, .regCmd,
   .started, .rspCount, .rspWords, .cmdWord, .cmdData, .fsm, .trace]

/-- What the environment may change while the block waits for a command. -/
def commandParts (c : Cfg) (data : Bool) : List Part := if data && c.dmaCapable then besideParts else carriedParts

theorem commandParts_beside (c : Cfg) (data : Bool) : commandParts c data ⊆ besideParts := by
  unfold commandParts
  split <;> decide

/-- SENDCMD after its word is encoded (41_command_dispatch.md R200, R211). -/
theorem runCommand_does (c : Cfg) (w arg : Word) (s : State) (hw : L → LegalWrite s.params .cmd w) :
    Does L c SendErr (runParts ++ commandParts c (dataCarrying s.params.cmdBits w))
      (s.params.nBusy + (4 + ((2 * s.params.nPoll + 2) + 4))) s (runCommand c w arg s) := by
  generalize hq : commandParts c (dataCarrying s.params.cmdBits w) = qs
  have sub : ∀ ps, ps ⊆ runParts → ps ⊆ runParts ++ qs := fun ps h => List.Subset.trans h (List.subset_append_left _ _)
  simp only [runCommand]
  refine latch_update _ (setCommand_keeps w (dataCarrying s.params.cmdBits w) s)
    (setFsm_latch (f := .busyWait) ?_ (sub _ (by decide))) (hp := sub _ (by decide))
  have h1 := busyWait_does (L := L) c (E := SendErr) (.inl rfl)
    ((s.setCommand w (dataCarrying s.params.cmdBits w)).setFsm .busyWait)
  refine (h1.sub (sub _ (by decide))).andThen fun t e1 => setFsm_latch (f := .issue) ?_ (sub _ (by decide))
  have p1 : t.params = s.params := h1.params e1
  have h2 := issue_does (L := L) c SendErr arg w (t.setFsm .issue) (by simpa [p1] using hw)
  refine (h2.sub (sub _ (by decide))).andThen fun u e2 => setFsm_latch (f := .pollCompletion) ?_ (sub _ (by decide))
  have p2 : u.params = s.params := (h2.params e2).trans p1
  rw [← p2]
  refine ((pollCompletion_does c _ (u.setFsm .pollCompletion)).sub (sub _ (by decide))).andThen fun v _ => ?_
  have k := commandOver_keeps c (dataCarrying u.params.cmdBits w) v
  refine .besides (commandOver_beside c _ v) (k.mono ?_) (fun h => commandOver_wf c _ h)
    (setFsm_latch (f := .readResponse) ((extractResponse_does c _ w _).sub (sub _ (by decide))) (sub _ (by decide)))
  rw [← hq, ← p2]; exact List.subset_append_right _ _

/-! ## The clock controller's procedures -/

/-- What a handshake may change. -/
def handshakeParts : List Part := [.answers, .draws, .hist, .pending, .cnt, .regCmd, .started] ++ carriedParts

theorem retryHandshake_does (c : Cfg) (E : Err → Prop) (s : State) :
    Does L c E handshakeParts 2 s (retryHandshake c s) := by
  have h1 := (regWrite_does (L := L) c E .rintsts (bit s.params.intBits.hle) s rfl
    (.inr (.inr (.inr rfl)))).sub (qs := handshakeParts)
  refine h1.andThen (m := 1) fun t e1 => ?_
  exact (regWrite_does c E .cmd _ t rfl (.inl rfl)).sub

theorem handshakeLoop_does (c : Cfg) {E : Err → Prop} (hE : E .fatalTimeout) (n : Nat) (s : State) :
    Does L c E handshakeParts (4 * n) s (handshakeLoop c n s) := by
  induction n generalizing s with
  | zero => exact .fail _ hE
  | succ n ih =>
    rw [handshakeLoop]
    have e : 4 * (n + 1) = 1 + (1 + (2 + 4 * n)) := by omega
    rw [e]
    refine (regRead_does c _ .cmd s rfl).sub.bind fun v t _ => count_latch ?_
    dsimp only
    split
    · refine (regRead_does c _ .rintsts _ rfl).sub.bind fun r t _ => ?_
      split
      · exact (retryHandshake_does c _ _).andThen fun t _ => ih t
      · exact (ih t).mono (fun _ => id) (List.Subset.refl _) (by omega)
    · exact .ret ()

/-- The handshake (42_clock_controller.md R260, R262): at most `H` events. -/
theorem handshake_does (c : Cfg) {E : Err → Prop} (hE : E .fatalTimeout) (s : State) :
    Does L c E handshakeParts (handshakeBound s.params) s (handshake c s) := by
  simp only [handshake]
  refine startCount_latch ?_
  have h1 := (regWrite_does (L := L) c E .cmd (hsWord s.params.cmdBits) s.startCount rfl (.inl rfl)).sub
    (qs := handshakeParts)
  refine h1.andThen fun t e1 => ?_
  rw [show s.params.nClk = t.params.nClk by rw [h1.params e1]; rfl]
  exact (handshakeLoop_does c hE _ t).andThen (m := 0) fun u _ => .carriedOut (.ret ())

/-- What a clock sequence may change. -/
def sequenceParts : List Part :=
  [.answers, .draws, .hist, .pending, .cnt, .regCmd, .started, .clkDiv, .clkEnabled, .regClkdiv,
   .regClksrc, .regClkena] ++ carriedParts

/-- The clock sequence (42_clock_controller.md R272), for a legal divisor. -/
theorem setClockSeq_does (c : Cfg) {E : Err → Prop} (hE : E .fatalTimeout) {d : Nat} (h1 : 1 ≤ d)
    (h2 : d ≤ 255) (s : State) :
    Does L c E sequenceParts (s.params.nBusy + 4 + 3 * handshakeBound s.params) s (setClockSeq c d s) := by
  have hd : LegalWrite s.params .clkdiv (BitVec.ofNat 32 d) := by
    simp only [LegalWrite, BitVec.toNat_ofNat]; omega
  simp only [setClockSeq]
  have b : s.params.nBusy + 4 + 3 * handshakeBound s.params = s.params.nBusy + (1 +
      (handshakeBound s.params + (1 + (handshakeBound s.params + (1 + (1 + handshakeBound s.params)))))) := by
    omega
  rw [b]
  have k1 := (busyWait_does (L := L) c hE s).sub (qs := sequenceParts)
  refine k1.andThen fun t1 e1 => ?_
  have p1 : t1.params = s.params := k1.params e1
  have k2 := (regWrite_does (L := L) c E .clkena clkenaOff t1 rfl (.inl rfl)).sub (qs := sequenceParts)
  refine k2.andThen fun t2 e2 => latch_update _ (setClkEnabled_keeps false t2) ?_
  have p2 : t2.params = s.params := (k2.params e2).trans p1
  have k3 := (handshake_does (L := L) c hE (t2.setClkEnabled false)).sub (qs := sequenceParts)
  simp only [setClkEnabled_params, p2] at k3
  refine k3.andThen fun t3 e3 => ?_
  have p3 : t3.params = s.params := (k3.params e3).trans p2
  have k4 := (regWrite_does (L := L) c E .clkdiv (BitVec.ofNat 32 d) t3 rfl hd).sub (qs := sequenceParts)
  refine k4.andThen fun t4 e4 => latch_update _ (setClkDiv_keeps (BitVec.ofNat 8 d) t4) ?_
    (hd := fun _ _ => by simp only [setClkDiv_clkDiv, Latch.holds_val, BitVec.toNat_ofNat]; omega)
  have p4 : t4.params = s.params := (k4.params e4).trans p3
  have k5 := (handshake_does (L := L) c hE (t4.setClkDiv (BitVec.ofNat 8 d))).sub (qs := sequenceParts)
  simp only [setClkDiv_params, p4] at k5
  refine k5.andThen fun t5 e5 => ?_
  have p5 : t5.params = s.params := (k5.params e5).trans p4
  have k6 := (regWrite_does (L := L) c E .clkena clkenaOn t5 rfl (.inr rfl)).sub (qs := sequenceParts)
  refine k6.andThen fun t6 e6 => latch_update _ (setClkEnabled_keeps true t6) ?_
  have p6 : t6.params = s.params := (k6.params e6).trans p5
  have k7 := (regWrite_does (L := L) c E .clksrc clksrcValue (t6.setClkEnabled true) rfl rfl).sub
    (qs := sequenceParts)
  refine k7.andThen fun t7 e7 => ?_
  have p7 : t7.params = s.params := (k7.params e7).trans p6
  have k8 := (handshake_does (L := L) c hE t7).sub (qs := sequenceParts)
  rw [p7] at k8
  exact k8

/-- A legal width is 1, 4 or 8, and its code is one of three (30_encoding.md R140). -/
theorem ctypeCode_some {width : Nat} {code : Word} (h : ctypeCode width = some code) :
    (width = 1 ∧ code = 0) ∨ (width = 4 ∧ code = 1) ∨ (width = 8 ∧ code = 0x10000) := by
  unfold ctypeCode at h
  split at h <;> simp_all

/-- The CTYPE write (42_clock_controller.md R280). -/
theorem programWidth_does (c : Cfg) (E : Err → Prop) {width : Nat} {code : Word}
    (h : ctypeCode width = some code) (s : State) :
    Does L c E [.hist, .regCtype, .busWidth] 1 s (programWidth c width code s) := by
  simp only [programWidth]
  have hl : LegalWrite s.params .ctype code := by
    rcases ctypeCode_some h with ⟨-, e⟩ | ⟨-, e⟩ | ⟨-, e⟩ <;> simp [LegalWrite, e]
  refine (regWrite_does c E .ctype code s rfl hl).sub.andThen (m := 0) fun t _ => ?_
  refine latch_update _ (setBusWidth_keeps _ t) (.ret ()) (hw := fun _ _ => ?_)
  rcases ctypeCode_some h with ⟨e, -⟩ | ⟨e, -⟩ | ⟨e, -⟩ <;> simp [e]

/-- What `divisor` gives is a legal divisor (42_clock_controller.md R270). -/
theorem divisor_range {src target d : Nat} (h : divisor src target = some d) : 1 ≤ d ∧ d ≤ 255 := by
  unfold divisor at h
  split at h
  · exact nomatch h
  · have := List.mem_of_find?_eq_some h
    rw [List.mem_range'_1] at this; omega

/-! ## The builder's procedures -/

theorem writeDescriptor_does (c : Cfg) (E : Err → Prop) (a : Nat) (d : Descriptor) (s : State) :
    Does L c E [.mem, .dirty, .hist] 4 s (writeDescriptor a d s) :=
  (memWrite_does c E _ _ s).andThen (m := 3) fun t _ =>
    (memWrite_does c E _ _ t).andThen (m := 2) fun t _ =>
      (memWrite_does c E _ _ t).andThen (m := 1) fun t _ => memWrite_does c E _ _ t

theorem forRange_does {c : Cfg} {E : Err → Prop} {ps : List Part} {k : Nat}
    {body : Nat → State → Res Unit} (h : ∀ i s, Does L c E ps k s (body i s)) (i n : Nat) (s : State) :
    Does L c E ps (k * n) s (forRange body i n s) := by
  induction n generalizing i s with
  | zero => exact .ret ()
  | succ n ih =>
    rw [forRange, Nat.mul_succ, Nat.add_comm]
    exact (h i s).andThen fun t _ => ih _ t

/-- What the builder may change. -/
def chainParts : List Part := [.mem, .dirty, .hist, .regDbaddr, .chainCount]

/-- CONFIG_ERROR alone. -/
def ConfigErr : Err → Prop := fun e => e = .configError

/-- The builder (43_dma_builder.md R321). -/
theorem buildChain_does (c : Cfg) {E : Err → Prop} (hE : E .configError) (buf size chunk : Nat)
    (s : State) :
    Does L c E chainParts (4 * chainLength size chunk + 2) s (buildChain c buf size chunk s) := by
  simp only [buildChain]
  split
  · refine ((forRange_does (fun i s => writeDescriptor_does c E _ _ s) 0 _ s).sub).andThen (m := 2)
      fun t _ => ?_
    refine (regWrite_does c E .dbaddr _ t rfl trivial).sub.andThen (m := 1) fun t _ => ?_
    refine (cacheClean_does c E _ _ t).sub.andThen (m := 0) fun t _ => ?_
    exact latch_update _ (setChainCount_keeps _ t) (.ret _)
  · exact .fail _ hE

/-- PREPARE once its checks have passed (44_facade_transfer.md R353). -/
theorem runPrepare_does (c : Cfg) {E : Err → Prop} (hE : E .configError) (buf size : Nat) (s : State) :
    Does L c E (.regBytcnt :: .pending :: chainParts)
      (if c.dmaCapable then 2 + 1 + (4 * chainLength size c.chunkMax.toNat + 2) else 2) s
      (runPrepare c buf size s) := by
  simp only [runPrepare]
  have e : (if c.dmaCapable then 2 + 1 + (4 * chainLength size c.chunkMax.toNat + 2) else 2) =
      1 + (1 + if c.dmaCapable then 1 + (4 * chainLength size c.chunkMax.toNat + 2) else 0) := by
    split <;> omega
  rw [e]
  refine (regWrite_does c E .bytcnt _ s rfl trivial).sub.andThen fun t _ => ?_
  refine (regWrite_does c E .rintsts _ t rfl (.inl rfl)).sub.andThen fun t _ => ?_
  split
  · refine (cacheClean_does c E _ _ t).sub.andThen fun t _ => ?_
    exact (buildChain_does c hE _ _ _ t).sub
  · exact .ret 0

theorem drainWord_does (c : Cfg) (E : Err → Prop) (buf k : Nat) (s : State) :
    Does L c E [.answers, .draws, .hist, .mem, .dirty] 2 s (drainWord c buf k s) :=
  (regRead_does c E .fifo s rfl).sub.bind (m := 1) fun _ t _ => (memWrite_does c E _ _ t).sub

end Sys2Proof.Machine
end

