-- ==== Sys2Proof/Laws/Exec.lean ====
section
/-! SUPPORT. What an instruction of the block can do, whatever the answers and whenever a reset comes: it runs one
procedure and ends it, and the procedure makes only the moves of `Does`. -/

namespace Sys2Proof.Machine

variable {L : Prop}

/-- The elements that an operation reads are known, as far as the configuration is valid. -/
def Fed (s : State) : Prop :=
  (s.cfgValid = true → s.cfg.known = true) ∧ s.reqA.known = true ∧ s.reqB.known = true ∧
  s.reqC.known = true

/-- The errors an instruction can raise (60_exceptions.md R407); only CLASSIFY's carries a value. -/
def RaisedBy (i : Instr) (e : Err) : Prop := mayEndWith i e.code = true ∧ (i ≠ .classify → e.value = 0)

/-- The configuration an INIT with accepted wires loads before its procedure runs. -/
def Loads (i : Instr) (s t : State) : Prop :=
  i = .init ∧ s.cfgValid = false ∧ configAccepted s.cfgIn = true ∧
  t = (s.setFsm .exec).setCfg s.cfgIn.toCfg

/-- The configuration an instruction of the block works with: the one loaded, or the one INIT loads. -/
def cfgOf (s : State) : Cfg := if s.cfgValid then s.cfg.val else s.cfgIn.toCfg

/-- An accepted request's accesses have the base the port gives. -/
theorem cfgOf_accept {q : Request} {rest : List Request} {s : State} (h : s.reqs = q :: rest) :
    (cfgOf (accept q rest s)).regBase = portBase s := by
  unfold cfgOf portBase
  rw [h, accept_cfgValid, accept_cfg, accept_cfgIn]
  cases s.cfgValid <;> rfl

/-- The outcome of a block instruction: a fault where an element it reads is UNKNOWN, or the end of a procedure
that makes only moves, with legal values when the instruction is well formed, changes only the instruction's parts, and
keeps within its bound of events. -/
def Runs (i : Instr) (s : State) (o : Out) : Prop :=
  (¬ Fed s ∧ ∃ e, o = .fault (.unknownRead e)) ∨
  ∃ t r, o = endOp r ∧ (t = s ∨ Loads i s t) ∧
    Does (i.wf = true) (cfgOf s) (RaisedBy i) (frameParts i) (eventBound s i) t r

section

variable {i : Instr} {s : State}

theorem Runs.op {r : Res DWord} (h : Does (i.wf = true) (cfgOf s) (RaisedBy i) (frameParts i) (eventBound s i) s r) :
    Runs i s (endOp r) := .inr ⟨s, r, rfl, .inl rfl, h⟩

theorem Runs.err (e : Err) (h : RaisedBy i e) : Runs i s (raiseError e s) := Runs.op (.fail e h)

theorem Runs.fin (v : DWord) : Runs i s (finish v s) := Runs.op (.ret v)

/-- Each instruction may change the sequencer's state and its record. -/
theorem frameParts_end {i : Instr} (h : i.agent = .block) : [.fsm, .trace] ⊆ frameParts i := by
  intro p hp
  simp only [List.mem_cons, List.not_mem_nil, or_false] at hp
  rcases hp with rfl | rfl <;> cases i <;> first | (cases h; done) | (simp only [frameParts]; decide)

/-- An operation that runs in EXEC (10_state.md R42). -/
theorem Runs.opExec (hi : i.agent = .block) {r : Res DWord}
    (h : Does (i.wf = true) (cfgOf s) (RaisedBy i) (frameParts i) (eventBound s i) (s.setFsm .exec) r) :
    Runs i s (endOp r) :=
  .op (setFsm_latch h (frameParts_end hi))

theorem Runs.errExec (hi : i.agent = .block) (e : Err) (h : RaisedBy i e) :
    Runs i s (raiseError e (s.setFsm .exec)) := Runs.opExec hi (.fail e h)

theorem Runs.finExec (hi : i.agent = .block) (v : DWord) : Runs i s (finish v (s.setFsm .exec)) :=
  Runs.opExec hi (.ret v)

theorem Runs.withCfg {f : Cfg → Out} (hi : i ≠ .classify)
    (h : s.cfg = .holds (cfgOf s) → Runs i s (f (cfgOf s))) : Runs i s (withCfg s f) := by
  unfold Machine.withCfg
  split
  · rename_i hv
    split
    · rename_i c hc
      have e := Latch.read_eq_some.mp hc
      have g : cfgOf s = c := by rw [cfgOf, if_pos hv, e]; rfl
      rw [g] at h; exact h e
    · rename_i hc
      refine .inl ⟨fun g => ?_, _, rfl⟩
      rw [Latch.read?, if_pos (g.1 hv)] at hc; exact nomatch hc
  · exact .err _ ⟨by cases i <;> first | rfl | exact absurd rfl hi, fun _ => rfl⟩

theorem Runs.inExec {f : Cfg → State → Out} (hi : i ≠ .classify)
    (h : s.cfg = .holds (cfgOf s) → Runs i s (f (cfgOf s) (s.setFsm .exec))) : Runs i s (inExec s f) :=
  .withCfg hi h

variable {u : State}

theorem Runs.withA {f : DWord → Out} (h : ∀ a, s.reqA = .holds a → Runs i s (f a))
    (hu : u.reqA = s.reqA := by rfl) : Runs i s (withA u f) := by
  unfold Machine.withA
  rw [hu]
  split
  · rename_i a ha; exact h a (Latch.read_eq_some.mp ha)
  · rename_i ha
    refine .inl ⟨fun g => ?_, _, rfl⟩
    rw [Latch.read?, if_pos g.2.1] at ha; exact nomatch ha

theorem Runs.withB {f : DWord → Out} (h : ∀ b, s.reqB = .holds b → Runs i s (f b))
    (hu : u.reqB = s.reqB := by rfl) : Runs i s (withB u f) := by
  unfold Machine.withB
  rw [hu]
  split
  · rename_i a ha; exact h a (Latch.read_eq_some.mp ha)
  · rename_i ha
    refine .inl ⟨fun g => ?_, _, rfl⟩
    rw [Latch.read?, if_pos g.2.2.1] at ha; exact nomatch ha

theorem Runs.withC {f : DWord → Out} (h : ∀ k, s.reqC = .holds k → Runs i s (f k))
    (hu : u.reqC = s.reqC := by rfl) : Runs i s (withC u f) := by
  unfold Machine.withC
  rw [hu]
  split
  · rename_i a ha; exact h a (Latch.read_eq_some.mp ha)
  · rename_i ha
    refine .inl ⟨fun g => ?_, _, rfl⟩
    rw [Latch.read?, if_pos g.2.2.2] at ha; exact nomatch ha

end

/-- A procedure and then its value. -/
theorem Does.value {α β : Type} {c : Cfg} {E : Err → Prop} {ps : List Part} {n : Nat} {s : State} {r : Res α}
    (h : Does L c E ps n s r) (v : α → β) : Does L c E ps n s (r.bind fun a t => .ok (v a) t) :=
  h.bind (m := 0) fun a _ _ => .ret (v a)

theorem fatal_raised {i : Instr} (h : mayEndWith i .fatalTimeout = true) : RaisedBy i .fatalTimeout :=
  ⟨h, fun _ => rfl⟩

theorem setResponse_zero_known (ws : Vector (Latch Word) 4) (s : State) :
    ResponseKnown (s.setResponse .zero ws) := fun _ hk => absurd hk (Nat.not_lt_zero _)

theorem execEncode_runs (idx : Nat) (shape : Shape) (s : State) :
    Runs (.encode idx shape) s (execEncode idx shape s) := by
  refine .withCfg (by simp) fun _ => ?_
  split
  · exact .err _ ⟨rfl, fun _ => rfl⟩
  · exact .fin _

theorem execSendcmd_runs (idx : Nat) (shape : Shape) (dir : Dir) (s : State) :
    Runs (.sendcmd idx shape dir) s (execSendcmd idx shape dir s) := by
  refine .withCfg (by simp) fun _ => .withA fun a _ => ?_
  have k0 := setResponse_keeps .zero s.rspWords s
  simp only
  split
  · exact .op (r := .stop (.raised .notSupported) (s.setResponse .zero s.rspWords))
      (latch_update [.rspCount, .rspWords] k0 (.fail _ ⟨rfl, fun _ => rfl⟩)
        (hr := fun _ => setResponse_zero_known _ s)
        (hp := by simp [frameParts, sendcmdParts, sendcmdStopParts]))
  · rename_i w hw
    have d := runCommand_does (L := (Instr.sendcmd idx shape dir).wf = true) (cfgOf s) w (low32 a)
      (s.setResponse .zero s.rspWords)
      fun l => .inr ⟨idx, shape, (cfgOf s).dmaCapable, of_decide_eq_true l, hw⟩
    refine .op (latch_update _ k0 (((d.mono (fun e he => ?_) ?_ ?_)).value fun _ => (0 : DWord))
      (hr := fun _ => setResponse_zero_known _ s)
      (hp := by simp [frameParts, sendcmdParts, sendcmdStopParts]))
    · rcases he with rfl | ⟨v, rfl⟩ <;> exact ⟨rfl, fun _ => rfl⟩
    · refine List.append_subset.mpr ⟨?_, List.Subset.trans (commandParts_beside _ _) ?_⟩
      · change runParts ⊆ .halted :: .errStatus :: sendcmdParts; decide
      · change besideParts ⊆ .halted :: .errStatus :: sendcmdParts; decide
    · simp only [eventBound, setResponse_params]; omega

theorem execClassify_runs (s : State) : Runs .classify s (execClassify s) := by
  refine .withA fun a _ => ?_
  simp only
  split
  · exact .err _ ⟨rfl, fun h => absurd rfl h⟩
  · exact .fin _

theorem execExtract_runs (s : State) : Runs .extract s (execExtract s) :=
  .inExec (by simp) fun _ => .withA fun _ _ => .opExec rfl
    (((extractResponse_does _ _ _ _).sub).value fun _ => (0 : DWord))

theorem execUpdclk_runs (s : State) : Runs .updclk s (execUpdclk s) :=
  .inExec (by simp) fun _ => .opExec rfl
    (((handshake_does _ (fatal_raised rfl) (s.setFsm .exec)).sub).value fun _ => (0 : DWord))

theorem execSetclk_runs (s : State) : Runs .setclk s (execSetclk s) := by
  refine .inExec (by simp) fun _ => .withA fun a _ => ?_
  split
  · exact .errExec rfl _ ⟨rfl, fun _ => rfl⟩
  · rename_i d hd
    obtain ⟨h1, h2⟩ := divisor_range hd
    exact .opExec rfl
      (((setClockSeq_does _ (fatal_raised rfl) h1 h2 (s.setFsm .exec)).sub).value fun _ => BitVec.ofNat 64 d)

theorem execSetwidth_runs (s : State) : Runs .setwidth s (execSetwidth s) := by
  refine .inExec (by simp) fun _ => .withA fun a _ => ?_
  simp only
  split
  · exact .errExec rfl _ ⟨rfl, fun _ => rfl⟩
  · rename_i code hw
    exact .opExec rfl (((programWidth_does _ _ hw (s.setFsm .exec)).sub).value fun _ => (0 : DWord))

/-- The clock sequence and then the width (42_clock_controller.md R285, 44_facade_transfer.md R350). -/
theorem sequenceThenWidth_does (c : Cfg) {E : Err → Prop} (hE : E .fatalTimeout) {d width : Nat} {code : Word}
    (h1 : 1 ≤ d) (h2 : d ≤ 255) (hw : ctypeCode width = some code) (s : State) :
    Does L c E (.regCtype :: .busWidth :: sequenceParts)
      (s.params.nBusy + 4 + 3 * handshakeBound s.params + 1) s
      ((setClockSeq c d s).andThen fun t => programWidth c width code t) :=
  ((setClockSeq_does c hE h1 h2 s).sub).andThen fun t _ => (programWidth_does c E hw t).sub

theorem execCfgbus_runs (s : State) : Runs .cfgbus s (execCfgbus s) := by
  refine .inExec (by simp) fun _ => .withA fun a _ => .withB fun b _ => ?_
  simp only
  split
  · exact .errExec rfl _ ⟨rfl, fun _ => rfl⟩
  · rename_i code hw
    split
    · exact .errExec rfl _ ⟨rfl, fun _ => rfl⟩
    · rename_i d hd
      obtain ⟨h1, h2⟩ := divisor_range hd
      have k := ((sequenceThenWidth_does (L := Instr.cfgbus.wf = true) (cfgOf s)
        (fatal_raised (i := .cfgbus) rfl) h1 h2 hw (s.setFsm .exec)).sub (qs := frameParts .cfgbus)).value fun _ => BitVec.ofNat 64 d
      have e : ((setClockSeq (cfgOf s) d (s.setFsm .exec)).andThen
            fun t => programWidth (cfgOf s) (low32 b).toNat code t).bind
          (fun _ t => Res.ok (BitVec.ofNat 64 d) t) =
          (setClockSeq (cfgOf s) d (s.setFsm .exec)).andThen fun t =>
            (programWidth (cfgOf s) (low32 b).toNat code t).bind fun _ t => .ok (BitVec.ofNat 64 d) t := by
        cases setClockSeq (cfgOf s) d (s.setFsm .exec) <;> rfl
      rw [e] at k
      exact .opExec rfl k

theorem execInit_runs (s : State) : Runs .init s (execInit s) := by
  unfold execInit
  have err : Runs .init s (raiseError .configError (s.setFsm .exec)) := .errExec rfl _ ⟨rfl, fun _ => rfl⟩
  by_cases hv : s.cfgValid = true
  · rw [if_pos hv]; exact err
  by_cases hacc : configAccepted s.cfgIn = true
  swap
  · rw [if_neg hv, if_neg hacc]; exact err
  rw [if_neg hv, if_pos hacc]
  cases hd : divisor s.cfgIn.srcClkHz.toNat s.cfgIn.initClkHz.toNat with
  | none => exact err
  | some d =>
    cases hw : ctypeCode s.cfgIn.initWidth.toNat with
    | none => exact err
    | some code =>
      obtain ⟨h1, h2⟩ := divisor_range hd
      have g : cfgOf s = s.cfgIn.toCfg := by rw [cfgOf, if_neg hv]
      have k := ((sequenceThenWidth_does (L := Instr.init.wf = true) (cfgOf s) (fatal_raised (i := .init) rfl) h1 h2 hw
        ((s.setFsm .exec).setCfg (cfgOf s))).sub (qs := frameParts .init)).value fun _ => BitVec.ofNat 64 d
      rw [g] at k
      refine .inr ⟨(s.setFsm .exec).setCfg s.cfgIn.toCfg, _, rfl,
        .inr ⟨rfl, by simpa using hv, hacc, rfl⟩, ?_⟩
      rw [g]; exact k

theorem config_raised {i : Instr} (h : mayEndWith i .configError = true) : RaisedBy i .configError :=
  ⟨h, fun _ => rfl⟩

theorem execBuild_runs (s : State) : Runs .build s (execBuild s) := by
  refine .inExec (by simp) fun _ => .withA fun a _ => .withB fun b hb => .withC fun k hk => ?_
  refine .opExec rfl (((buildChain_does (cfgOf s) (config_raised rfl) a.toNat b.toNat k.toNat
    (s.setFsm .exec)).mono (fun _ => id) (by decide) ?_).value fun n => BitVec.ofNat 64 n)
  simp [eventBound, hb, hk]

/-- PREPARE's checks raise only errors it can end with. -/
theorem checkPrepare_raised {c : Cfg} {buf size : Nat} {e : Err} (h : checkPrepare c buf size = some e) :
    RaisedBy .prepare e := by
  simp only [checkPrepare] at h
  repeat' split at h
  all_goals (first | (cases h; exact ⟨rfl, fun _ => rfl⟩) | exact nomatch h)

theorem execPrepare_runs (s : State) : Runs .prepare s (execPrepare s) := by
  refine .inExec (by simp) fun hc => .withB fun b hb => .withC fun k hk => ?_
  split
  · rename_i e he; exact .errExec rfl _ (checkPrepare_raised he)
  · refine .opExec rfl (((runPrepare_does (cfgOf s) (config_raised rfl) b.toNat k.toNat
      (s.setFsm .exec)).mono (fun _ => id) (by decide) ?_).value fun n => BitVec.ofNat 64 n)
    simp only [eventBound, hk, Latch.holds_val]
    rw [show s.cfg.val = cfgOf s by rw [hc]; rfl]

theorem execRead_runs (s : State) : Runs .read s (execRead s) := by
  refine .inExec (by simp) fun hc => .withA fun a _ => .withB fun b hb => ?_
  simp only
  split
  · exact .finExec rfl _
  split
  · exact .errExec rfl _ ⟨rfl, fun _ => rfl⟩
  split
  · exact .errExec rfl _ ⟨rfl, fun _ => rfl⟩
  rename_i hd _ _
  refine .opExec rfl (((forRange_does (fun i t => drainWord_does (cfgOf s) _ a.toNat i t) 0 _
    (s.setFsm .exec)).mono (fun _ => id) (by decide) ?_).value fun _ => BitVec.ofNat 64 (b.toNat / 4))
  simp only [eventBound, hb, Latch.holds_val]
  rw [show s.cfg.val = cfgOf s by rw [hc]; rfl, if_neg hd]

theorem execWrite_runs (s : State) : Runs .write s (execWrite s) := by
  refine .inExec (by simp) fun _ => ?_
  split
  · exact .finExec rfl _
  · exact .errExec rfl _ ⟨rfl, fun _ => rfl⟩

/-- What every instruction of the block can do. -/
theorem exec_runs {i : Instr} (h : i.agent = .block) (s : State) : Runs i s (exec i s) := by
  cases i with
  | init => exact execInit_runs s
  | encode idx shape => exact execEncode_runs idx shape s
  | sendcmd idx shape dir => exact execSendcmd_runs idx shape dir s
  | classify => exact execClassify_runs s
  | extract => exact execExtract_runs s
  | updclk => exact execUpdclk_runs s
  | setclk => exact execSetclk_runs s
  | setwidth => exact execSetwidth_runs s
  | cfgbus => exact execCfgbus_runs s
  | build => exact execBuild_runs s
  | prepare => exact execPrepare_runs s
  | read => exact execRead_runs s
  | write => exact execWrite_runs s
  | cmdwInit idx shape => exact nomatch h
  | cmdwStop idx shape => exact nomatch h
  | cmdwStatus idx shape => exact nomatch h
  | cmdwRead idx shape => exact nomatch h
  | cmdwWrite idx shape => exact nomatch h
  | cmdwOther idx shape => exact nomatch h
  | cmdwHs => exact nomatch h
  | des0First => exact nomatch h
  | des0Middle => exact nomatch h
  | des0Last => exact nomatch h
  | des0Single => exact nomatch h

/-! ## How the procedure ends -/

/-- The response port driven, in whatever state. -/
theorem respond_next {code : ResultCode} {value : DWord} {status : Word} {s t : State}
    (h : respond code value status s = .next t) :
    ∃ ws, t = { s with resp := some ⟨code, value, status, s.rspCount, ws⟩ } := by
  unfold respond at h
  split at h
  · exact nomatch h
  · rename_i ws _; exact ⟨ws, (Host.Outcome.next.inj h).symm⟩

theorem respond_keeps {code : ResultCode} {value : DWord} {status : Word} {s t : State}
    (h : respond code value status s = .next t) : KeepsAllBut [.resp] s t := by
  obtain ⟨ws, rfl⟩ := respond_next h
  intro p hp; cases p <;> first | rfl | simp at hp

/-- Everything an end can do when it gives a next state: a reset abandons it, or it is answered; only FATAL_TIMEOUT
changes `halted`. -/
theorem endOp_next {r : Res DWord} {t : State} (h : endOp r = .next t) :
    (t = resetEvent r.state ∧ (r.state.rst = some 0 ∨ r = .stop .reset r.state)) ∨
    (r.state.rst ≠ some 0 ∧ ∃ code value status ws, t.resp = some ⟨code, value, status, r.state.rspCount, ws⟩ ∧
      t.fsm = (if code = .fatalTimeout then .halted else .idle) ∧
      t.halted = (if code = .fatalTimeout then true else r.state.halted) ∧
      KeepsAllBut [.fsm, .halted, .resp, .trace] r.state t ∧
      (KeepsAllBut [.fsm, .resp, .trace] r.state t ∨ r = .stop (.raised .fatalTimeout) r.state)) := by
  by_cases hr : r.state.rst = some 0
  · refine .inl ⟨?_, .inl hr⟩
    cases r with
    | ok v s => exact (Host.Outcome.next.inj ((finish_reset hr v).symm.trans h)).symm
    | stop e s =>
      cases e with
      | reset => exact (Host.Outcome.next.inj h).symm
      | raised e => exact (Host.Outcome.next.inj ((raiseError_reset hr e).symm.trans h)).symm
  cases r with
  | ok v s =>
    rw [endOp_ok, finish, unlessReset_pos (s := s) hr] at h
    obtain ⟨ws, rfl⟩ := respond_next h
    exact .inr ⟨hr, .ok, v, 0, ws, rfl, rfl, rfl, fun p hp => by cases p <;> first | rfl | simp at hp,
      .inl fun p hp => by cases p <;> first | rfl | simp at hp⟩
  | stop e s =>
    cases e with
    | reset => exact .inl ⟨(Host.Outcome.next.inj h).symm, .inr rfl⟩
    | raised e =>
      rw [endOp_raised, raiseError.eq_def, unlessReset_pos (s := s) hr] at h
      cases e with
      | fatalTimeout =>
        obtain ⟨ws, rfl⟩ := respond_next h
        exact .inr ⟨hr, _, _, _, ws, rfl, rfl, rfl, fun p hp => by cases p <;> first | rfl | simp at hp,
          .inr rfl⟩
      | _ =>
        obtain ⟨ws, rfl⟩ := respond_next h
        exact .inr ⟨hr, _, _, _, ws, rfl, rfl, rfl, fun p hp => by cases p <;> first | rfl | simp at hp,
          .inl fun p hp => by cases p <;> first | rfl | simp at hp⟩

/-- Everything an end can do when the port can be driven. -/
theorem endOp_known {r : Res DWord} (h : ResponseKnown r.state) :
    ((r.state.rst = some 0 ∨ r = .stop .reset r.state) ∧ endOp r = .next (resetEvent r.state)) ∨
    (r.state.rst ≠ some 0 ∧
      ((∃ v, r = .ok v r.state ∧ endOp r = .next (answered .ok v 0 r.state)) ∨
       (r = .stop (.raised .fatalTimeout) r.state ∧ endOp r = .next (halts r.state)) ∨
       (∃ e, e ≠ .fatalTimeout ∧ r = .stop (.raised e) r.state ∧
        endOp r = .next (answered e.code (e.value.setWidth 64) e.status r.state)))) := by
  by_cases hr : r.state.rst = some 0
  · refine .inl ⟨.inl hr, ?_⟩
    cases r with
    | ok v s => exact finish_reset hr v
    | stop e s =>
      cases e with
      | reset => rfl
      | raised e => exact raiseError_reset hr e
  cases r with
  | ok v s => exact .inr ⟨hr, .inl ⟨v, rfl, finish_known h hr v⟩⟩
  | stop e s =>
    cases e with
    | reset => exact .inl ⟨.inr rfl, rfl⟩
    | raised e =>
      by_cases he : e = .fatalTimeout
      · subst he; exact .inr ⟨hr, .inr (.inl ⟨rfl, raiseError_fatal h hr⟩)⟩
      · exact .inr ⟨hr, .inr (.inr ⟨e, he, rfl, raiseError_known h hr he⟩)⟩

end Sys2Proof.Machine
end

