-- ==== Sys2Proof/Laws/Moves.lean ====
section
/-! SUPPORT. What any sequence of moves keeps: memory canonical, the legal values, the configuration; how a coming
reset counts down with the events; and which events join the history. -/

namespace Sys2Proof.Machine

variable {L : Prop}

/-- What every move keeps, as implications from the state before to the state after. -/
structure MovesKeep (s t : State) : Prop where
  memory : MemoryCanonical s → MemoryCanonical t
  divisor : DivisorLegal s → DivisorLegal t
  width : WidthLegal s → WidthLegal t
  response : ResponseKnown s → ResponseKnown t

theorem MovesKeep.of {ps : List Part} {s t : State} (h : KeepsAllBut ps s t)
    (hp : Part.mem ∉ ps ∧ Part.dirty ∉ ps ∧ Part.clkDiv ∉ ps ∧ Part.busWidth ∉ ps ∧ Part.rspCount ∉ ps ∧
      Part.rspWords ∉ ps := by decide) : MovesKeep s t := by
  obtain ⟨h1, h2, h3, h4, h5, h6⟩ := hp
  have e1 : t.mem = s.mem := h _ h1
  have e2 : t.dirty = s.dirty := h _ h2
  have e3 : t.clkDiv = s.clkDiv := h _ h3
  have e4 : t.busWidth = s.busWidth := h _ h4
  refine ⟨fun g => ?_, fun g => ?_, fun g => ?_, fun g => g.of (h _ h5) (h _ h6)⟩
  · unfold MemoryCanonical; rw [e1, e2]; exact g
  · unfold DivisorLegal; rw [e3]; exact g
  · unfold WidthLegal; rw [e4]; exact g

theorem MovesKeep.trans {s t u : State} (h : MovesKeep s t) (g : MovesKeep t u) : MovesKeep s u :=
  ⟨g.1 ∘ h.1, g.2 ∘ h.2, g.3 ∘ h.3, g.4 ∘ h.4⟩

theorem Move.keep {c : Cfg} {s t : State} (h : Move L c s t) : MovesKeep s t := by
  cases h with
  | read r u hr ht =>
    exact (MovesKeep.of (tick_keeps ht)).trans (.of (readDone_keeps c r u) (by cases r <;> decide))
  | write r v u hr hv ht =>
    exact (MovesKeep.of (tick_keeps ht)).trans (.of (writeDone_keeps c r v u) (by cases r <;> decide))
  | store x w u ht =>
    have g := MovesKeep.of (tick_keeps ht)
    have k := (storeWord_keeps x w u).trans (record_keeps (.memWrite x 4 w) _)
    have e3 : ((u.storeWord x w).record (.memWrite x 4 w)).clkDiv = u.clkDiv := k .clkDiv (by decide)
    have e4 : ((u.storeWord x w).record (.memWrite x 4 w)).busWidth = u.busWidth := k .busWidth (by decide)
    refine g.trans ⟨fun h => storeWord_canonical h x w, fun h => ?_, fun h => ?_,
      fun h => h.of (k .rspCount (by decide)) (k .rspWords (by decide))⟩
    · unfold DivisorLegal; rw [e3]; exact h
    · unfold WidthLegal; rw [e4]; exact h
  | barrier u ht => exact (MovesKeep.of (tick_keeps ht)).trans (.of (record_keeps _ u))
  | clean x l u ht =>
    exact (MovesKeep.of (tick_keeps ht)).trans ⟨fun h => ⟨h.1, Dirty.clean_wf h.2 x l⟩, id, id, id⟩
  | delay n u ht => exact (MovesKeep.of (tick_keeps ht)).trans (.of (record_keeps _ u))
  | latch t hk hd hw hr =>
    refine ⟨fun g => ?_, hd, hw, hr⟩
    unfold MemoryCanonical
    rw [show t.mem = s.mem from hk .mem (by decide), show t.dirty = s.dirty from hk .dirty (by decide)]
    exact g
  | beside t hk hm =>
    refine ⟨fun g => ⟨hm g.1, ?_⟩, fun g => ?_, fun g => ?_,
      fun g => g.of (hk .rspCount (by decide)) (hk .rspWords (by decide))⟩
    · rw [show t.dirty = s.dirty from hk .dirty (by decide)]; exact g.2
    · unfold DivisorLegal; rw [show t.clkDiv = s.clkDiv from hk .clkDiv (by decide)]; exact g
    · unfold WidthLegal; rw [show t.busWidth = s.busWidth from hk .busWidth (by decide)]; exact g

theorem moves_keep {c : Cfg} {s t : State} (h : Relation.ReflTransGen (Move L c) s t) : MovesKeep s t := by
  induction h with
  | refl => exact ⟨id, id, id, id⟩
  | tail _ h ih => exact ih.trans h.keep

/-- A part that no move changes. -/
abbrev Settled (p : Part) : Prop := p ∈ [Part.cfg, .cfgValid, .params, .halted, .reqs]

theorem Move.settled {c : Cfg} {s t : State} (h : Move L c s t) {p : Part} (hp : Settled p) : p.same s t := by
  have x : ∀ ps, KeepsAllBut ps s t → (∀ q ∈ ps, q ∉ [Part.cfg, .cfgValid, .params, .halted, .reqs]) →
      p.same s t := fun ps k d => k p fun hm => d p hm hp
  cases h with
  | read r u hr ht =>
    exact x _ ((tick_keeps ht).trans (readDone_keeps c r u)) (by cases r <;> decide)
  | write r v u hr hv ht =>
    exact x _ ((tick_keeps ht).trans (writeDone_keeps c r v u)) (by cases r <;> decide)
  | store a w u ht =>
    exact x _ ((tick_keeps ht).trans ((storeWord_keeps a w u).trans (record_keeps _ _))) (by decide)
  | barrier u ht => exact x _ ((tick_keeps ht).trans (record_keeps _ _)) (by decide)
  | clean a l u ht => exact x _ ((tick_keeps ht).trans (cleanDone_keeps a l u)) (by decide)
  | delay n u ht => exact x _ ((tick_keeps ht).trans (record_keeps _ _)) (by decide)
  | latch t hk => exact x _ hk (by decide)
  | beside t hk => exact x _ hk (by decide)

/-- The configuration, the parameters, `halted` and the waiting requests are not a procedure's to change. -/
theorem moves_settled {c : Cfg} {s t : State} (h : Relation.ReflTransGen (Move L c) s t) {p : Part}
    (hp : Settled p) : p.same s t := by
  induction h with
  | refl => exact KeepsAllBut.refl [] _ p (List.not_mem_nil)
  | tail _ h ih => exact Part.same_trans ih (h.settled hp)

/-- With no reset coming none comes. -/
theorem moves_rst {c : Cfg} {s t : State} (h : Relation.ReflTransGen (Move L c) s t) (hr : s.rst = none) :
    t.rst = none := by
  induction h with
  | refl => exact hr
  | tail _ h ih =>
    have tk : ∀ {a u : State}, tick a = .ok () u → a.rst = none → u = a := by
      intro a u h1 h2; rw [tick_none h2] at h1; cases h1; rfl
    cases h with
    | read r u hr ht => rw [tk ht ih]; simpa using ih
    | write r v u hr hv ht => rw [tk ht ih]; simpa using ih
    | store x w u ht => rw [tk ht ih]; simpa using ih
    | barrier u ht => rw [tk ht ih]; exact ih
    | clean x l u ht => rw [tk ht ih]; exact ih
    | delay n u ht => rw [tk ht ih]; exact ih
    | latch t hk => exact (hk .rst (by decide)).trans ih
    | beside t hk => exact (hk .rst (by decide)).trans ih

theorem tick_counts {s u : State} (h : tick s = .ok () u) {k : Nat} (hk : s.rst = some k) :
    u.rst = some (k - 1) ∧ 1 ≤ k := by
  rcases tick_cases s with ⟨g, e⟩ | ⟨_, e⟩ | ⟨n, g, e⟩
  · rw [g] at hk; cases hk
  · rw [e] at h; cases h
  · rw [e] at h; cases h
    rw [g] at hk; cases hk
    exact ⟨rfl, by omega⟩

/-- A coming reset is nearer by one for every event (70_reset_and_hazards.md R450; log 11). -/
theorem Move.counts {c : Cfg} {s t : State} (h : Move L c s t) {k : Nat} (hk : s.rst = some k) :
    ∃ j, t.rst = some j ∧ t.hist.length + j = s.hist.length + k := by
  have ev : ∀ u v : State, tick s = .ok () u → v.rst = u.rst → v.hist.length = u.hist.length + 1 →
      ∃ j, v.rst = some j ∧ v.hist.length + j = s.hist.length + k := by
    intro u v ht hr hl
    obtain ⟨a, b⟩ := tick_counts ht hk
    have e : u.hist = s.hist := tick_keeps ht .hist (by decide)
    exact ⟨k - 1, hr.trans a, by rw [hl, e]; omega⟩
  cases h with
  | read r u hr ht => exact ev u _ ht (by simp) (by simp)
  | write r v u hr hv ht => exact ev u _ ht (by simp) (by simp)
  | store x w u ht => exact ev u _ ht (by simp) (by simp)
  | barrier u ht => exact ev u _ ht (by simp) (by simp)
  | clean x l u ht => exact ev u _ ht (by simp) (by simp)
  | delay n u ht => exact ev u _ ht (by simp) (by simp)
  | latch t hkp =>
    exact ⟨k, (hkp .rst (by decide)).trans hk, by rw [show t.hist = s.hist from hkp .hist (by decide)]⟩
  | beside t hkp =>
    exact ⟨k, (hkp .rst (by decide)).trans hk, by rw [show t.hist = s.hist from hkp .hist (by decide)]⟩

theorem moves_count {c : Cfg} {s t : State} (h : Relation.ReflTransGen (Move L c) s t) {k : Nat}
    (hk : s.rst = some k) : ∃ j, t.rst = some j ∧ t.hist.length + j = s.hist.length + k := by
  induction h with
  | refl => exact ⟨k, hk, rfl⟩
  | tail _ h ih =>
    obtain ⟨j, h1, h2⟩ := ih
    obtain ⟨j', h3, h4⟩ := h.counts h1
    exact ⟨j', h3, by omega⟩

/-- The history of `t` is that of `s` with legal events after it, from the base `b`. -/
def Grows (p : Params) (b : DWord) (s t : State) : Prop :=
  ∃ es, t.hist = s.hist ++ es ∧ ∀ e ∈ es, LegalEvent p b e

theorem Grows.trans {p : Params} {b : DWord} {s t u : State} (h : Grows p b s t) (g : Grows p b t u) :
    Grows p b s u := by
  obtain ⟨x, h1, h2⟩ := h
  obtain ⟨y, g1, g2⟩ := g
  refine ⟨x ++ y, by rw [g1, h1, List.append_assoc], fun e he => ?_⟩
  rcases List.mem_append.mp he with h | h
  · exact h2 e h
  · exact g2 e h

theorem Grows.same {p : Params} {b : DWord} {s t : State} (h : t.hist = s.hist) : Grows p b s t :=
  ⟨[], by simp [h], by simp⟩

theorem Move.grows {c : Cfg} {s t : State} (h : Move L c s t) (l : L) : Grows s.params c.regBase s t := by
  have ev : ∀ (u v : State) (e : Event), tick s = .ok () u → v.hist = u.hist ++ [e] →
      LegalEvent s.params c.regBase e → Grows s.params c.regBase s v := by
    intro u v e ht hv he
    exact ⟨[e], by rw [hv, show u.hist = s.hist from tick_keeps ht .hist (by decide)], by simpa using he⟩
  cases h with
  | read r u hr ht => exact ev u _ (.regRead c.regBase r u.nextAnswer) ht (by simp) ⟨rfl, hr⟩
  | write r v u hr hv ht => exact ev u _ (.regWrite c.regBase r v) ht (by simp) ⟨rfl, hr, hv l⟩
  | store x w u ht => exact ev u _ (.memWrite x 4 w) ht (by simp) rfl
  | barrier u ht => exact ev u _ .barrier ht (by simp) trivial
  | clean x l u ht => exact ev u _ (.cacheClean x l) ht (by simp) trivial
  | delay n u ht => exact ev u _ (.delay n) ht (by simp) trivial
  | latch t hk => exact .same (hk .hist (by decide))
  | beside t hk => exact .same (hk .hist (by decide))

theorem moves_grow {c : Cfg} {s t : State} (h : Relation.ReflTransGen (Move L c) s t) (l : L) :
    Grows s.params c.regBase s t := by
  induction h with
  | refl => exact .same rfl
  | tail m h ih =>
    have := h.grows l
    rw [show _ = s.params from moves_settled m (p := .params) (by decide)] at this
    exact ih.trans this

end Sys2Proof.Machine
end

