-- ==== Sys2Proof/Laws/PerInstr.lean ====
section
/-! SUPPORT. Families of lemmas with one lemma for every constructor of Instr. `Format`: bit 31 of an
instruction's word says whether the block executes it (30_encoding.md R113, R123, R136). -/

open Sys2Proof Sys2Proof.Machine

/-- Bit 31 of the instruction's word is clear exactly when the block executes it. -/
def Sys2Proof.Laws.Format.Statement (i : Instr) : Prop :=
  (encode i).getLsbD 31 = false ↔ i.agent = .block

namespace Sys2Proof.Laws

theorem request_format {i : Instr} {dir shape : BitVec 2} {idx : Nat} {op : BitVec 4}
    (he : encode i = requestWord dir shape idx op) (hi : i.agent = .block) : Format.Statement i := by
  rw [Format.Statement, he, requestWord_getLsbD_31]; exact ⟨fun _ => hi, fun _ => rfl⟩

theorem command_format {i : Instr} {cls : CmdClass} {shape : Shape} {idx : Nat}
    (he : encode i = commandWord defaultCmdBits cls shape idx) (hi : i.agent = .controller) :
    Format.Statement i := by
  rw [Format.Statement, he, commandWord_getLsbD_31, hi]; decide

theorem Format.init : Format.Statement .init := request_format rfl rfl
theorem Format.encode (idx : Nat) (shape : Shape) : Format.Statement (.encode idx shape) :=
  request_format rfl rfl
theorem Format.sendcmd (idx : Nat) (shape : Shape) (dir : Dir) : Format.Statement (.sendcmd idx shape dir) :=
  request_format rfl rfl
theorem Format.classify : Format.Statement .classify := request_format rfl rfl
theorem Format.extract : Format.Statement .extract := request_format rfl rfl
theorem Format.updclk : Format.Statement .updclk := request_format rfl rfl
theorem Format.setclk : Format.Statement .setclk := request_format rfl rfl
theorem Format.setwidth : Format.Statement .setwidth := request_format rfl rfl
theorem Format.cfgbus : Format.Statement .cfgbus := request_format rfl rfl
theorem Format.build : Format.Statement .build := request_format rfl rfl
theorem Format.prepare : Format.Statement .prepare := request_format rfl rfl
theorem Format.read : Format.Statement .read := request_format rfl rfl
theorem Format.write : Format.Statement .write := request_format rfl rfl
theorem Format.cmdwInit (idx : Nat) (shape : Shape) : Format.Statement (.cmdwInit idx shape) :=
  command_format rfl rfl
theorem Format.cmdwStop (idx : Nat) (shape : Shape) : Format.Statement (.cmdwStop idx shape) :=
  command_format rfl rfl
theorem Format.cmdwStatus (idx : Nat) (shape : Shape) : Format.Statement (.cmdwStatus idx shape) :=
  command_format rfl rfl
theorem Format.cmdwRead (idx : Nat) (shape : Shape) : Format.Statement (.cmdwRead idx shape) :=
  command_format rfl rfl
theorem Format.cmdwWrite (idx : Nat) (shape : Shape) : Format.Statement (.cmdwWrite idx shape) :=
  command_format rfl rfl
theorem Format.cmdwOther (idx : Nat) (shape : Shape) : Format.Statement (.cmdwOther idx shape) :=
  command_format rfl rfl
theorem Format.cmdwHs : Format.Statement .cmdwHs := by rw [Format.Statement]; decide
theorem Format.des0First : Format.Statement .des0First := by rw [Format.Statement]; decide
theorem Format.des0Middle : Format.Statement .des0Middle := by rw [Format.Statement]; decide
theorem Format.des0Last : Format.Statement .des0Last := by rw [Format.Statement]; decide
theorem Format.des0Single : Format.Statement .des0Single := by rw [Format.Statement]; decide

end Sys2Proof.Laws
end

