-- ==== Sys2Proof/Laws/Runs.lean ====
section
/-! SUPPORT. What the procedures of the block do when no reset is coming and the answers are known: the state
each leaves, its events and its frame. -/

namespace Sys2Proof.Machine

/-- `t` stands `k` draws and the events `es` after `s`, and only `ps` has changed beside. -/
structure Ran (ps : List Part) (k : Nat) (es : List Event) (s t : State) : Prop where
  drew : Drew k s t
  hist : t.hist = s.hist ++ es
  frame : KeepsAllBut (.answers :: .draws :: .hist :: ps) s t

section

variable {ps qs : List Part} {j k : Nat} {es fs : List Event} {s t u : State}

theorem Ran.refl (s : State) : Ran [] 0 [] s s := ⟨.refl s, by simp, .refl _ _⟩

theorem Ran.trans (h : Ran ps j es s t) (g : Ran ps k fs t u) : Ran ps (j + k) (es ++ fs) s u :=
  ⟨h.drew.trans g.drew, by rw [g.hist, h.hist, List.append_assoc], h.frame.trans_same g.frame⟩

theorem Ran.sub (h : Ran ps k es s t) (hp : ps ⊆ qs := by decide) : Ran qs k es s t :=
  ⟨h.drew, h.hist, h.frame.mono (List.cons_subset_cons _ (List.cons_subset_cons _
    (List.cons_subset_cons _ hp)))⟩

/-- A part that is not listed is unchanged. -/
theorem Ran.same (h : Ran ps k es s t) (p : Part)
    (hp : p ∉ Part.answers :: .draws :: .hist :: ps := by decide) : p.same s t := h.frame p hp

theorem Ran.drawAt (h : Ran ps k es s t) (i : Nat) : drawAt t i = drawAt s (k + i) := h.drew.drawAt i

/-- An update of latches. -/
theorem Ran.latch (hk : KeepsAllBut ps s t)
    (hp : Part.answers ∉ ps ∧ Part.draws ∉ ps ∧ Part.hist ∉ ps := by decide) : Ran ps 0 [] s t := by
  refine ⟨⟨?_, ?_⟩, ?_, hk.mono fun _ h => by simp [h]⟩
  · exact (hk .answers hp.1).trans (by simp)
  · exact (hk .draws hp.2.1).trans (by simp)
  · exact (hk .hist hp.2.2).trans (by simp)

end

/-- The registers' last values are unchanged when each of them is. -/
theorem KeepsAllBut.regs {ps : List Part} {s t : State} (h : KeepsAllBut ps s t)
    (hp : ∀ p ∈ [Part.regClkdiv, .regClksrc, .regClkena, .regCtype, .regBytcnt, .regCmdarg, .regCmd, .regDbaddr],
      p ∉ ps) : t.ctl.regs = s.ctl.regs := by
  have h0 := h .regClkdiv (hp _ (by decide))
  have h1 := h .regClksrc (hp _ (by decide))
  have h2 := h .regClkena (hp _ (by decide))
  have h3 := h .regCtype (hp _ (by decide))
  have h4 := h .regBytcnt (hp _ (by decide))
  have h5 := h .regCmdarg (hp _ (by decide))
  have h6 := h .regCmd (hp _ (by decide))
  have h7 := h .regDbaddr (hp _ (by decide))
  simp only [Part.same] at h0 h1 h2 h3 h4 h5 h6 h7
  cases hs : s.ctl.regs; cases ht : t.ctl.regs
  simp_all

/-- A run without a draw keeps the answers still to come. -/
theorem Ran.keeps {ps : List Part} {es : List Event} {s t : State} (h : Ran ps 0 es s t) :
    KeepsAllBut (.hist :: ps) s t := by
  intro p hp
  by_cases ha : p = .answers
  · subst ha; exact h.drew.answers
  · by_cases hd : p = .draws
    · subst hd; exact h.drew.draws
    · exact h.frame p (by simp only [List.mem_cons, not_or] at hp ⊢; exact ⟨ha, hd, hp⟩)

/-- A run and then an update of latches. -/
theorem Ran.thenLatch {ps qs : List Part} {k : Nat} {es : List Event} {s t u : State} (h : Ran ps k es s t)
    (hk : KeepsAllBut qs t u)
    (hq : Part.answers ∉ qs ∧ Part.draws ∉ qs ∧ Part.hist ∉ qs := by decide) :
    Ran (ps ++ qs) k es s u := by
  have r := (h.sub (List.subset_append_left ps qs)).trans
    ((Ran.latch hk hq).sub (List.subset_append_right ps qs))
  simpa using r

/-! ## How an operation that has run ends -/

section

variable {s t : State} {ps : List Part} {k : Nat} {es : List Event} {path : List Fsm}

/-- An operation that ran from `s` to `t` ends with OK. -/
theorem finish_end (v : DWord) (r : Ran ps k es s t) (hk : ResponseKnown t) (hr : t.rst ≠ some 0)
    (ht : t.trace = s.trace ++ path) :
    ∃ u, finish v t = .next u ∧ u.fsm = .idle ∧ Drives u .ok v 0 ∧ u.hist = s.hist ++ es ∧
      u.trace = s.trace ++ (path ++ [.idle]) ∧ KeepsAllBut [.fsm, .resp, .trace] t u ∧
      Ran (ps ++ [.fsm, .resp, .trace]) k es s u :=
  ⟨answered .ok v 0 t, finish_known hk hr v, rfl, rfl, r.hist, by simp [ht], answered_keeps _ _ _ _,
    r.thenLatch (answered_keeps .ok v 0 t)⟩

/-- An operation that ran from `s` to `t` raises an error that does not halt the block. -/
theorem raise_end {e : Err} (he : e ≠ .fatalTimeout) (r : Ran ps k es s t) (hk : ResponseKnown t)
    (hr : t.rst ≠ some 0) (ht : t.trace = s.trace ++ path) :
    ∃ u, raiseError e t = .next u ∧ u.fsm = .idle ∧ Drives u e.code (e.value.setWidth 64) e.status ∧
      u.hist = s.hist ++ es ∧ u.trace = s.trace ++ (path ++ [.idle]) ∧
      KeepsAllBut [.fsm, .resp, .trace] t u ∧ Ran (ps ++ [.fsm, .resp, .trace]) k es s u :=
  ⟨answered e.code (e.value.setWidth 64) e.status t, raiseError_known hk hr he, rfl, rfl, r.hist, by simp [ht],
    answered_keeps _ _ _ _, r.thenLatch (answered_keeps _ _ _ t)⟩

/-- An operation that ran from `s` to `t` raises FATAL_TIMEOUT. -/
theorem halt_end (r : Ran ps k es s t) (hk : ResponseKnown t) (hr : t.rst ≠ some 0)
    (ht : t.trace = s.trace ++ path) :
    ∃ u, raiseError .fatalTimeout t = .next u ∧ u.fsm = .halted ∧ u.halted = true ∧
      Drives u .fatalTimeout 0 0 ∧ u.hist = s.hist ++ es ∧ u.trace = s.trace ++ (path ++ [.halted]) ∧
      KeepsAllBut [.fsm, .halted, .resp, .trace] t u ∧
      Ran (ps ++ [.fsm, .halted, .resp, .trace]) k es s u :=
  ⟨halts t, raiseError_fatal hk hr, rfl, rfl, rfl, r.hist, by simp [ht], halts_keeps t,
    r.thenLatch (halts_keeps t)⟩

end

/-! ## The primitives -/

theorem readDone_ran (c : Cfg) (r : CtlReg) (s : State) :
    Ran (shownParts r) 1 [.regRead c.regBase r (drawAt s 0)] s (s.readDone c r) :=
  ⟨⟨by simp, by simp⟩, by simp [nextAnswer_eq], readDone_keeps c r s⟩

theorem writeDone_ran (c : Cfg) (r : CtlReg) (v : Word) (s : State) :
    Ran (writeParts r) 0 [.regWrite c.regBase r v] s (s.writeDone c r v) :=
  ⟨⟨by simp, by simp⟩, by simp, (writeDone_keeps c r v s).mono (by simp)⟩

theorem record_ran (e : Event) (s : State) : Ran [] 0 [e] s (s.record e) :=
  ⟨⟨by simp, by simp⟩, by simp, (record_keeps e s).mono (by simp)⟩

theorem cleanDone_ran (a len : Nat) (s : State) :
    Ran [.dirty] 0 [.cacheClean a len] s (s.cleanDone a len) :=
  ⟨⟨by simp, by simp⟩, by simp, (cleanDone_keeps a len s).mono (by simp)⟩

theorem store_ran (a : Nat) (w : Word) (s : State) :
    Ran [.mem, .dirty] 0 [.memWrite a 4 w] s ((s.storeWord a w).record (.memWrite a 4 w)) :=
  ⟨⟨by simp, by simp⟩, by simp, ((storeWord_keeps a w s).trans (record_keeps _ _)).mono (by decide)⟩

/-! ## Terms over a later state -/

section

variable {s t : State} {off : Nat} (h : Drew off s t) (hp : t.params = s.params)
include h

theorem statusReads_later (c : Cfg) (n : Nat) : statusReads c t 0 n = statusReads c s off n := by
  simp only [statusReads, h.drawAt, Nat.zero_add]

theorem sawBit_later (k : Nat) (mask : Word) : sawBit t 0 k mask = sawBit s off k mask := by
  simp only [sawBit, h.drawAt, Nat.zero_add]

theorem respReads_later (c : Cfg) (n : RespCount) : respReads c t 0 n = respReads c s off n := by
  cases n <;> simp only [respReads, h.drawAt, Nat.zero_add, Nat.add_zero]

include hp

theorem BusyEnds.later {m : Nat} (b : BusyEnds s off m) : BusyEnds t 0 m := by
  obtain ⟨b1, b2, b3⟩ := b
  refine ⟨by rw [hp]; exact b1, fun k hk => ?_, ?_⟩
  · rw [hp, h.drawAt, Nat.zero_add]; exact b2 k hk
  · rw [hp, h.drawAt, Nat.zero_add]; exact b3

theorem BusyRunsOut.later (b : BusyRunsOut s off) : BusyRunsOut t 0 := fun k hk => by
  rw [hp, h.drawAt, Nat.zero_add]; exact b k (by rw [← hp]; exact hk)

theorem HandshakeEnds.later {n : Nat} (b : HandshakeEnds s off n) : HandshakeEnds t 0 n := by
  obtain ⟨b1, b2, b3⟩ := b
  refine ⟨by rw [hp]; exact b1, fun k hk => ?_, ?_⟩
  · simp only [startSet, hp, h.drawAt, Nat.zero_add]; exact b2 k hk
  · simp only [startSet, hp, h.drawAt, Nat.zero_add]; exact b3

theorem HandshakeRunsOut.later (b : HandshakeRunsOut s off) : HandshakeRunsOut t 0 := fun k hk => by
  simp only [startSet, hp, h.drawAt, Nat.zero_add]; exact b k (by rw [← hp]; exact hk)

theorem handshakePoll_later (c : Cfg) (k : Nat) : handshakePoll c t 0 k = handshakePoll c s off k := by
  simp only [handshakePoll, hp, h.drawAt, Nat.zero_add, Nat.add_assoc]

theorem handshakePolls_later (c : Cfg) (n : Nat) : handshakePolls c t 0 n = handshakePolls c s off n := by
  simp only [handshakePolls, hp, funext (handshakePoll_later h hp c)]

theorem handshakeEvents_later (c : Cfg) (n : Nat) :
    handshakeEvents c t 0 n = handshakeEvents c s off n := by
  simp only [handshakeEvents, handshakePolls_later h hp, h.drawAt, Nat.zero_add]

theorem pollComplete_later (data : Bool) (k : Nat) :
    pollComplete t 0 data k = pollComplete s off data k := by
  simp only [pollComplete, hp, sawBit_later h]

theorem PollQuiet.later {data : Bool} {n : Nat} (b : PollQuiet s off data n) : PollQuiet t 0 data n :=
  fun k hk => by
    rw [hp, h.drawAt, Nat.zero_add, pollComplete_later h hp]; exact b k hk

theorem PollEnds.later {data : Bool} {n : Nat} (b : PollEnds s off data n) : PollEnds t 0 data n := by
  obtain ⟨b1, b2, b3, b4⟩ := b
  refine ⟨by rw [hp]; exact b1, b2.later h hp, ?_, ?_⟩
  · rw [hp, h.drawAt, Nat.zero_add]; exact b3
  · rw [pollComplete_later h hp]; exact b4

theorem PollFails.later {data : Bool} {n : Nat} (b : PollFails s off data n) : PollFails t 0 data n := by
  obtain ⟨b1, b2, b3⟩ := b
  refine ⟨by rw [hp]; exact b1, b2.later h hp, ?_⟩
  rw [hp, h.drawAt, Nat.zero_add]; exact b3

theorem pollEvents_later (c : Cfg) (data : Bool) (n : Nat) :
    pollEvents c t 0 data n = pollEvents c s off data n := by
  simp only [pollEvents, pollRead, pollClears, hp, h.drawAt, Nat.zero_add, sawBit_later h]

end

/-! ## The busy wait -/

/-- The state after one poll of STATUS. -/
theorem busyPoll_ran (c : Cfg) (s : State) :
    Ran [.cnt] 1 [.regRead c.regBase .status (drawAt s 0)] s (s.readDone c .status).count :=
  (readDone_ran c .status s).sub.trans (.latch (count_keeps _))

theorem statusReads_succ (c : Cfg) (s : State) (n : Nat) :
    statusReads c s 0 (n + 1) = [.regRead c.regBase .status (drawAt s 0)] ++ statusReads c s 1 n := by
  simp only [statusReads, List.range_succ_eq_map, List.map_cons, List.map_map, Nat.zero_add]
  simp [Function.comp_def, Nat.add_comm]

theorem busyLoop_ends (c : Cfg) (m : Nat) : ∀ (n j : Nat) (s : State), s.rst = none → m < n →
    (∀ k, k < m → isBusy s.params (drawAt s k) = true) → isBusy s.params (drawAt s m) = false →
    s.cnt = .holds (BitVec.ofNat 32 j) →
    ∃ t, busyLoop c n s = .ok () t ∧ Ran [.cnt] (m + 1) (statusReads c s 0 (m + 1)) s t ∧
      t.cnt = .holds (BitVec.ofNat 32 (j + (m + 1))) := by
  induction m with
  | zero =>
    intro n j s hr hn hb he hc
    obtain ⟨n, rfl⟩ : ∃ k, n = k + 1 := ⟨n - 1, by omega⟩
    refine ⟨(s.readDone c .status).count, ?_, busyPoll_ran c s, ?_⟩
    · simp [busyLoop, regRead_none hr, he]
    · simp [hc, BitVec.ofNat_add]
  | succ m ih =>
    intro n j s hr hn hb he hc
    obtain ⟨n, rfl⟩ : ∃ k, n = k + 1 := ⟨n - 1, by omega⟩
    have r1 := busyPoll_ran c s
    have hp : (s.readDone c .status).count.params = s.params := r1.same .params
    obtain ⟨t, e, r2, hc2⟩ := ih n (j + 1) (s.readDone c .status).count ((r1.same .rst).trans hr) (by omega)
      (fun k hk => by rw [hp, r1.drawAt, Nat.add_comm]; exact hb (k + 1) (by omega))
      (by rw [hp, r1.drawAt, Nat.add_comm]; exact he) (by simp [hc, BitVec.ofNat_add])
    refine ⟨t, ?_, ?_, by rw [hc2]; congr 2; omega⟩
    · simp only [busyLoop, regRead_none hr, bind_ok, readDone_params, hb 0 (by omega), if_true]; exact e
    · rw [statusReads_succ, Nat.add_comm, ← statusReads_later r1.drew c]; exact r1.trans r2

theorem busyLoop_runs_out (c : Cfg) (n : Nat) : ∀ (j : Nat) (s : State), s.rst = none →
    (∀ k, k < n → isBusy s.params (drawAt s k) = true) → s.cnt = .holds (BitVec.ofNat 32 j) →
    ∃ t, busyLoop c n s = .stop (.raised .fatalTimeout) t ∧ Ran [.cnt] n (statusReads c s 0 n) s t ∧
      t.cnt = .holds (BitVec.ofNat 32 (j + n)) := by
  induction n with
  | zero => exact fun j s _ _ hc => ⟨s, rfl, (Ran.refl s).sub, hc⟩
  | succ n ih =>
    intro j s hr hb hc
    have r1 := busyPoll_ran c s
    have hp : (s.readDone c .status).count.params = s.params := r1.same .params
    obtain ⟨t, e, r2, hc2⟩ := ih (j + 1) (s.readDone c .status).count ((r1.same .rst).trans hr)
      (fun k hk => by rw [hp, r1.drawAt, Nat.add_comm]; exact hb (k + 1) (by omega))
      (by simp [hc, BitVec.ofNat_add])
    refine ⟨t, ?_, ?_, by rw [hc2]; congr 2; omega⟩
    · simp only [busyLoop, regRead_none hr, bind_ok, readDone_params, hb 0 (by omega), if_true]; exact e
    · rw [statusReads_succ, Nat.add_comm, ← statusReads_later r1.drew c]; exact r1.trans r2

/-- The busy wait that returns at its read `m`. -/
theorem busyWait_ends (c : Cfg) {s : State} {m : Nat} (hr : s.rst = none) (h : BusyEnds s 0 m) :
    ∃ t, busyWait c s = .ok () t ∧ Ran [.cnt] (m + 1) (statusReads c s 0 (m + 1)) s t ∧
      t.cnt = .holds (BitVec.ofNat 32 (m + 1)) := by
  have r0 : Ran [.cnt] 0 [] s s.startCount := .latch (startCount_keeps s)
  obtain ⟨h1, h2, h3⟩ := h.later r0.drew (r0.same .params)
  simp only [Nat.zero_add] at h2 h3
  obtain ⟨t, e, r, hc⟩ := busyLoop_ends c m s.params.nBusy 0 s.startCount hr h1 h2 h3 rfl
  rw [statusReads_later r0.drew c] at r
  exact ⟨t, e, by simpa using r0.trans r, by simpa using hc⟩

/-- The busy wait that exhausts its budget. -/
theorem busyWait_runs_out (c : Cfg) {s : State} (hr : s.rst = none) (h : BusyRunsOut s 0) :
    ∃ t, busyWait c s = .stop (.raised .fatalTimeout) t ∧
      Ran [.cnt] s.params.nBusy (statusReads c s 0 s.params.nBusy) s t ∧
      t.cnt = .holds (BitVec.ofNat 32 s.params.nBusy) := by
  have r0 : Ran [.cnt] 0 [] s s.startCount := .latch (startCount_keeps s)
  have h2 := h.later r0.drew (r0.same .params)
  simp only [BusyRunsOut, Nat.zero_add] at h2
  obtain ⟨t, e, r, hc⟩ := busyLoop_runs_out c s.params.nBusy 0 s.startCount hr h2 rfl
  rw [statusReads_later r0.drew c] at r
  exact ⟨t, e, by simpa using r0.trans r, by simpa using hc⟩

/-! ## Issuing a command -/

/-- What a CMD write with START adds to the commands started (20_memory.md R87). -/
def startedAfter (c : Cfg) (arg w : Word) (s : State) : List Started :=
  if anySet w (bit s.params.cmdBits.start) then
    s.ctl.started ++ [⟨w, { s.ctl.regs with cmdarg := .holds arg, cmd := .holds w }, c.dmaCapable⟩]
  else s.ctl.started

/-- `issue` (41_command_dispatch.md R202). -/
theorem issue_ran (c : Cfg) (arg w : Word) {s : State} (hr : s.rst = none) :
    ∃ t, issue c arg w s = .ok () t ∧
      Ran [.pending, .regCmdarg, .regCmd, .started] 0 (issueEvents c arg w) s t ∧
      t.ctl.pending = .holds 0 ∧ t.ctl.regs.cmdarg = .holds arg ∧ t.ctl.regs.cmd = .holds w ∧
      t.ctl.started = startedAfter c arg w s := by
  have r1 := (writeDone_ran c .rintsts clearAll s).sub (qs := [.pending, .regCmdarg, .regCmd, .started])
  have r2 := r1.trans (writeDone_ran c .cmdarg arg _).sub
  have r3 := r2.trans (record_ran .barrier _).sub
  have r4 := r3.trans (writeDone_ran c .cmd w _).sub
  refine ⟨_, ?_, r4, ?_⟩
  · simp only [issue]
    rw [regWrite_none hr, andThen_ok, regWrite_none (by simpa using hr), andThen_ok,
      barrier_none (by simpa using hr), andThen_ok, regWrite_none (by simpa using hr)]
  · refine ⟨?_, ?_, ?_, ?_⟩ <;> simp [Controller.perform, clearBits, CtlRegs.write, startedAfter]

/-! ## The completion poll -/

/-- The parts the completion poll changes beside the answers. -/
def pollRunParts : List Part := [.pending, .cnt, .pollCmdDone, .pollDto]

theorem clearCmdDone_ran (c : Cfg) (v : Word) (done : Bool) {s : State} (hr : s.rst = none)
    (hd : s.pollCmdDone = .holds done) :
    ∃ t, clearCmdDone c v done s = .ok (done || anySet v (bit s.params.intBits.cmdDone)) t ∧
      Ran pollRunParts 0 (if anySet v (bit s.params.intBits.cmdDone) && !done then
        [.regWrite c.regBase .rintsts (bit s.params.intBits.cmdDone)] else []) s t ∧
      t.pollCmdDone = .holds (done || anySet v (bit s.params.intBits.cmdDone)) ∧
      t.pollDto = s.pollDto ∧ t.cnt = s.cnt := by
  by_cases h : anySet v (bit s.params.intBits.cmdDone) = true
  · cases done
    · refine ⟨(s.writeDone c .rintsts (bit s.params.intBits.cmdDone)).setCmdDone true, ?_, ?_, ?_⟩
      · simp [clearCmdDone, h, regWrite_none hr]
      · have r := (writeDone_ran c .rintsts (bit s.params.intBits.cmdDone) s).sub (qs := pollRunParts)
        simpa [h] using r.trans ((Ran.latch (setCmdDone_keeps true _)).sub)
      · simp [h]
    · exact ⟨s, by simp [clearCmdDone], by simpa using (Ran.refl s).sub, by simp [hd], rfl, rfl⟩
  · refine ⟨s, by simp [clearCmdDone, h], ?_, by simp [hd, h], rfl, rfl⟩
    simpa [h] using (Ran.refl s).sub

theorem clearDto_ran (c : Cfg) (v : Word) (data dto : Bool) {s : State} (hr : s.rst = none)
    (hd : s.pollDto = .holds dto) :
    ∃ t, clearDto c v data dto s = .ok (dto || data && anySet v (bit s.params.intBits.dto)) t ∧
      Ran pollRunParts 0 (if data && anySet v (bit s.params.intBits.dto) && !dto then
        [.regWrite c.regBase .rintsts (bit s.params.intBits.dto)] else []) s t ∧
      t.pollDto = .holds (dto || data && anySet v (bit s.params.intBits.dto)) ∧
      t.pollCmdDone = s.pollCmdDone ∧ t.cnt = s.cnt := by
  by_cases h : anySet v (bit s.params.intBits.dto) = true
  · cases data
    · refine ⟨s, by simp [clearDto], ?_, by simp [hd], rfl, rfl⟩
      simpa using (Ran.refl s).sub
    · cases dto
      · refine ⟨(s.writeDone c .rintsts (bit s.params.intBits.dto)).setDto true, ?_, ?_, ?_⟩
        · simp [clearDto, h, regWrite_none hr]
        · have r := (writeDone_ran c .rintsts (bit s.params.intBits.dto) s).sub (qs := pollRunParts)
          simpa [h] using r.trans ((Ran.latch (setDto_keeps true _)).sub)
        · simp [h]
      · exact ⟨s, by simp [clearDto], by simpa using (Ran.refl s).sub, by simp [hd], rfl, rfl⟩
  · refine ⟨s, by simp [clearDto, h], ?_, by simp [hd, h], rfl, rfl⟩
    simpa [h] using (Ran.refl s).sub

/-- The clears of the next read, with the flags as they stand. -/
def nextClears (c : Cfg) (s : State) (data done dto : Bool) : List Event :=
  (if anySet (drawAt s 0) (bit s.params.intBits.cmdDone) && !done then
    [.regWrite c.regBase .rintsts (bit s.params.intBits.cmdDone)] else []) ++
  (if data && anySet (drawAt s 0) (bit s.params.intBits.dto) && !dto then
    [.regWrite c.regBase .rintsts (bit s.params.intBits.dto)] else [])

/-- The state after the delay and the read of one iteration. -/
theorem pollRead_ran (c : Cfg) (s : State) :
    Ran pollRunParts 1 (pollRead c s 0 0) s
      ((s.record (.delay s.params.pollDelay)).readDone c .rintsts).count := by
  have r1 := (record_ran (.delay s.params.pollDelay) s).sub (qs := pollRunParts)
  have r2 := r1.trans ((readDone_ran c .rintsts _).sub)
  have e := r1.drawAt 0
  rw [e] at r2
  exact r2.trans ((Ran.latch (count_keeps _)).sub)

/-- One iteration of the completion poll that meets no error. -/
theorem pollLoop_step (c : Cfg) (data : Bool) (n : Nat) (done dto : Bool) {s : State} (hr : s.rst = none)
    (hd : s.pollCmdDone = .holds done) (ht : s.pollDto = .holds dto)
    (he : isError s.params.intBits (drawAt s 0) = false) :
    ∃ t done' dto', done' = (done || anySet (drawAt s 0) (bit s.params.intBits.cmdDone)) ∧
      dto' = (dto || data && anySet (drawAt s 0) (bit s.params.intBits.dto)) ∧
      pollLoop c data (n + 1) done dto s =
        (if done' && (!data || dto') then .ok () t else pollLoop c data n done' dto' t) ∧
      Ran pollRunParts 1 (pollRead c s 0 0 ++ nextClears c s data done dto) s t ∧
      t.pollCmdDone = .holds done' ∧ t.pollDto = .holds dto' ∧ t.cnt = s.cnt.map (· + 1) := by
  have r1 := pollRead_ran c s
  obtain ⟨t1, e1, k1, d1, o1, c1⟩ := clearCmdDone_ran c (drawAt s 0) done
    (s := ((s.record (.delay s.params.pollDelay)).readDone c .rintsts).count) (by simpa using hr)
    (by simpa using hd)
  obtain ⟨t2, e2, k2, d2, o2, c2⟩ := clearDto_ran c (drawAt s 0) data dto (s := t1)
    ((k1.same .rst).trans (by simpa using hr)) (by rw [o1]; simpa using ht)
  have p1 : t1.params = s.params := (k1.same .params).trans (by simp)
  simp only [count_params, readDone_params, record_params] at e1 k1 d1
  rw [p1] at e2 k2 d2
  refine ⟨t2, _, _, rfl, rfl, ?_, ?_, by rw [o2, d1], d2, by rw [c2, c1]; simp⟩
  · simp only [pollLoop, delay_none hr, andThen_ok]
    rw [regRead_none (by simpa using hr)]
    simp only [bind_ok, (record_ran (.delay s.params.pollDelay) s).drawAt, Nat.zero_add, count_params,
      readDone_params, record_params, he, e1, e2]
    rfl
  · have r := (r1.trans k1).trans k2
    simpa [nextClears] using r

theorem sawBit_succ (s : State) (k : Nat) (mask : Word) :
    sawBit s 0 (k + 1) mask = (sawBit s 0 k mask || anySet (drawAt s k) mask) := by
  simp [sawBit, List.range_succ]

/-- The completion condition after one more read, in the flags `clearPending` keeps. -/
theorem pollComplete_flags (s : State) (data : Bool) (k : Nat) :
    (sawBit s 0 k (bit s.params.intBits.cmdDone) &&
      (!data || data && sawBit s 0 k (bit s.params.intBits.dto))) = pollComplete s 0 data k := by
  cases data <;> simp [pollComplete]

/-- One more quiet or completing read, after `m` reads. -/
theorem pollLoop_next (c : Cfg) (data : Bool) (m n : Nat) {s t : State} (hr : s.rst = none)
    (r : Ran pollRunParts m (pollEvents c s 0 data m) s t)
    (hd : t.pollCmdDone = .holds (sawBit s 0 m (bit s.params.intBits.cmdDone)))
    (ht : t.pollDto = .holds (data && sawBit s 0 m (bit s.params.intBits.dto)))
    (he : isError s.params.intBits (drawAt s m) = false) :
    ∃ u, pollLoop c data (n + 1) (sawBit s 0 m (bit s.params.intBits.cmdDone))
        (data && sawBit s 0 m (bit s.params.intBits.dto)) t =
        (if pollComplete s 0 data (m + 1) then .ok () u
         else pollLoop c data n (sawBit s 0 (m + 1) (bit s.params.intBits.cmdDone))
          (data && sawBit s 0 (m + 1) (bit s.params.intBits.dto)) u) ∧
      Ran pollRunParts (m + 1) (pollEvents c s 0 data (m + 1)) s u ∧
      u.pollCmdDone = .holds (sawBit s 0 (m + 1) (bit s.params.intBits.cmdDone)) ∧
      u.pollDto = .holds (data && sawBit s 0 (m + 1) (bit s.params.intBits.dto)) ∧
      u.cnt = t.cnt.map (· + 1) := by
  have p : t.params = s.params := r.same .params
  have d0 : drawAt t 0 = drawAt s m := r.drawAt 0
  obtain ⟨u, done', dto', e1, e2, e, k, kd, kt, kc⟩ := pollLoop_step c data n _ _
    ((r.same .rst).trans hr) hd ht (by rw [p, d0]; exact he)
  rw [p, d0, ← sawBit_succ] at e1
  have e3 : dto' = (data && sawBit s 0 (m + 1) (bit s.params.intBits.dto)) := by
    rw [e2, p, d0, sawBit_succ]; cases data <;> simp
  subst e1 e3
  refine ⟨u, ?_, ?_, kd, kt, kc⟩
  · rw [e, ← pollComplete_flags s data (m + 1)]
  · have q := r.trans k
    have ev : pollEvents c s 0 data (m + 1) = pollEvents c s 0 data m ++
        (pollRead c t 0 0 ++ nextClears c t data (sawBit s 0 m (bit s.params.intBits.cmdDone))
          (data && sawBit s 0 m (bit s.params.intBits.dto))) := by
      simp only [pollEvents, List.range_succ, List.flatMap_append, List.flatMap_cons, List.flatMap_nil,
        List.append_nil, pollRead, pollClears, nextClears, p, d0, Nat.zero_add]
      cases data <;> simp
    rw [ev]; exact q

/-- The completion poll after `m` reads that show no error and do not complete it. -/
theorem pollLoop_quiet (c : Cfg) (data : Bool) (m : Nat) : ∀ (n : Nat) (s : State), s.rst = none →
    s.pollCmdDone = .holds false → s.pollDto = .holds false → PollQuiet s 0 data m →
    ∃ t, pollLoop c data (m + n) false false s =
        pollLoop c data n (sawBit s 0 m (bit s.params.intBits.cmdDone))
          (data && sawBit s 0 m (bit s.params.intBits.dto)) t ∧
      Ran pollRunParts m (pollEvents c s 0 data m) s t ∧
      t.pollCmdDone = .holds (sawBit s 0 m (bit s.params.intBits.cmdDone)) ∧
      t.pollDto = .holds (data && sawBit s 0 m (bit s.params.intBits.dto)) ∧
      t.cnt = s.cnt.map (· + BitVec.ofNat 32 m) := by
  induction m with
  | zero =>
    intro n s _ hd ht _
    refine ⟨s, by simp [sawBit], (Ran.refl s).sub, by simpa [sawBit] using hd, by simpa [sawBit] using ht, ?_⟩
    cases h : s.cnt; simp [Latch.map]
  | succ m ih =>
    intro n s hr hd ht hq
    obtain ⟨t, e, r, kd, kt, kc⟩ := ih (n + 1) s hr hd ht fun k hk => hq k (by omega)
    have q := hq m (by omega)
    rw [Nat.zero_add] at q
    obtain ⟨u, e2, r2, kd2, kt2, kc2⟩ := pollLoop_next c data m n hr r kd kt q.1
    refine ⟨u, ?_, r2, kd2, kt2, ?_⟩
    · rw [show m + 1 + n = m + (n + 1) by omega, e, e2, q.2]; rfl
    · rw [kc2, kc]; cases h : s.cnt; simp [Latch.map, BitVec.ofNat_add, BitVec.add_assoc]

/-- One iteration of the completion poll that meets an error. -/
theorem pollLoop_error (c : Cfg) (data : Bool) (n : Nat) (done dto : Bool) {s : State} (hr : s.rst = none)
    (he : isError s.params.intBits (drawAt s 0) = true) :
    pollLoop c data (n + 1) done dto s = .stop (.raised (.hardwareError (drawAt s 0) 0))
      (((s.record (.delay s.params.pollDelay)).readDone c .rintsts).count.setErrStatus (drawAt s 0)) := by
  simp only [pollLoop, delay_none hr, andThen_ok]
  rw [regRead_none (by simpa using hr)]
  simp only [bind_ok, (record_ran (.delay s.params.pollDelay) s).drawAt, Nat.zero_add, count_params,
    readDone_params, record_params, he, if_true, raiseIn_eq]

/-- Entry to the completion poll. -/
theorem pollStart (c : Cfg) (s : State) : ∃ t, Ran pollRunParts 0 [] s t ∧ t.cnt = .holds 0 ∧
    t.pollCmdDone = .holds false ∧ t.pollDto = .holds false ∧
    ∀ data, pollCompletion c data s = pollLoop c data t.params.nPoll false false t :=
  ⟨((s.setCmdDone false).setDto false).startCount,
    (((Ran.latch (setCmdDone_keeps false s)).sub (qs := pollRunParts)).trans
      ((Ran.latch (setDto_keeps false _)).sub)).trans ((Ran.latch (startCount_keeps _)).sub),
    rfl, rfl, rfl, fun _ => rfl⟩

section

variable (c : Cfg) {s : State} {data : Bool} {n : Nat} (hr : s.rst = none)
include hr

/-- The completion poll that returns at its read `n` (41_command_dispatch.md R203). -/
theorem pollCompletion_ends (h : PollEnds s 0 data n) :
    ∃ t, pollCompletion c data s = .ok () t ∧
      Ran pollRunParts (n + 1) (pollEvents c s 0 data (n + 1)) s t ∧
      t.cnt = .holds (BitVec.ofNat 32 (n + 1)) ∧ t.pollCmdDone = .holds true ∧
      t.pollDto = .holds data := by
  obtain ⟨s0, r0, c0, d0, t0, e0⟩ := pollStart c s
  have p0 : s0.params = s.params := r0.same .params
  have hr0 : s0.rst = none := (r0.same .rst).trans hr
  obtain ⟨h1, h2, h3, h4⟩ := h.later r0.drew p0
  obtain ⟨m, hm⟩ : ∃ m, s0.params.nPoll = n + (m + 1) := ⟨s0.params.nPoll - n - 1, by omega⟩
  obtain ⟨t, e, r, kd, kt, kc⟩ := pollLoop_quiet c data n (m + 1) s0 hr0 d0 t0 h2
  rw [Nat.zero_add] at h3
  obtain ⟨u, e2, r2, kd2, kt2, kc2⟩ := pollLoop_next c data n m hr0 r kd kt h3
  rw [h4, if_pos rfl] at e2
  have hc := h4
  simp only [pollComplete, Bool.and_eq_true, Bool.or_eq_true, Bool.not_eq_true'] at hc
  rw [pollEvents_later r0.drew p0] at r2
  refine ⟨u, by rw [e0, hm, e, e2], by simpa using r0.trans r2, ?_, by rw [kd2, hc.1], ?_⟩
  · rw [kc2, kc, c0]; simp [BitVec.ofNat_add]
  · rw [kt2]
    rcases hc.2 with hc | hc
    · simp [hc]
    · rw [hc]; simp

/-- The completion poll that meets an error at its read `n` (41_command_dispatch.md R203, R210). -/
theorem pollCompletion_fails (h : PollFails s 0 data n) :
    ∃ t, pollCompletion c data s = .stop (.raised (.hardwareError (drawAt s n) 0)) t ∧
      Ran (.errStatus :: pollRunParts) (n + 1) (pollEvents c s 0 data n ++ pollRead c s 0 n) s t ∧
      t.cnt = .holds (BitVec.ofNat 32 (n + 1)) ∧ t.errStatus = .holds (drawAt s n) := by
  obtain ⟨s0, r0, c0, d0, t0, e0⟩ := pollStart c s
  have p0 : s0.params = s.params := r0.same .params
  have hr0 : s0.rst = none := (r0.same .rst).trans hr
  obtain ⟨h1, h2, h3⟩ := h.later r0.drew p0
  obtain ⟨m, hm⟩ : ∃ m, s0.params.nPoll = n + (m + 1) := ⟨s0.params.nPoll - n - 1, by omega⟩
  obtain ⟨t, e, r, kd, kt, kc⟩ := pollLoop_quiet c data n (m + 1) s0 hr0 d0 t0 h2
  have r1 := r0.trans r
  rw [pollEvents_later r0.drew p0, List.nil_append, Nat.zero_add] at r1
  have p1 : t.params = s.params := r1.same .params
  have x : drawAt t 0 = drawAt s n := r1.drawAt 0
  have x0 : drawAt s0 n = drawAt s n := by rw [r0.drawAt, Nat.zero_add]
  have q := pollLoop_error c data m (sawBit s0 0 n (bit s0.params.intBits.cmdDone))
    (data && sawBit s0 0 n (bit s0.params.intBits.dto)) ((r1.same .rst).trans hr)
    (by rw [p1, x, ← x0, ← p0, ← Nat.zero_add n]; exact h3)
  have k2 := (r1.trans (pollRead_ran c t)).sub (qs := .errStatus :: pollRunParts)
  have k3 := k2.trans ((Ran.latch (setErrStatus_keeps (drawAt t 0) _)).sub)
  rw [← e, ← hm, ← e0] at q
  rw [x] at q k3
  refine ⟨_, q, by simpa [pollRead, p1, x] using k3, ?_, by simp⟩
  simp only [setErrStatus_cnt, count_cnt, readDone_cnt, record_cnt, kc, c0]
  simp [BitVec.ofNat_add]

/-- The completion poll that exhausts its budget (41_command_dispatch.md R203). -/
theorem pollCompletion_runs_out (h : PollQuiet s 0 data s.params.nPoll) :
    ∃ t, pollCompletion c data s = .stop (.raised .fatalTimeout) t ∧
      Ran pollRunParts s.params.nPoll (pollEvents c s 0 data s.params.nPoll) s t ∧
      t.cnt = .holds (BitVec.ofNat 32 s.params.nPoll) := by
  obtain ⟨s0, r0, c0, d0, t0, e0⟩ := pollStart c s
  have p0 : s0.params = s.params := r0.same .params
  have hr0 : s0.rst = none := (r0.same .rst).trans hr
  obtain ⟨t, e, r, kd, kt, kc⟩ := pollLoop_quiet c data s.params.nPoll 0 s0 hr0 d0 t0 (h.later r0.drew p0)
  rw [pollEvents_later r0.drew p0] at r
  refine ⟨t, ?_, by simpa using r0.trans r, by rw [kc, c0]; simp⟩
  rw [e0, p0, ← Nat.add_zero s.params.nPoll, e, pollLoop, raiseIn_eq]

end

/-! ## The response words -/

/-- The response-word extractor (41_command_dispatch.md R206). -/
theorem extractResponse_ran (c : Cfg) (w : Word) {s : State} (hr : s.rst = none) :
    ∃ t, extractResponse c w s = .ok () t ∧
      Ran [.rspCount, .rspWords] (respCount s.params.cmdBits w).toNat
        (respReads c s 0 (respCount s.params.cmdBits w)) s t ∧
      t.rspCount = respCount s.params.cmdBits w ∧
      t.rspWords = respLatches s 0 (respCount s.params.cmdBits w) := by
  simp only [extractResponse]
  generalize respCount s.params.cmdBits w = n
  cases n with
  | zero => exact ⟨_, rfl, (Ran.latch (setResponse_keeps _ _ s)), rfl, rfl⟩
  | one =>
    have r1 := (readDone_ran c .resp0 s).sub (qs := [.rspCount, .rspWords])
    have r2 := r1.trans (.latch (setResponse_keeps .one
      ((forgetWords (s.readDone c .resp0).rspWords).set 0 (.holds (drawAt s 0))) _))
    exact ⟨_, by rw [regRead_none hr]; rfl, by simpa [respReads, RespCount.toNat] using r2, rfl, rfl⟩
  | four =>
    have r1 := (readDone_ran c .resp0 s).sub (qs := [.rspCount, .rspWords])
    have r2 := r1.trans ((readDone_ran c .resp1 _).sub)
    have r3 := r2.trans ((readDone_ran c .resp2 _).sub)
    have r4 := r3.trans ((readDone_ran c .resp3 _).sub)
    have d1 := r1.drawAt 0
    have d2 := r2.drawAt 0
    have d3 := r3.drawAt 0
    rw [d1, d2, d3] at r4
    dsimp only
    rw [regRead_none hr, bind_ok, regRead_none (by simpa using hr), bind_ok,
      regRead_none (by simpa using hr), bind_ok, regRead_none (by simpa using hr), bind_ok, d1, d2, d3]
    have r5 := r4.trans (.latch (setResponse_keeps .four
      #v[.holds (drawAt s 0), .holds (drawAt s 1), .holds (drawAt s 2), .holds (drawAt s 3)] _))
    exact ⟨_, rfl, by simpa [respReads, RespCount.toNat] using r5, rfl, rfl⟩

/-! ## The handshake -/

/-- The parts a handshake changes beside the answers. -/
def handshakeRunParts : List Part := [.pending, .cnt, .regCmd, .started]

/-- The last word started is a clock update, with the clock registers as they stand. -/
def Updating (s : State) : Prop :=
  ∃ ks k, s.ctl.started = ks ++ [k] ∧ k.word = hsWord s.params.cmdBits ∧ k.regs.clkdiv = s.ctl.regs.clkdiv ∧
    k.regs.clksrc = s.ctl.regs.clksrc ∧ k.regs.clkena = s.ctl.regs.clkena

theorem Updating.of {s t : State} {k : Nat} {es : List Event} (h : Updating s) (r : Ran handshakeRunParts k es s t)
    (hs : t.ctl.started = s.ctl.started) : Updating t := by
  obtain ⟨ks, k, h1, h2, h3, h4, h5⟩ := h
  exact ⟨ks, k, hs.trans h1, h2.trans (by rw [r.same .params]), h3.trans (r.same .regClkdiv).symm,
    h4.trans (r.same .regClksrc).symm, h5.trans (r.same .regClkena).symm⟩

/-- HS_WORD starts a clock update (30_encoding.md R122). -/
theorem hsWord_starts {b : CmdBits} (h : b.start < 32) : anySet (hsWord b) (bit b.start) = true := by
  simp only [anySet, bne_iff_ne, ne_eq]
  intro e
  have := congrArg (·.getLsbD b.start) e
  simp [hsWord, bit, h] at this

/-- HS_WORD written is the last word started (20_memory.md R87). -/
theorem writeHs_updating (c : Cfg) {s : State} {b : CmdBits} (hp : s.params.cmdBits = b) (hb : b.start < 32) :
    Updating (s.writeDone c .cmd (hsWord b)) := by
  subst hp
  exact ⟨s.ctl.started, ⟨hsWord s.params.cmdBits, s.ctl.regs.write .cmd (hsWord s.params.cmdBits), c.dmaCapable⟩,
    by rw [writeDone_ctl]; simp only [Controller.perform, hsWord_starts hb, if_true], rfl, rfl, rfl, rfl⟩

/-- One iteration of the handshake that finds START set. -/
theorem handshakeLoop_step (c : Cfg) (n : Nat) {s : State} (hr : s.rst = none)
    (hs : startSet s (drawAt s 0) = true) :
    ∃ t, handshakeLoop c (n + 1) s = handshakeLoop c n t ∧
      Ran handshakeRunParts 2 (handshakePoll c s 0 0) s t ∧ t.cnt = s.cnt.map (· + 1) ∧
      (s.params.cmdBits.start < 32 → Updating s → Updating t) := by
  have r1 := (((readDone_ran c .cmd s).sub (qs := handshakeRunParts)).trans
    ((Ran.latch (count_keeps _)).sub))
  have d1 : drawAt (s.readDone c .cmd).count 0 = drawAt s 1 := r1.drawAt 0
  have r2 := r1.trans ((readDone_ran c .rintsts _).sub)
  rw [d1] at r2
  have hs' : anySet (drawAt s 0) (bit s.params.cmdBits.start) = true := hs
  have e0 : handshakeLoop c (n + 1) s =
      if anySet (drawAt s 1) (bit s.params.intBits.hle) then
        (retryHandshake c ((s.readDone c .cmd).count.readDone c .rintsts)).andThen
          fun t => handshakeLoop c n t
      else handshakeLoop c n ((s.readDone c .cmd).count.readDone c .rintsts) := by
    simp only [handshakeLoop]
    rw [regRead_none hr, bind_ok]
    simp only [count_params, readDone_params, hs', if_true]
    rw [regRead_none (by simpa using hr), bind_ok, d1]
    simp only [count_params, readDone_params]
    rfl
  by_cases hh : anySet (drawAt s 1) (bit s.params.intBits.hle) = true
  · have r3 := r2.trans ((writeDone_ran c .rintsts (bit s.params.intBits.hle) _).sub)
    have r4 := r3.trans ((writeDone_ran c .cmd (hsWord s.params.cmdBits) _).sub)
    refine ⟨_, ?_, by simpa [handshakePoll, hh] using r4, by simp,
      fun hb _ => writeHs_updating c (by simp) hb⟩
    · rw [e0, if_pos hh, retryHandshake, regWrite_none (by simpa using hr), andThen_ok,
        regWrite_none (by simpa using hr), andThen_ok]
      rfl
  · exact ⟨_, by rw [e0, if_neg hh], by simpa [handshakePoll, hh] using r2, by simp,
      fun _ u => u.of r2 (by simp [Controller.shown])⟩

theorem handshakePoll_succ (c : Cfg) (s : State) (n : Nat) :
    (List.range (n + 1)).flatMap (handshakePoll c s 0) =
      (List.range n).flatMap (handshakePoll c s 0) ++ handshakePoll c s 0 n := by
  simp [List.range_succ]

/-- The handshake after `m` iterations that find START set. -/
theorem handshakeLoop_set (c : Cfg) (m : Nat) : ∀ (n : Nat) (s : State), s.rst = none →
    (∀ k, k < m → startSet s (drawAt s (2 * k)) = true) →
    ∃ t, handshakeLoop c (m + n) s = handshakeLoop c n t ∧
      Ran handshakeRunParts (2 * m) ((List.range m).flatMap (handshakePoll c s 0)) s t ∧
      t.cnt = s.cnt.map (· + BitVec.ofNat 32 m) ∧
      (s.params.cmdBits.start < 32 → Updating s → Updating t) := by
  induction m with
  | zero =>
    intro n s _ _
    refine ⟨s, by simp, (Ran.refl s).sub, ?_, fun _ => id⟩
    cases h : s.cnt; simp [Latch.map]
  | succ m ih =>
    intro n s hr hs
    obtain ⟨t, e, r, kc, ku⟩ := ih (n + 1) s hr fun k hk => hs k (by omega)
    have p : t.params = s.params := r.same .params
    have d : drawAt t 0 = drawAt s (2 * m) := r.drawAt 0
    obtain ⟨u, e2, r2, kc2, ku2⟩ := handshakeLoop_step c n ((r.same .rst).trans hr)
      (by simp only [startSet, p, d]; exact hs m (by omega))
    rw [handshakePoll_later r.drew p] at r2
    rw [p] at ku2
    refine ⟨u, by rw [show m + 1 + n = m + (n + 1) by omega, e, e2], ?_, ?_, fun hb h => ku2 hb (ku hb h)⟩
    · rw [handshakePoll_succ]
      have q := r.trans r2
      have x : handshakePoll c s (2 * m) 0 = handshakePoll c s 0 m := by
        simp [handshakePoll]
      rw [x] at q; exact q
    · rw [kc2, kc]; cases h : s.cnt; simp [Latch.map, BitVec.ofNat_add, BitVec.add_assoc]

/-- Entry to the handshake: its first write of HS_WORD. -/
theorem handshakeStart (c : Cfg) {s : State} (hr : s.rst = none) :
    ∃ t, Ran handshakeRunParts 0 [.regWrite c.regBase .cmd (hsWord s.params.cmdBits)] s t ∧
      t.cnt = .holds 0 ∧ (s.params.cmdBits.start < 32 → Updating t) ∧
      handshake c s = (handshakeLoop c t.params.nClk t).andThen fun t => .ok () t.carriedOut := by
  have r1 := (Ran.latch (startCount_keeps s)).sub (qs := handshakeRunParts)
  have r2 := r1.trans ((writeDone_ran c .cmd (hsWord s.params.cmdBits) _).sub)
  refine ⟨_, by simpa using r2, by simp, fun hb => writeHs_updating c (by simp) hb, ?_⟩
  rw [handshake, regWrite_none (by simpa using hr), andThen_ok]

section

variable (c : Cfg) {s : State} {n : Nat} (hr : s.rst = none)
include hr

/-- The handshake that returns at its CMD read `n` (42_clock_controller.md R260, R261). The controller has then
carried out all that was started, and taken up the clock registers as they stand (log 33). -/
theorem handshake_ends (h : HandshakeEnds s 0 n) :
    ∃ t, handshake c s = .ok () t ∧
      Ran (handshakeRunParts ++ carriedParts) (2 * n + 1) (handshakeEvents c s 0 n) s t ∧
      t.cnt = .holds (BitVec.ofNat 32 (n + 1)) ∧ t.ctl.started = [] ∧
      (s.params.cmdBits.start < 32 →
        t.ctl.clock = ⟨s.ctl.regs.clkdiv, s.ctl.regs.clksrc, s.ctl.regs.clkena⟩) := by
  obtain ⟨s0, r0, c0, u0, e0⟩ := handshakeStart c hr
  have p0 : s0.params = s.params := r0.same .params
  have hr0 : s0.rst = none := (r0.same .rst).trans hr
  obtain ⟨h1, h2, h3⟩ := h.later r0.drew p0
  simp only [Nat.zero_add] at h2 h3
  obtain ⟨m, hm⟩ : ∃ m, s0.params.nClk = n + (m + 1) := ⟨s0.params.nClk - n - 1, by omega⟩
  obtain ⟨t, e, r, kc, ku⟩ := handshakeLoop_set c n (m + 1) s0 hr0 h2
  have p1 : t.params = s0.params := r.same .params
  have d : drawAt t 0 = drawAt s0 (2 * n) := r.drawAt 0
  have hs : anySet (drawAt t 0) (bit t.params.cmdBits.start) = false := by rw [p1, d]; exact h3
  have r1 := ((readDone_ran c .cmd t).sub (qs := handshakeRunParts)).trans ((Ran.latch (count_keeps _)).sub)
  have r2 := (r0.trans r).trans r1
  have r3 := (r2.sub (qs := handshakeRunParts ++ carriedParts)).trans
    ((Ran.latch (carriedOut_keeps (t.readDone c .cmd).count)).sub)
  refine ⟨(t.readDone c .cmd).count.carriedOut, ?_, ?_, ?_, carriedOut_started _, fun hb => ?_⟩
  · rw [e0, hm, e]
    simp only [handshakeLoop]
    rw [regRead_none ((r.same .rst).trans hr0), bind_ok]
    simp only [count_params, readDone_params, hs]
    rfl
  · have x : (List.range n).flatMap (handshakePoll c s0 0) = (List.range n).flatMap (handshakePoll c s 0) := by
      simp only [funext (handshakePoll_later r0.drew p0 c)]
    rw [x, d, r0.drawAt] at r3
    simpa [handshakeEvents, handshakePolls] using r3
  · refine (carriedOut_keeps _ .cnt (by decide)).trans ?_
    rw [count_cnt, readDone_cnt, kc, c0]; simp [BitVec.ofNat_add]
  · obtain ⟨ks, k, g1, g2, g3, g4, g5⟩ := (ku (by rw [p0]; exact hb) (u0 hb)).of r1 (by simp [Controller.shown])
    have x1 : (t.readDone c .cmd).count.ctl.regs.clkdiv = s.ctl.regs.clkdiv := r2.same .regClkdiv
    have x2 : (t.readDone c .cmd).count.ctl.regs.clksrc = s.ctl.regs.clksrc := r2.same .regClksrc
    have x3 : (t.readDone c .cmd).count.ctl.regs.clkena = s.ctl.regs.clkena := r2.same .regClkena
    rw [carriedOut_clock g1 g2, g3, g4, g5, x1, x2, x3]

/-- The handshake that exhausts its budget (42_clock_controller.md R262). -/
theorem handshake_runs_out (h : HandshakeRunsOut s 0) :
    ∃ t, handshake c s = .stop (.raised .fatalTimeout) t ∧
      Ran handshakeRunParts (2 * s.params.nClk) (handshakePolls c s 0 s.params.nClk) s t ∧
      t.cnt = .holds (BitVec.ofNat 32 s.params.nClk) := by
  obtain ⟨s0, r0, c0, -, e0⟩ := handshakeStart c hr
  have p0 : s0.params = s.params := r0.same .params
  have h2 := h.later r0.drew p0
  simp only [HandshakeRunsOut, Nat.zero_add, p0] at h2
  obtain ⟨t, e, r, kc, -⟩ := handshakeLoop_set c s.params.nClk 0 s0 ((r0.same .rst).trans hr) h2
  refine ⟨t, ?_, ?_, by rw [kc, c0]; simp⟩
  · rw [e0, p0, ← Nat.add_zero s.params.nClk, e, handshakeLoop, raiseIn_eq, andThen_stop]
  · have x : (List.range s.params.nClk).flatMap (handshakePoll c s0 0) =
        (List.range s.params.nClk).flatMap (handshakePoll c s 0) := by
      simp only [funext (handshakePoll_later r0.drew p0 c)]
    rw [x] at r
    simpa [handshakePolls] using r0.trans r

end

/-! ## The clock sequence -/

/-- The parts a clock sequence changes beside the answers. -/
def sequenceRunParts : List Part :=
  [.pending, .cnt, .regCmd, .started, .clkDiv, .clkEnabled, .regClkdiv, .regClksrc, .regClkena]

/-- The parts it changes once a handshake has returned. -/
def sequenceDoneParts : List Part := sequenceRunParts ++ carriedParts

/-- A write of one clock register and the `clk.*` update that mirrors it. -/
theorem clkenaWrite_ran (c : Cfg) (v : Word) (on : Bool) (s : State) :
    Ran sequenceRunParts 0 [.regWrite c.regBase .clkena v] s
      ((s.writeDone c .clkena v).setClkEnabled on) :=
  ((writeDone_ran c .clkena v s).sub (qs := sequenceRunParts)).trans
    ((Ran.latch (setClkEnabled_keeps on _)).sub)

theorem clkdivWrite_ran (c : Cfg) (d : Nat) (s : State) :
    Ran sequenceRunParts 0 [.regWrite c.regBase .clkdiv (BitVec.ofNat 32 d)] s
      ((s.writeDone c .clkdiv (BitVec.ofNat 32 d)).setClkDiv (BitVec.ofNat 8 d)) :=
  ((writeDone_ran c .clkdiv _ s).sub (qs := sequenceRunParts)).trans
    ((Ran.latch (setClkDiv_keeps _ _)).sub)

section

variable (c : Cfg) (d : Nat) {s : State} {r : ClockReads} (hr : s.rst = none)
include hr

/-- The clock sequence once its busy wait has returned: up to the first handshake. -/
theorem setClockSeq_busy (h : BusyEnds s 0 r.busy) :
    ∃ t, Ran sequenceRunParts r.at1
        (statusReads c s 0 (r.busy + 1) ++ [.regWrite c.regBase .clkena 0]) s t ∧
      t.clkEnabled = .holds false ∧ t.clkDiv = s.clkDiv ∧ t.ctl.regs.clkena = .holds 0 ∧
      t.ctl.regs.clkdiv = s.ctl.regs.clkdiv ∧ t.ctl.regs.clksrc = s.ctl.regs.clksrc ∧
      setClockSeq c d s = (handshake c t).andThen fun s =>
        (regWrite c .clkdiv (BitVec.ofNat 32 d) s).andThen fun s =>
        (handshake c (s.setClkDiv (BitVec.ofNat 8 d))).andThen fun s =>
        (regWrite c .clkena clkenaOn s).andThen fun s =>
        (regWrite c .clksrc clksrcValue (s.setClkEnabled true)).andThen fun s => handshake c s := by
  obtain ⟨t, e, k, _⟩ := busyWait_ends c hr h
  have k2 := (k.sub (qs := sequenceRunParts)).trans (clkenaWrite_ran c 0 false t)
  refine ⟨_, k2, rfl, k.same .clkDiv, rfl, k.same .regClkdiv, k.same .regClksrc, ?_⟩
  rw [setClockSeq, e, andThen_ok, regWrite_none ((k.same .rst).trans hr), andThen_ok]
  rfl

end

/-- The middle of the clock sequence: from the end of the first handshake to the second. -/
theorem setClockSeq_middle (c : Cfg) (d : Nat) {s : State} (hr : s.rst = none) :
    ∃ t, Ran sequenceRunParts 0 [.regWrite c.regBase .clkdiv (BitVec.ofNat 32 d)] s t ∧
      t.clkEnabled = s.clkEnabled ∧ t.clkDiv = .holds (BitVec.ofNat 8 d) ∧
      t.ctl.regs.clkena = s.ctl.regs.clkena ∧ t.ctl.regs.clkdiv = .holds (BitVec.ofNat 32 d) ∧
      t.ctl.regs.clksrc = s.ctl.regs.clksrc ∧
      ((regWrite c .clkdiv (BitVec.ofNat 32 d) s).andThen fun s =>
        (handshake c (s.setClkDiv (BitVec.ofNat 8 d))).andThen fun s =>
        (regWrite c .clkena clkenaOn s).andThen fun s =>
        (regWrite c .clksrc clksrcValue (s.setClkEnabled true)).andThen fun s => handshake c s) =
      (handshake c t).andThen fun s =>
        (regWrite c .clkena clkenaOn s).andThen fun s =>
        (regWrite c .clksrc clksrcValue (s.setClkEnabled true)).andThen fun s => handshake c s := by
  refine ⟨_, clkdivWrite_ran c d s, rfl, rfl, rfl, rfl, rfl, ?_⟩
  rw [regWrite_none hr, andThen_ok]

/-- The end of the clock sequence: from the end of the second handshake to the third. -/
theorem setClockSeq_last (c : Cfg) {s : State} (hr : s.rst = none) :
    ∃ t, Ran sequenceRunParts 0 [.regWrite c.regBase .clkena 1, .regWrite c.regBase .clksrc 0] s t ∧
      t.clkEnabled = .holds true ∧ t.clkDiv = s.clkDiv ∧ t.ctl.regs.clkena = .holds 1 ∧
      t.ctl.regs.clkdiv = s.ctl.regs.clkdiv ∧ t.ctl.regs.clksrc = .holds 0 ∧
      ((regWrite c .clkena clkenaOn s).andThen fun s =>
        (regWrite c .clksrc clksrcValue (s.setClkEnabled true)).andThen fun s => handshake c s) =
      handshake c t := by
  have k := (clkenaWrite_ran c 1 true s).trans ((writeDone_ran c .clksrc 0 _).sub)
  refine ⟨_, k, rfl, rfl, rfl, rfl, rfl, ?_⟩
  rw [regWrite_none hr, andThen_ok, regWrite_none (by simpa using hr), andThen_ok]
  rfl

section

variable (c : Cfg) (d : Nat) {s : State} {r : ClockReads} (hr : s.rst = none)
include hr

/-- The clock sequence up to its second handshake. -/
theorem setClockSeq_first (h : BusyEnds s 0 r.busy) (h1 : HandshakeEnds s r.at1 r.first) :
    ∃ t, Ran sequenceDoneParts r.at2
        (statusReads c s 0 (r.busy + 1) ++ (.regWrite c.regBase .clkena 0 ::
          handshakeEvents c s r.at1 r.first) ++ [.regWrite c.regBase .clkdiv (BitVec.ofNat 32 d)]) s t ∧
      t.clkEnabled = .holds false ∧ t.clkDiv = .holds (BitVec.ofNat 8 d) ∧
      t.ctl.regs.clkena = .holds 0 ∧ t.ctl.regs.clkdiv = .holds (BitVec.ofNat 32 d) ∧
      t.ctl.regs.clksrc = s.ctl.regs.clksrc ∧
      setClockSeq c d s = (handshake c t).andThen fun s =>
        (regWrite c .clkena clkenaOn s).andThen fun s =>
        (regWrite c .clksrc clksrcValue (s.setClkEnabled true)).andThen fun s => handshake c s := by
  obtain ⟨t, k, a1, _, a3, _, a5, e⟩ := setClockSeq_busy c d hr h
  have p : t.params = s.params := k.same .params
  have ht : t.rst = none := (k.same .rst).trans hr
  obtain ⟨u, eu, ku, -⟩ := handshake_ends c ht (h1.later k.drew p)
  have hu : u.rst = none := (ku.same .rst).trans ht
  obtain ⟨v, kv, b1, b2, b3, b4, b5, ev⟩ := setClockSeq_middle c d hu
  have q := ((k.sub (qs := sequenceDoneParts)).trans (ku.sub)).trans (kv.sub)
  rw [handshakeEvents_later k.drew p] at q
  refine ⟨v, by simpa [ClockReads.at2] using q, ?_, b2, ?_, b4, ?_, by rw [e, eu, andThen_ok, ev]⟩
  · exact b1.trans ((ku.same .clkEnabled).trans a1)
  · exact b3.trans ((ku.same .regClkena).trans a3)
  · exact b5.trans ((ku.same .regClksrc).trans a5)

/-- The clock sequence up to its third handshake. -/
theorem setClockSeq_second (h : BusyEnds s 0 r.busy) (h1 : HandshakeEnds s r.at1 r.first)
    (h2 : HandshakeEnds s r.at2 r.second) :
    ∃ t, Ran sequenceDoneParts r.at3
        (statusReads c s 0 (r.busy + 1) ++ (.regWrite c.regBase .clkena 0 ::
          handshakeEvents c s r.at1 r.first) ++ (.regWrite c.regBase .clkdiv (BitVec.ofNat 32 d) ::
          handshakeEvents c s r.at2 r.second) ++
          [.regWrite c.regBase .clkena 1, .regWrite c.regBase .clksrc 0]) s t ∧
      t.clkEnabled = .holds true ∧ t.clkDiv = .holds (BitVec.ofNat 8 d) ∧
      t.ctl.regs.clkena = .holds 1 ∧ t.ctl.regs.clkdiv = .holds (BitVec.ofNat 32 d) ∧
      t.ctl.regs.clksrc = .holds 0 ∧ setClockSeq c d s = handshake c t := by
  obtain ⟨t, k, _, a2, _, a4, _, e⟩ := setClockSeq_first c d hr h h1
  have p : t.params = s.params := k.same .params
  have ht : t.rst = none := (k.same .rst).trans hr
  obtain ⟨u, eu, ku, -⟩ := handshake_ends c ht (h2.later k.drew p)
  have hu : u.rst = none := (ku.same .rst).trans ht
  obtain ⟨v, kv, b1, b2, b3, b4, b5, ev⟩ := setClockSeq_last c hu
  have q := ((k.sub (qs := sequenceDoneParts)).trans (ku.sub)).trans (kv.sub)
  rw [handshakeEvents_later k.drew p] at q
  refine ⟨v, by simpa [ClockReads.at3] using q, b1, ?_, b3, ?_, b5, by rw [e, eu, andThen_ok, ev]⟩
  · exact b2.trans ((ku.same .clkDiv).trans a2)
  · exact b4.trans ((ku.same .regClkdiv).trans a4)

/-- The whole clock sequence (42_clock_controller.md R272). -/
theorem setClockSeq_ends (h : ClockEnds s r) :
    ∃ t, setClockSeq c d s = .ok () t ∧ Ran sequenceDoneParts r.total (clockEvents c s d r) s t ∧
      t.clkEnabled = .holds true ∧ t.clkDiv = .holds (BitVec.ofNat 8 d) ∧
      t.ctl.regs.clkena = .holds 1 ∧ t.ctl.regs.clkdiv = .holds (BitVec.ofNat 32 d) ∧
      t.ctl.regs.clksrc = .holds 0 ∧ t.cnt = .holds (BitVec.ofNat 32 (r.third + 1)) ∧ t.ctl.started = [] ∧
      (s.params.cmdBits.start < 32 →
        t.ctl.clock = ⟨.holds (BitVec.ofNat 32 d), .holds 0, .holds 1⟩) := by
  obtain ⟨h0, h1, h2, h3⟩ := h
  obtain ⟨t, k, a1, a2, a3, a4, a5, e⟩ := setClockSeq_second c d hr h0 h1 h2
  have p : t.params = s.params := k.same .params
  have ht : t.rst = none := (k.same .rst).trans hr
  obtain ⟨u, eu, ku, kc, ks, kk⟩ := handshake_ends c ht (h3.later k.drew p)
  have q := k.trans (ku.sub)
  rw [handshakeEvents_later k.drew p] at q
  refine ⟨u, by rw [e, eu], by simpa [ClockReads.total, clockEvents] using q, ?_, ?_, ?_, ?_, ?_, kc, ks,
    fun hb => ?_⟩
  · exact (ku.same .clkEnabled).trans a1
  · exact (ku.same .clkDiv).trans a2
  · exact (ku.same .regClkena).trans a3
  · exact (ku.same .regClkdiv).trans a4
  · exact (ku.same .regClksrc).trans a5
  · rw [kk (by rw [p]; exact hb), a3, a4, a5]

/-- The clock sequence that exhausts a budget (42_clock_controller.md R272). -/
theorem setClockSeq_stops {es : List Event} {enabled : Option Bool} {written : Bool}
    (h : ClockStops c s d r es enabled written) :
    ∃ t k, setClockSeq c d s = .stop (.raised .fatalTimeout) t ∧
      Ran (if written then sequenceDoneParts else sequenceRunParts) k es s t ∧ ClockLeft d enabled written s t := by
  rcases h with ⟨h0, rfl, rfl, rfl⟩ | ⟨h0, h1, rfl, rfl, rfl⟩ | ⟨h0, h1, h2, rfl, rfl, rfl⟩ |
    ⟨h0, h1, h2, h3, rfl, rfl, rfl⟩
  · obtain ⟨t, e, k, -⟩ := busyWait_runs_out c hr h0
    exact ⟨t, _, by rw [setClockSeq, e, andThen_stop], k.sub, k.same .clkEnabled, k.same .clkDiv⟩
  · obtain ⟨u, k, a1, a2, -, -, -, e⟩ := setClockSeq_busy c d hr h0
    have p : u.params = s.params := k.same .params
    obtain ⟨t, et, kt, -⟩ := handshake_runs_out c ((k.same .rst).trans hr) (h1.later k.drew p)
    have q := k.trans kt.sub
    rw [handshakePolls_later k.drew p, p] at q
    exact ⟨t, _, by rw [e, et, andThen_stop], by simpa using q, (kt.same .clkEnabled).trans a1,
      (kt.same .clkDiv).trans a2⟩
  · obtain ⟨u, k, a1, a2, -, -, -, e⟩ := setClockSeq_first c d hr h0 h1
    have p : u.params = s.params := k.same .params
    obtain ⟨t, et, kt, -⟩ := handshake_runs_out c ((k.same .rst).trans hr) (h2.later k.drew p)
    have q := k.trans kt.sub
    rw [handshakePolls_later k.drew p, p] at q
    exact ⟨t, _, by rw [e, et, andThen_stop], by simpa using q, (kt.same .clkEnabled).trans a1,
      (kt.same .clkDiv).trans a2⟩
  · obtain ⟨u, k, a1, a2, -, -, -, e⟩ := setClockSeq_second c d hr h0 h1 h2
    have p : u.params = s.params := k.same .params
    obtain ⟨t, et, kt, -⟩ := handshake_runs_out c ((k.same .rst).trans hr) (h3.later k.drew p)
    have q := k.trans kt.sub
    rw [handshakePolls_later k.drew p, p] at q
    exact ⟨t, _, by rw [e, et], by simpa using q, (kt.same .clkEnabled).trans a1, (kt.same .clkDiv).trans a2⟩

/-- The CTYPE write (42_clock_controller.md R280). -/
theorem programWidth_ran (width : Nat) (code : Word) :
    ∃ t, programWidth c width code s = .ok () t ∧
      Ran [.regCtype, .busWidth] 0 [.regWrite c.regBase .ctype code] s t ∧
      t.ctl.regs.ctype = .holds code ∧ t.busWidth = .holds (BitVec.ofNat 4 width) := by
  have k := ((writeDone_ran c .ctype code s).sub (qs := [.regCtype, .busWidth])).trans
    ((Ran.latch (setBusWidth_keeps (BitVec.ofNat 4 width) _)).sub)
  exact ⟨_, by rw [programWidth, regWrite_none hr]; rfl, by simpa using k, rfl, rfl⟩

end

/-! ## The FIFO drain -/

/-- A word stored, with its event. -/
theorem memWrite_ran (a : Nat) (w : Word) {s : State} (hr : s.rst = none) :
    ∃ t, memWrite a w s = .ok () t ∧ Ran [.mem, .dirty] 0 [.memWrite a 4 w] s t ∧
      holdsWord t.mem a w ∧ MemoryKeptOutside a 4 s t ∧
      ∀ x, x ∈ t.dirty ↔ (a ≤ x ∧ x < a + 4) ∨ x ∈ s.dirty :=
  ⟨_, memWrite_none hr a w, store_ran a w s, by rw [record_mem]; exact storeWord_holdsWord a w s,
    fun x hx => by rw [record_mem]; exact storeWord_read_other a w s hx,
    fun x => by rw [record_dirty]; exact storeWord_mem_dirty a w s⟩

/-- One word of the polled READ. -/
theorem drainWord_ran (c : Cfg) (buf k : Nat) {s : State} (hr : s.rst = none) :
    ∃ t, drainWord c buf k s = .ok () t ∧
      Ran [.mem, .dirty] 1 [.regRead c.regBase .fifo (drawAt s 0),
        .memWrite (buf + 4 * k) 4 (drawAt s 0)] s t ∧
      holdsWord t.mem (buf + 4 * k) (drawAt s 0) ∧ MemoryKeptOutside (buf + 4 * k) 4 s t ∧
      ∀ x, x ∈ t.dirty ↔ (buf + 4 * k ≤ x ∧ x < buf + 4 * k + 4) ∨ x ∈ s.dirty := by
  obtain ⟨t, e, r, hw, hk, hd⟩ := memWrite_ran (buf + 4 * k) (drawAt s 0) (s := s.readDone c .fifo) hr
  refine ⟨t, by rw [drainWord, regRead_none hr, bind_ok, e], ?_, hw, fun x hx => ?_, by simpa using hd⟩
  · exact ((readDone_ran c .fifo s).sub (qs := [.mem, .dirty])).trans r
  · rw [hk x hx, readDone_mem]

/-- The polled READ of `n` words from word `i` on (44_facade_transfer.md R356). -/
theorem drain_ran (c : Cfg) (buf : Nat) (n : Nat) : ∀ (i : Nat) (s : State), s.rst = none →
    ∃ t, forRange (drainWord c buf) i n s = .ok () t ∧
      Ran [.mem, .dirty] n ((List.range n).flatMap fun k =>
        [.regRead c.regBase .fifo (drawAt s k),
         .memWrite (buf + 4 * (i + k)) 4 (drawAt s k)]) s t ∧
      (∀ k, k < n → holdsWord t.mem (buf + 4 * (i + k)) (drawAt s k)) ∧
      MemoryKeptOutside (buf + 4 * i) (4 * n) s t ∧
      ∀ x, x ∈ t.dirty ↔ (buf + 4 * i ≤ x ∧ x < buf + 4 * i + 4 * n) ∨ x ∈ s.dirty := by
  induction n with
  | zero =>
    refine fun i s _ => ⟨s, rfl, (Ran.refl s).sub, fun k hk => absurd hk (Nat.not_lt_zero k), fun _ _ => rfl,
      fun x => ⟨.inr, fun h => h.resolve_left ?_⟩⟩
    omega
  | succ n ih =>
    intro i s hr
    obtain ⟨u, eu, r1, hw1, hk1, hd1⟩ := drainWord_ran c buf i hr
    obtain ⟨t, e, r2, hw, hk, hd⟩ := ih (i + 1) u ((r1.same .rst).trans hr)
    refine ⟨t, by rw [forRange, eu, andThen_ok, e], ?_, ?_, ?_, fun x => ?_⟩
    · have q := r1.trans r2
      have x : (List.range (n + 1)).flatMap (fun k =>
          ([.regRead c.regBase .fifo (drawAt s k), .memWrite (buf + 4 * (i + k)) 4 (drawAt s k)] : List Event)) =
        [.regRead c.regBase .fifo (drawAt s 0), .memWrite (buf + 4 * i) 4 (drawAt s 0)] ++
        (List.range n).flatMap (fun k => [.regRead c.regBase .fifo (drawAt s (1 + k)),
          .memWrite (buf + 4 * (i + 1 + k)) 4 (drawAt s (1 + k))]) := by
        rw [List.range_succ_eq_map, List.flatMap_cons, List.flatMap_map]
        simp [Nat.add_comm, Nat.add_left_comm]
      simp only [r1.drawAt] at q
      rw [x, Nat.add_comm n 1]
      exact q
    · intro k hk'
      cases k with
      | zero =>
        intro j hj
        rw [hk (buf + 4 * (i + 0) + j) (by omega)]
        exact hw1 j hj
      | succ k =>
        have := hw k (by omega)
        rw [r1.drawAt] at this
        rw [show i + (k + 1) = i + 1 + k by omega, show k + 1 = 1 + k by omega]
        exact this
    · intro x hx
      rw [hk x (by omega)]
      exact hk1 x (by omega)
    · rw [hd, hd1, ← or_assoc]
      exact or_congr_left (by omega)

/-! ## The builder -/

/-- The four words of a descriptor stand at `a`. -/
def holdsDescriptor (m : Memory) (a : Nat) (d : Descriptor) : Prop :=
  holdsWord m a d.des0 ∧ holdsWord m (a + 4) d.des1 ∧ holdsWord m (a + 8) d.des2 ∧
    holdsWord m (a + 12) d.des3

/-- Words outside a range that is kept are kept. -/
theorem holdsWord.kept {s t : State} {a n x : Nat} {w : Word} (h : holdsWord s.mem x w)
    (k : MemoryKeptOutside a n s t) (hx : x + 4 ≤ a ∨ a + n ≤ x) : holdsWord t.mem x w := fun j hj => by
  rw [k (x + j) (by omega)]; exact h j hj

theorem writeDescriptor_ran (a : Nat) (d : Descriptor) {s : State} (hr : s.rst = none) :
    ∃ t, writeDescriptor a d s = .ok () t ∧
      Ran [.mem, .dirty] 0 [.memWrite a 4 d.des0, .memWrite (a + 4) 4 d.des1, .memWrite (a + 8) 4 d.des2,
        .memWrite (a + 12) 4 d.des3] s t ∧
      holdsDescriptor t.mem a d ∧ MemoryKeptOutside a 16 s t ∧
      ∀ x, x ∈ t.dirty ↔ (a ≤ x ∧ x < a + 16) ∨ x ∈ s.dirty := by
  obtain ⟨t0, e0, r0, w0, k0, d0⟩ := memWrite_ran a d.des0 hr
  have hr0 : t0.rst = none := (r0.same .rst).trans hr
  obtain ⟨t1, e1, r1, w1, k1, d1⟩ := memWrite_ran (a + 4) d.des1 hr0
  have hr1 : t1.rst = none := (r1.same .rst).trans hr0
  obtain ⟨t2, e2, r2, w2, k2, d2⟩ := memWrite_ran (a + 8) d.des2 hr1
  have hr2 : t2.rst = none := (r2.same .rst).trans hr1
  obtain ⟨t3, e3, r3, w3, k3, d3⟩ := memWrite_ran (a + 12) d.des3 hr2
  refine ⟨t3, by rw [writeDescriptor, e0, andThen_ok, e1, andThen_ok, e2, andThen_ok, e3],
    ((r0.trans r1).trans r2).trans r3, ⟨?_, ?_, ?_, w3⟩, fun x hx => ?_, fun x => ?_⟩
  · exact ((w0.kept k1 (by omega)).kept k2 (by omega)).kept k3 (by omega)
  · exact (w1.kept k2 (by omega)).kept k3 (by omega)
  · exact w2.kept k3 (by omega)
  · rw [k3 x (by omega), k2 x (by omega), k1 x (by omega), k0 x (by omega)]
  · rw [d3, d2, d1, d0]
    constructor
    · rintro (h | h | h | h | h)
      · left; omega
      · left; omega
      · left; omega
      · left; omega
      · exact .inr h
    · rintro (h | h)
      · have : x < a + 4 ∨ (a + 4 ≤ x ∧ x < a + 8) ∨ (a + 8 ≤ x ∧ x < a + 12) ∨ a + 12 ≤ x := by omega
        rcases this with g | g | g | g
        · exact .inr (.inr (.inr (.inl ⟨h.1, g⟩)))
        · exact .inr (.inr (.inl g))
        · exact .inr (.inl g)
        · exact .inl ⟨g, by omega⟩
      · tauto

/-- Descriptors written one after another from `b` on. -/
theorem writeDescriptors_ran (b : Nat) (d : Nat → Descriptor) (n : Nat) : ∀ (i : Nat) (s : State),
    s.rst = none →
    ∃ t, forRange (fun i => writeDescriptor (b + 16 * i) (d i)) i n s = .ok () t ∧
      Ran [.mem, .dirty] 0 ((List.range n).flatMap fun k =>
        [.memWrite (b + 16 * (i + k)) 4 (d (i + k)).des0, .memWrite (b + 16 * (i + k) + 4) 4 (d (i + k)).des1,
         .memWrite (b + 16 * (i + k) + 8) 4 (d (i + k)).des2,
         .memWrite (b + 16 * (i + k) + 12) 4 (d (i + k)).des3]) s t ∧
      (∀ k, k < n → holdsDescriptor t.mem (b + 16 * (i + k)) (d (i + k))) ∧
      MemoryKeptOutside (b + 16 * i) (16 * n) s t ∧
      ∀ x, x ∈ t.dirty ↔ (b + 16 * i ≤ x ∧ x < b + 16 * i + 16 * n) ∨ x ∈ s.dirty := by
  induction n with
  | zero => exact fun i s _ => ⟨s, rfl, (Ran.refl s).sub, fun k hk => absurd hk (Nat.not_lt_zero k),
      fun _ _ => rfl, fun x => by constructor
                                  · exact .inr
                                  · rintro (h | h)
                                    · omega
                                    · exact h⟩
  | succ n ih =>
    intro i s hr
    obtain ⟨u, eu, r1, hw1, hk1, hd1⟩ := writeDescriptor_ran (b + 16 * i) (d i) hr
    obtain ⟨t, e, r2, hw, hk, hd⟩ := ih (i + 1) u ((r1.same .rst).trans hr)
    refine ⟨t, by rw [forRange, eu, andThen_ok, e], ?_, ?_, ?_, ?_⟩
    · have q := r1.trans r2
      rw [List.range_succ_eq_map, List.flatMap_cons, List.flatMap_map]
      simpa [Nat.add_comm, Nat.add_left_comm] using q
    · intro k hk'
      cases k with
      | zero =>
        obtain ⟨h0, h1, h2, h3⟩ := hw1
        exact ⟨h0.kept hk (by omega), h1.kept hk (by omega), h2.kept hk (by omega), h3.kept hk (by omega)⟩
      | succ k =>
        have := hw k (by omega)
        rw [show i + (k + 1) = i + 1 + k by omega]
        exact this
    · intro x hx
      rw [hk x (by omega)]
      exact hk1 x (by omega)
    · intro x
      rw [hd, hd1]
      constructor
      · rintro (h | h | h)
        · left; omega
        · left; omega
        · exact .inr h
      · rintro (h | h)
        · by_cases g : x < b + 16 * i + 16
          · exact .inr (.inl ⟨h.1, g⟩)
          · left; omega
        · exact .inr (.inr h)

/-- The builder on accepted operands (43_dma_builder.md R321). -/
theorem buildChain_ran (c : Cfg) {buf size chunk : Nat} {s : State} (hr : s.rst = none)
    (h : chainAccepted c buf size chunk = true) :
    ∃ t, buildChain c buf size chunk s = .ok (chainLength size chunk) t ∧
      Ran [.mem, .dirty, .regDbaddr, .chainCount] 0 (chainEvents c buf size chunk) s t ∧
      t.ctl.regs.dbaddr = .holds c.descBase ∧
      t.chainCount = .holds (BitVec.ofNat 32 (chainLength size chunk)) ∧
      engineSeesChain t c buf size chunk ∧
      MemoryKeptOutside c.descBase.toNat (16 * chainLength size chunk) s t ∧
      ∀ x, x ∈ t.dirty ↔ x ∈ s.dirty ∧
        ¬ (c.descBase.toNat ≤ x ∧ x < c.descBase.toNat + 16 * chainLength size chunk) := by
  obtain ⟨t, e, r, hw, hk, hd⟩ := writeDescriptors_ran c.descBase.toNat
    (descriptor c buf size chunk (chainLength size chunk)) (chainLength size chunk) 0 s hr
  have ht : t.rst = none := (r.same .rst).trans hr
  have q1 := (r.sub (qs := [.mem, .dirty, .regDbaddr, .chainCount])).trans
    ((writeDone_ran c .dbaddr c.descBase t).sub)
  have q2 := q1.trans ((cleanDone_ran c.descBase.toNat (16 * chainLength size chunk) _).sub)
  have q3 := q2.trans ((Ran.latch (setChainCount_keeps (BitVec.ofNat 32 (chainLength size chunk)) _)).sub)
  refine ⟨((t.writeDone c .dbaddr c.descBase).cleanDone c.descBase.toNat
    (16 * chainLength size chunk)).setChainCount (BitVec.ofNat 32 (chainLength size chunk)),
    ?_, ?_, ?_, ?_, ?_, ?_, ?_⟩
  rotate_left
  · simpa [chainEvents, funext (descriptorEvents.eq_def c buf size chunk (chainLength size chunk)), descAddr,
      descBytes] using q3
  · simp [Controller.perform, CtlRegs.write]
  · simp
  · intro i hi
    obtain ⟨h0, h1, h2, h3⟩ := hw i hi
    rw [Nat.zero_add] at h0 h1 h2 h3
    have dz : ∀ x, c.descBase.toNat ≤ x → x < c.descBase.toNat + 16 * chainLength size chunk →
        (Dirty.clean t.dirty c.descBase.toNat (16 * chainLength size chunk)).contains x = false := by
      intro x g1 g2
      simp only [List.contains_eq_mem, decide_eq_false_iff_not, Dirty.mem_clean]
      tauto
    have hb : 16 * i + 16 ≤ 16 * chainLength size chunk := by omega
    refine ⟨fun k hk => ⟨h0 k hk, ?_⟩, fun k hk => ⟨h1 k hk, ?_⟩, fun k hk => ⟨h2 k hk, ?_⟩,
      fun k hk => ⟨h3 k hk, ?_⟩⟩ <;>
      (simp only [setChainCount_dirty, cleanDone_dirty, writeDone_dirty, descAddr, descBytes]
       exact dz _ (by omega) (by omega))
  · intro x hx
    simp only [setChainCount_mem, cleanDone_mem, writeDone_mem]
    exact hk x (by omega)
  · intro x
    simp only [setChainCount_dirty, cleanDone_dirty, writeDone_dirty, Dirty.mem_clean, hd, Nat.mul_zero,
      Nat.add_zero]
    tauto
  · simp only [buildChain, h, if_true, descAddr, descBytes]
    rw [e, andThen_ok, regWrite_none ht, andThen_ok, cacheClean_none (by simpa using ht), andThen_ok]

/-! ## SENDCMD's run, up to its completion poll -/

/-- The parts SENDCMD's run changes beside the answers. -/
def sendRunParts : List Part :=
  [.pending, .rspCount, .rspWords, .cmdWord, .cmdData, .cnt, .pollCmdDone, .pollDto, .regCmdarg, .regCmd,
   .started, .fsm, .trace]

/-- SENDCMD from its entry into the busy wait on (41_command_dispatch.md R200). -/
def sendStart (w : Word) (s : State) : State :=
  ((s.setResponse .zero s.rspWords).setCommand w (dataCarrying s.params.cmdBits w)).setFsm .busyWait

theorem sendStart_ran (w : Word) (s : State) : Ran sendRunParts 0 [] s (sendStart w s) :=
  (((Ran.latch (setResponse_keeps .zero s.rspWords s)).sub (qs := sendRunParts)).trans
    ((Ran.latch (setCommand_keeps w (dataCarrying s.params.cmdBits w) _)).sub)).trans
      ((Ran.latch (setFsm_keeps .busyWait _)).sub)

/-- SENDCMD's run after a busy wait that ends, at the entry into the completion poll. -/
theorem runCommand_issued (c : Cfg) (w arg : Word) {s : State} {m : Nat} (hr : s.rst = none)
    (hb : BusyEnds s 0 m) :
    ∃ t, Ran sendRunParts (m + 1) (statusReads c s 0 (m + 1) ++ issueEvents c arg w) s t ∧
      t.rspCount = .zero ∧ t.rspWords = s.rspWords ∧ t.ctl.started = startedAfter c arg w s ∧
      t.cmdWord = .holds w ∧
      t.cmdData = .holds (dataCarrying s.params.cmdBits w) ∧ t.ctl.regs.cmdarg = .holds arg ∧
      t.ctl.regs.cmd = .holds w ∧ t.trace = s.trace ++ [.busyWait, .issue, .pollCompletion] ∧
      runCommand c w arg (s.setResponse .zero s.rspWords) =
        (pollCompletion c (dataCarrying s.params.cmdBits w) t).andThen fun u =>
          extractResponse c w ((commandOver c (dataCarrying s.params.cmdBits w) u).setFsm .readResponse) := by
  have r0 := sendStart_ran w s
  obtain ⟨t, e, r, _⟩ := busyWait_ends c (s := sendStart w s) hr (hb.later r0.drew (r0.same .params))
  rw [statusReads_later r0.drew] at r
  have q1 := (r0.trans r.sub).trans ((Ran.latch (setFsm_keeps .issue t)).sub (qs := sendRunParts))
  obtain ⟨t2, e2, r2, a1, a2, a3, a4⟩ := issue_ran c arg w (s := t.setFsm .issue) ((q1.same .rst).trans hr)
  have q2 := (q1.trans r2.sub).trans ((Ran.latch (setFsm_keeps .pollCompletion t2)).sub (qs := sendRunParts))
  refine ⟨t2.setFsm .pollCompletion, by simpa using q2, ?_, ?_, a4.trans ?_, ?_, ?_, a2, a3, ?_, ?_⟩
  · exact (r2.same .rspCount).trans ((r.same .rspCount).trans rfl)
  · exact (r2.same .rspWords).trans ((r.same .rspWords).trans rfl)
  · have x0 : t.params = s.params := r.same .params
    have x1 : t.ctl.started = s.ctl.started := r.same .started
    have x2 : t.ctl.regs = s.ctl.regs := r.frame.regs (by decide)
    simp only [startedAfter, setFsm_params, setFsm_ctl, x0, x1, x2]
  · exact (r2.same .cmdWord).trans ((r.same .cmdWord).trans rfl)
  · exact (r2.same .cmdData).trans ((r.same .cmdData).trans rfl)
  · have x2 : t2.trace = (t.setFsm .issue).trace := r2.same .trace
    have x1 : t.trace = s.trace ++ [.busyWait] := r.same .trace
    simp [x2, x1]
  · simp only [runCommand, setResponse_params]
    rw [show (((s.setResponse .zero s.rspWords).setCommand w (dataCarrying s.params.cmdBits w)).setFsm
      .busyWait) = sendStart w s from rfl, e, andThen_ok, e2, andThen_ok]

end Sys2Proof.Machine
end

