-- ==== Sys2Proof/Laws/Sendcmd.lean ====
section
/-! SUPPORT. What SENDCMD can do to memory, whatever the answers and whenever a reset comes. -/

namespace Sys2Proof.Machine

/-- A register write that answers has passed its tick. -/
theorem regWrite_ok {c : Cfg} {r : CtlReg} {v : Word} {s t : State} (h : regWrite c r v s = .ok () t) :
    ∃ u, KeepsAllBut [.rst] s u ∧ t = u.writeDone c r v := by
  cases e : tick s with
  | ok _ u =>
    simp only [regWrite, e, andThen_ok] at h
    exact ⟨u, tick_keeps e, (Res.ok.inj h).2.symm⟩
  | stop _ _ => simp only [regWrite, e, Res.andThen, Res.bind] at h; exact nomatch h

/-- Two procedures that answer: each does. -/
theorem andThen_eq_ok {α : Type} {r : Res Unit} {f : State → Res α} {a : α} {t : State}
    (h : r.andThen f = .ok a t) : ∃ u, r = .ok () u ∧ f u = .ok a t := by
  cases r with
  | ok _ u => exact ⟨u, rfl, h⟩
  | stop _ _ => exact nomatch h

/-- What `issue` has started when it answers (41_command_dispatch.md R202). -/
theorem issue_started {c : Cfg} {arg w : Word} {s t : State} (h : issue c arg w s = .ok () t) :
    t.ctl.started = startedAfter c arg w s := by
  obtain ⟨t1, e1, h1⟩ := andThen_eq_ok h
  obtain ⟨t2, e2, h2⟩ := andThen_eq_ok h1
  obtain ⟨t3, e3, h3⟩ := andThen_eq_ok h2
  clear h h1 h2
  obtain ⟨u1, k1, rfl⟩ := regWrite_ok e1
  obtain ⟨u2, k2, rfl⟩ := regWrite_ok e2
  obtain ⟨u4, k4, rfl⟩ := regWrite_ok h3
  have k3 : KeepsAllBut [.rst, .hist] (u2.writeDone c .cmdarg arg) t3 := by
    have := (barrier_does (L := True) c NoErr (u2.writeDone c .cmdarg arg)).frame; rwa [e3] at this
  have p : u4.params = s.params := (k4 .params (by decide)).trans ((k3 .params (by decide)).trans
    ((show (u2.writeDone c .cmdarg arg).params = u2.params by simp).trans ((k2 .params (by decide)).trans
      ((show (u1.writeDone c .rintsts clearAll).params = u1.params by simp).trans (k1 .params (by decide))))))
  have st : u4.ctl.started = s.ctl.started := (k4 .started (by decide)).trans ((k3 .started (by decide)).trans
    ((show (u2.writeDone c .cmdarg arg).ctl.started = u2.ctl.started by simp [Controller.perform]).trans
      ((k2 .started (by decide)).trans
      ((show (u1.writeDone c .rintsts clearAll).ctl.started = u1.ctl.started by
        simp [Controller.perform]).trans (k1 .started (by decide))))))
  have rg : u4.ctl.regs = { s.ctl.regs with cmdarg := .holds arg } := by
    rw [k4.regs (by decide), k3.regs (by decide)]
    simp [Controller.perform, CtlRegs.write, k2.regs (by decide), k1.regs (by decide)]
  simp [Controller.perform, startedAfter, p, st, rg, CtlRegs.write]

/-- Whatever the answers and whenever a reset comes, the command that runs leaves memory as it was, or as the transfer
of the command it started leaves it (41_command_dispatch.md R200, R202; log 33). -/
theorem runCommand_memory (c : Cfg) (w arg : Word) (s : State) :
    (runCommand c w arg s).state.mem = s.mem ∨
    ∃ u, KeepsAllBut (.rst :: runParts) s u ∧ u.ctl.started = startedAfter c arg w s ∧
      (runCommand c w arg s).state.mem = (commandOver c (dataCarrying s.params.cmdBits w) u).mem := by
  simp only [runCommand]
  generalize dataCarrying s.params.cmdBits w = data
  have k0 : KeepsAllBut [.cmdWord, .cmdData, .fsm, .trace] s ((s.setCommand w data).setFsm .busyWait) :=
    ((setCommand_keeps w data s).trans (setFsm_keeps _ _)).mono (by decide)
  have k1 := (busyWait_does (L := True) c (E := SendErr) (.inl rfl) ((s.setCommand w data).setFsm .busyWait)).frame
  cases e1 : busyWait c ((s.setCommand w data).setFsm .busyWait) with
  | stop _ t => rw [e1] at k1; exact .inl ((k1 .mem (by decide)).trans (k0 .mem (by decide)))
  | ok _ t1 =>
  rw [e1] at k1
  have k1' : KeepsAllBut (.rst :: runParts) s t1 :=
    (k0.mono (by decide)).trans_same (KeepsAllBut.mono k1 (by decide))
  simp only [andThen_ok]
  have p1 : t1.params = s.params := k1' .params (by decide)
  have k2 := (issue_does (L := False) c SendErr arg w (t1.setFsm .issue) False.elim).frame
  have k1f : KeepsAllBut (.rst :: runParts) s (t1.setFsm .issue) :=
    k1'.trans_same ((setFsm_keeps _ _).mono (by decide))
  cases e2 : issue c arg w (t1.setFsm .issue) with
  | stop _ t => rw [e2] at k2; exact .inl ((k2 .mem (by decide)).trans (k1f .mem (by decide)))
  | ok _ t2 =>
  rw [e2] at k2
  have k2f : KeepsAllBut (.rst :: runParts) s (t2.setFsm .pollCompletion) :=
    (k1f.trans_same (KeepsAllBut.mono k2 (by decide))).trans_same ((setFsm_keeps _ _).mono (by decide))
  simp only [andThen_ok]
  have k3 := (pollCompletion_does (L := True) c data (t2.setFsm .pollCompletion)).frame
  cases e3 : pollCompletion c data (t2.setFsm .pollCompletion) with
  | stop _ t => rw [e3] at k3; exact .inl ((k3 .mem (by decide)).trans (k2f .mem (by decide)))
  | ok _ t3 =>
  rw [e3] at k3
  refine .inr ⟨t3, k2f.trans_same (KeepsAllBut.mono k3 (by decide)), ?_, ?_⟩
  · have hs : t3.ctl.started = t2.ctl.started := k3 .started (by decide)
    have st : (t1.setFsm .issue).ctl.started = s.ctl.started :=
      (k1 .started (by decide)).trans (k0 .started (by decide))
    have rg : (t1.setFsm .issue).ctl.regs = s.ctl.regs :=
      (KeepsAllBut.regs k1 (by decide)).trans (KeepsAllBut.regs k0 (by decide))
    rw [hs, issue_started e2, startedAfter, startedAfter, st, rg]
    simp only [setFsm_params, p1]
  · simp only [andThen_ok]
    exact ((extractResponse_does (L := True) c SendErr w ((commandOver c data t3).setFsm .readResponse)).frame .mem
      (by decide)).trans rfl

/-- However an operation ends, its end leaves memory alone. -/
theorem endOp_memory {r : Res DWord} {t : State} (h : endOp r = .next t) : t.mem = r.state.mem := by
  rcases endOp_next h with ⟨rfl, -⟩ | ⟨-, _, _, _, _, -, -, -, k, -⟩
  · rfl
  · exact k .mem (by decide)

/-- The memory that SENDCMD leaves (41_command_dispatch.md R200; log 33). -/
theorem execSendcmd_memory {idx : Nat} {shape : Shape} {dir : Dir} {s t : State} {w : Word}
    (h : execSendcmd idx shape dir s = .next t)
    (hw : encodeCommand s.params idx shape s.cfg.val.dmaCapable = some w) :
    t.mem = s.mem ∨ ∃ u, KeepsAllBut (.rst :: .errStatus :: sendcmdStopParts) s u ∧
      u.ctl.started = startedAfter s.cfg.val (low32 s.reqA.val) w s ∧
      t.mem = (commandOver s.cfg.val (dataCarrying s.params.cmdBits w) u).mem := by
  unfold execSendcmd withCfg at h
  split at h
  swap
  · exact .inl (endOp_memory (r := .stop (.raised .configError) s) h)
  split at h
  swap
  · exact nomatch h
  rename_i c hc
  obtain rfl : s.cfg.val = c := by rw [Latch.read_eq_some.mp hc]; rfl
  unfold withA at h
  split at h
  swap
  · exact nomatch h
  rename_i a ha
  obtain rfl : s.reqA.val = a := by rw [Latch.read_eq_some.mp ha]; rfl
  simp only [setResponse_params, hw] at h
  have k0 := setResponse_keeps .zero s.rspWords s
  generalize hu : s.setResponse .zero s.rspWords = s0 at h k0
  have p0 : s0.params = s.params := k0 .params (by decide)
  have m := endOp_memory h
  have e : ((runCommand s.cfg.val w (low32 s.reqA.val) s0).bind fun _ t => Res.ok (0 : DWord) t).state =
      (runCommand s.cfg.val w (low32 s.reqA.val) s0).state := by
    cases runCommand s.cfg.val w (low32 s.reqA.val) s0 <;> rfl
  rw [e] at m
  rcases runCommand_memory s.cfg.val w (low32 s.reqA.val) s0 with g | ⟨u, ku, st, g⟩
  · exact .inl (m.trans (g.trans (k0 .mem (by decide))))
  · refine .inr ⟨u, (KeepsAllBut.trans_same (k0.mono (by decide)) (ku.mono (by decide))), ?_, ?_⟩
    · rw [st, startedAfter, startedAfter, p0, k0 .started (by decide), k0.regs (by decide)]
    · rw [m, g, p0]

end Sys2Proof.Machine
end

