-- ==== Sys2Proof/Laws/Step.lean ====
section
/-! SUPPORT. Everything a step can do: the block's move, case by case, and a move of the environment. -/

namespace Sys2Proof.Machine

theorem moved_keeps (s : State) : KeepsAllBut [.sched] s (moved s) := by
  intro p hp; cases p <;> first | rfl | simp at hp

theorem idleCycle_keeps (s : State) : KeepsAllBut [.rst, .resp] s (idleCycle s) := by
  intro p hp; cases p <;> first | rfl | simp at hp

theorem accept_keeps (q : Request) (rest : List Request) (s : State) :
    KeepsAllBut [.reqCtl, .reqA, .reqB, .reqC, .cfgIn, .reqs, .rst, .resp] s (accept q rest s) := by
  intro p hp; cases p <;> first | rfl | simp at hp

theorem resetEvent_keeps (s : State) : KeepsAllBut blockParts s (resetEvent s) := by
  intro p hp; cases p <;> first | rfl | simp [blockParts] at hp

/-- The reset event leaves the block as 10_state.md R75 says. -/
theorem resetEvent_reset (s : State) : BlockReset (resetEvent s) := by
  constructor <;> first | rfl | (intro k; fin_cases k <;> rfl)

/-- The block moves. -/
theorem fetch_block {s : State} (h : blockMoves s) : fetch s = fetchBlock (moved s) := by
  rcases h with h | ⟨rest, h⟩
  · simp only [fetch, h, moved]; congr 1; cases s; cases h; rfl
  · simp only [fetch, h, moved]; rfl

section

variable {s : State} (hm : blockMoves s)
include hm

theorem step_reset (hr : s.rst = some 0) : step s = .next (resetEvent (moved s)) := by
  rw [step, fetch_block hm, fetchBlock, if_pos (show (moved s).rst = some 0 from hr)]

theorem step_halted (hr : s.rst ≠ some 0) (hf : s.fsm = .halted) :
    step s = if s.rst = none then .fault .blockHalted else .next (idleCycle (moved s)) := by
  rw [step, fetch_block hm, fetchBlock, if_neg (show ¬ (moved s).rst = some 0 from hr),
    if_pos (show (moved s).fsm = .halted from hf)]
  by_cases g : s.rst = none
  · rw [if_pos (show (moved s).rst = none from g), if_pos g]
  · rw [if_neg (show ¬ (moved s).rst = none from g), if_neg g]

theorem step_noRequest (hr : s.rst ≠ some 0) (hf : s.fsm ≠ .halted) (hq : s.reqs = []) :
    step s = .next (idleCycle (moved s)) := by
  rw [step, fetch_block hm, fetchBlock, if_neg (show ¬ (moved s).rst = some 0 from hr),
    if_neg (show ¬ (moved s).fsm = .halted from hf), show (moved s).reqs = [] from hq]

theorem step_busy (hr : s.rst ≠ some 0) (hf : s.fsm ≠ .halted) (hi : s.fsm ≠ .idle) :
    step s = .next (idleCycle (moved s)) := by
  rw [step, fetch_block hm, fetchBlock, if_neg (show ¬ (moved s).rst = some 0 from hr),
    if_neg (show ¬ (moved s).fsm = .halted from hf)]
  have : reqReady (moved s) = false := by
    show (s.fsm == .idle) = false
    simpa using hi
  cases (moved s).reqs with
  | nil => rfl
  | cons q rest => simp [this]

/-- A request is accepted (30_encoding.md R110, R113). -/
theorem step_request {q : Request} {rest : List Request} (hr : s.rst ≠ some 0) (hf : s.fsm = .idle)
    (hq : s.reqs = q :: rest) :
    step s = match decodeRequest q.ctl with
      | .ok i => exec i (accept q rest (moved s))
      | .error _ => raiseError .illegalRequest (accept q rest (moved s)) := by
  rw [step, fetch_block hm, fetchBlock, if_neg (show ¬ (moved s).rst = some 0 from hr),
    if_neg (by show ¬ s.fsm = .halted; rw [hf]; decide), show (moved s).reqs = q :: rest from hq]
  have : reqReady (moved s) = true := by show (s.fsm == .idle) = true; rw [hf]; rfl
  simp only [this, if_true]
  cases decodeRequest q.ctl <;> rfl

/-- Everything a step of the block can do. -/
theorem step_block_cases :
    (s.rst = some 0 ∧ step s = .next (resetEvent (moved s))) ∨
    (s.fsm = .halted ∧ step s = .fault .blockHalted) ∨
    (s.rst ≠ some 0 ∧ step s = .next (idleCycle (moved s))) ∨
    ∃ q rest, s.rst ≠ some 0 ∧ s.fsm = .idle ∧ s.reqs = q :: rest ∧
      ((∃ i, decodeRequest q.ctl = .ok i ∧ step s = exec i (accept q rest (moved s))) ∨
       step s = raiseError .illegalRequest (accept q rest (moved s))) := by
  by_cases hr : s.rst = some 0
  · exact .inl ⟨hr, step_reset hm hr⟩
  by_cases hf : s.fsm = .halted
  · have e := step_halted hm hr hf
    by_cases g : s.rst = none
    · rw [if_pos g] at e; exact .inr (.inl ⟨hf, e⟩)
    · rw [if_neg g] at e; exact .inr (.inr (.inl ⟨hr, e⟩))
  by_cases hi : s.fsm = .idle
  · cases hq : s.reqs with
    | nil => exact .inr (.inr (.inl ⟨hr, step_noRequest hm hr hf hq⟩))
    | cons q rest =>
      have e := step_request hm hr hi hq
      refine .inr (.inr (.inr ⟨q, rest, hr, hi, rfl, ?_⟩))
      cases hd : decodeRequest q.ctl with
      | ok i => rw [hd] at e; exact .inl ⟨i, rfl, e⟩
      | error r => rw [hd] at e; exact .inr e
  · exact .inr (.inr (.inl ⟨hr, step_busy hm hr hf hi⟩))

end

/-- What a request word spells is an instruction of the block. -/
theorem decodeRequest_agent {w : Word} {i : Instr} (h : decodeRequest w = .ok i) : i.agent = .block := by
  have plain : ∀ op j, plainOperation op = some j → j.agent = .block := by
    intro op j hj
    unfold plainOperation at hj
    split at hj <;> cases hj <;> rfl
  simp only [decodeRequest] at h
  split at h
  · exact nomatch h
  split at h
  · exact nomatch h
  split at h
  · split at h
    · cases h; rfl
    · exact nomatch h
  split at h
  · cases h; rfl
  split at h
  · exact nomatch h
  · rename_i j hj
    split at h
    · cases h; exact plain _ _ hj
    · exact nomatch h

/-- What a request word spells is well formed: its index is a field of 6 bits (30_encoding.md R111). -/
theorem decodeRequest_wf {w : Word} {i : Instr} (h : decodeRequest w = .ok i) : i.wf = true := by
  have hi : (w.extractLsb' 4 6).toNat < 64 := BitVec.isLt _
  have plain : ∀ op j, plainOperation op = some j → j.wf = true := by
    intro op j hj
    unfold plainOperation at hj
    split at hj <;> cases hj <;> rfl
  simp only [decodeRequest] at h
  repeat' split at h
  all_goals first
    | (cases h; done)
    | (cases h; simpa [Instr.wf, Instr.idx?] using hi)
    | (cases h; exact plain _ _ (by assumption))

/-- What a command word spells is an instruction of the controller. -/
theorem decodeCommand_agent {b : CmdBits} {w : Word} {i : Instr} (h : decodeCommand b w = .ok i) :
    i.agent = .controller := by
  unfold decodeCommand at h
  split at h
  · cases h; rfl
  split at h
  · exact nomatch h
  · simp only at h
    split at h
    · rename_i shape _ _
      cases h
      cases classOfWord b w <;> rfl
    · exact nomatch h

/-- What a DES0 word spells is an instruction of the DMA engine. -/
theorem decodeDes0_agent {w : Word} {i : Instr} (h : decodeDes0 w = .ok i) : i.agent = .engine := by
  unfold decodeDes0 at h
  repeat' split at h
  all_goals (first | (cases h; rfl) | exact nomatch h)

/-- What every instruction of the environment may change. -/
theorem frameParts_environment {i : Instr} (h : i.agent ≠ .block) : frameParts i ⊆ environmentParts := by
  cases i <;> first | exact absurd rfl h | (simp only [frameParts]; decide)

/-- Everything a step of the controller or of the engine can do. -/
theorem step_environment {s : State} {g : Agent} {later : List Agent} (hs : s.sched = g :: later)
    (hg : g ≠ .block) :
    (∃ r, step s = .refused r) ∨
    ∃ t, step s = .next t ∧ KeepsAllBut environmentParts s t ∧ (s.mem.wf → t.mem.wf) := by
  have hmv : ({ s with sched := later } : State) = moved s := by simp [moved, hs]
  have k0 := (moved_keeps s).mono (qs := environmentParts) (by decide)
  have run : ∀ (i : Instr) (u : State), i.agent ≠ .block → KeepsAllBut environmentParts s u →
      ∃ t, exec i u = .next t ∧ KeepsAllBut environmentParts s t ∧ (u.mem.wf → t.mem.wf) := by
    intro i u hi hu
    obtain ⟨t, e, k, w⟩ := exec_environment hi u
    exact ⟨t, e, hu.trans_same (k.mono (frameParts_environment hi)), w⟩
  cases g with
  | block => exact absurd rfl hg
  | controller =>
    have e : fetch s = fetchController (moved s) := by rw [← hmv]; simp only [fetch, hs]
    rw [step, e, fetchController]
    cases hk : (moved s).ctl.started with
    | nil => exact .inr ⟨moved s, rfl, k0, id⟩
    | cons k rest =>
      dsimp only
      cases hd : decodeCommand (moved s).params.cmdBits k.word with
      | error r => exact .inl ⟨_, rfl⟩
      | ok i => exact .inr (run i _ (by rw [decodeCommand_agent hd]; decide) k0)
  | engine =>
    have e : fetch s = fetchEngine (moved s) := by rw [← hmv]; simp only [fetch, hs]
    rw [step, e, fetchEngine]
    cases hc : (moved s).dma.cur with
    | none => exact .inr ⟨moved s, rfl, k0, id⟩
    | some a =>
      have k1 := engineWord_keeps a (moved s)
      dsimp only
      generalize engineWord a (moved s) = p at k1 ⊢
      obtain ⟨w, u⟩ := p
      dsimp only at k1 ⊢
      cases hd : decodeDes0 w with
      | error r => exact .inl ⟨_, rfl⟩
      | ok i =>
        obtain ⟨t, e, k, g⟩ := run i u (by rw [decodeDes0_agent hd]; decide)
          (k0.trans_same (k1.mono (by decide)))
        refine .inr ⟨t, e, k, fun h => g ?_⟩
        rw [show u.mem = (moved s).mem from k1 .mem (by decide)]; exact h

/-- Who moves. -/
theorem moves_cases (s : State) : blockMoves s ∨ ∃ g later, s.sched = g :: later ∧ g ≠ .block := by
  cases hs : s.sched with
  | nil => exact .inl (.inl hs)
  | cons g later =>
    by_cases hg : g = .block
    · subst hg; exact .inl (.inr ⟨later, hs⟩)
    · exact .inr ⟨g, later, rfl, hg⟩

end Sys2Proof.Machine
end

