-- ==== Sys2Proof/Tests/Slice0.lean ====
section
/-! SUPPORT. The model's own tests: ill-formed terms, words from the spec's encodings, one step per instruction
against spec/95_test_vectors.md, and a witness of every statement's hypotheses. -/

namespace Sys2Proof.Tests

open Sys2Proof.Machine

/-! ## Small states -/

/-- Budgets of 4, as in the notation of 95_test_vectors.md; POLL_DELAY 0. -/
def params : Params :=
  { nBusy := 4, nPoll := 4, nClk := 4, pollDelay := 0, cmdBits := defaultCmdBits, intBits := defaultIntBits,
    statusBusyMask := defaultBusyMask, classTable := defaultClassTable }

/-- CFG-D of 95_test_vectors.md. -/
def cfgD : CfgIn := ⟨0x40000000, 0x10000000, 4096, 50000000, 1, 1024, 512, 4096, 400000, 1⟩

/-- CFG-P of 95_test_vectors.md. -/
def cfgP : CfgIn := { cfgD with dmaCapable := 0, fifoDepth := 64, blockSize := 16 }

/-- Just after reset, with the controller's answers to come. -/
def fresh (answers : List Word) : State := { State.reset with params := params, answers := answers }

/-- After INIT with a configuration, with operands in the latches and the controller's answers to come. -/
def ready (c : CfgIn) (a b k : DWord) (answers : List Word) : State :=
  { fresh answers with
    cfg := .holds c.toCfg, cfgValid := true, busWidth := .holds 1, clkDiv := .holds 63,
    clkEnabled := .holds true, reqCtl := .holds 0, reqA := .holds a, reqB := .holds b, reqC := .holds k }

/-- The outcome is a next state that passes the check. -/
def passes (o : Out) (f : State → Bool) : Bool :=
  match o with
  | .next t => f t
  | .fault _ => false
  | .refused _ => false

theorem passes_next {o : Out} {f : State → Bool} (h : passes o f = true) : ∃ t, o = .next t ∧ f t = true := by
  cases o with
  | next t => exact ⟨t, rfl, h⟩
  | fault _ => exact nomatch h
  | refused _ => exact nomatch h

theorem passes_some {o : Out} {f : State → Bool} (h : passes o f = true) : ∃ t, o = .next t :=
  (passes_next h).imp fun _ h => h.1

/-- The response port drives this code, value and status. -/
def drives (code : ResultCode) (value : DWord) (status : Word) (t : State) : Bool :=
  match t.resp with
  | some r => r.code == code && r.value == value && r.status == status
  | none => false

/-- The byte at an address, 0 where there is none. -/
def byteAt (t : State) (a : Nat) : Byte := (t.mem.read? a).getD 0

theorem known_of_zero {s : State} (h : s.rspCount = .zero) : ResponseKnown s := fun _ hk => by
  rw [h] at hk; exact absurd hk (Nat.not_lt_zero _)

theorem ready_ready (c : CfgIn) (a b k : DWord) (answers : List Word) :
    Ready c.toCfg (ready c a b k answers) := ⟨rfl, rfl, rfl, known_of_zero rfl⟩

/-! ## Well-formedness: one ill-formed term for each check -/

theorem test_wf_index : (Instr.encode 64 .none).wf = false := by decide
theorem test_wf_index_bound : (Instr.sendcmd 63 .long136 .write).wf = true := by decide
theorem test_wf_flags_distinct : ¬ ({ defaultCmdBits with write := 9 } : CmdBits).wf := by decide
theorem test_wf_flags_low : ¬ ({ defaultCmdBits with respExpect := 5 } : CmdBits).wf := by decide
theorem test_wf_flags_high : ¬ ({ defaultCmdBits with start := 32 } : CmdBits).wf := by decide
theorem test_wf_ints_distinct : ¬ ({ defaultIntBits with dto := 2 } : IntBits).wf := by decide
theorem test_wf_ints_high : ¬ ({ defaultIntBits with ebe := 32 } : IntBits).wf := by decide
theorem test_wf_busy : ¬ ({ params with nBusy := 0 } : Params).wf := by decide
theorem test_wf_poll : ¬ ({ params with nPoll := 0 } : Params).wf := by decide
theorem test_wf_clk : ¬ ({ params with nClk := 4294967296 } : Params).wf := by decide
theorem test_wf_class : ¬ ({ params with classTable := [(12, .stop)] } : Params).wf := by decide
theorem test_wf_params : params.wf := by decide

/-! ## Decoding: words written out from the spec's encodings -/

/-- 30_encoding.md R147's example and R112's codes, bit by bit: dir, shape, idx, op. -/
theorem test_decode_request :
    decode 0b000000000000000000_01_01_010001_0011 = .ok (.sendcmd 17 .shortCrc .read) ∧
    decode 0b000000000000000000_10_01_011000_0011 = .ok (.sendcmd 24 .shortCrc .write) ∧
    decode 0b000000000000000000_00_10_000010_0011 = .ok (.sendcmd 2 .long136 .none) ∧
    decode 0b000000000000000000_00_00_111111_0010 = .ok (.encode 63 .none) := by decide

theorem test_decode_plain :
    decode 0x1 = .ok .init ∧ decode 0x4 = .ok .classify ∧ decode 0x5 = .ok .extract ∧
    decode 0x6 = .ok .updclk ∧ decode 0x7 = .ok .setclk ∧ decode 0x8 = .ok .setwidth ∧
    decode 0x9 = .ok .cfgbus ∧ decode 0xA = .ok .build ∧ decode 0xB = .ok .prepare ∧
    decode 0xC = .ok .read ∧ decode 0xD = .ok .write := by decide

/-- V-REQ 7 to 16. -/
theorem test_decode_illegal :
    [0x0, 0xE, 0xF, 0x4003, 0x80000001, 0x3113, 0x1002, 0x11, 0x404, 0x16].all
      (fun w => !(decodeRequest (BitVec.ofNat 32 w)).isOk) = true := by decide

/-- 40_command_encoder.md R162, R164, R165: the flags bit by bit. -/
theorem test_decode_command :
    decode 0b1010_0000_0000_0000_1000_0000_00_000000 = .ok (.cmdwInit 0 .none) ∧
    decode 0b1010_0000_0000_0000_0100_0001_01_001100 = .ok (.cmdwStop 12 .shortCrc) ∧
    decode 0b1010_0000_0000_0000_0010_0001_01_001101 = .ok (.cmdwStatus 13 .shortCrc) ∧
    decode 0b1010_0000_0000_0000_0010_0011_01_010001 = .ok (.cmdwRead 17 .shortCrc) ∧
    decode 0b1010_0000_0000_0000_0010_0110_01_011000 = .ok (.cmdwWrite 24 .noCrc) ∧
    decode 0b1010_0000_0000_0000_0000_0001_11_000010 = .ok (.cmdwOther 2 .long136) ∧
    decode 0b1000_0000_0010_0000_0010_0000_00_000000 = .ok .cmdwHs := by decide

/-- 30_encoding.md R135, R136: OWN, CH, FS, LD and bit 1. -/
theorem test_decode_descriptor :
    decode 0x8000001A = .ok .des0First ∧ decode 0x80000012 = .ok .des0Middle ∧
    decode 0x80000004 = .ok .des0Last ∧ decode 0x8000000C = .ok .des0Single := by decide

/-! ## One step for each instruction (95_test_vectors.md) -/

/-- V-INIT 1. -/
theorem test_init :
    passes (exec .init { fresh [0, 0, 0, 0] with cfgIn := cfgD })
      (fun t => drives .ok 63 0 t && t.cfgValid && t.hist.length == 12 && t.clkDiv == .holds 63) = true := by
  decide

/-- V-INIT 7. -/
theorem test_init_ring :
    passes (exec .init { fresh [] with cfgIn := { cfgD with descBase := 0xFFFFFE00, descSize := 1024 } })
      (fun t => drives .configError 0 0 t && !t.cfgValid && t.hist.isEmpty) = true := by decide

/-- V-REQ 2. -/
theorem test_encode :
    passes (exec (.encode 17 .shortCrc) (ready cfgD 0 0 0 []))
      (fun t => drives .ok 0xA0002351 0 t) = true := by decide

/-- Ready for a transfer: one descriptor of four bytes at 0x2000 in the ring, cleaned, and the base given to the
controller; the device's bytes and OWN's value to come. -/
def prepared (answers : List Word) : State :=
  let s := ready cfgD 0 0 0 answers
  let s := (((s.storeWord 0x10000000 0x8000000C).storeWord 0x10000004 4).storeWord 0x10000008 0x2000).storeWord
    0x1000000C 0
  { s with dirty := [], dmaData := [0x11, 0x22, 0x33, 0x44, 0],
           ctl := { s.ctl with regs := { s.ctl.regs with dbaddr := .holds 0x10000000 } } }

/-- P2, line 2; 70_reset_and_hazards.md R466: the command is carried out and its transfer is over. -/
theorem test_sendcmd :
    passes (exec (.sendcmd 18 .shortCrc .read) (prepared [0, 0x4, 0x8, 0x900]))
      (fun t => drives .ok 0 0 t && t.cmdWord == .holds 0xA0002352 && t.rspCount == .one &&
        t.rspWords[0] == .holds 0x900 && t.hist.length == 12 && t.ctl.started.isEmpty &&
        t.ctl.bus == [⟨0xA0002352, .holds 0⟩] && t.dma.cur == none &&
        (List.range 4).map (fun k => byteAt t (0x2000 + k)) == [0x11, 0x22, 0x33, 0x44]) = true := by decide

/-- P5, line 1. -/
theorem test_sendcmd_error :
    passes (exec (.sendcmd 13 .shortCrc .none) (ready cfgD 0x10000 0 0 [0, 0x104]))
      (fun t => drives .hardwareError 0 0x104 t && t.errStatus == .holds 0x104 &&
        t.ctl.regs.cmd == .holds 0xA000214D && t.hist.length == 7) = true := by decide

/-- V-PRE 6. -/
theorem test_classify :
    passes (exec .classify { fresh [] with reqA := .holds 0x104 })
      (fun t => drives .hardwareError 0x100 0x104 t && t.hist.isEmpty) = true := by decide

/-- V-PRE 7. -/
theorem test_classify_ok :
    passes (exec .classify { fresh [] with reqA := .holds 0xC }) (fun t => drives .ok 0 0 t) = true := by decide

/-- V-EXT 1. -/
theorem test_extract :
    passes (exec .extract (ready cfgD 0xA00001C2 0 0 [1, 2, 3, 4]))
      (fun t => drives .ok 0 0 t && t.rspCount == .four && t.rspWords[3] == .holds 4) = true := by decide

/-- V-EXT 4. -/
theorem test_extract_none :
    passes (exec .extract (ready cfgD 0xA0000080 0 0 []))
      (fun t => drives .ok 0 0 t && t.rspCount == .zero && t.hist.isEmpty) = true := by decide

/-- P4, line 1. -/
theorem test_updclk :
    passes (exec .updclk (ready cfgD 0 0 0 [0x80202000, 0x1000, 0x00202000]))
      (fun t => drives .ok 0 0 t && t.hist.length == 6 && t.ctl.started.isEmpty &&
        t.trace == [.exec, .idle]) = true := by decide

/-- P4, line 2, with N_CLK = 3. -/
theorem test_updclk_timeout :
    passes (exec .updclk { ready cfgD 0 0 0 [0x80202000, 0, 0x80202000, 0x1000, 0x80202000, 0] with
        params := { params with nClk := 3 } })
      (fun t => drives .fatalTimeout 0 0 t && t.halted && t.hist.length == 9) = true := by decide

/-- V-CLK 1. -/
theorem test_setclk :
    passes (exec .setclk (ready cfgD 98039 0 0 [0, 0, 0, 0]))
      (fun t => drives .ok 255 0 t && t.clkDiv == .holds 255 && t.hist.length == 11) = true := by decide

/-- V-CLK 13. -/
theorem test_setclk_timeout :
    passes (exec .setclk { ready cfgD 25000000 0 0 [0, 0, 0x80000000, 0, 0x80000000, 0] with
        params := { params with nClk := 2 } })
      (fun t => drives .fatalTimeout 0 0 t && t.clkDiv == .holds 1 && t.clkEnabled == .holds false) = true := by
  decide

/-- V-CLK 6. -/
theorem test_setwidth :
    passes (exec .setwidth (ready cfgD 8 0 0 []))
      (fun t => drives .ok 0 0 t && t.busWidth == .holds 8 && t.ctl.regs.ctype == .holds 0x10000) = true := by
  decide

/-- V-CLK 8. -/
theorem test_setwidth_bad :
    passes (exec .setwidth (ready cfgD 2 0 0 []))
      (fun t => drives .configError 0 0 t && t.busWidth == .holds 1) = true := by decide

/-- V-CLK 12. -/
theorem test_cfgbus :
    passes (exec .cfgbus (ready cfgD 25000000 4 0 [0, 0, 0, 0]))
      (fun t => drives .ok 1 0 t && t.busWidth == .holds 4 && t.hist.length == 12) = true := by decide

/-- V-CLK 11. -/
theorem test_cfgbus_clock :
    passes (exec .cfgbus (ready cfgD 1 4 0 [])) (fun t => drives .configError 0 0 t && t.hist.isEmpty) = true := by
  decide

/-- V-DMA 8: the middle descriptor's DES0 and the last one's DES2. -/
theorem test_build :
    passes (exec .build (ready { cfgD with descSize := 48 } 0x80000000 3 1 []))
      (fun t => drives .ok 3 0 t && byteAt t 0x10000010 == 0x12 && byteAt t 0x10000028 == 2 &&
        t.hist.length == 14) = true := by decide

/-- V-DMA 15. -/
theorem test_build_buffer :
    passes (exec .build (ready cfgD 0xFFFFF000 4097 4096 []))
      (fun t => drives .configError 0 0 t && t.mem.isEmpty) = true := by decide

/-- X2: the ring's bytes. -/
theorem test_prepare :
    passes (exec .prepare (ready cfgD 0 0x80000000 1024 []))
      (fun t => drives .ok 1 0 t && t.hist.length == 9 && t.dirty.isEmpty &&
        (List.range 16).map (fun k => byteAt t (0x10000000 + k)) ==
          [0x0C, 0, 0, 0x80, 0, 4, 0, 0, 0, 0, 0, 0x80, 0, 0, 0, 0]) = true := by decide

/-- V-PREP 6. -/
theorem test_prepare_fifo :
    passes (exec .prepare (ready cfgP 0 0x2000 80 [])) (fun t => drives .invalidArgument 0 0 t) = true := by decide

/-- V-RW 1. -/
theorem test_read :
    passes (exec .read (ready cfgP 0x2000 8 0 [0x04030201, 0x08070605]))
      (fun t => drives .ok 2 0 t &&
        (List.range 8).map (fun k => byteAt t (0x2000 + k)) == [1, 2, 3, 4, 5, 6, 7, 8]) = true := by decide

/-- V-RW 4. -/
theorem test_read_wrap :
    passes (exec .read (ready cfgP 0xFFFFFFFFFFFFFFFC 8 0 []))
      (fun t => drives .invalidArgument 0 0 t && t.hist.isEmpty) = true := by decide

/-- V-RW 9 and 7. -/
theorem test_write :
    passes (exec .write (ready cfgD 0x80000000 1024 0 [])) (drives .ok 0 0) = true ∧
    passes (exec .write (ready cfgP 0x2000 512 0 [])) (drives .notSupported 0 0) = true := by decide

/-- A state in which the controller has one command started, in DMA mode, with a chain base and an argument. -/
def commanded (w : Word) : State :=
  { fresh [] with
    ctl := { Controller.initial with
      started := [⟨w, { Controller.initial.regs with
        clkdiv := .holds 63, clksrc := .holds 0, clkena := .holds 1, cmdarg := .holds 0x100,
        dbaddr := .holds 0x10000000 }, true⟩] }
    sched := [.controller] }

/-- 00_scope.md R16: one bus transaction, with its argument; 40_command_encoder.md R168 and R171 for the engine. -/
theorem test_cmdw_read :
    passes (step (commanded 0xA0002351)) (fun t => t.ctl.bus == [⟨0xA0002351, .holds 0x100⟩] &&
      t.dma.cur == some 0x10000000 && !t.dma.toDevice && t.ctl.started.isEmpty) = true := by decide

theorem test_cmdw_write :
    passes (step (commanded 0xA0002758)) (fun t => t.dma.cur == some 0x10000000 && t.dma.toDevice) = true := by
  decide

theorem test_cmdw_noData :
    [0xA0008000, 0xA000414C, 0xA000214D, 0xA00001C2].all (fun w =>
      passes (step (commanded w)) fun t => t.ctl.bus.length == 1 && t.dma.cur == none) = true := by decide

/-- 20_memory.md R87. -/
theorem test_cmdw_hs :
    passes (step (commanded 0x80202000)) (fun t => t.ctl.clock.div == .holds 63 && t.ctl.clock.ena == .holds 1 &&
      t.ctl.bus.isEmpty) = true := by decide

/-- A chain of one or two descriptors at 0x1000, with a segment of four bytes at 0x2000 and the next at 0x1010. -/
def chained (des0 : Word) (toDevice : Bool) : State :=
  let s := (((fresh []).storeWord 0x1000 des0).storeWord 0x1004 4).storeWord 0x1008 0x2000
  let s := (s.storeWord 0x100C 0x1010).storeWord 0x2000 0x44332211
  { s with dirty := [], dma := ⟨some 0x1000, toDevice, []⟩, sched := [.engine],
           dmaData := [0x51, 0x52, 0x53, 0x54, 0],
           ctl := { s.ctl with pending := .holds 4 } }

/-- 30_encoding.md R135, R136: FIRST and MIDDLE go on to DES3. -/
theorem test_des0_chained :
    [0x8000001A, 0x80000012].all (fun w => passes (step (chained w false)) fun t =>
      t.dma.cur == some 0x1010 && byteAt t 0x2002 == 0x53 && t.ctl.pending == .holds 4) = true := by decide

/-- 20_memory.md R97: a byte the CPU side has not cleaned keeps its value under the engine's store. -/
theorem test_des0_dirty :
    passes (step { chained 0x8000001A false with dirty := [0x2001] }) (fun t =>
      byteAt t 0x2000 == 0x51 && byteAt t 0x2001 == 0x22 && t.dirty == [0x2001]) = true := by decide

/-- LAST and SINGLE end the transfer and signal DTO. -/
theorem test_des0_last :
    [0x80000004, 0x8000000C].all (fun w => passes (step (chained w true)) fun t =>
      t.dma.cur == none && t.dma.sent == [0x11, 0x22, 0x33, 0x44] && t.ctl.pending == .holds 0xC) = true := by
  decide

/-! ## Refusals of the environment, and the block's other steps -/

theorem test_foreign_command :
    step (commanded 0xA0000080) = .refused .foreignCommand := by rfl

theorem test_foreign_descriptor :
    step (chained 0x0000000C false) = .refused .foreignDescriptor := by rfl

/-- V-RST 1, 4: a reset from any state keeps the controller and memory. -/
theorem test_reset :
    passes (step { ready cfgD 0 0 0 [] with rst := some 0, mem := [(5, 1)], halted := true, fsm := .halted })
      (fun t => t.fsm == .idle && !t.halted && !t.cfgValid && t.mem == [(5, 1)]) = true := by decide

/-- 70_reset_and_hazards.md R450: a reset before the third event of INIT abandons it without a response. -/
theorem test_reset_inside :
    passes (exec .init { fresh [0, 0, 0, 0] with cfgIn := cfgD, rst := some 2 })
      (fun t => t.resp.isNone && !t.cfgValid && t.hist.length == 2 && t.ctl.regs.clkena == .holds 0) = true := by
  decide

/-- A reset that comes with the acceptance abandons the operation before its first event, and one without events too;
one that comes after an operation's last event abandons its response. -/
theorem test_reset_before :
    passes (step { fresh [] with reqs := [⟨0x1, 0, 0, 0, cfgD⟩], rst := some 1 })
      (fun t => t.resp.isNone && t.hist.isEmpty && t.ctl.started.isEmpty) = true ∧
    passes (step { fresh [] with reqs := [⟨0x4, 0, 0, 0, cfgD⟩], rst := some 1 }) (fun t => t.resp.isNone) = true ∧
    passes (exec .updclk { ready cfgD 0 0 0 [0] with rst := some 2 })
      (fun t => t.resp.isNone && !t.cfgValid && t.hist.length == 2) = true := by decide

/-- 10_state.md R71: a bit that a later read does not show stays pending, until it is cleared. -/
theorem test_pending :
    (match (regRead cfgD.toCfg .rintsts { fresh [0x8, 0] with
        ctl := { Controller.initial with pending := .holds 0x100 } }).bind
      (fun _ s => regRead cfgD.toCfg .rintsts s) with
     | .ok _ t => t.ctl.pending == .holds 0x108
     | .stop _ _ => false) = true := by decide

/-- The host's word runs as the first instruction after reset (V-PRE 3). -/
theorem test_withFetchWord :
    passes (step (State.reset.withFetchWord 32 0x6)) (drives .configError 0 0) = true := by decide

/-! ## Witnesses: for each statement with hypotheses, a state and operands that meet all of them -/

/-- A word read as busy (30_encoding.md R133). -/
def busy : Word := 0x200

/-- A read of CMD that shows START set. -/
def set : Word := 0x80000000

theorem params_fresh (answers : List Word) : (fresh answers).params = params := rfl

/-- The invariant holds after INIT. -/
theorem ready_inv (a b k : DWord) (answers : List Word) : Inv (ready cfgD a b k answers) := by
  refine ⟨test_wf_params, ⟨List.Pairwise.nil, List.Pairwise.nil⟩, ⟨⟨nofun, nofun⟩, .inl rfl⟩,
    fun _ => ⟨rfl, ?_⟩, fun _ => (by decide : 1 ≤ (63 : BitVec 8).toNat), fun _ => .inl rfl, known_of_zero rfl⟩
  show cfgD.toCfg.Legal
  unfold Cfg.Legal; decide

/-- A request word on the port of a block that is ready. -/
def requested (w : Word) (a : DWord) (answers : List Word) : State :=
  { ready cfgD 0 0 0 answers with reqs := [⟨w, a, 0, 0, CfgIn.zeros⟩] }

theorem requested_inv (w : Word) (a : DWord) (answers : List Word) : Inv (requested w a answers) :=
  have h := ready_inv 0 0 0 answers
  ⟨h.params, h.memory, h.atRest, h.config, h.divisor, h.width, h.response⟩

theorem witness_DecodeOfEncode : (Instr.encode 63 .noCrc).wf = true ∧ (Instr.encode 0 .none).wf = true := by decide

theorem witness_EncodeOfDecoded : decode 0x000003F2 = .ok (.encode 63 .none) := by decide

theorem witness_CommandWordFlags :
    defaultCmdBits.wf ∧ 63 < 64 ∧ encodeCommand params 63 .long136 false = some 0xA00001FF := by decide

theorem witness_EncodedWords :
    encodeCommand defaultParams 63 .none false = some 0xA000003F ∧
    encodedTable .read .none &&& 0xE600 = encodedTable .read .noCrc &&& 0xE600 ∧
    encodedTable .read .none &&& 0x1C0 = encodedTable .stop .none &&& 0x1C0 := by decide

theorem witness_StepRuns_block :
    blockMoves (requested 0x5 0 []) ∧ (requested 0x5 0 []).rst ≠ some 0 ∧ (requested 0x5 0 []).fsm = .idle ∧
    decodeRequest 0x5 = .ok .extract := ⟨.inl rfl, by decide, rfl, by decide⟩

theorem witness_StepRuns_controller :
    (commanded 0x80202000).sched = [.controller] ∧
    decodeCommand (commanded 0x80202000).params.cmdBits 0x80202000 = .ok .cmdwHs := by decide

/-- The engine sees a word of a state whose bytes are all cleaned. -/
theorem engineSeesWord_of {s : State} {a : Nat} {w : Word}
    (h : (List.range 4).all (fun k => s.mem.read? (a + k) == some (byteOf w k) && !s.dirty.contains (a + k)) =
      true) : engineSeesWord s a w := by
  intro k hk
  have := List.all_eq_true.mp h k (List.mem_range.mpr hk)
  simp only [Bool.and_eq_true, beq_iff_eq, Bool.not_eq_true'] at this
  exact this

theorem witness_StepRuns_engine :
    (chained 0x80000012 false).sched = [.engine] ∧ (chained 0x80000012 false).dma.cur = some 0x1000 ∧
    engineSeesWord (chained 0x80000012 false) 0x1000 0x80000012 ∧ decodeDes0 0x80000012 = .ok .des0Middle :=
  ⟨rfl, rfl, engineSeesWord_of (by decide), by decide⟩

theorem witness_Malformed :
    blockMoves (requested 0xE 0 []) ∧ (requested 0xE 0 []).rst ≠ some 0 ∧ (requested 0xE 0 []).rst ≠ some 1 ∧
    (requested 0xE 0 []).fsm = .idle ∧ ResponseKnown (requested 0xE 0 []) ∧
    decodeRequest 0xE = .error .reservedOp :=
  ⟨.inl rfl, by decide, by decide, rfl, known_of_zero rfl, by decide⟩

/-- A halted block, with a reset coming or not. -/
def stuck (rst : Option Nat) : State := { fresh [] with fsm := .halted, halted := true, rst := rst }

theorem witness_Halted :
    (∀ r, blockMoves (stuck r) ∧ (stuck r).fsm = .halted) ∧ (stuck none).rst = none ∧
    (stuck (some 1)).rst = some (0 + 1) ∧ (stuck (some 0)).rst = some 0 :=
  ⟨fun _ => ⟨.inl rfl, rfl⟩, rfl, rfl, rfl⟩

/-- A block in IDLE without a request, a reset coming or not, whose last response still stands. -/
theorem witness_IdleBlock :
    ∀ r ∈ [none, some 1], let s := { fresh [] with rst := r, resp := some ⟨.ok, 0, 0, .zero, #v[0, 0, 0, 0]⟩ }
      blockMoves s ∧ s.rst ≠ some 0 ∧ s.fsm = .idle ∧ s.reqs = [] := by
  intro r hr
  refine ⟨.inl rfl, ?_, rfl, rfl⟩
  fin_cases hr <;> decide

/-- 30_encoding.md R118: the response is over after one cycle. -/
theorem test_idle :
    passes (step { fresh [] with rst := some 2, resp := some ⟨.ok, 0, 0, .zero, #v[0, 0, 0, 0]⟩ })
      (fun t => t.resp.isNone && t.rst == some 1 && t.fsm == .idle) = true := by decide

theorem witness_ResetTakesEffect :
    (blockMoves (stuck (some 0)) ∧ (stuck (some 0)).rst = some 0) ∧
    (∃ t, exec .updclk { ready cfgD 0 0 0 [0] with rst := some 0 } = .next t) ∧
    (∃ t, exec .updclk { ready cfgD 0 0 0 [0] with rst := some 2 } = .next t) ∧
    (∃ t, exec .updclk { ready cfgD 0 0 0 [0] with rst := some 3 } = .next t) ∧
    (blockMoves { requested 0x6 0 [0] with rst := some 1 } ∧ Inv { requested 0x6 0 [0] with rst := some 1 }) :=
  ⟨⟨.inl rfl, rfl⟩, passes_some (f := fun t => t.resp.isNone) (by decide),
    passes_some (f := fun t => t.resp.isNone) (by decide),
    passes_some (f := fun t => t.rst == some 1 && t.resp.isSome) (by decide), .inl rfl,
    have h := requested_inv 0x6 0 [0]
    ⟨h.params, h.memory, h.atRest, h.config, h.divisor, h.width, h.response⟩⟩

theorem witness_StepKeeps :
    Inv (requested 0x6 0 [0]) ∧ ∃ t, step (requested 0x6 0 [0]) = .next t :=
  ⟨requested_inv _ _ _, passes_some (f := drives .ok 0 0) (by decide)⟩

theorem witness_EveryRequest :
    Inv (requested 0x5 0xA0002351 [7]) ∧ blockMoves (requested 0x5 0xA0002351 [7]) ∧
    (requested 0x5 0xA0002351 [7]).rst = none ∧ (requested 0x5 0xA0002351 [7]).fsm = .idle ∧
    decodeRequest 0x5 = .ok .extract := ⟨requested_inv _ _ _, .inl rfl, rfl, rfl, by decide⟩

/-- For the statements about any step: one that makes events, a write of RINTSTS among them. -/
theorem witness_History :
    ∃ t, step (requested 0x3 0 [0, 0x4]) = .next t ∧
      (Event.regWrite 0x40000000 .rintsts 0xFFFFFFFF ∈ t.hist) = true := by
  obtain ⟨t, e, h⟩ := passes_next (o := step (requested 0x3 0 [0, 0x4]))
    (f := fun t => t.hist.contains (.regWrite 0x40000000 .rintsts 0xFFFFFFFF)) (by decide)
  exact ⟨t, e, by simpa using h⟩

theorem witness_Rintsts :
    ∃ t, regWrite cfgD.toCfg .rintsts 4 { fresh [] with ctl := { Controller.initial with pending := .holds 0xC } } =
      .ok () t ∧
    ∃ v u, regRead cfgD.toCfg .rintsts { fresh [9] with ctl := { Controller.initial with pending := .holds 0xC } } =
      .ok v u := ⟨_, rfl, _, _, rfl⟩

theorem witness_Clock :
    (ready cfgD 8 0 0 []).rst = none ∧ ∃ t, exec .setwidth (ready cfgD 8 0 0 []) = .next t :=
  ⟨rfl, passes_some (f := fun _ => true) (by decide)⟩

theorem witness_Frames :
    (fresh []).rst = none ∧
    (∃ t, exec .classify { fresh [] with reqA := .holds 0 } = .next t) ∧
    (∃ t, exec .des0Last (chained 0x80000004 true) = .next t) ∧ transfersData .des0Last (fresh []) = false ∧
    (∃ t, exec .build { ready cfgD 0x80000000 3 1 [] with rst := some 3 } = .next t) ∧
    storesOf .build (ready cfgD 0x80000000 3 1 []) = [(0x10000000, 48)] ∧
    (∀ r ∈ [none, some 12], ∃ t,
      exec (.sendcmd 18 .shortCrc .read) { prepared [0, 0x4, 0x8, 0x900] with rst := r } = .next t) ∧
    transfersData (.sendcmd 18 .shortCrc .read) (prepared []) = true ∧
    encodeCommand (prepared []).params 18 .shortCrc (prepared []).cfg.val.dmaCapable = some 0xA0002352 ∧
    anySet 0xA0002352 (bit (prepared []).params.cmdBits.start) = true :=
  ⟨rfl, passes_some (f := fun _ => true) (by decide), passes_some (f := fun _ => true) (by decide), rfl,
    passes_some (f := fun t => t.resp.isNone) (by decide), by decide, by
      intro r hr
      fin_cases hr
      · exact passes_some (f := fun t => byteAt t 0x2000 == 0x11) (by decide)
      · exact passes_some (f := fun t => byteAt t 0x2000 == 0x11) (by decide),
    by decide, by decide, by decide⟩

theorem witness_Issue :
    (fresh []).rst = none ∧ anySet 0xA0008000 (bit (fresh []).params.cmdBits.start) = true := by decide

theorem witness_BusyEnds_first : BusyEnds (fresh [0]) 0 0 := by unfold BusyEnds; decide
theorem witness_BusyEnds_last : BusyEnds (fresh [busy, busy, busy, 0]) 0 3 := by unfold BusyEnds; decide
theorem witness_BusyRunsOut : BusyRunsOut (fresh [busy, busy, busy, busy]) 0 := by unfold BusyRunsOut; decide

theorem witness_PollEnds_first : PollEnds (fresh [0xC]) 0 true 0 := by unfold PollEnds PollQuiet; decide
theorem witness_PollEnds_last : PollEnds (fresh [0, 0x8, 0, 0x4]) 0 true 3 := by
  unfold PollEnds PollQuiet; decide
theorem witness_PollFails_last : PollFails (fresh [0, 0x4, 0, 0x1000]) 0 true 3 := by
  unfold PollFails PollQuiet; decide
theorem witness_PollQuiet : PollQuiet (fresh [0, 0x4, 0x4, 0]) 0 true 4 := by unfold PollQuiet; decide

theorem witness_HandshakeEnds_first : HandshakeEnds (fresh [0]) 0 0 := by unfold HandshakeEnds; decide
theorem witness_HandshakeEnds_last : HandshakeEnds (fresh [set, 0x1000, set, 0, set, 0, 0]) 0 3 := by
  unfold HandshakeEnds; decide
theorem witness_HandshakeRunsOut : HandshakeRunsOut (fresh [set, 0, set, 0x1000, set, 0, set, 0]) 0 := by
  unfold HandshakeRunsOut; decide

/-- SENDCMD that ends, at the last read of both budgets. -/
theorem witness_SendcmdCompletes :
    let s := ready cfgD 0x100 0 0 [busy, busy, busy, 0, 0, 0x8, 0, 0x4, 0x900]
    Ready cfgD.toCfg s ∧ s.reqA = .holds 0x100 ∧
    encodeCommand s.params 17 .shortCrc cfgD.toCfg.dmaCapable = some 0xA0002351 ∧
    BusyEnds s 0 3 ∧ PollEnds s 4 (dataCarrying s.params.cmdBits 0xA0002351) 3 :=
  ⟨ready_ready _ _ _ _ _, rfl, by decide, by unfold BusyEnds; decide, by unfold PollEnds PollQuiet; decide⟩

theorem witness_SendcmdReportsHardwareError :
    let s := ready cfgD 0x100 0 0 [0, 0x4, 0x208]
    Ready cfgD.toCfg s ∧ s.reqA = .holds 0x100 ∧
    encodeCommand s.params 17 .shortCrc cfgD.toCfg.dmaCapable = some 0xA0002351 ∧
    BusyEnds s 0 0 ∧ PollFails s 1 (dataCarrying s.params.cmdBits 0xA0002351) 1 :=
  ⟨ready_ready _ _ _ _ _, rfl, by decide, by unfold BusyEnds; decide, by unfold PollFails PollQuiet; decide⟩

theorem witness_SendcmdTimesOut_busy :
    let s := ready cfgD 0 0 0 [busy, busy, busy, busy]
    Ready cfgD.toCfg s ∧ s.reqA = .holds 0 ∧
    encodeCommand s.params 0 .none cfgD.toCfg.dmaCapable = some 0xA0008000 ∧ BusyRunsOut s 0 :=
  ⟨ready_ready _ _ _ _ _, rfl, by decide, by unfold BusyRunsOut; decide⟩

theorem witness_SendcmdTimesOut_poll :
    let s := ready cfgD 0 0 0 [0, 0, 0, 0, 0]
    BusyEnds s 0 0 ∧ PollQuiet s 1 (dataCarrying s.params.cmdBits 0xA0008000) s.params.nPoll :=
  ⟨by unfold BusyEnds; decide, by unfold PollQuiet; decide⟩

theorem witness_SendcmdTakesAPath :
    Ready cfgP.toCfg (ready cfgP 0 0 0 []) ∧ (ready cfgP 0 0 0 []).reqA = .holds 0 :=
  ⟨ready_ready _ _ _ _ _, rfl⟩

theorem witness_WriteInPolledMode :
    Ready cfgP.toCfg (ready cfgP 0 0 0 []) ∧ cfgP.toCfg.dmaCapable = false ∧
    classOf (ready cfgP 0 0 0 []).params.classTable 25 = .write := ⟨ready_ready _ _ _ _ _, rfl, by decide⟩

theorem witness_Classify :
    ResponseKnown (ready cfgD 0x104 0 0 []) ∧ (ready cfgD 0x104 0 0 []).rst ≠ some 0 ∧
    (ready cfgD 0x104 0 0 []).reqA = .holds 0x104 := ⟨known_of_zero rfl, by decide, rfl⟩

theorem witness_Extract :
    Ready cfgD.toCfg (ready cfgD 0xA00001C2 0 0 [1, 2, 3, 4]) ∧
    (ready cfgD 0xA00001C2 0 0 [1, 2, 3, 4]).reqA = .holds 0xA00001C2 := ⟨ready_ready _ _ _ _ _, rfl⟩

theorem witness_Encode :
    Ready cfgD.toCfg (ready cfgD 0 0 0 []) ∧
    encodeCommand (ready cfgD 0 0 0 []).params 25 .noCrc cfgD.toCfg.dmaCapable = some 0xA0002659 :=
  ⟨ready_ready _ _ _ _ _, by decide⟩

theorem witness_Divisor : (1 ≤ 98039 ∧ 50000000 / (2 * (98039 + 1)) + 1 = 255) ∧
    50000000 / (2 * (98038 + 1)) + 1 = 256 := by decide

theorem witness_Updclk :
    Ready cfgD.toCfg (ready cfgD 0 0 0 [set, 0, set, 0x1000, set, 0, 0]) ∧
    HandshakeEnds (ready cfgD 0 0 0 [set, 0, set, 0x1000, set, 0, 0]) 0 3 :=
  ⟨ready_ready _ _ _ _ _, by unfold HandshakeEnds; decide⟩

/-- A clock sequence that ends: each loop at another of its reads. -/
theorem witness_Setclk :
    let s := ready cfgD 98039 8 0 [busy, 0, 0, set, 0, 0, set, 0x1000, set, 0, 0]
    Ready cfgD.toCfg s ∧ s.reqA = .holds 98039 ∧ s.reqB = .holds 8 ∧
    divisor cfgD.toCfg.srcClkHz.toNat (low32 98039).toNat = some 255 ∧
    ctypeCode (low32 8).toNat = some 0x10000 ∧ ClockEnds s ⟨1, 0, 1, 2⟩ :=
  ⟨ready_ready _ _ _ _ _, rfl, rfl, by decide, rfl, by unfold ClockEnds BusyEnds HandshakeEnds; decide⟩

theorem witness_Setwidth :
    (∀ a : DWord, Ready cfgD.toCfg (ready cfgD a 0 0 []) ∧ (ready cfgD a 0 0 []).reqA = .holds a) ∧
    (low32 1).toNat = 1 ∧ (low32 4).toNat = 4 ∧ (low32 8).toNat = 8 ∧
    ((low32 0).toNat ≠ 1 ∧ (low32 0).toNat ≠ 4 ∧ (low32 0).toNat ≠ 8) ∧
    (low32 9).toNat ≠ 1 ∧ (low32 9).toNat ≠ 4 ∧ (low32 9).toNat ≠ 8 :=
  ⟨fun _ => ⟨ready_ready _ _ _ _ _, rfl⟩, by decide, by decide, by decide, by decide, by decide⟩

theorem witness_ClockTimesOut_updclk :
    HandshakeRunsOut (ready cfgD 0 0 0 [set, 0, set, 0, set, 0, set, 0]) 0 := by unfold HandshakeRunsOut; decide

/-- The clock sequence of SETCLK and CFGBUS stops in each of its four loops. -/
theorem witness_ClockTimesOut :
    divisor cfgD.toCfg.srcClkHz.toNat (low32 400000).toNat = some 63 ∧ (ctypeCode (low32 4).toNat).isSome = true ∧
    (∃ es, ClockStops cfgD.toCfg (ready cfgD 400000 4 0 [busy, busy, busy, busy]) 63 ⟨0, 0, 0, 0⟩ es none false) ∧
    (∃ es, ClockStops cfgD.toCfg (ready cfgD 400000 4 0 [0, set, 0, set, 0, set, 0, set, 0]) 63 ⟨0, 0, 0, 0⟩ es
      (some false) false) ∧
    (∃ es, ClockStops cfgD.toCfg (ready cfgD 400000 4 0 [0, 0, set, 0, set, 0, set, 0, set, 0]) 63 ⟨0, 0, 0, 0⟩ es
      (some false) true) ∧
    ∃ es, ClockStops cfgD.toCfg (ready cfgD 400000 4 0 [0, 0, 0, set, 0, set, 0, set, 0, set, 0]) 63 ⟨0, 0, 0, 0⟩ es
      (some true) true :=
  ⟨by decide, by decide,
    ⟨_, .inl ⟨by unfold BusyRunsOut; decide, rfl, rfl, rfl⟩⟩,
    ⟨_, .inr (.inl ⟨by unfold BusyEnds; decide, by unfold HandshakeRunsOut; decide, rfl, rfl, rfl⟩)⟩,
    ⟨_, .inr (.inr (.inl ⟨by unfold BusyEnds; decide, by unfold HandshakeEnds; decide,
      by unfold HandshakeRunsOut; decide, rfl, rfl, rfl⟩))⟩,
    ⟨_, .inr (.inr (.inr ⟨by unfold BusyEnds; decide, by unfold HandshakeEnds; decide,
      by unfold HandshakeEnds; decide, by unfold HandshakeRunsOut; decide, rfl, rfl, rfl⟩))⟩⟩

/-- INIT stops in its busy wait. -/
theorem witness_ClockTimesOut_init :
    let s := { fresh [busy, busy, busy, busy] with cfgIn := cfgD }
    s.rst = none ∧ ResponseKnown s ∧ s.cfgValid = false ∧ configAccepted s.cfgIn = true ∧
    divisor s.cfgIn.srcClkHz.toNat s.cfgIn.initClkHz.toNat = some 63 ∧
    ∃ es, ClockStops s.cfgIn.toCfg s 63 ⟨0, 0, 0, 0⟩ es none false :=
  ⟨rfl, known_of_zero rfl, rfl, by decide, by decide, _,
    .inl ⟨by unfold BusyRunsOut; decide, rfl, rfl, rfl⟩⟩

theorem witness_UnreachableClock :
    divisor cfgD.toCfg.srcClkHz.toNat (low32 98038).toNat = none ∧ ctypeCode (low32 3).toNat = none := by decide

theorem witness_Init :
    let s := { fresh [0, 0, 0, 0] with cfgIn := cfgD }
    s.rst = none ∧ ResponseKnown s ∧ s.cfgValid = false ∧ configAccepted s.cfgIn = true ∧
    divisor s.cfgIn.srcClkHz.toNat s.cfgIn.initClkHz.toNat = some 63 ∧
    ctypeCode s.cfgIn.initWidth.toNat = some 0 ∧ ClockEnds s ⟨0, 0, 0, 0⟩ :=
  ⟨rfl, known_of_zero rfl, rfl, by decide, by decide, by decide,
    by unfold ClockEnds BusyEnds HandshakeEnds; decide⟩

/-- V-INIT 18, 15 and 16. -/
theorem witness_InitRejects :
    (ready cfgD 0 0 0 []).cfgValid = true ∧ configAccepted { cfgD with dmaCapable := 2 } = false ∧
    divisor 50000000 98038 = none := by decide

theorem witness_BeforeInit : (fresh []).cfgValid = false ∧ ResponseKnown (fresh []) ∧ (fresh []).rst ≠ some 0 :=
  ⟨rfl, known_of_zero rfl, by decide⟩

/-- V-DMA 8: a footprint equal to the ring, and V-DMA 9: a buffer that ends at 2^32. -/
theorem witness_Build :
    chainAccepted { cfgD with descSize := 48 }.toCfg 0x80000000 3 1 = true ∧
    cfgD.toCfg.Legal ∧ chainAccepted cfgD.toCfg 0xFFFFF000 4096 4096 = true ∧
    Ready cfgD.toCfg (ready cfgD 0xFFFFF000 4096 4096 []) :=
  ⟨by decide, by unfold Cfg.Legal; decide, by decide, ready_ready _ _ _ _ _⟩

theorem witness_BuildRejects : chainAccepted cfgD.toCfg 0xFFFFF000 4097 4096 = false := by decide

theorem witness_PrepareDma :
    Ready cfgD.toCfg (ready cfgD 0 0x80000000 1024 []) ∧ cfgD.toCfg.dmaCapable = true ∧
    checkPrepare cfgD.toCfg 0x80000000 1024 = none := ⟨ready_ready _ _ _ _ _, rfl, by decide⟩

theorem witness_PreparePolled :
    Ready cfgP.toCfg (ready cfgP 0 0x2000 64 []) ∧ cfgP.toCfg.dmaCapable = false ∧
    checkPrepare cfgP.toCfg 0x2000 64 = none := ⟨ready_ready _ _ _ _ _, rfl, by decide⟩

/-- V-PREP 1, 6, and 10. -/
theorem witness_PrepareRejects :
    0x80000100 % 512 ≠ 0 ∧ 80 > cfgP.toCfg.fifoDepth.toNat ∧
    chainAccepted { cfgD with descSize := 512 }.toCfg 0x80000000 135168 4096 = false := by decide

theorem witness_Read :
    Ready cfgP.toCfg (ready cfgP 0xFFFFFFFFFFFFFFF8 8 0 [1, 2]) ∧ (8 : DWord).toNat % 4 = 0 ∧
    (0xFFFFFFFFFFFFFFF8 : DWord).toNat + (8 : DWord).toNat ≤ 2 ^ 64 :=
  ⟨ready_ready _ _ _ _ _, by decide, by decide⟩

theorem witness_ReadOtherwise :
    cfgD.toCfg.dmaCapable = true ∧ (6 : DWord).toNat % 4 ≠ 0 ∧
    (0xFFFFFFFFFFFFFFFC : DWord).toNat + (8 : DWord).toNat > 2 ^ 64 := by decide

theorem witness_Stores :
    (∃ t, exec .build (ready cfgD 0x80000000 4097 4096 []) = .next t) ∧
    (∃ t, exec .prepare (ready cfgD 0 0x80000000 512 []) = .next t) ∧
    ∃ t, exec .read (ready cfgP 0x2000 4 0 [9]) = .next t :=
  ⟨passes_some (f := fun _ => true) (by decide), passes_some (f := fun _ => true) (by decide),
    passes_some (f := fun _ => true) (by decide)⟩

theorem witness_CommandWords :
    (∃ k, (commanded 0xA0002351).ctl.started = [k] ∧ k.dma = true ∧ k.regs.dbaddr = .holds 0x10000000) ∧
    dataCarrying (commanded 0xA0002351).params.cmdBits
      (commandWord (commanded 0xA0002351).params.cmdBits .read .shortCrc 17) = true ∧
    0xA0002351 = commandWord (commanded 0xA0002351).params.cmdBits .read .shortCrc 17 ∧
    hsWord (commanded 0x80202000).params.cmdBits = 0x80202000 :=
  ⟨⟨_, rfl, rfl, rfl⟩, by decide, by decide, by decide⟩

theorem witness_Receive :
    (chained 0x8000001A false).dma.cur = some 0x1000 ∧ (chained 0x8000001A false).dma.toDevice = false ∧
    engineSeesWord (chained 0x8000001A false) (0x1000 + 4) 4 ∧
    engineSeesWord (chained 0x8000001A false) (0x1000 + 8) 0x2000 ∧
    engineSeesWord (chained 0x8000001A false) (0x1000 + 12) 0x1010 :=
  ⟨rfl, rfl, engineSeesWord_of (by decide), engineSeesWord_of (by decide), engineSeesWord_of (by decide)⟩

theorem witness_Send :
    (chained 0x8000000C true).dma.toDevice = true ∧ [0x11, 0x22, 0x33, 0x44].length = desLength 4 ∧
    engineSeesWord (chained 0x8000000C true) 0x2000 0x44332211 :=
  ⟨rfl, by decide, engineSeesWord_of (by decide)⟩

theorem witness_Cleaned :
    ({ fresh [7] with mem := [(5, 1)], dirty := [5] } : State).mem.read? 5 = some 1 ∧
    5 ∈ ({ fresh [7] with mem := [(5, 1)], dirty := [5] } : State).dirty := by decide

/-- A transfer in each direction, over a chain of two descriptors in the ring. -/
def transferring (toDevice : Bool) : State :=
  let s := (List.range 2).foldl (fun s i =>
    let d := descriptor cfgD.toCfg 0x2000 6 4 2 i
    let a := descAddr cfgD.toCfg i
    (((s.storeWord a d.des0).storeWord (a + 4) d.des1).storeWord (a + 8) d.des2).storeWord (a + 12) d.des3)
    ((fresh []).storeWord 0x2000 0x44332211 |>.storeWord 0x2004 0x6655)
  { s with dirty := [], dma := ⟨some 0x10000000, toDevice, []⟩, dmaData := [1, 2, 3, 4, 0, 5, 6, 0] }

theorem witness_Transfer :
    chainAccepted cfgD.toCfg 0x2000 6 4 = true ∧
    (∀ d, engineSeesChain (transferring d) cfgD.toCfg 0x2000 6 4 ∧
      (transferring d).dma.cur = some cfgD.toCfg.descBase.toNat) ∧
    0x2000 + 6 ≤ cfgD.toCfg.descBase.toNat ∧
    engineSeesWord (transferring true) 0x2000 0x44332211 ∧ 0x2005 ∉ (transferring false).dirty := by
  refine ⟨by decide, fun d => ⟨fun i hi => ?_, rfl⟩, by decide, engineSeesWord_of (by decide), by decide⟩
  have : i = 0 ∨ i = 1 := by have : chainLength 6 4 = 2 := by decide
                             omega
  rcases this with rfl | rfl <;> cases d <;>
    exact ⟨engineSeesWord_of (by decide), engineSeesWord_of (by decide), engineSeesWord_of (by decide),
      engineSeesWord_of (by decide)⟩

/-- The whole buffer moves, in either direction. -/
theorem test_transfer :
    ((transferring true).transferOver cfgD.toCfg).dma.sent = [0x11, 0x22, 0x33, 0x44, 0x55, 0x66] ∧
    (List.range 6).map (fun k => byteAt ((transferring false).transferOver cfgD.toCfg) (0x2000 + k)) =
      [1, 2, 3, 4, 5, 6] := by decide

theorem witness_Environment :
    (commanded 0x80202000).sched = [.controller] ∧ Agent.controller ≠ .block ∧
    ∃ t, step (commanded 0x80202000) = .next t :=
  ⟨rfl, by decide, passes_some (f := fun _ => true) (by decide)⟩

end Sys2Proof.Tests
end

section
/-! PROOFS. The statements about the block's state (10_state.md): the state right after reset, and the events that
join the history. -/

namespace Sys2Proof.Machine

/-! ## The state right after reset -/

/-- Settles O10: every element is the literal the reset state gives it, the four response words one by one. -/
theorem resetStateIsAsTheSpecSays : Obligations.ResetStateIsAsTheSpecSays := by
  unfold Obligations.ResetStateIsAsTheSpecSays
  constructor
  case rspWords => decide
  all_goals rfl

/-! ## The history -/

/-- The end of an operation makes no event. -/
theorem endOp_hist {r : Res DWord} {t : State} (h : endOp r = .next t) : t.hist = r.state.hist := by
  rcases endOp_next h with ⟨rfl, -⟩ | ⟨-, -, -, -, -, -, -, -, keeps, -⟩
  · exact resetEvent_hist r.state
  · exact keeps .hist (by decide)

/-- Taking an error makes no event. -/
theorem raiseError_hist {e : Err} {s t : State} (h : raiseError e s = .next t) : t.hist = s.hist :=
  endOp_hist (r := .stop (.raised e) s) h

/-- A well-formed instruction of the block only appends legal events: its procedure makes only moves, from the state
it starts in or from the one in which INIT has loaded the configuration. -/
theorem exec_grows {i : Instr} {s t : State} (hb : i.agent = .block) (hw : i.wf = true)
    (h : exec i s = .next t) : Grows s.params (cfgOf s).regBase s t := by
  rcases exec_runs hb s with ⟨-, e, he⟩ | ⟨u, r, he, hu, hd⟩
  · exact nomatch he.symm.trans h
  · have start : u.hist = s.hist ∧ u.params = s.params := by
      rcases hu with rfl | ⟨-, -, -, rfl⟩
      · exact ⟨rfl, rfl⟩
      · simp
    have moves := moves_grow hd.path hw
    rw [start.2] at moves
    exact (Grows.same start.1).trans (moves.trans (.same (endOp_hist (he.symm.trans h))))

/-- A step of the block only appends legal events. -/
theorem step_block_grows {s t : State} (hm : blockMoves s) (h : step s = .next t) :
    Grows s.params (portBase s) s t := by
  rcases step_block_cases hm with ⟨-, e⟩ | ⟨-, e⟩ | ⟨-, e⟩ | ⟨q, rest, -, -, hq, ⟨i, hd, e⟩ | e⟩
  · cases e.symm.trans h; exact .same rfl
  · exact nomatch e.symm.trans h
  · cases e.symm.trans h; exact .same rfl
  · have grows := exec_grows (decodeRequest_agent hd) (decodeRequest_wf hd) (e.symm.trans h)
    rw [cfgOf_accept (s := moved s) hq] at grows
    exact grows
  · have kept := raiseError_hist (e.symm.trans h)
    exact .same kept

/-- A step of any agent only appends legal events; the controller and the engine append none. -/
theorem step_grows {s t : State} (h : step s = .next t) : Grows s.params (portBase s) s t := by
  rcases moves_cases s with hm | ⟨g, later, hs, hg⟩
  · exact step_block_grows hm h
  · rcases step_environment hs hg with ⟨r, e⟩ | ⟨u, e, keeps, -⟩
    · exact nomatch e.symm.trans h
    · cases e.symm.trans h
      exact .same (keeps .hist (by decide))

/-- Settles O17: the history by `step_grows`; the offsets and the registers never accessed by the rows of the
register map. -/
theorem historyGrowsByLegalEvents : Obligations.HistoryGrowsByLegalEvents := by
  unfold Obligations.HistoryGrowsByLegalEvents
  refine ⟨fun _ _ => step_grows, fun r => ?_, fun r => ?_⟩
  · cases r <;> rfl
  · cases r <;> decide

end Sys2Proof.Machine
end

section
/-! PROOFS. The statement about the words of the command encoder (40_command_encoder.md): which named flags a
command word carries, and the bits they make it from under every legal layout. -/

namespace Sys2Proof.Machine

/-! ## The named flags of a command word -/

/-- The flags of the command word by name (30_encoding.md R120). -/
inductive CmdFlag where
  | respExpect | respLong | checkCrc | dataExpected | write | waitPrvdata | stopAbort | sendInit
  | updateClkOnly | useHoldReg | start

namespace CmdFlag

/-- Every flag, in the order of `CmdBits.positions`. -/
def all : List CmdFlag :=
  [respExpect, respLong, checkCrc, dataExpected, write, waitPrvdata, stopAbort, sendInit, updateClkOnly,
   useHoldReg, start]

/-- The bit a layout gives the flag. -/
@[simp] def pos (b : CmdBits) : CmdFlag → Nat
  | respExpect => b.respExpect
  | respLong => b.respLong
  | checkCrc => b.checkCrc
  | dataExpected => b.dataExpected
  | write => b.write
  | waitPrvdata => b.waitPrvdata
  | stopAbort => b.stopAbort
  | sendInit => b.sendInit
  | updateClkOnly => b.updateClkOnly
  | useHoldReg => b.useHoldReg
  | start => b.start

/-- The class group sets the flag (40_command_encoder.md R162). -/
@[simp] def ofClass (cls : CmdClass) : CmdFlag → Bool
  | dataExpected => cls == .read || cls == .write
  | write => cls == .write
  | waitPrvdata => cls == .status || cls == .read || cls == .write
  | stopAbort => cls == .stop
  | sendInit => cls == .init
  | _ => false

/-- The always-on group sets the flag (40_command_encoder.md R164). -/
@[simp] def always : CmdFlag → Bool
  | useHoldReg | start => true
  | _ => false

/-- The shape group sets the flag (40_command_encoder.md R165). -/
@[simp] def ofShape (shape : Shape) : CmdFlag → Bool
  | respExpect => shape != .none
  | respLong => shape == .long136
  | checkCrc => shape == .shortCrc || shape == .long136
  | _ => false

/-- One of the three groups sets the flag. -/
@[simp] def carried (cls : CmdClass) (shape : Shape) (f : CmdFlag) : Bool :=
  f.ofClass cls || f.always || f.ofShape shape

theorem exists_iff {p : CmdFlag → Prop} :
    (∃ f, p f) ↔ p respExpect ∨ p respLong ∨ p checkCrc ∨ p dataExpected ∨ p write ∨ p waitPrvdata ∨
      p stopAbort ∨ p sendInit ∨ p updateClkOnly ∨ p useHoldReg ∨ p start := by
  constructor
  · rintro ⟨f, h⟩
    cases f <;> simp [h]
  · rintro (h | h | h | h | h | h | h | h | h | h | h) <;> exact ⟨_, h⟩

theorem mem_all (f : CmdFlag) : f ∈ all := by cases f <;> simp [all]

theorem map_pos_all (b : CmdBits) : all.map (pos b) = b.positions := rfl

theorem pos_mem (b : CmdBits) (f : CmdFlag) : f.pos b ∈ b.positions :=
  List.mem_map_of_mem (mem_all f)

/-- A legal layout gives no two flags the same bit (30_encoding.md R121). -/
theorem pos_inj {b : CmdBits} (hb : b.wf) {f g : CmdFlag} (h : f.pos b = g.pos b) : f = g :=
  List.inj_on_of_nodup_map ((map_pos_all b).symm ▸ hb.1) (mem_all f) (mem_all g) h

end CmdFlag

/-! ## The bits of a command word -/

section
variable {b : CmdBits} {cls : CmdClass} {shape : Shape} {idx n : Nat}

theorem bit_getLsbD_iff {p : Nat} (hn : n < 32) : (bit p).getLsbD n = true ↔ n = p := by
  rw [bit_getLsbD, decide_eq_true hn, Bool.true_and, decide_eq_true_iff]

theorem classFlags_getLsbD (hn : n < 32) :
    (classFlags b cls).getLsbD n = true ↔ ∃ f : CmdFlag, f.ofClass cls = true ∧ n = f.pos b := by
  rw [CmdFlag.exists_iff]
  cases cls <;> simp only [classFlags, BitVec.getLsbD_or, Bool.or_eq_true, bit_getLsbD_iff hn] <;>
    simp [or_assoc, or_left_comm]

theorem alwaysOn_getLsbD (hn : n < 32) :
    (alwaysOn b).getLsbD n = true ↔ ∃ f : CmdFlag, f.always = true ∧ n = f.pos b := by
  rw [CmdFlag.exists_iff, alwaysOn, BitVec.getLsbD_or, Bool.or_eq_true, bit_getLsbD_iff hn, bit_getLsbD_iff hn]
  simp

theorem shapeFlags_getLsbD (hn : n < 32) :
    (shapeFlags b shape).getLsbD n = true ↔ ∃ f : CmdFlag, f.ofShape shape = true ∧ n = f.pos b := by
  rw [CmdFlag.exists_iff]
  cases shape <;> simp only [shapeFlags, BitVec.getLsbD_or, Bool.or_eq_true, bit_getLsbD_iff hn] <;>
    simp [or_left_comm, or_comm]

/-- A bit of a command word is set exactly where a flag it carries or its index sets it. -/
theorem commandWord_getLsbD (hn : n < 32) :
    (commandWord b cls shape idx).getLsbD n = true ↔
      (∃ f : CmdFlag, f.carried cls shape = true ∧ n = f.pos b) ∨ idx.testBit n = true := by
  simp only [commandWord, BitVec.getLsbD_or, BitVec.getLsbD_ofNat, Bool.or_eq_true, classFlags_getLsbD hn,
    alwaysOn_getLsbD hn, shapeFlags_getLsbD hn, CmdFlag.carried, or_and_right, exists_or, hn, decide_true,
    Bool.true_and]

/-- An index of 6 bits sets no bit above the index field. -/
theorem testBit_eq_false_of_index (hi : idx < 64) (hn : 6 ≤ n) : idx.testBit n = false :=
  Nat.testBit_lt_two_pow (hi.trans_le (Nat.pow_le_pow_right (n := 2) (by decide) hn))

/-- The index field holds the index: no flag lies in it. -/
theorem commandWord_index (hb : b.wf) (hi : idx < 64) :
    ((commandWord b cls shape idx).extractLsb' 0 6).toNat = idx := by
  have field : (commandWord b cls shape idx).extractLsb' 0 6 = BitVec.ofNat 6 idx := by
    refine BitVec.eq_of_getLsbD_eq fun n hn => ?_
    have noFlag : ¬ ∃ f : CmdFlag, f.carried cls shape = true ∧ n = f.pos b := by
      rintro ⟨f, -, rfl⟩
      exact absurd (hb.2 _ (f.pos_mem b)).1 (by omega)
    have bits : (commandWord b cls shape idx).getLsbD n = idx.testBit n := by
      rw [Bool.eq_iff_iff, commandWord_getLsbD (by omega), or_iff_right noFlag]
    rw [BitVec.getLsbD_extractLsb', BitVec.getLsbD_ofNat, Nat.zero_add, bits]
  rw [field, BitVec.toNat_ofNat, Nat.mod_eq_of_lt hi]

/-- The bit of a named flag says whether the word carries the flag. -/
theorem commandWord_getLsbD_pos (hb : b.wf) (hi : idx < 64) (f : CmdFlag) :
    (commandWord b cls shape idx).getLsbD (f.pos b) = f.carried cls shape := by
  obtain ⟨low, high⟩ := hb.2 _ (f.pos_mem b)
  rw [Bool.eq_iff_iff, commandWord_getLsbD high, testBit_eq_false_of_index hi low]
  constructor
  · rintro (⟨g, hg, e⟩ | h)
    · exact CmdFlag.pos_inj hb e ▸ hg
    · cases h
  · exact fun h => .inl ⟨f, h, rfl⟩

/-- Above the index field a bit without a name is clear. -/
theorem commandWord_getLsbD_unnamed (hi : idx < 64) (low : 6 ≤ n) (unnamed : n ∉ b.positions) :
    (commandWord b cls shape idx).getLsbD n = false := by
  rcases Nat.lt_or_ge n 32 with high | high
  · rw [Bool.eq_false_iff, Ne, commandWord_getLsbD high, testBit_eq_false_of_index hi low]
    rintro (⟨f, -, rfl⟩ | h)
    · exact unnamed (f.pos_mem b)
    · cases h
  · exact BitVec.getLsbD_of_ge _ _ high

end

/-- What the encoder returns is the command word of the index's class. -/
theorem encodeCommand_eq_some {p : Params} {idx : Nat} {shape : Shape} {dma : Bool} {w : Word}
    (h : encodeCommand p idx shape dma = some w) :
    w = commandWord p.cmdBits (classOf p.classTable idx) shape idx := by
  simp only [encodeCommand, Option.ite_none_left_eq_some, Option.some.injEq] at h
  exact h.2.symm

/-- Settles O5: each named bit is whether its group sets the flag, by `commandWord_getLsbD_pos`; the two derived
readings test named bits. -/
theorem commandWordFlagsAreTheirGroups : Obligations.CommandWordFlagsAreTheirGroups := by
  unfold Obligations.CommandWordFlagsAreTheirGroups
  intro p idx shape dma w hb hi hw b cls
  obtain rfl := encodeCommand_eq_some hw
  have flag (f : CmdFlag) (v : Bool) (hv : f.carried cls shape = v := by simp) :
      (commandWord b cls shape idx).getLsbD (f.pos b) = v := (commandWord_getLsbD_pos hb hi f).trans hv
  have data := flag .dataExpected (cls == .read || cls == .write)
  have expect : (commandWord b cls shape idx).getLsbD b.respExpect = (shape != .none) := flag .respExpect _
  have long : (commandWord b cls shape idx).getLsbD b.respLong = (shape == .long136) := flag .respLong _
  refine ⟨commandWord_index hb hi, flag .start _, flag .useHoldReg _, flag .updateClkOnly _, flag .sendInit _,
    flag .stopAbort _, flag .write _, flag .waitPrvdata _, data, expect, long, flag .checkCrc _,
    fun n => commandWord_getLsbD_unnamed hi, (anySet_bit _ _).trans data, ?_⟩
  rw [respCount, anySet_bit, anySet_bit, expect, long]
  cases shape <;> rfl

end Sys2Proof.Machine
end

section
/-! PROOFS. The statements about command dispatch (41_command_dispatch.md): the bounded busy wait, and the error-flag
classifier. -/

namespace Sys2Proof.Machine

/-! ## The busy wait -/

/-- Settles O23: the wait returns by `busyWait_ends` and runs out by `busyWait_runs_out`; what each ran gives the
history, the answers drawn and the frame. -/
theorem busyWaitIsBounded : Obligations.BusyWaitIsBounded := by
  unfold Obligations.BusyWaitIsBounded
  constructor
  · intro c s m hr ends
    obtain ⟨t, returns, ran, count⟩ := busyWait_ends c hr ends
    exact ⟨t, returns, ran.hist, count, ran.drew.draws, ran.frame⟩
  · intro c s hr runsOut
    obtain ⟨t, raises, ran, count⟩ := busyWait_runs_out c hr runsOut
    exact ⟨t, raises, ran.hist, count, ran.frame⟩

/-! ## The error-flag classifier -/

/-- A status word is an error exactly when one of the eight error bits is set (41_command_dispatch.md R204). -/
theorem isError_eq_errorBits (b : IntBits) (w : Word) : isError b w =
    (w.getLsbD b.ebe || w.getLsbD b.sbe || w.getLsbD b.hle || w.getLsbD b.frun || w.getLsbD b.drto ||
      w.getLsbD b.rto || w.getLsbD b.dcrc || w.getLsbD b.rcrc) := by
  simp only [isError, errMask, anySet_or, anySet_bit]

/-- CLASSIFY's answer is its classifier's, whether or not a configuration is loaded (41_command_dispatch.md R208). -/
theorem exec_classify {s : State} {a : DWord} (known : ResponseKnown s) (hr : s.rst ≠ some 0)
    (ha : s.reqA = .holds a) :
    exec .classify s = .next (if isError s.params.intBits (low32 a) then
      answered .hardwareError ((low32 a &&& errMask s.params.intBits).setWidth 64) (low32 a) s
    else answered .ok 0 0 s) := by
  change execClassify s = _
  simp only [execClassify, withA_holds ha]
  split_ifs with err
  · exact raiseError_known known hr nofun
  · exact finish_known known hr 0

/-- Settles O30: the first clause distributes the test over the mask's eight bits, the second is CLASSIFY's answer. -/
theorem classifyAnswersTheErrorBits : Obligations.ClassifyAnswersTheErrorBits := by
  unfold Obligations.ClassifyAnswersTheErrorBits
  exact ⟨isError_eq_errorBits, fun _ _ => exec_classify⟩

end Sys2Proof.Machine
end

section
/-! PROOFS. The statement about the DMA descriptor-chain builder (43_dma_builder.md): the operands it rejects, and
that it rejects them before any access. -/

namespace Sys2Proof.Machine

/-- Operands are accepted exactly when none of the builder's four checks fails, taken in its order: the chunk, the
size, the buffer's end, the footprint (43_dma_builder.md R311, R312). -/
theorem chainAccepted_iff (c : Cfg) (buf size chunk : Nat) : chainAccepted c buf size chunk = true ↔
    ¬ (chunk = 0 ∨ chunk > bsMax) ∧ size ≠ 0 ∧ ¬ buf + size > 2 ^ Config.dmaAddrBits ∧
      descBytes * chainLength size chunk ≤ c.descSize.toNat := by
  unfold chainAccepted
  split_ifs with hchunk hsize hend hfoot
  · exact iff_of_false not_false fun ⟨chunkOk, _⟩ => chunkOk hchunk
  · exact iff_of_false not_false fun ⟨_, sizeOk, _⟩ => sizeOk hsize
  · exact iff_of_false not_false fun ⟨_, _, endOk, _⟩ => endOk hend
  · exact iff_of_false not_false fun ⟨_, _, _, footOk⟩ => Nat.not_le_of_gt hfoot footOk
  · exact iff_of_true rfl ⟨hchunk, hsize, hend, Nat.le_of_not_gt hfoot⟩

/-- On operands it does not accept the builder raises CONFIG_ERROR in the state it was called in. -/
theorem buildChain_rejects {c : Cfg} {buf size chunk : Nat} (h : chainAccepted c buf size chunk = false)
    (s : State) : buildChain c buf size chunk s = .stop (.raised .configError) s := by
  simp only [buildChain, h, Bool.false_eq_true, if_false, raiseIn_eq]

/-- BUILD of a ready block whose operands are known ends as the builder's run from EXEC does. -/
theorem exec_build {c : Cfg} {s : State} {a b k : DWord} (ready : Ready c s) (ha : s.reqA = .holds a)
    (hb : s.reqB = .holds b) (hk : s.reqC = .holds k) :
    exec .build s = endOp ((buildChain c a.toNat b.toNat k.toNat (s.setFsm .exec)).bind fun n t =>
      .ok (BitVec.ofNat 64 n) t) := by
  change execBuild s = _
  rw [execBuild, inExec_ready ready, withA_holds (s := s.setFsm .exec) ha, withB_holds (s := s.setFsm .exec) hb,
    withC_holds (s := s.setFsm .exec) hk]

/-- Settles O46: the checks one by one by `chainAccepted_iff`; a failed one stops the builder in the state in which
BUILD entered EXEC, and that state is answered. -/
theorem buildRejectsBadOperands : Obligations.BuildRejectsBadOperands := by
  unfold Obligations.BuildRejectsBadOperands
  constructor
  · exact chainAccepted_iff
  · intro c s a b k ready ha hb hk rejected
    rw [exec_build ready ha hb hk, buildChain_rejects rejected, bind_stop, endOp_raised]
    exact raiseError_known ready.inExec.response ready.inExec.going nofun

end Sys2Proof.Machine
end

section
/-! PROOFS. The statements about the three word formats (30_encoding.md, 40_command_encoder.md R171): decoding and
encoding are inverse to each other, and what a request word must be to spell nothing. -/

namespace Sys2Proof

open Machine

/-! ## The request word -/

theorem Shape.ofCode_toCode (shape : Shape) : Shape.ofCode shape.toCode = shape := by cases shape <;> rfl

theorem Shape.toCode_ofCode (c : BitVec 2) : (Shape.ofCode c).toCode = c := by
  revert c; decide

theorem Dir.ofCode_toCode (dir : Dir) : Dir.ofCode dir.toCode = some dir := by cases dir <;> rfl

theorem Dir.toCode_of_ofCode {c : BitVec 2} {dir : Dir} (h : Dir.ofCode c = some dir) : dir.toCode = c := by
  have table : ∀ c : BitVec 2, ∀ d ∈ Dir.ofCode c, d.toCode = c := by decide
  exact table c dir h

/-- The one reserved direction code (30_encoding.md R115). -/
theorem Dir.ofCode_eq_none {c : BitVec 2} : Dir.ofCode c = Option.none ↔ c = 3 := by
  revert c; decide

/-- The op codes of operations with other fields, and those of none (30_encoding.md R112, R113). -/
theorem plainOperation_eq_none {op : BitVec 4} :
    plainOperation op.toNat = none ↔ op = 0 ∨ op = 2 ∨ op = 3 ∨ op = 0xE ∨ op = 0xF := by
  revert op; decide

/-- An operation without fields is spelled by its op code alone. -/
theorem encode_of_plainOperation {op : BitVec 4} {i : Instr} (h : plainOperation op.toNat = some i) :
    encode i = requestWord 0 0 0 op ∧ i.wf = true := by
  have table : ∀ op : BitVec 4, ∀ j ∈ plainOperation op.toNat, encode j = requestWord 0 0 0 op ∧ j.wf = true := by
    decide
  exact table op i h

section
variable (dir shape : BitVec 2) (idx : Nat) (op : BitVec 4)

/-- The fields of a request word, bit by bit (30_encoding.md R147). -/
theorem requestWord_getLsbD (n : Nat) : (requestWord dir shape idx op).getLsbD n =
    if n < 4 then op.getLsbD n else if n < 10 then (BitVec.ofNat 6 idx).getLsbD (n - 4)
    else if n < 12 then shape.getLsbD (n - 10) else if n < 14 then dir.getLsbD (n - 12) else false := by
  rw [requestWord]
  simp only [BitVec.getLsbD_append, BitVec.getLsbD_zero, Nat.sub_sub]
  split_ifs <;> first | rfl | omega

/-- A field of a request word is what its bits are. -/
theorem requestWord_extract {start len : Nat} {x : BitVec len}
    (h : ∀ n, n < len → (requestWord dir shape idx op).getLsbD (start + n) = x.getLsbD n) :
    (requestWord dir shape idx op).extractLsb' start len = x :=
  BitVec.eq_of_getLsbD_eq fun n hn => by rw [BitVec.getLsbD_extractLsb', decide_eq_true hn, Bool.true_and, h n hn]

theorem requestWord_op : (requestWord dir shape idx op).extractLsb' 0 4 = op :=
  requestWord_extract _ _ _ _ fun n hn => by simp only [requestWord_getLsbD, Nat.zero_add, hn, if_true]

theorem requestWord_idx : (requestWord dir shape idx op).extractLsb' 4 6 = BitVec.ofNat 6 idx :=
  requestWord_extract _ _ _ _ fun n hn => by
    simp (disch := omega) only [requestWord_getLsbD, if_pos, if_neg, Nat.add_sub_cancel_left]

theorem requestWord_shape : (requestWord dir shape idx op).extractLsb' 10 2 = shape :=
  requestWord_extract _ _ _ _ fun n hn => by
    simp (disch := omega) only [requestWord_getLsbD, if_pos, if_neg, Nat.add_sub_cancel_left]

theorem requestWord_dir : (requestWord dir shape idx op).extractLsb' 12 2 = dir :=
  requestWord_extract _ _ _ _ fun n hn => by
    simp (disch := omega) only [requestWord_getLsbD, if_pos, if_neg, Nat.add_sub_cancel_left]

theorem requestWord_reserved : (requestWord dir shape idx op).extractLsb' 14 18 = 0 :=
  requestWord_extract _ _ _ _ fun n hn => by
    simp (disch := omega) only [requestWord_getLsbD, if_neg, BitVec.ofNat_eq_ofNat, BitVec.getLsbD_zero]

end

theorem requestWord_fields {w : Word} (h : w.extractLsb' 14 18 = 0) :
    requestWord (w.extractLsb' 12 2) (w.extractLsb' 10 2) (w.extractLsb' 4 6).toNat (w.extractLsb' 0 4) = w := by
  refine BitVec.eq_of_getLsbD_eq fun n hn => ?_
  rw [requestWord_getLsbD, BitVec.ofNat_toNat, BitVec.setWidth_eq]
  simp only [BitVec.getLsbD_extractLsb']
  split_ifs with h4 h10 h12 h14
  case neg =>
    have reserved := congrArg (·.getLsbD (n - 14)) h
    simpa (disch := omega) [BitVec.getLsbD_extractLsb', Nat.add_sub_of_le, decide_eq_true (show n - 14 < 18 by omega)]
      using reserved.symm
  all_goals simp (disch := omega) only [decide_eq_true, Nat.zero_add, Nat.add_sub_of_le, Bool.true_and]

/-- A request word that spells something is the word of what it spells; its reserved bits are clear. -/
theorem decodeRequest_eq_ok {w : Word} {i : Instr} (h : decodeRequest w = .ok i) :
    w.extractLsb' 14 18 = 0 ∧ encode i = w := by
  simp only [decodeRequest] at h
  split at h
  · exact nomatch h
  next reserved =>
  have reserved : w.extractLsb' 14 18 = 0 := not_not.mp reserved
  refine ⟨reserved, Eq.trans ?_ (requestWord_fields reserved)⟩
  split at h
  · exact nomatch h
  next dir hdir =>
  split at h
  next encodes =>
    split at h
    next noDir =>
      cases h
      rw [encode, Shape.toCode_ofCode, noDir, BitVec.eq_of_toNat_eq (y := 2) encodes]
    · exact nomatch h
  split at h
  next sends =>
    cases h
    rw [encode, Shape.toCode_ofCode, Dir.toCode_of_ofCode hdir, BitVec.eq_of_toNat_eq (y := 3) sends]
  split at h
  · exact nomatch h
  next j plain =>
  split at h
  next unused =>
    cases h
    obtain ⟨noIdx, noShape, noDir⟩ := unused
    rw [(encode_of_plainOperation plain).1, noIdx, noShape, noDir]
  · exact nomatch h

/-- The word of an operation of the block spells it. -/
theorem decodeRequest_encode {i : Instr} (hi : i.wf = true) (block : i.agent = .block) :
    decodeRequest (encode i) = .ok i := by
  cases i
  case encode idx shape =>
    have index : idx < 64 := of_decide_eq_true hi
    simp [decodeRequest, encode, requestWord_op, requestWord_idx, requestWord_shape, requestWord_dir,
      requestWord_reserved, Dir.ofCode, Shape.ofCode_toCode, Nat.mod_eq_of_lt index]
  case sendcmd idx shape dir =>
    have index : idx < 64 := of_decide_eq_true hi
    simp [decodeRequest, encode, requestWord_op, requestWord_idx, requestWord_shape, requestWord_dir,
      requestWord_reserved, Dir.ofCode_toCode, Shape.ofCode_toCode, Nat.mod_eq_of_lt index]
  case init | classify | extract | updclk | setclk | setwidth | cfgbus | build | prepare | read | write => rfl
  all_goals cases block

/-- A request word spells no operation exactly when its reserved bits, its direction, its op code or a field its
operation does not use say so. -/
theorem decodeRequest_eq_error (w : Word) : (∃ r, decodeRequest w = .error r) ↔
    (w.extractLsb' 0 4 = 0 ∨ w.extractLsb' 0 4 = 0xE ∨ w.extractLsb' 0 4 = 0xF) ∨ w.extractLsb' 14 18 ≠ 0 ∨
      w.extractLsb' 12 2 = 3 ∨
      (w.extractLsb' 0 4 ≠ 2 ∧ w.extractLsb' 0 4 ≠ 3 ∧ (w.extractLsb' 4 6 ≠ 0 ∨ w.extractLsb' 10 2 ≠ 0)) ∨
      (w.extractLsb' 0 4 ≠ 3 ∧ w.extractLsb' 12 2 ≠ 0) := by
  have op2 : (w.extractLsb' 0 4).toNat = 2 ↔ w.extractLsb' 0 4 = 2 := BitVec.toNat_inj (y := 2)
  have op3 : (w.extractLsb' 0 4).toNat = 3 ↔ w.extractLsb' 0 4 = 3 := BitVec.toNat_inj (y := 3)
  have noIdx : (w.extractLsb' 4 6).toNat = 0 ↔ w.extractLsb' 4 6 = 0 := BitVec.toNat_inj (y := 0)
  have noPlain := plainOperation_eq_none (op := w.extractLsb' 0 4)
  have noDir := Dir.ofCode_eq_none (c := w.extractLsb' 12 2)
  simp only [decodeRequest]
  generalize w.extractLsb' 0 4 = op at *
  generalize w.extractLsb' 12 2 = dir at *
  split
  next reserved => exact iff_of_true ⟨_, rfl⟩ (.inr (.inl reserved))
  next reserved =>
  split
  next code => exact iff_of_true ⟨_, rfl⟩ (.inr (.inr (.inl (noDir.mp code))))
  next d code =>
  have legal : dir ≠ 3 := fun h => nomatch (noDir.mpr h).symm.trans code
  split
  next encodes =>
    rw [op2] at encodes
    subst encodes
    split
    next unused => exact iff_of_false nofun (by grind)
    next used => exact iff_of_true ⟨_, rfl⟩ (.inr (.inr (.inr (.inr ⟨by decide, used⟩))))
  split
  next sends =>
    rw [op3] at sends
    exact iff_of_false nofun (by grind)
  next encodes sends =>
  rw [op2] at encodes
  rw [op3] at sends
  simp only [encodes, sends, false_or] at noPlain
  split
  next none =>
    exact iff_of_true ⟨_, rfl⟩ (.inl (noPlain.mp none))
  next i plain =>
  have legalOp : ¬ (op = 0 ∨ op = 0xE ∨ op = 0xF) := fun h => nomatch (noPlain.mpr h).symm.trans plain
  split
  next unused =>
    rw [noIdx] at unused
    exact iff_of_false nofun (by grind)
  next used =>
    rw [noIdx] at used
    exact iff_of_true ⟨_, rfl⟩ (by grind)

/-! ## The first word of a descriptor -/

theorem decodeDes0_eq_ok {w : Word} {i : Instr} (h : decodeDes0 w = .ok i) : encode i = w ∧ i.wf = true := by
  unfold decodeDes0 at h
  split_ifs at h <;> injection h <;> subst i w <;> decide

theorem decodeDes0_encode {i : Instr} (engine : i.agent = .engine) : decodeDes0 (encode i) = .ok i := by
  cases i
  case des0First | des0Middle | des0Last | des0Single => decide
  all_goals cases engine

/-- A DES0 word has OWN, bit 31, set and bit 29 clear; a command word of the default layout has USE_HOLD_REG there. -/
theorem decodeDes0_bits {w : Word} {i : Instr} (h : decodeDes0 w = .ok i) :
    w.getLsbD 31 = true ∧ w.getLsbD 29 = false := by
  unfold decodeDes0 at h
  split_ifs at h <;> subst w <;> decide

end Sys2Proof

namespace Sys2Proof.Machine

/-! ## The command word -/

section
variable {b : CmdBits} {cls : CmdClass} {shape : Shape} {idx : Nat}

/-- USE_HOLD_REG tells a command word from HS_WORD (40_command_encoder.md R164, 30_encoding.md R122). -/
theorem commandWord_ne_hsWord (hb : b.wf) (hi : idx < 64) : commandWord b cls shape idx ≠ hsWord b := by
  have high := (hb.2 _ (CmdFlag.useHoldReg.pos_mem b)).2
  have apart (f : CmdFlag) (hf : f ≠ .useHoldReg) : (bit (f.pos b)).getLsbD b.useHoldReg = false := by
    rw [Bool.eq_false_iff, Ne, show b.useHoldReg = CmdFlag.useHoldReg.pos b from rfl, bit_getLsbD_iff high]
    exact fun e => hf (CmdFlag.pos_inj hb e.symm)
  intro e
  have set := commandWord_getLsbD_pos (cls := cls) (shape := shape) hb hi .useHoldReg
  rw [e, hsWord] at set
  have wait : (bit b.waitPrvdata).getLsbD b.useHoldReg = false := apart .waitPrvdata nofun
  have update : (bit b.updateClkOnly).getLsbD b.useHoldReg = false := apart .updateClkOnly nofun
  have start : (bit b.start).getLsbD b.useHoldReg = false := apart .start nofun
  simp [wait, update, start] at set

theorem shapeOfWord_commandWord (hb : b.wf) (hi : idx < 64) :
    shapeOfWord b (commandWord b cls shape idx) = some shape := by
  have flag := commandWord_getLsbD_pos (cls := cls) (shape := shape) hb hi
  have expect := flag .respExpect
  have long := flag .respLong
  have crc := flag .checkCrc
  simp only [CmdFlag.pos] at expect long crc
  rw [shapeOfWord, anySet_bit, anySet_bit, anySet_bit, expect, long, crc]
  cases shape <;> rfl

theorem classOfWord_commandWord (hb : b.wf) (hi : idx < 64) :
    classOfWord b (commandWord b cls shape idx) = cls := by
  have flag := commandWord_getLsbD_pos (cls := cls) (shape := shape) hb hi
  have init := flag .sendInit
  have stop := flag .stopAbort
  have write := flag .write
  have data := flag .dataExpected
  have wait := flag .waitPrvdata
  simp only [CmdFlag.pos] at init stop write data wait
  simp only [classOfWord, anySet_bit, init, stop, write, data, wait]
  cases cls <;> simp

/-- A decoder recovers class group, shape and index (40_command_encoder.md R171), under every legal layout. -/
theorem decodeCommand_commandWord (hb : b.wf) (hi : idx < 64) :
    decodeCommand b (commandWord b cls shape idx) = .ok (commandInstr cls idx shape) := by
  simp only [decodeCommand, if_neg (commandWord_ne_hsWord hb hi), shapeOfWord_commandWord hb hi,
    classOfWord_commandWord hb hi, commandWord_index hb hi, if_true]

end

theorem decodeCommand_eq_ok {b : CmdBits} {w : Word} {i : Instr} (h : decodeCommand b w = .ok i) :
    (i = .cmdwHs ∧ w = hsWord b) ∨
    ∃ cls shape idx, idx < 64 ∧ i = commandInstr cls idx shape ∧ w = commandWord b cls shape idx := by
  unfold decodeCommand at h
  split_ifs at h with hs
  · cases h
    exact .inl ⟨rfl, hs⟩
  split at h
  · exact nomatch h
  next shape _ =>
    dsimp only at h
    split_ifs at h with word
    cases h
    exact .inr ⟨_, shape, _, BitVec.isLt _, rfl, word⟩

theorem encode_commandInstr (cls : CmdClass) (idx : Nat) (shape : Shape) :
    encode (commandInstr cls idx shape) = commandWord defaultCmdBits cls shape idx := by
  cases cls <;> rfl

theorem commandInstr_wf {cls : CmdClass} {idx : Nat} {shape : Shape} (hi : idx < 64) :
    (commandInstr cls idx shape).wf = true := by
  cases cls <;> exact decide_eq_true hi

theorem defaultCmdBits_wf : defaultCmdBits.wf := by decide

theorem decodeCommand_encode {i : Instr} (hi : i.wf = true) (controller : i.agent = .controller) :
    decodeCommand defaultCmdBits (encode i) = .ok i := by
  cases i
  case cmdwInit | cmdwStop | cmdwStatus | cmdwRead | cmdwWrite | cmdwOther =>
    exact decodeCommand_commandWord defaultCmdBits_wf (of_decide_eq_true hi)
  case cmdwHs => rfl
  all_goals cases controller

/-! ## All formats together -/

theorem extract_bit_eq_zero {w : Word} : w.extractLsb' 31 1 = 0 ↔ w.getLsbD 31 = false := by
  constructor
  · intro h
    simpa using congrArg (·.getLsbD 0) h
  · intro h
    refine BitVec.eq_of_getLsbD_eq fun n hn => ?_
    obtain rfl : n = 0 := by omega
    simpa using h

theorem decode_of_decodeRequest {w : Word} {i : Instr} (h : decodeRequest w = .ok i) : decode w = .ok i := by
  have clear : w.extractLsb' 31 1 = 0 := by
    rw [extract_bit_eq_zero]
    have reserved := congrArg (·.getLsbD 17) (decodeRequest_eq_ok h).1
    simpa using reserved
  rw [decode, if_pos clear, h]

theorem decode_of_decodeDes0 {w : Word} {i : Instr} (h : decodeDes0 w = .ok i) : decode w = .ok i := by
  have set : ¬ w.extractLsb' 31 1 = 0 := by rw [extract_bit_eq_zero, (decodeDes0_bits h).1]; decide
  simp only [decode, if_neg set, h]

theorem decode_of_decodeCommand {w : Word} {i : Instr} (h : decodeCommand defaultCmdBits w = .ok i) :
    decode w = .ok i := by
  have set : w.getLsbD 31 = true ∧ w.getLsbD 29 = true ∨ w = hsWord defaultCmdBits := by
    rcases decodeCommand_eq_ok h with ⟨-, e⟩ | ⟨cls, shape, idx, index, -, rfl⟩
    · exact .inr e
    · have flag := commandWord_getLsbD_pos (cls := cls) (shape := shape) defaultCmdBits_wf index
      exact .inl ⟨(flag .start).trans (by simp), (flag .useHoldReg).trans (by simp)⟩
  rcases set with ⟨start, hold⟩ | rfl
  · have noDes0 (j : Instr) : decodeDes0 w ≠ .ok j := fun e => by
      rw [(decodeDes0_bits e).2] at hold
      exact nomatch hold
    have set : ¬ w.extractLsb' 31 1 = 0 := by rw [extract_bit_eq_zero, start]; decide
    rw [decode, if_neg set, ← h]
    cases e : decodeDes0 w with
    | ok j => exact absurd e (noDes0 j)
    | error r => rfl
  · rw [← h]; rfl

/-- Settles O1: each format's decoder gives back its own instructions, and each format's words are told apart by bits
31 and 29. -/
theorem decodeOfEncodeIsTheInstruction : Obligations.DecodeOfEncodeIsTheInstruction := by
  unfold Obligations.DecodeOfEncodeIsTheInstruction
  intro i hi
  cases agent : i.agent with
  | block => exact decode_of_decodeRequest (decodeRequest_encode hi agent)
  | controller => exact decode_of_decodeCommand (decodeCommand_encode hi agent)
  | engine => exact decode_of_decodeDes0 (decodeDes0_encode agent)

/-- Settles O2: what each format's decoder accepts is the word of what it gives, and carries an index of 6 bits. -/
theorem encodeOfDecodedIsTheWord : Obligations.EncodeOfDecodedIsTheWord := by
  unfold Obligations.EncodeOfDecodedIsTheWord
  intro w i h
  unfold decode at h
  split at h
  · exact ⟨decodeRequest_wf h, (decodeRequest_eq_ok h).2⟩
  split at h
  next j des0 =>
    cases h
    exact (decodeDes0_eq_ok des0).symm
  · rcases decodeCommand_eq_ok h with ⟨rfl, rfl⟩ | ⟨cls, shape, idx, index, rfl, rfl⟩
    · exact ⟨rfl, rfl⟩
    · exact ⟨commandInstr_wf index, encode_commandInstr cls idx shape⟩

/-- Settles O3, by evaluating the decoder on each word. -/
theorem specWordsDecode : Obligations.SpecWordsDecode := by
  unfold Obligations.SpecWordsDecode
  decide

/-- Settles O4. -/
theorem requestWordSpellsNothingExactly : Obligations.RequestWordSpellsNothingExactly := decodeRequest_eq_error

/-! ## The table of command words -/

theorem encodedTable_eq (cls : CmdClass) (shape : Shape) : encodedTable cls shape =
    classFlags defaultCmdBits cls ||| alwaysOn defaultCmdBits ||| shapeFlags defaultCmdBits shape := by
  cases cls <;> cases shape <;> rfl

theorem commandWord_eq_table (cls : CmdClass) (shape : Shape) (idx : Nat) :
    commandWord defaultCmdBits cls shape idx = encodedTable cls shape ||| BitVec.ofNat 32 idx := by
  rw [encodedTable_eq, commandWord]

/-- The bits 0xE600 hold the class group, and the decoder reads the class off them. -/
theorem classOfWord_table (cls : CmdClass) (shape : Shape) :
    classOfWord defaultCmdBits (encodedTable cls shape &&& 0xE600) = cls := by
  cases cls <;> cases shape <;> rfl

/-- The bits 0x1C0 hold the shape group, and the decoder reads the shape off them. -/
theorem shapeOfWord_table (cls : CmdClass) (shape : Shape) :
    shapeOfWord defaultCmdBits (encodedTable cls shape &&& 0x1C0) = some shape := by
  cases cls <;> cases shape <;> rfl

/-- Settles O6: the table is the three flag groups; its rows are distinct because the decoder reads the class and the
shape off the masked bits. -/
theorem encodedWordsAreTheTable : Obligations.EncodedWordsAreTheTable := by
  unfold Obligations.EncodedWordsAreTheTable
  refine ⟨fun idx shape dma w _ h => ?_, fun k k' shape shape' h => ?_, fun k k' shape shape' h => ?_,
    fun idx shape k hi => ?_⟩
  · rw [encodeCommand_eq_some h]
    exact commandWord_eq_table _ shape idx
  · rw [← classOfWord_table k shape, h, classOfWord_table]
  · have same := congrArg (shapeOfWord defaultCmdBits) h
    rw [shapeOfWord_table, shapeOfWord_table] at same
    exact Option.some.inj same
  · rw [← commandWord_eq_table]
    exact decodeCommand_commandWord defaultCmdBits_wf hi

end Sys2Proof.Machine
end

section
/-! PROOFS. The statements about the step (10_state.md, 70_reset_and_hazards.md, 60_exceptions.md): the invariant and
what it excludes, how an operation ends, and what a reset does. -/

namespace Sys2Proof.Machine

/-! ## The invariant across a frame -/

/-- The parts the invariant speaks of, but memory. -/
def invParts : List Part :=
  [.params, .cfg, .cfgValid, .busWidth, .clkDiv, .fsm, .halted, .rspCount, .rspWords, .dirty]

/-- What changes none of these parts and leaves memory canonical keeps the invariant. -/
theorem Inv.of_kept {ps : List Part} {s t : State} (h : Inv s) (k : KeepsAllBut ps s t)
    (hm : s.mem.wf → t.mem.wf) (hp : ∀ p ∈ invParts, p ∉ ps := by decide) : Inv t := by
  have same (p : Part) (m : p ∈ invParts := by decide) : p.same s t := k p (hp p m)
  have params : t.params = s.params := same .params
  have cfg : t.cfg = s.cfg := same .cfg
  have valid : t.cfgValid = s.cfgValid := same .cfgValid
  have width : t.busWidth = s.busWidth := same .busWidth
  have div : t.clkDiv = s.clkDiv := same .clkDiv
  have fsm : t.fsm = s.fsm := same .fsm
  have halted : t.halted = s.halted := same .halted
  have dirty : t.dirty = s.dirty := same .dirty
  exact {
    params := by rw [params]; exact h.params
    memory := ⟨hm h.memory.1, by rw [dirty]; exact h.memory.2⟩
    atRest := by rw [AtRest, fsm, halted]; exact h.atRest
    config := by rw [ConfigLegal, cfg, valid]; exact h.config
    divisor := by rw [DivisorLegal, div]; exact h.divisor
    width := by rw [WidthLegal, width]; exact h.width
    response := h.response.of (same .rspCount) (same .rspWords) }

/-- A block as a reset leaves it has the invariant, over parameters and memory that have. -/
theorem BlockReset.inv {s : State} (h : BlockReset s) (hp : s.params.wf) (hm : MemoryCanonical s) : Inv s where
  params := hp
  memory := hm
  atRest := ⟨by simp [h.fsm, h.halted], .inl h.fsm⟩
  config valid := nomatch h.cfgValid.symm.trans valid
  divisor known := nomatch h.clkDiv.symm.trans known
  width known := nomatch h.busWidth.symm.trans known
  response _ below := absurd below (by rw [h.rspCount]; exact Nat.not_lt_zero _)

theorem resetEvent_inv {s : State} (hp : s.params.wf) (hm : MemoryCanonical s) : Inv (resetEvent s) :=
  (resetEvent_reset s).inv hp hm

/-- The parameters of a model that takes every default are as 00_scope.md R9 asks, whatever the OPEN ones are. -/
theorem defaultParams_wf : defaultParams.wf := by
  have busy := Config.busyRetries.isLt
  have poll := Config.pollRetries.isLt
  have clk := Config.clkRetries.isLt
  refine ⟨⟨?_, ?_⟩, ⟨?_, ?_⟩, ⟨?_, ?_⟩, by decide, by decide, rfl⟩ <;> simp only [defaultParams] <;> omega

/-- Settles O12: the reset state is a block after a reset, with the default parameters and empty memory. -/
theorem resetHasTheInvariant : Obligations.ResetHasTheInvariant := by
  unfold Obligations.ResetHasTheInvariant
  exact resetStateIsAsTheSpecSays.inv defaultParams_wf reset_memoryCanonical

/-! ## The invariant across an operation -/

/-- The widths that have a CTYPE code (30_encoding.md R140). -/
theorem ctypeCode_isSome (width : BitVec 4) :
    (ctypeCode width.toNat).isSome = true ↔ width = 1 ∨ width = 4 ∨ width = 8 := by
  revert width; decide

/-- The eight checks of 44_facade_transfer.md R351, one conjunct each. -/
theorem configAccepted_iff (c : CfgIn) : configAccepted c = true ↔
    (0 < c.blockSize.toNat ∧ c.blockSize.toNat % 16 = 0) ∧
    (c.regBase.toNat % c.blockSize.toNat = 0 ∧ c.descBase.toNat % c.blockSize.toNat = 0) ∧
    0 < c.descSize.toNat ∧ c.descBase.toNat + c.descSize.toNat ≤ 2 ^ 32 ∧ 0 < c.srcClkHz.toNat ∧
    (1 ≤ c.chunkMax.toNat ∧ c.chunkMax.toNat ≤ 8191) ∧
    (c.initWidth = 1 ∨ c.initWidth = 4 ∨ c.initWidth = 8) ∧ (c.dmaCapable = 0 ∨ c.dmaCapable = 1) := by
  have flag : c.dmaCapable.toNat ≤ 1 ↔ c.dmaCapable = 0 ∨ c.dmaCapable = 1 := by
    rw [Nat.le_one_iff_eq_zero_or_eq_one]
    exact or_congr (BitVec.toNat_inj (y := 0)) (BitVec.toNat_inj (y := 1))
  simp only [configAccepted, Bool.and_eq_true, decide_eq_true_eq, beq_iff_eq, ctypeCode_isSome, flag,
    and_assoc, gt_iff_lt]
  rfl

/-- The checks of INIT leave a legal configuration (10_state.md R33). -/
theorem toCfg_legal {c : CfgIn} (h : configAccepted c = true) : c.toCfg.Legal := by
  obtain ⟨block, ⟨reg, desc⟩, size, ring, clock, ⟨low, high⟩, width, -⟩ := (configAccepted_iff c).mp h
  exact ⟨block, reg, desc, size, ring, clock, low, high, width⟩

/-- What an operation of the block has done once its procedure `r` is over. -/
structure Performed (i : Instr) (s : State) (r : Res DWord) : Prop where
  keep : MovesKeep s r.state
  config : ConfigLegal s → ConfigLegal r.state
  params : r.state.params = s.params
  halted : r.state.halted = s.halted
  reqs : r.state.reqs = s.reqs
  noReset : s.rst = none → r.state.rst = none
  counts : ∀ n, s.rst = some n → ∃ j, r.state.rst = some j ∧ r.state.hist.length + j = s.hist.length + n
  frame : KeepsAllBut (.rst :: frameParts i) s r.state
  bound : r.state.hist.length ≤ s.hist.length + eventBound s i
  reset : ∀ t, r = .stop .reset t → t.rst = some 0
  raised : ∀ e t, r = .stop (.raised e) t → RaisedBy i e

/-- A procedure that starts in a state `u` like `s`, but for latches of the operation, performs it from `s`. -/
theorem Performed.from {i : Instr} {s u : State} {r : Res DWord}
    (hd : Does (i.wf = true) (cfgOf s) (RaisedBy i) (frameParts i) (eventBound s i) u r)
    (keep : MovesKeep s u) (config : ConfigLegal s → ConfigLegal u) (frame : KeepsAllBut (frameParts i) s u)
    (same : u.params = s.params ∧ u.halted = s.halted ∧ u.reqs = s.reqs ∧ u.rst = s.rst ∧ u.hist = s.hist) :
    Performed i s r := by
  obtain ⟨params, halted, reqs, rst, hist⟩ := same
  have settled {p : Part} (hp : Settled p) : p.same u r.state := moves_settled hd.path hp
  exact {
    keep := keep.trans (moves_keep hd.path)
    config := fun legal => by
      rw [ConfigLegal, show r.state.cfg = u.cfg from settled (p := .cfg) (by decide),
        show r.state.cfgValid = u.cfgValid from settled (p := .cfgValid) (by decide)]
      exact config legal
    params := (settled (p := .params) (by decide)).trans params
    halted := (settled (p := .halted) (by decide)).trans halted
    reqs := (settled (p := .reqs) (by decide)).trans reqs
    noReset := fun none => moves_rst hd.path (rst.trans none)
    counts := fun n coming => hist ▸ moves_count hd.path (rst.trans coming)
    frame := (frame.mono (List.subset_cons_self _ _)).trans_same hd.frame
    bound := hist ▸ hd.bound
    reset := hd.reset
    raised := hd.raised }

/-- INIT loads a legal configuration. -/
theorem loads_config {i : Instr} {s u : State} (h : Loads i s u) : ConfigLegal u := by
  obtain ⟨-, -, accepted, rfl⟩ := h
  exact fun _ => ⟨rfl, toCfg_legal accepted⟩

theorem loads_keep {i : Instr} {s u : State} (h : Loads i s u) : MovesKeep s u := by
  obtain ⟨-, -, -, rfl⟩ := h
  exact ⟨id, id, fun _ known => (nomatch known), id⟩

theorem loads_frame {i : Instr} {s u : State} (h : Loads i s u) : KeepsAllBut (frameParts i) s u := by
  obtain ⟨rfl, -, -, rfl⟩ := h
  exact ((setFsm_keeps .exec s).trans (setCfg_keeps s.cfgIn.toCfg _)).mono (by decide)

/-- An operation of the block faults at once on an operand that is UNKNOWN, or performs its procedure and ends it. -/
theorem exec_performs {i : Instr} (hb : i.agent = .block) (s : State) :
    (¬ Fed s ∧ ∃ e, exec i s = .fault (.unknownRead e)) ∨ ∃ r, exec i s = endOp r ∧ Performed i s r := by
  rcases exec_runs hb s with fault | ⟨u, r, ends, rfl | loads, hd⟩
  · exact .inl fault
  · exact .inr ⟨r, ends, .from hd ⟨id, id, id, id⟩ id (.refl _ _) ⟨rfl, rfl, rfl, rfl, rfl⟩⟩
  · have same : u.params = s.params ∧ u.halted = s.halted ∧ u.reqs = s.reqs ∧ u.rst = s.rst ∧ u.hist = s.hist := by
      obtain ⟨-, -, -, rfl⟩ := loads
      exact ⟨rfl, rfl, rfl, rfl, rfl⟩
    exact .inr ⟨r, ends, .from hd (loads_keep loads) (fun _ => loads_config loads) (loads_frame loads) same⟩

/-- A block that is about to end an operation has the invariant once it is back in IDLE. -/
theorem Inv.inIdle {s : State} (h : Inv s) (idle : s.fsm = .idle) : Inv (s.setFsm .idle) where
  params := h.params
  memory := h.memory
  atRest := ⟨by simpa [idle] using h.atRest.1, .inl rfl⟩
  config := h.config
  divisor := h.divisor
  width := h.width
  response := h.response

/-- What an operation has performed keeps the invariant, but for the sequencer. -/
theorem Performed.inv {i : Instr} {s : State} {r : Res DWord} (p : Performed i s r) (h : Inv s)
    (idle : s.fsm = .idle) : Inv (r.state.setFsm .idle) where
  params := p.params ▸ h.params
  memory := p.keep.memory h.memory
  atRest := ⟨by simpa [p.halted, idle] using h.atRest.1, .inl rfl⟩
  config := p.config h.config
  divisor := p.keep.divisor h.divisor
  width := p.keep.width h.width
  response := p.keep.response h.response

/-- The end of an operation keeps the invariant: a reset leaves a reset block, and a response leaves it in IDLE or, with
`halted` set, in HALTED. -/
theorem endOp_inv {r : Res DWord} {t : State} (h : Inv (r.state.setFsm .idle)) (ends : endOp r = .next t) : Inv t := by
  rcases endOp_next ends with ⟨rfl, -⟩ | ⟨-, code, value, status, ws, -, fsm, halted, keeps, -⟩
  · exact resetEvent_inv h.params h.memory
  · have running : r.state.halted = false := by simpa using h.atRest.1
    have same (q : Part) (hq : q ∉ [Part.fsm, .halted, .resp, .trace] := by decide) : q.same r.state t := keeps q hq
    have atRest : AtRest t := by
      rw [AtRest, fsm, halted, running]
      split_ifs <;> simp
    have response : ResponseKnown r.state := h.response
    exact {
      params := (same .params : t.params = r.state.params) ▸ h.params
      memory := by
        rw [MemoryCanonical, show t.mem = r.state.mem from same .mem, show t.dirty = r.state.dirty from same .dirty]
        exact h.memory
      atRest := atRest
      config := by
        rw [ConfigLegal, show t.cfg = r.state.cfg from same .cfg,
          show t.cfgValid = r.state.cfgValid from same .cfgValid]
        exact h.config
      divisor := by
        rw [DivisorLegal, show t.clkDiv = r.state.clkDiv from same .clkDiv]
        exact h.divisor
      width := by
        rw [WidthLegal, show t.busWidth = r.state.busWidth from same .busWidth]
        exact h.width
      response := response.of (same .rspCount) (same .rspWords) }

theorem exec_inv {i : Instr} {s t : State} (hb : i.agent = .block) (h : Inv s) (idle : s.fsm = .idle)
    (ends : exec i s = .next t) : Inv t := by
  rcases exec_performs hb s with ⟨-, e, fault⟩ | ⟨r, e, performed⟩
  · exact nomatch fault.symm.trans ends
  · exact endOp_inv (performed.inv h idle) (e.symm.trans ends)

theorem raiseError_inv {e : Err} {s t : State} (h : Inv s) (idle : s.fsm = .idle) (ends : raiseError e s = .next t) :
    Inv t := endOp_inv (r := .stop (.raised e) s) (h.inIdle idle) ends

/-! ## The invariant across a step -/

theorem moved_inv {s : State} (h : Inv s) : Inv (moved s) := h.of_kept (moved_keeps s) id

theorem idleCycle_inv {s : State} (h : Inv s) : Inv (idleCycle s) := h.of_kept (idleCycle_keeps s) id

theorem accept_inv {s : State} (h : Inv s) (q : Request) (rest : List Request) : Inv (accept q rest s) :=
  h.of_kept (accept_keeps q rest s) id

/-- Settles O13: a move of the block is a reset, a wait or an operation that ends; a move of the environment touches no
part the invariant speaks of but memory, which it leaves canonical. -/
theorem stepKeepsTheInvariant : Obligations.StepKeepsTheInvariant := by
  unfold Obligations.StepKeepsTheInvariant
  intro s t h next
  have hm := moved_inv h
  rcases moves_cases s with block | ⟨g, later, hs, hg⟩
  · rcases step_block_cases block with
      ⟨-, e⟩ | ⟨-, e⟩ | ⟨-, e⟩ | ⟨q, rest, -, idle, -, ⟨i, decodes, e⟩ | e⟩
    · cases e.symm.trans next
      exact resetEvent_inv hm.params hm.memory
    · exact nomatch e.symm.trans next
    · cases e.symm.trans next
      exact idleCycle_inv hm
    · exact exec_inv (decodeRequest_agent decodes) (accept_inv hm q rest) idle (e.symm.trans next)
    · exact raiseError_inv (accept_inv hm q rest) idle (e.symm.trans next)
  · rcases step_environment hs hg with ⟨r, e⟩ | ⟨u, e, keeps, wf⟩
    · exact nomatch e.symm.trans next
    · cases e.symm.trans next
      exact h.of_kept keeps wf

/-- The end of an operation changes nothing outside the block. -/
theorem endOp_outside {r : Res DWord} {t : State} (ends : endOp r = .next t) : KeepsAllBut blockParts r.state t := by
  rcases endOp_next ends with ⟨rfl, -⟩ | ⟨-, -, -, -, -, -, -, -, keeps, -⟩
  · exact resetEvent_keeps r.state
  · exact keeps.mono (by decide)

/-- Settles O16: what an operation performs leaves the parameters, and no other move touches them. -/
theorem parametersNeverChange : Obligations.ParametersNeverChange := by
  unfold Obligations.ParametersNeverChange
  intro s t next
  rcases moves_cases s with block | ⟨g, later, hs, hg⟩
  · rcases step_block_cases block with
      ⟨-, e⟩ | ⟨-, e⟩ | ⟨-, e⟩ | ⟨q, rest, -, -, -, ⟨i, decodes, e⟩ | e⟩
    · cases e.symm.trans next
      rfl
    · exact nomatch e.symm.trans next
    · cases e.symm.trans next
      rfl
    · rcases exec_performs (decodeRequest_agent decodes) (accept q rest (moved s)) with
        ⟨-, x, fault⟩ | ⟨r, ends, performed⟩
      · exact nomatch fault.symm.trans (e.symm.trans next)
      · exact (endOp_outside (ends.symm.trans (e.symm.trans next)) .params (by decide)).trans performed.params
    · exact endOp_outside (r := .stop (.raised .illegalRequest) _) (e.symm.trans next) .params (by decide)
  · rcases step_environment hs hg with ⟨r, e⟩ | ⟨u, e, keeps, -⟩
    · exact nomatch e.symm.trans next
    · cases e.symm.trans next
      exact keeps .params (by decide)

/-! ## Accepted requests -/

/-- A request that has been accepted finds its operands and, while `cfg.valid = 1`, the configuration known. -/
theorem accept_fed {s : State} (h : ConfigLegal s) (q : Request) (rest : List Request) : Fed (accept q rest s) :=
  ⟨fun valid => (h valid).1, rfl, rfl, rfl⟩

/-- From a state with the invariant an operation with its operands known ends, and how. -/
theorem exec_fed {i : Instr} {s : State} (hb : i.agent = .block) (fed : Fed s) :
    ∃ r, exec i s = endOp r ∧ Performed i s r := by
  rcases exec_performs hb s with ⟨unfed, -⟩ | performs
  · exact absurd fed unfed
  · exact performs

/-- An operation whose response words are known ends in a next state. -/
theorem endOp_isNext {r : Res DWord} (h : ResponseKnown r.state) : ∃ t, endOp r = .next t := by
  rcases endOp_known h with ⟨-, e⟩ | ⟨-, ⟨v, -, e⟩ | ⟨-, e⟩ | ⟨x, -, -, e⟩⟩ <;> exact ⟨_, e⟩

/-- Settles O14: an accepted request has its operands, the configuration is known while it is valid, and the words the
port drives are known, so every operation ends in a next state. -/
theorem stepNeverReadsUnknown : Obligations.StepNeverReadsUnknown := by
  unfold Obligations.StepNeverReadsUnknown
  intro s x h fault
  have hm := moved_inv h
  rcases moves_cases s with block | ⟨g, later, hs, hg⟩
  · rcases step_block_cases block with
      ⟨-, e⟩ | ⟨-, e⟩ | ⟨-, e⟩ | ⟨q, rest, -, -, -, ⟨i, decodes, e⟩ | e⟩
    · exact nomatch e.symm.trans fault
    · exact nomatch e.symm.trans fault
    · exact nomatch e.symm.trans fault
    · obtain ⟨r, ends, performed⟩ := exec_fed (decodeRequest_agent decodes) (accept_fed hm.config q rest)
      obtain ⟨t, next⟩ := endOp_isNext (performed.keep.response (accept_inv hm q rest).response)
      exact nomatch (e.trans (ends.trans next)).symm.trans fault
    · obtain ⟨t, next⟩ := endOp_isNext (r := .stop (.raised .illegalRequest) _) (accept_inv hm q rest).response
      exact nomatch (e.trans next).symm.trans fault
  · rcases step_environment hs hg with ⟨r, e⟩ | ⟨u, e, -⟩ <;> exact nomatch e.symm.trans fault

theorem Err.code_eq_fatalTimeout {x : Err} : x.code = .fatalTimeout ↔ x = .fatalTimeout := by
  cases x <;> simp [Err.code]

/-- Only HARDWARE_ERROR reports a status word (30_encoding.md R118). -/
theorem Err.status_eq_zero {x : Err} (h : x.code ≠ .hardwareError) : x.status = 0 := by
  cases x with
  | hardwareError => exact absurd rfl h
  | _ => rfl

/-- How an operation ends that no reset meets: with one response, of a code that its instruction can end with. -/
theorem Performed.answers {i : Instr} {s : State} {r : Res DWord} (p : Performed i s r) (known : ResponseKnown s)
    (hr : s.rst = none) : ∃ t code value status, endOp r = .next t ∧ Drives t code value status ∧
      KeepsAllBut [.fsm, .halted, .resp, .trace] r.state t ∧ mayEndWith i code = true ∧
      t.fsm = (if code = .fatalTimeout then .halted else .idle) ∧
      (code ≠ .hardwareError → status = 0) ∧ (code ≠ .ok → i ≠ .classify → value = 0) := by
  have noReset : ¬ (r.state.rst = some 0 ∨ r = .stop .reset r.state) := by
    have going := p.noReset hr
    rintro (h | h)
    · exact nomatch going.symm.trans h
    · exact nomatch going.symm.trans (p.reset _ h)
  rcases endOp_known (p.keep.response known) with ⟨h, -⟩ | ⟨-, ⟨v, -, e⟩ | ⟨fatal, e⟩ | ⟨x, notFatal, raised, e⟩⟩
  · exact absurd h noReset
  · exact ⟨_, .ok, v, 0, e, rfl, (answered_keeps _ _ _ _).mono (by decide), rfl, rfl, fun _ => rfl,
      fun h => absurd rfl h⟩
  · have may := (p.raised _ _ fatal).1
    exact ⟨_, .fatalTimeout, 0, 0, e, rfl, halts_keeps _, may, rfl, fun _ => rfl, fun _ _ => rfl⟩
  · obtain ⟨may, value⟩ := p.raised _ _ raised
    have code : x.code ≠ .fatalTimeout := fun h => notFatal (Err.code_eq_fatalTimeout.mp h)
    refine ⟨_, x.code, _, x.status, e, rfl, (answered_keeps _ _ _ _).mono (by decide), may, (if_neg code).symm,
      Err.status_eq_zero,
      fun _ notClassify => ?_⟩
    rw [value notClassify]
    rfl

/-- Settles O15: an accepted request performs its operation and answers; what it performs leaves the port's other
requests alone. -/
theorem everyRequestIsAnswered : Obligations.EveryRequestIsAnswered := by
  unfold Obligations.EveryRequestIsAnswered
  intro s q rest i h block hr idle hq decodes
  have hm := moved_inv h
  have accepts := step_request block (hr ▸ nofun) idle hq
  rw [decodes] at accepts
  have noReset : (accept q rest (moved s)).rst = none := by simp [hr]
  obtain ⟨r, ends, p⟩ := exec_fed (decodeRequest_agent decodes) (accept_fed hm.config q rest)
  obtain ⟨t, code, value, status, e, drives, keeps, may, fsm, hstatus, hvalue⟩ :=
    p.answers (accept_inv hm q rest).response noReset
  have reqs : t.reqs = rest := (show t.reqs = r.state.reqs from keeps .reqs (by decide)).trans p.reqs
  exact ⟨t, code, value, status, accepts.trans (ends.trans e), drives, reqs, may, fsm, hstatus, hvalue⟩

/-! ## Waiting, and a move's dispatch -/

theorem idleCycle_moved_keeps (s : State) : KeepsAllBut [.sched, .rst, .resp] s (idleCycle (moved s)) :=
  (moved_keeps s).trans (idleCycle_keeps (moved s))

/-- Settles O9: with no reset in HALTED the block has no step; every other move the statement speaks of is an idle
cycle or the reset event. -/
theorem haltedBlockIsStuck : Obligations.HaltedBlockIsStuck := by
  unfold Obligations.HaltedBlockIsStuck
  refine ⟨fun s block halted => ⟨fun hr => ?_, fun n hr => ?_, fun hr => ?_⟩, fun s block hr idle hq => ?_⟩
  · rw [step_halted block (hr ▸ nofun) halted, if_pos hr]
  · rw [step_halted block (by simp [hr]) halted, if_neg (by simp [hr])]
    exact ⟨_, rfl, rfl, by simp [hr], rfl, idleCycle_moved_keeps s⟩
  · exact ⟨_, step_reset block hr, rfl, rfl⟩
  · exact ⟨_, step_noRequest block hr (by simp [idle]) hq, rfl, by simp, rfl, idleCycle_moved_keeps s⟩

/-- Settles O8: the request is accepted and raises at once, in a state whose response words are known. -/
theorem malformedRequestIsAnswered : Obligations.MalformedRequestIsAnswered := by
  unfold Obligations.MalformedRequestIsAnswered
  intro s q rest x block notNow notNext idle known hq malformed
  rw [step_request block notNow idle hq, malformed]
  have going : (accept q rest (moved s)).rst ≠ some 0 := by
    rw [accept_rst, moved_rst]
    rcases e : s.rst with _ | _ | _ | n <;> simp_all
  exact raiseError_known (s := accept q rest (moved s)) known going nofun

/-- Settles O7: the block's move by `step_request`, the others by what their agent fetches. -/
theorem stepRunsTheDecodedInstruction : Obligations.StepRunsTheDecodedInstruction := by
  unfold Obligations.StepRunsTheDecodedInstruction
  refine ⟨fun s q rest i block hr idle hq decodes => ?_, fun s later k rest i hs hk decodes => ?_,
    fun s later a w i hs ha sees decodes => ?_, fun s q rest => ?_, fun s => ⟨rfl, moved_keeps s⟩⟩
  · rw [step_request block hr idle hq, decodes]
  · have fetched : fetch s = .run i (moved s) := by
      simp only [fetch, hs, fetchController, hk, decodes, moved]
      rfl
    rw [step, fetched]
  · have fetched : fetch s = .run i (moved s) := by
      have word : engineWord a (moved s) = (w, moved s) := engineWord_sees sees
      have place : fetch s = fetchEngine (moved s) := by
        simp only [fetch, hs, moved]
        rfl
      rw [place, fetchEngine, show (moved s).dma.cur = some a from ha]
      simp only [word, decodes]
    rw [step, fetched]
  · exact ⟨rfl, rfl, rfl, rfl, rfl, rfl, rfl, rfl, accept_keeps q rest s⟩

end Sys2Proof.Machine
end

section
/-! PROOFS. What an instruction changes: its frame, its events, the memory it may store to, and that a reset which
comes with its acceptance abandons it before it does anything (10_state.md, 20_memory.md, 70_reset_and_hazards.md). -/

namespace Sys2Proof.Machine

/-! ## The frame of an instruction -/

theorem KeepsAllBut.settle {p : Part} {ps : List Part} {s t : State} (h : KeepsAllBut (p :: ps) s t)
    (hp : p.same s t) : KeepsAllBut ps s t := fun q hq => by
  by_cases e : q = p
  · exact e ▸ hp
  · exact h q (by simp [e, hq])

theorem endParts_frame {i : Instr} (hb : i.agent = .block) : [.fsm, .resp, .trace] ⊆ frameParts i := by
  cases i <;> cases hb <;> simp only [frameParts] <;> decide

theorem halted_frame {i : Instr} (may : mayEndWith i .fatalTimeout = true) :
    [.fsm, .halted, .resp, .trace] ⊆ frameParts i := by
  cases i <;> cases may <;> simp only [frameParts] <;> decide

/-- The response an operation ends with is in its frame, and a halt in that of the operations that can time out. -/
theorem Performed.ends {i : Instr} {s t : State} {r : Res DWord} (hb : i.agent = .block) (p : Performed i s r)
    (next : endOp r = .next t) : (r.state.rst = some 0 ∧ t = resetEvent r.state) ∨
      (r.state.rst ≠ some 0 ∧ t.rst = r.state.rst ∧ t.resp ≠ none ∧ KeepsAllBut (frameParts i) r.state t) := by
  rcases endOp_next next with ⟨reset, h | h⟩ | ⟨going, code, value, status, ws, resp, -, -, keeps, frame⟩
  · exact .inl ⟨h, reset⟩
  · exact .inl ⟨p.reset _ h, reset⟩
  · refine .inr ⟨going, keeps .rst (by decide), by simp [resp], ?_⟩
    rcases frame with inIdle | fatal
    · exact inIdle.mono (endParts_frame hb)
    · exact keeps.mono (halted_frame (p.raised _ _ fatal).1)

/-- However an instruction ends, it or the state a reset abandons it in is within its frame. -/
theorem exec_frame {i : Instr} {s t : State} (next : exec i s = .next t) :
    (KeepsAllBut (.rst :: frameParts i) s t ∧ (s.rst = none → t.rst = none)) ∨
    (s.rst ≠ none ∧ ∃ u, KeepsAllBut (.rst :: frameParts i) s u ∧ t = resetEvent u) := by
  by_cases hb : i.agent = .block
  · rcases exec_performs hb s with ⟨-, e, fault⟩ | ⟨r, e, p⟩
    · exact nomatch fault.symm.trans next
    rcases p.ends hb (e.symm.trans next) with ⟨now, reset⟩ | ⟨-, rst, -, frame⟩
    · refine .inr ⟨fun none => ?_, _, p.frame, reset⟩
      exact nomatch (p.noReset none).symm.trans now
    · exact .inl ⟨p.frame.trans_same (frame.mono (List.subset_cons_self _ _)), fun none => rst.trans (p.noReset none)⟩
  · obtain ⟨u, e, frame, -⟩ := exec_environment hb s
    cases e.symm.trans next
    have rst : t.rst = s.rst := frame.mono (frameParts_environment hb) .rst (by decide)
    exact .inl ⟨frame.mono (List.subset_cons_self _ _), rst.trans⟩

/-- The frame when no reset is coming. -/
theorem exec_frame_noReset {i : Instr} {s t : State} (hr : s.rst = none) (next : exec i s = .next t) :
    KeepsAllBut (frameParts i) s t := by
  rcases exec_frame next with ⟨frame, rst⟩ | ⟨coming, -⟩
  · exact frame.settle ((rst hr).trans hr.symm)
  · exact absurd hr coming

/-- Settles O19: the parts of the clock stand in no frame but those of the three operations. -/
theorem clockIsTheClockControllersAlone : Obligations.ClockIsTheClockControllersAlone := by
  unfold Obligations.ClockIsTheClockControllersAlone
  intro i s t hr notInit notSetclk notCfgbus next
  have apart : ∀ p ∈ [Part.clkDiv, .clkEnabled, .regClkdiv, .regClkena, .regClksrc], p ∉ frameParts i := by
    cases i
    case init => exact absurd rfl notInit
    case setclk => exact absurd rfl notSetclk
    case cfgbus => exact absurd rfl notCfgbus
    all_goals simp only [frameParts]; decide
  have same (p : Part) (hp : p ∈ [Part.clkDiv, .clkEnabled, .regClkdiv, .regClkena, .regClksrc] := by decide) :
      p.same s t := exec_frame_noReset hr next p (apart p hp)
  exact ⟨same .clkDiv, same .clkEnabled, same .regClkdiv, same .regClkena, same .regClksrc⟩

/-- Settles O21: the bound of the procedure; its end makes no event, nor does the environment. -/
theorem operationsMakeBoundedEvents : Obligations.OperationsMakeBoundedEvents := by
  unfold Obligations.OperationsMakeBoundedEvents
  intro i s t next
  by_cases hb : i.agent = .block
  · rcases exec_performs hb s with ⟨-, e, fault⟩ | ⟨r, e, p⟩
    · exact nomatch fault.symm.trans next
    · rw [endOp_hist (e.symm.trans next)]
      exact p.bound
  · obtain ⟨u, e, frame, -⟩ := exec_environment hb s
    cases e.symm.trans next
    rw [show t.hist = s.hist from frame.mono (frameParts_environment hb) .hist (by decide)]
    exact Nat.le_add_right _ _

/-- Settles O59, by what a step of the environment can do. -/
theorem environmentStepsKeepTheBlock : Obligations.EnvironmentStepsKeepTheBlock := by
  unfold Obligations.EnvironmentStepsKeepTheBlock
  intro s t g later hs hg next
  rcases step_environment hs hg with ⟨r, e⟩ | ⟨u, e, keeps, -⟩
  · exact nomatch e.symm.trans next
  · cases e.symm.trans next
    exact keeps

/-! ## The pending bits -/

/-- What a read that happens leaves (20_memory.md R91). -/
theorem regRead_ok {c : Cfg} {r : CtlReg} {v : Word} {s t : State} (h : regRead c r s = .ok v t) :
    ∃ u, KeepsAllBut [.rst] s u ∧ v = u.nextAnswer ∧ t = u.readDone c r := by
  obtain ⟨⟨⟩, u, ticks, reads⟩ := bind_eq_ok.mp h
  cases reads
  exact ⟨u, tick_keeps ticks, rfl, rfl⟩

/-- Clearing the bits that are 1 in `v` (30_encoding.md R132), the clear-all among them. -/
theorem clearBits_holds (v p : Word) : clearBits v (.holds p) = .holds (p &&& ~~~v) := by
  unfold clearBits
  split_ifs with all
  · subst all
    congr 1
    simp [clearAll]
  · rfl

theorem writeDone_pending {r : CtlReg} (hr : r ≠ .rintsts) (c : Cfg) (v : Word) (s : State) :
    (s.writeDone c r v).ctl.pending = s.ctl.pending := by
  cases r <;> first | exact absurd rfl hr | rfl

theorem readDone_pending {r : CtlReg} (hr : r ≠ .rintsts) (c : Cfg) (s : State) :
    (s.readDone c r).ctl.pending = s.ctl.pending := by
  simp [State.readDone, Controller.shown, hr]

/-- Settles O18: writes and reads of RINTSTS by what each leaves, the values written by the legal events that are all
a step adds. -/
theorem rintstsWritesClearPendingBits : Obligations.RintstsWritesClearPendingBits := by
  unfold Obligations.RintstsWritesClearPendingBits
  refine ⟨fun c s t v p hp writes => ?_, fun s t base v es next hist hv => ?_, fun c s t v p hp reads => ?_,
    fun c r s t v hr access => ?_⟩
  · obtain ⟨u, keeps, rfl⟩ := regWrite_ok writes
    have pending : u.ctl.pending = .holds p := (keeps .pending (by decide)).trans hp
    show clearBits v u.ctl.pending = _
    rw [pending, clearBits_holds]
  · obtain ⟨fs, grows, legal⟩ := step_grows next
    rw [hist, List.append_cancel_left_eq] at grows
    obtain ⟨-, -, value⟩ := legal _ (grows ▸ hv)
    exact value
  · obtain ⟨u, keeps, rfl, rfl⟩ := regRead_ok reads
    have pending : u.ctl.pending = .holds p := (keeps .pending (by decide)).trans hp
    show u.ctl.pending.map (· ||| u.nextAnswer) = _
    rw [pending, Latch.map_holds]
  · rcases access with reads | writes
    · obtain ⟨u, keeps, -, rfl⟩ := regRead_ok reads
      exact (readDone_pending hr c u).trans (keeps .pending (by decide))
    · obtain ⟨u, keeps, rfl⟩ := regWrite_ok writes
      exact (writeDone_pending hr c v u).trans (keeps .pending (by decide))

end Sys2Proof.Machine
end

section
/-! PROOFS. Two facts about whole operations, each followed from one primitive to the next: memory outside a region stays
as it was (20_memory.md R88), and nothing happens once `rst` is asserted (70_reset_and_hazards.md R450). -/

namespace Sys2Proof.Machine

/-! ## What every next state of an outcome satisfies -/

/-- Every next state the outcome gives satisfies `P`. -/
def Ends (P : State → Prop) (o : Out) : Prop := ∀ t, o = .next t → P t

section
variable {P : State → Prop} {s : State}

theorem Ends.endOp {r : Res DWord} (h : ∀ t, KeepsAllBut blockParts r.state t → P t) : Ends P (endOp r) :=
  fun t next => h t (endOp_outside next)

theorem Ends.raise {e : Err} (h : ∀ t, KeepsAllBut blockParts s t → P t) : Ends P (raiseError e s) :=
  Ends.endOp (r := .stop (.raised e) s) h

theorem Ends.finish {v : DWord} (h : ∀ t, KeepsAllBut blockParts s t → P t) : Ends P (finish v s) :=
  Ends.endOp (r := .ok v s) h

theorem Ends.fault {e : Fault} : Ends P (.fault e) := fun _ next => by cases next

theorem Ends.withA {f : DWord → Out} (h : Ends P (f s.reqA.val)) : Ends P (withA s f) := by
  rw [Machine.withA, Latch.read?]
  split_ifs
  · exact h
  · exact Ends.fault

theorem Ends.withB {f : DWord → Out} (h : Ends P (f s.reqB.val)) : Ends P (withB s f) := by
  rw [Machine.withB, Latch.read?]
  split_ifs
  · exact h
  · exact Ends.fault

theorem Ends.withC {f : DWord → Out} (h : Ends P (f s.reqC.val)) : Ends P (withC s f) := by
  rw [Machine.withC, Latch.read?]
  split_ifs
  · exact h
  · exact Ends.fault

theorem Ends.withCfg {f : Cfg → Out} (hn : Ends P (raiseError .configError s)) (h : Ends P (f s.cfg.val)) :
    Ends P (withCfg s f) := by
  rw [Machine.withCfg, Latch.read?]
  split_ifs
  · exact h
  · exact Ends.fault
  · exact hn

end

/-! ## Memory outside a region -/

section
variable {a n b m : Nat} {s t u : State}

theorem MemoryKeptOutside.of_mem (h : t.mem = s.mem) : MemoryKeptOutside a n s t := fun x _ => by rw [h]

theorem MemoryKeptOutside.of_keeps {ps : List Part} (h : KeepsAllBut ps s t) (hp : .mem ∉ ps := by decide) :
    MemoryKeptOutside a n s t := .of_mem (h .mem hp)

theorem MemoryKeptOutside.trans (h : MemoryKeptOutside a n s t) (g : MemoryKeptOutside a n t u) :
    MemoryKeptOutside a n s u := fun x hx => (g x hx).trans (h x hx)

theorem MemoryKeptOutside.widen (h : MemoryKeptOutside a n s t) (low : b ≤ a) (high : a + n ≤ b + m) :
    MemoryKeptOutside b m s t := fun x hx => h x (hx.imp (by omega) (by omega))

theorem MemoryKeptOutside.all (h : MemoryKeptOutside a n s t) : MemoryKeptOutsideAll [(a, n)] s t := fun x hx =>
  h x (hx (a, n) (by simp))

end

/-- A procedure stores only inside `[a, a+n)`. -/
def StoresIn {α : Type} (a n : Nat) (s : State) (r : Res α) : Prop := MemoryKeptOutside a n s r.state

section
variable {α β : Type} {a n b m : Nat} {s : State}

theorem StoresIn.bind {r : Res α} {f : α → State → Res β} (h : StoresIn a n s r)
    (g : ∀ x t, StoresIn a n t (f x t)) : StoresIn a n s (r.bind f) := by
  cases r with
  | ok x t => exact MemoryKeptOutside.trans h (g x t)
  | stop e t => exact h

theorem StoresIn.andThen {r : Res Unit} {f : State → Res β} (h : StoresIn a n s r)
    (g : ∀ t, StoresIn a n t (f t)) : StoresIn a n s (r.andThen f) := h.bind fun _ => g

theorem StoresIn.of_does {L : Prop} {c : Cfg} {E : Err → Prop} {ps : List Part} {k : Nat} {r : Res α}
    (h : Does L c E ps k s r) (hp : .mem ∉ Part.rst :: ps := by decide) : StoresIn a n s r :=
  .of_keeps h.frame hp

theorem tick_storesIn : StoresIn a n s (tick s) := by
  rcases tick_cases s with ⟨-, e⟩ | ⟨-, e⟩ | ⟨k, -, e⟩ <;> rw [e] <;> exact MemoryKeptOutside.of_mem rfl

theorem memWrite_storesIn (w : Word) (low : a ≤ b) (high : b + 4 ≤ a + n) : StoresIn a n s (memWrite b w s) := by
  refine tick_storesIn.andThen fun t => ?_
  exact MemoryKeptOutside.widen (fun x hx => storeWord_read_other b w t hx) low high

/-- Where every round of a loop stores only inside the region, so does the loop. -/
theorem forRange_storesIn {body : Nat → State → Res Unit} (i k : Nat) :
    ∀ s, (∀ j t, i ≤ j → j < i + k → StoresIn a n t (body j t)) → StoresIn a n s (forRange body i k s) := by
  induction k generalizing i with
  | zero => exact fun s _ => MemoryKeptOutside.of_mem rfl
  | succ k ih =>
    intro s h
    exact StoresIn.andThen (h i s (by omega) (by omega)) fun t =>
      ih (i + 1) t fun j u low high => h j u (by omega) (by omega)

/-- The four words of a descriptor (43_dma_builder.md R321). -/
theorem writeDescriptor_storesIn (d : Descriptor) (low : a ≤ b) (high : b + 16 ≤ a + n) :
    StoresIn a n s (writeDescriptor b d s) :=
  (memWrite_storesIn d.des0 (by omega) (by omega)).andThen fun _ =>
  (memWrite_storesIn d.des1 (by omega) (by omega)).andThen fun _ =>
  (memWrite_storesIn d.des2 (by omega) (by omega)).andThen fun _ =>
  memWrite_storesIn d.des3 (by omega) (by omega)

/-- The builder stores only inside its chain's footprint, and nothing when it rejects its operands (43_dma_builder.md
R311). -/
theorem buildChain_storesIn {c : Cfg} {buf size chunk m : Nat}
    (h : chainAccepted c buf size chunk = true → descBytes * chainLength size chunk ≤ m) :
    StoresIn c.descBase.toNat m s (buildChain c buf size chunk s) := by
  rw [buildChain]
  split_ifs with accepted
  · have fits := h accepted
    refine (forRange_storesIn _ _ _ fun j t low high => writeDescriptor_storesIn _ ?_ ?_).andThen fun t =>
      StoresIn.andThen ?_ fun t => StoresIn.andThen ?_ fun t => ?_
    · exact Nat.le_add_right _ _
    · simp only [descAddr, descBytes] at fits ⊢
      omega
    · exact .of_does (regWrite_does (L := True) c NoErr .dbaddr _ t rfl trivial)
    · exact .of_does (cacheClean_does (L := True) c NoErr _ _ t)
    · exact MemoryKeptOutside.of_mem rfl
  · exact MemoryKeptOutside.of_mem rfl

/-- PREPARE stores only its chain (44_facade_transfer.md R353). -/
theorem runPrepare_storesIn {c : Cfg} {buf size m : Nat} (h : c.dmaCapable = true →
      chainAccepted c buf size c.chunkMax.toNat = true → descBytes * chainLength size c.chunkMax.toNat ≤ m) :
    StoresIn c.descBase.toNat (if c.dmaCapable then m else 0) s (runPrepare c buf size s) := by
  refine StoresIn.andThen (.of_does (regWrite_does (L := True) c NoErr .bytcnt _ s rfl trivial)) fun t =>
    StoresIn.andThen (.of_does (regWrite_does (L := True) c NoErr .rintsts _ t rfl (.inl rfl))) fun t => ?_
  split_ifs with dma
  · exact StoresIn.andThen (.of_does (cacheClean_does (L := True) c NoErr _ _ t)) fun t =>
      buildChain_storesIn (h dma)
  · exact MemoryKeptOutside.of_mem rfl

/-- The FIFO drain stores only inside the buffer (44_facade_transfer.md R356). -/
theorem drain_storesIn (c : Cfg) (buf size : Nat) :
    StoresIn buf size s (forRange (drainWord c buf) 0 (size / 4) s) :=
  forRange_storesIn _ _ _ fun j t _ high =>
    StoresIn.bind (.of_does (regRead_does (L := True) c NoErr .fifo t rfl)) fun w u =>
      memWrite_storesIn w (Nat.le_add_right _ _) (by omega)

end

/-! ## The stores of BUILD, PREPARE and READ -/

section
variable {a n : Nat} {s : State}

theorem Ends.stores {r : Res DWord} (h : StoresIn a n s r) : Ends (MemoryKeptOutside a n s) (Machine.endOp r) :=
  Ends.endOp fun _ keeps => h.trans (.of_keeps keeps)

end

/-- No error, and no operation that finishes at once, stores anything. -/
theorem mem_of_keeps {s t u : State} (hm : u.mem = s.mem) (keeps : KeepsAllBut blockParts u t) : t.mem = s.mem :=
  (keeps .mem (by decide)).trans hm

theorem execBuild_stores {s : State} {m : Nat}
    (h : chainAccepted s.cfg.val s.reqA.val.toNat s.reqB.val.toNat s.reqC.val.toNat = true →
      descBytes * chainLength s.reqB.val.toNat s.reqC.val.toNat ≤ m) :
    Ends (MemoryKeptOutside s.cfg.val.descBase.toNat m s) (exec .build s) := by
  refine Ends.withCfg (Ends.raise fun t => .of_mem ∘ mem_of_keeps rfl) (.withA (.withB (.withC (.stores ?_))))
  exact StoresIn.bind (s := s) (r := buildChain _ _ _ _ (s.setFsm .exec)) (buildChain_storesIn h)
    fun _ _ => MemoryKeptOutside.of_mem rfl

theorem execPrepare_stores {s : State} {m : Nat}
    (h : s.cfg.val.dmaCapable = true →
      chainAccepted s.cfg.val s.reqB.val.toNat s.reqC.val.toNat s.cfg.val.chunkMax.toNat = true →
      descBytes * chainLength s.reqC.val.toNat s.cfg.val.chunkMax.toNat ≤ m) :
    Ends (MemoryKeptOutside s.cfg.val.descBase.toNat (if s.cfg.val.dmaCapable then m else 0) s) (exec .prepare s) := by
  refine Ends.withCfg (Ends.raise fun t => .of_mem ∘ mem_of_keeps rfl) (.withB (.withC ?_))
  cases checkPrepare s.cfg.val (s.setFsm .exec).reqB.val.toNat (s.setFsm .exec).reqC.val.toNat with
  | some e => exact Ends.raise fun t => .of_mem ∘ mem_of_keeps rfl
  | none =>
    refine Ends.stores ?_
    exact StoresIn.bind (s := s) (r := runPrepare _ _ _ (s.setFsm .exec)) (runPrepare_storesIn h)
      fun _ _ => MemoryKeptOutside.of_mem rfl

theorem execRead_stores (s : State) :
    Ends (MemoryKeptOutside s.reqA.val.toNat (if s.cfg.val.dmaCapable then 0 else s.reqB.val.toNat) s)
      (exec .read s) := by
  refine Ends.withCfg (Ends.raise fun t => .of_mem ∘ mem_of_keeps rfl) (.withA (.withB ?_))
  dsimp only
  split_ifs with dma
  · exact Ends.finish fun t => .of_mem ∘ mem_of_keeps rfl
  · exact Ends.raise fun t => .of_mem ∘ mem_of_keeps rfl
  · exact Ends.raise fun t => .of_mem ∘ mem_of_keeps rfl
  · refine Ends.stores ?_
    exact StoresIn.bind (s := s) (r := forRange _ _ _ (s.setFsm .exec)) (drain_storesIn s.cfg.val _ _)
      fun _ _ => MemoryKeptOutside.of_mem rfl

/-- Settles O53: an accepted chain fits the ring, and the drain fits the buffer. -/
theorem storesStayInTheirRegion : Obligations.StoresStayInTheirRegion := by
  unfold Obligations.StoresStayInTheirRegion
  intro c s t ready
  have cfg : s.cfg.val = c := congrArg Latch.val ready.config
  subst cfg
  have fits {buf size chunk : Nat} (h : chainAccepted s.cfg.val buf size chunk = true) :
      descBytes * chainLength size chunk ≤ s.cfg.val.descSize.toNat := ((chainAccepted_iff ..).mp h).2.2.2
  refine ⟨fun next => execBuild_stores fits t next, fun next => ?_, fun a b ha hb next => ?_⟩
  · refine (execPrepare_stores (fun _ => fits) t next).widen le_rfl ?_
    split_ifs <;> simp
  · have kept := execRead_stores s t next
    rw [ha, hb] at kept
    refine kept.widen le_rfl ?_
    split_ifs <;> simp

/-! ## The stores of every instruction -/

section
variable {rs : List (Nat × Nat)} {s t u : State}

theorem MemoryKeptOutsideAll.of_mem (h : t.mem = s.mem) : MemoryKeptOutsideAll rs s t := fun x _ => by rw [h]

theorem MemoryKeptOutsideAll.from_mem (h : MemoryKeptOutsideAll rs s t) (hs : s.mem = u.mem) :
    MemoryKeptOutsideAll rs u t := fun x hx => hs ▸ h x hx

theorem MemoryKeptOutsideAll.to_mem (h : MemoryKeptOutsideAll rs s t) (ht : u.mem = t.mem) :
    MemoryKeptOutsideAll rs s u := fun x hx => ht ▸ h x hx

theorem MemoryKeptOutside.none {a : Nat} (h : MemoryKeptOutside a 0 s t) : MemoryKeptOutsideAll rs s t := fun x _ =>
  h x (by omega)

end

/-- An instruction whose frame does not list memory stores nothing. -/
theorem exec_mem_kept {i : Instr} {s t : State} (h : .mem ∉ frameParts i) (next : exec i s = .next t) :
    t.mem = s.mem := by
  have apart : Part.mem ∉ .rst :: frameParts i := by simp [h]
  rcases exec_frame next with ⟨keeps, -⟩ | ⟨-, u, keeps, rfl⟩ <;> exact keeps .mem apart

/-- The four DES0 rows store only to the descriptor's segment and its OWN byte (log 17, log 18). -/
theorem consume_stores (chained : Bool) (s : State) :
    Ends (MemoryKeptOutsideAll ((s.dma.cur.map (descriptorStores · s)).getD []) s) (consume chained s) := by
  intro t next
  cases cur : s.dma.cur with
  | none =>
    rw [consume, cur] at next
    cases next
    exact .of_mem rfl
  | some a =>
    have stores := (useDescriptor_does chained a s).2.1
    rw [consume, cur] at next
    obtain rfl := Host.Outcome.next.inj next
    simp only [Option.map_some, Option.getD_some]
    cases chained with
    | true => exact stores
    | false => exact stores.to_mem (signalDone_mem _)

/-- SENDCMD of an index that has no word answers NOT_SUPPORTED and stores nothing (40_command_encoder.md R163). -/
theorem execSendcmd_noWord {idx : Nat} {shape : Shape} {dir : Dir} {s : State}
    (h : encodeCommand s.params idx shape s.cfg.val.dmaCapable = none) :
    Ends (fun t => t.mem = s.mem) (exec (.sendcmd idx shape dir) s) := by
  refine Ends.withCfg (Ends.raise fun t => mem_of_keeps rfl) (.withA ?_)
  dsimp only
  rw [show (s.setResponse .zero s.rspWords).params = s.params from rfl, h]
  exact Ends.raise fun t => mem_of_keeps rfl

/-- SENDCMD that transfers no data by DMA stores nothing. -/
theorem execSendcmd_noTransfer {idx : Nat} {shape : Shape} {dir : Dir} {s : State}
    (h : transfersData (.sendcmd idx shape dir) s = false) :
    Ends (fun t => t.mem = s.mem) (exec (.sendcmd idx shape dir) s) := by
  cases word : encodeCommand s.params idx shape s.cfg.val.dmaCapable with
  | none => exact execSendcmd_noWord word
  | some w =>
    intro t next
    rcases execSendcmd_memory (dir := dir) next word with kept | ⟨u, keeps, -, carried⟩
    · exact kept
    · have noData : (dataCarrying s.params.cmdBits w && s.cfg.val.dmaCapable) = false := by
        rw [Bool.and_comm]
        simpa [transfersData, word] using h
      calc t.mem = (commandOver s.cfg.val (dataCarrying s.params.cmdBits w) u).mem := carried
        _ = u.mem := commandOver_noData s.cfg.val noData .mem (by decide)
        _ = s.mem := keeps .mem (by decide)

/-- What every instruction that transfers no data by DMA may store to. -/
theorem exec_stores {i : Instr} {s : State} (h : transfersData i s = false) :
    Ends (MemoryKeptOutsideAll (storesOf i s) s) (exec i s) := by
  intro t next
  cases i
  case sendcmd => exact .of_mem (execSendcmd_noTransfer h t next)
  case build => exact (execBuild_stores (fun _ => le_rfl) t next).all
  case prepare =>
    have kept := execPrepare_stores (fun _ _ => le_rfl) t next
    simp only [storesOf]
    split_ifs at kept ⊢
    · exact kept.all
    · exact kept.none
  case read =>
    have kept := execRead_stores s t next
    simp only [storesOf]
    split_ifs at kept ⊢
    · exact kept.none
    · exact kept.all
  case des0First | des0Middle | des0Last | des0Single => exact consume_stores _ s t next
  all_goals exact .of_mem (exec_mem_kept (by simp only [frameParts]; decide) next)

/-- SENDCMD that transfers data by DMA leaves memory as before, or as the transfer of its own command leaves it. -/
theorem execSendcmd_transfer {idx : Nat} {shape : Shape} {dir : Dir} {s t : State} {w : Word}
    (next : exec (.sendcmd idx shape dir) s = .next t) (h : transfersData (.sendcmd idx shape dir) s = true)
    (word : encodeCommand s.params idx shape s.cfg.val.dmaCapable = some w) :
    t.mem = s.mem ∨
    ∃ u, KeepsAllBut (.rst :: .errStatus :: sendcmdStopParts) s u ∧
      (anySet w (bit s.params.cmdBits.start) = true → ∃ k, u.ctl.started = s.ctl.started ++ [k] ∧ k.word = w ∧
        k.regs.dbaddr = s.ctl.regs.dbaddr ∧ k.dma = true) ∧
      t.mem = (u.carriedOut.transferOver s.cfg.val).mem ∧
      MemoryKeptOutsideAll (runStores (s.cfg.val.descSize.toNat / 16) u.carriedOut) s t := by
  rcases execSendcmd_memory (dir := dir) next word with kept | ⟨u, keeps, started, carried⟩
  · exact .inl kept
  · have data : s.cfg.val.dmaCapable = true ∧ dataCarrying s.params.cmdBits w = true := by
      simpa [transfersData, word] using h
    rw [commandOver, data.1, data.2] at carried
    have before : u.carriedOut.mem = s.mem := (carriedOut_keeps u .mem (by decide)).trans (keeps .mem (by decide))
    have stores := (runEngine_does (s.cfg.val.descSize.toNat / 16) u.carriedOut).2.1
    refine .inr ⟨u, keeps, fun starts => ?_, carried, (stores.from_mem before).to_mem carried⟩
    rw [startedAfter, if_pos starts] at started
    exact ⟨_, started, rfl, rfl, data.1⟩

/-- Settles O20: the two frames by `exec_frame`, memory by what each instruction stores. -/
theorem instructionsChangeOnlyTheirState : Obligations.InstructionsChangeOnlyTheirState := by
  unfold Obligations.InstructionsChangeOnlyTheirState
  refine ⟨fun i s t hr next => exec_frame_noReset hr next, fun i s t next => ?_,
    fun i s t next h => exec_stores h t next,
    fun idx shape dir s t w next h word => execSendcmd_transfer next h word⟩
  rcases exec_frame next with ⟨frame, -⟩ | ⟨-, abandoned⟩
  · exact .inl frame
  · exact .inr abandoned

/-! ## A reset that comes with the acceptance -/

/-- The history, memory and the controller are as they were. -/
def Untouched (s t : State) : Prop := t.hist = s.hist ∧ t.mem = s.mem ∧ t.ctl = s.ctl

theorem Untouched.refl (s : State) : Untouched s s := ⟨rfl, rfl, rfl⟩

theorem Untouched.trans {s t u : State} (h : Untouched s t) (g : Untouched t u) : Untouched s u :=
  ⟨g.1.trans h.1, g.2.1.trans h.2.1, g.2.2.trans h.2.2⟩

/-- With `rst` asserted the procedure touches nothing, and leaves it asserted. -/
structure Idles {α : Type} (s : State) (r : Res α) : Prop where
  rst : r.state.rst = some 0
  same : Untouched s r.state

section
variable {α β : Type} {s : State}

theorem Idles.bind {r : Res α} {f : α → State → Res β} (h : Idles s r)
    (g : ∀ x t, t.rst = some 0 → Idles t (f x t)) : Idles s (r.bind f) := by
  cases r with
  | ok x t => exact ⟨(g x t h.rst).rst, h.same.trans (g x t h.rst).same⟩
  | stop e t => exact ⟨h.rst, h.same⟩

/-- Latches set before a procedure that idles. -/
theorem Idles.after {u : State} {r : Res α} (h : Idles u r) (hu : Untouched s u := by exact ⟨rfl, rfl, rfl⟩) :
    Idles s r := ⟨h.rst, hu.trans h.same⟩

/-- The operation is abandoned (70_reset_and_hazards.md R450). -/
theorem Idles.endOp {r : Res DWord} (h : Idles s r) : Ends (Untouched s) (Machine.endOp r) := by
  have reset : Machine.endOp r = .next (resetEvent r.state) := by
    match r, h.rst with
    | .ok v t, ht => exact finish_reset ht v
    | .stop (.raised e) t, ht => exact raiseError_reset ht e
    | .stop .reset t, _ => rfl
  intro t next
  cases reset.symm.trans next
  exact h.same

theorem Idles.andThen {r : Res Unit} {f : State → Res β} (h : Idles s r)
    (g : ∀ t, t.rst = some 0 → Idles t (f t)) : Idles s (r.andThen f) := h.bind fun _ => g

variable (hr : s.rst = some 0)
include hr

theorem tick_asserted : tick s = .stop .reset s := by simp [tick, hr]

/-- Nothing happens at an event, nor in what follows it. -/
theorem Idles.event {f : State → Res α} : Idles s ((tick s).andThen f) := by
  rw [tick_asserted hr]
  exact ⟨hr, .refl s⟩

theorem Idles.thenEvent {f : State → Res α} {g : α → State → Res β} : Idles s (((tick s).andThen f).bind g) := by
  rw [tick_asserted hr]
  exact ⟨hr, .refl s⟩

/-- A procedure that makes no event and stops, or is over. -/
theorem Idles.here {r : Res α} (h : r.state.rst = s.rst) (same : Untouched s r.state) : Idles s r := ⟨h.trans hr, same⟩

theorem busyLoop_idles (c : Cfg) (n : Nat) : Idles s (busyLoop c n s) := by
  cases n with
  | zero => exact .here hr rfl (.refl s)
  | succ n => exact .thenEvent hr

theorem busyWait_idles (c : Cfg) : Idles s (busyWait c s) :=
  (busyLoop_idles (s := s.startCount) hr c s.params.nBusy).after

theorem runCommand_idles (c : Cfg) (w arg : Word) : Idles s (runCommand c w arg s) :=
  Idles.andThen (r := busyWait c _)
    (busyWait_idles (s := (s.setCommand w _).setFsm .busyWait) hr c).after fun t ht => by
    rw [issue, regWrite, tick_asserted (s := t.setFsm .issue) ht]
    exact ⟨ht, .refl t⟩

theorem extractResponse_idles (c : Cfg) (w : Word) : Idles s (extractResponse c w s) := by
  unfold extractResponse
  split
  · exact .here hr rfl (.refl s)
  · exact .thenEvent hr
  · exact .thenEvent hr

theorem handshake_idles (c : Cfg) : Idles s (handshake c s) := (Idles.thenEvent (s := s.startCount) hr).after

theorem setClockSeq_idles (c : Cfg) (d : Nat) : Idles s (setClockSeq c d s) :=
  (busyWait_idles hr c).andThen fun _ ht => .thenEvent ht

theorem programWidth_idles (c : Cfg) (width : Nat) (code : Word) : Idles s (programWidth c width code s) :=
  .thenEvent hr

theorem forRange_idles {body : Nat → State → Res Unit} (h : ∀ i t, t.rst = some 0 → Idles t (body i t)) (i n : Nat) :
    Idles s (forRange body i n s) := by
  induction n generalizing i s with
  | zero => exact .here hr rfl (.refl s)
  | succ n ih => exact (h i s hr).andThen fun t ht => ih ht (i + 1)

theorem buildChain_idles (c : Cfg) (buf size chunk : Nat) : Idles s (buildChain c buf size chunk s) := by
  unfold buildChain
  split_ifs
  · exact (forRange_idles hr (fun _ _ ht => .thenEvent ht) 0 _).andThen fun _ ht => .thenEvent ht
  · exact .here hr rfl (.refl s)

theorem runPrepare_idles (c : Cfg) (buf size : Nat) : Idles s (runPrepare c buf size s) := .thenEvent hr

theorem drain_idles (c : Cfg) (buf n : Nat) : Idles s (forRange (drainWord c buf) 0 n s) :=
  forRange_idles hr (fun _ _ ht => .thenEvent ht) 0 n

omit hr

theorem Idles.ok {t : State} (x : α) (ht : t.rst = some 0) : Idles t (.ok x t) := .here ht rfl (.refl t)

theorem Idles.value {u : State} {r : Res α} {f : α → DWord} (h : Idles u r)
    (hu : Untouched s u := by exact ⟨rfl, rfl, rfl⟩) :
    Ends (Untouched s) (Machine.endOp (r.bind fun x t => .ok (f x) t)) :=
  ((h.bind fun _ _ ht => .ok _ ht).after hu).endOp

theorem raise_untouched {u : State} (h : u.rst = some 0) (e : Err)
    (hu : Untouched s u := by exact ⟨rfl, rfl, rfl⟩) : Ends (Untouched s) (raiseError e u) :=
  (Idles.after (r := .stop (.raised e) u) (.here h rfl (.refl u)) hu).endOp

theorem finish_untouched {u : State} (h : u.rst = some 0) (v : DWord)
    (hu : Untouched s u := by exact ⟨rfl, rfl, rfl⟩) : Ends (Untouched s) (finish v u) :=
  ((Idles.ok v h).after hu).endOp

include hr

theorem withCfg_untouched {f : Cfg → Out} (h : Ends (Untouched s) (f s.cfg.val)) : Ends (Untouched s) (withCfg s f) :=
  Ends.withCfg (raise_untouched hr .configError) h

/-- An operation accepted as `rst` is asserted touches nothing. -/
theorem exec_untouched {i : Instr} (hb : i.agent = .block) : Ends (Untouched s) (exec i s) := by
  have inExec : (s.setFsm .exec).rst = some 0 := hr
  cases i
  case init =>
    show Ends _ (execInit s)
    unfold execInit
    dsimp only
    split_ifs
    · exact raise_untouched inExec _
    · split
      · exact Idles.value ((setClockSeq_idles (s := (s.setFsm .exec).setCfg _) hr _ _).andThen
          fun _ ht => programWidth_idles ht _ _ _)
      · exact raise_untouched inExec _
    · exact raise_untouched inExec _
  case encode =>
    refine withCfg_untouched hr ?_
    split
    · exact raise_untouched hr _
    · exact finish_untouched hr _
  case sendcmd =>
    refine withCfg_untouched hr (.withA ?_)
    dsimp only
    split
    · exact raise_untouched (u := s.setResponse .zero _) hr _
    · exact (runCommand_idles (s := s.setResponse .zero _) hr _ _ _).value
  case classify =>
    refine Ends.withA ?_
    dsimp only
    split_ifs
    · exact raise_untouched hr _
    · exact finish_untouched hr _
  case extract => exact withCfg_untouched hr (.withA (extractResponse_idles inExec _ _).value)
  case updclk => exact withCfg_untouched hr (handshake_idles inExec _).value
  case setclk =>
    refine withCfg_untouched hr (.withA ?_)
    split
    · exact raise_untouched inExec _
    · exact (setClockSeq_idles inExec _ _).value
  case setwidth =>
    refine withCfg_untouched hr (.withA ?_)
    dsimp only
    split
    · exact raise_untouched inExec _
    · exact (programWidth_idles inExec _ _ _).value
  case cfgbus =>
    refine withCfg_untouched hr (.withA (.withB ?_))
    dsimp only
    split
    · exact raise_untouched inExec _
    split
    · exact raise_untouched inExec _
    · exact ((setClockSeq_idles inExec _ _).andThen fun _ ht =>
        (programWidth_idles ht _ _ _).bind fun _ _ hu => .ok _ hu).after.endOp
  case build => exact withCfg_untouched hr (.withA (.withB (.withC (buildChain_idles inExec _ _ _ _).value)))
  case prepare =>
    refine withCfg_untouched hr (.withB (.withC ?_))
    split
    · exact raise_untouched inExec _
    · exact (runPrepare_idles inExec _ _ _).value
  case read =>
    refine withCfg_untouched hr (.withA (.withB ?_))
    dsimp only
    split_ifs
    · exact finish_untouched inExec _
    · exact raise_untouched inExec _
    · exact raise_untouched inExec _
    · exact (drain_idles inExec _ _ _).value
  case write =>
    refine withCfg_untouched hr ?_
    dsimp only
    split_ifs
    · exact finish_untouched inExec _
    · exact raise_untouched inExec _
  all_goals cases hb

end

/-! ## A reset, wherever it comes -/

/-- A reset that is coming abandons the operation after its events, or has come nearer by those it made. -/
theorem exec_counts {i : Instr} {s t : State} {n : Nat} (hb : i.agent = .block) (hr : s.rst = some n)
    (next : exec i s = .next t) :
    (BlockReset t ∧ t.rst = none ∧ t.hist.length = s.hist.length + n) ∨
    (∃ k, 1 ≤ k ∧ t.rst = some k ∧ t.hist.length + k = s.hist.length + n ∧ t.resp ≠ none) := by
  rcases exec_performs hb s with ⟨-, e, fault⟩ | ⟨r, e, p⟩
  · exact nomatch fault.symm.trans next
  have ends := e.symm.trans next
  obtain ⟨k, left, counted⟩ := p.counts n hr
  rw [← endOp_hist ends] at counted
  rcases p.ends hb ends with ⟨now, rfl⟩ | ⟨going, rst, answered, -⟩
  · obtain rfl : k = 0 := Option.some.inj (left.symm.trans now)
    exact .inl ⟨resetEvent_reset _, rfl, counted⟩
  · have later : k ≠ 0 := fun zero => going (zero ▸ left)
    exact .inr ⟨k, Nat.pos_of_ne_zero later, rst.trans left, counted, answered⟩

/-- Settles O11: a reset between operations is the reset event; inside one it is counted; with the acceptance it
finds nothing touched. -/
theorem resetTakesEffectInEveryState : Obligations.ResetTakesEffectInEveryState := by
  unfold Obligations.ResetTakesEffectInEveryState
  refine ⟨fun s block hr => ?_, fun i s t n hb hr next => exec_counts hb hr next,
    fun s q rest i block hr idle hq decodes h => ?_⟩
  · exact ⟨_, step_reset block hr, resetEvent_reset _, rfl, (moved_keeps s).trans (resetEvent_keeps (moved s))⟩
  · have hm := moved_inv h
    have hb := decodeRequest_agent decodes
    have accepts := step_request block (hr ▸ nofun) idle hq
    rw [decodes] at accepts
    have now : (accept q rest (moved s)).rst = some 0 := by simp [hr]
    obtain ⟨r, ends, p⟩ := exec_fed hb (accept_fed hm.config q rest)
    obtain ⟨t, next⟩ := endOp_isNext (p.keep.response (accept_inv hm q rest).response)
    have runs := ends.trans next
    obtain ⟨hist, mem, ctl⟩ := exec_untouched now hb t runs
    refine ⟨t, accepts.trans runs, ?_, hist, mem, ctl⟩
    rcases exec_counts hb now runs with ⟨reset, -⟩ | ⟨k, later, -, counted, -⟩
    · exact reset
    · rw [hist] at counted
      omega

end Sys2Proof.Machine
end

section
/-! PROOFS. The statements about command dispatch (41_command_dispatch.md) and ENCODE (40_command_encoder.md): issue, the
completion poll, and SENDCMD's ends, each put together from what its stages do. -/

namespace Sys2Proof.Machine

/-! ## Issue and the completion poll -/

/-- Settles O22, by what `issue` ran. -/
theorem issueMakesFourEvents : Obligations.IssueMakesFourEvents := by
  unfold Obligations.IssueMakesFourEvents
  intro c arg w s hr
  obtain ⟨t, issues, ran, pending, cmdarg, cmd, started⟩ := issue_ran c arg w hr
  refine ⟨t, issues, ran.hist, cmdarg, cmd, pending, fun starts => ?_, ran.keeps⟩
  rw [startedAfter, if_pos starts] at started
  exact ⟨_, started, rfl, rfl, rfl⟩

/-- Settles O24: the poll ends, fails or runs out as its three lemmas say. -/
theorem completionPollFollowsItsChecks : Obligations.CompletionPollFollowsItsChecks := by
  unfold Obligations.CompletionPollFollowsItsChecks
  refine ⟨fun c data s n hr ends => ?_, fun c data s n hr fails => ?_, fun c data s hr quiet => ?_⟩
  · obtain ⟨t, returns, ran, count, done, dto⟩ := pollCompletion_ends c hr ends
    exact ⟨t, returns, ran.hist, count, done, dto, ran.frame⟩
  · obtain ⟨t, raises, ran, -, status⟩ := pollCompletion_fails c hr fails
    refine ⟨t, raises, ?_, status, ran.frame.mono (by decide)⟩
    rw [ran.hist, List.append_assoc]
  · obtain ⟨t, raises, ran, count⟩ := pollCompletion_runs_out c hr quiet
    exact ⟨t, raises, ran.hist, count, ran.frame⟩

/-! ## ENCODE and EXTRACT -/

theorem exec_encode {c : Cfg} {s : State} (ready : Ready c s) (idx : Nat) (shape : Shape) :
    exec (.encode idx shape) s = match encodeCommand s.params idx shape c.dmaCapable with
      | none => raiseError .notSupported s
      | some w => finish (w.setWidth 64) s := by
  change execEncode idx shape s = _
  rw [execEncode, withCfg_ready ready] <;> rfl

/-- Settles O32. -/
theorem encodeAnswersTheWord : Obligations.EncodeAnswersTheWord := by
  unfold Obligations.EncodeAnswersTheWord
  intro idx shape c s w ready word
  rw [exec_encode ready, word]
  exact finish_known ready.response ready.going _

theorem exec_extract {c : Cfg} {s : State} {a : DWord} (ready : Ready c s) (ha : s.reqA = .holds a) :
    exec .extract s = endOp ((extractResponse c (low32 a) (s.setFsm .exec)).bind fun _ t => .ok 0 t) := by
  change execExtract s = _
  rw [execExtract, inExec_ready ready, withA_holds (s := s.setFsm .exec) ha]

/-- The words the port must drive are known once they have been read (10_state.md R55). -/
theorem respLatches_known {s t : State} {off : Nat} (hc : t.rspWords = respLatches s off t.rspCount) :
    ResponseKnown t := by
  intro k below
  rw [hc]
  cases e : t.rspCount with
  | zero => exact absurd below (by simp [e, RespCount.toNat])
  | one =>
    obtain rfl : k = 0 := by
      rw [e] at below
      exact Fin.ext (Nat.lt_one_iff.mp below)
    rfl
  | four => fin_cases k <;> rfl

theorem respLatches_later {s t : State} {off : Nat} (h : Drew off s t) (hw : t.rspWords = s.rspWords) (n : RespCount) :
    respLatches t 0 n = respLatches s off n := by
  cases n <;> simp only [respLatches, h.drawAt, hw, Nat.zero_add, Nat.add_zero]

/-- Settles O31: the count by the two flags, the words by what the extractor ran. -/
theorem extractReadsTheResponseWords : Obligations.ExtractReadsTheResponseWords := by
  unfold Obligations.ExtractReadsTheResponseWords
  refine ⟨fun b w => ?_, fun n => by cases n <;> rfl, fun c s a ready ha => ?_⟩
  · simp only [respCount, anySet_bit]
  · obtain ⟨t, extracts, ran, count, words⟩ := extractResponse_ran c (low32 a) ready.inExec.noReset
    have start : Ran [.fsm, .trace] 0 [] s (s.setFsm .exec) := .latch (setFsm_keeps .exec s)
    have whole := (start.sub (qs := [.fsm, .trace, .rspCount, .rspWords])).trans ran.sub
    have noReset : t.rst = none := (ran.same .rst).trans ready.noReset
    have trace : t.trace = s.trace ++ [.exec] := ran.same .trace
    obtain ⟨u, ends, fsm, drives, hist, utrace, keeps, frame⟩ :=
      finish_end 0 whole (respLatches_known (count ▸ words)) (noReset ▸ nofun) trace
    refine ⟨u, ?_, fsm, drives, (keeps .rspCount (by decide)).trans count, ?_, ?_, utrace, ?_⟩
    · rw [exec_extract ready ha, extracts, bind_ok, endOp_ok, ends]
    · exact (keeps .rspWords (by decide)).trans words
    · exact hist
    · exact frame.frame.mono (by decide)

/-! ## SENDCMD -/

theorem exec_sendcmd {c : Cfg} {s : State} {a : DWord} (ready : Ready c s) (ha : s.reqA = .holds a) (idx : Nat)
    (shape : Shape) (dir : Dir) : exec (.sendcmd idx shape dir) s =
      match encodeCommand s.params idx shape c.dmaCapable with
      | none => raiseError .notSupported (s.setResponse .zero s.rspWords)
      | some w => endOp ((runCommand c w (low32 a) (s.setResponse .zero s.rspWords)).bind fun _ t => .ok 0 t) := by
  change execSendcmd idx shape dir s = _
  rw [execSendcmd, withCfg_ready ready, withA_holds ha]
  rfl

section
variable {idx : Nat} {shape : Shape} {dir : Dir} {c : Cfg} {s : State} {a : DWord} {w : Word} {m n : Nat}
  (ready : Ready c s) (ha : s.reqA = .holds a)
include ready ha

/-- A WRITE-class index has no word in polled mode (40_command_encoder.md R163). -/
theorem sendcmd_noWord (word : encodeCommand s.params idx shape c.dmaCapable = none) :
    exec (.sendcmd idx shape dir) s = .next (answered .notSupported 0 0 (s.setResponse .zero s.rspWords)) := by
  rw [exec_sendcmd ready ha, word]
  exact raiseError_known (s := s.setResponse .zero s.rspWords) (setResponse_zero_known _ _) ready.going nofun

variable (word : encodeCommand s.params idx shape c.dmaCapable = some w)
include word

/-- The busy wait runs out before any command is issued. -/
theorem sendcmd_busyRunsOut (busy : BusyRunsOut s 0) :
    ∃ t, exec (.sendcmd idx shape dir) s = .next t ∧ t.fsm = .halted ∧ t.halted = true ∧
      Drives t .fatalTimeout 0 0 ∧ t.rspCount = .zero ∧
      t.hist = s.hist ++ statusReads c s 0 s.params.nBusy ∧
      t.trace = s.trace ++ [.busyWait, .halted] ∧ KeepsAllBut (.halted :: sendcmdStopParts) s t := by
  have start := sendStart_ran w s
  have startParams : (sendStart w s).params = s.params := start.same .params
  obtain ⟨t, raises, ran, -⟩ := busyWait_runs_out c (s := sendStart w s) ready.noReset
    (busy.later start.drew startParams)
  have whole := start.trans (ran.sub (qs := sendRunParts))
  rw [statusReads_later start.drew, startParams] at whole
  have noReset : t.rst = none := (whole.same .rst).trans ready.noReset
  have count : t.rspCount = .zero := ran.same .rspCount
  have trace : t.trace = s.trace ++ [.busyWait] := ran.same .trace
  have known : ResponseKnown t := fun k below => absurd below (by simp [count, RespCount.toNat])
  obtain ⟨u, ends, fsm, halted, drives, hist, utrace, keeps, frame⟩ := halt_end whole known (noReset ▸ nofun) trace
  refine ⟨u, ?_, fsm, halted, drives, (keeps .rspCount (by decide)).trans count, hist, utrace,
    frame.frame.mono (by decide)⟩
  have runs : runCommand c w (low32 a) (s.setResponse .zero s.rspWords) = .stop (.raised .fatalTimeout) t := by
    rw [runCommand]
    exact congrArg (Res.andThen · _) raises
  rw [exec_sendcmd ready ha, word]
  dsimp only
  rw [runs, bind_stop, endOp_raised, ends]

/-- SENDCMD up to its completion poll. -/
theorem sendcmd_issued (busy : BusyEnds s 0 m) : ∃ t,
    Ran sendRunParts (m + 1) (statusReads c s 0 (m + 1) ++ issueEvents c (low32 a) w) s t ∧
      t.rst = none ∧ t.rspCount = .zero ∧ t.rspWords = s.rspWords ∧
      t.ctl.started = startedAfter c (low32 a) w s ∧ t.cmdWord = .holds w ∧
      t.cmdData = .holds (dataCarrying s.params.cmdBits w) ∧ t.ctl.regs.cmdarg = .holds (low32 a) ∧
      t.ctl.regs.cmd = .holds w ∧ t.trace = s.trace ++ [.busyWait, .issue, .pollCompletion] ∧
      exec (.sendcmd idx shape dir) s = endOp (((pollCompletion c (dataCarrying s.params.cmdBits w) t).andThen fun u =>
        extractResponse c w ((commandOver c (dataCarrying s.params.cmdBits w) u).setFsm .readResponse)).bind
          fun _ t => .ok 0 t) := by
  obtain ⟨t, ran, count, words, started, cmdWord, cmdData, cmdarg, cmd, trace, runs⟩ :=
    runCommand_issued c w (low32 a) ready.noReset busy
  refine ⟨t, ran, (ran.same .rst).trans ready.noReset, count, words, started, cmdWord, cmdData, cmdarg, cmd, trace, ?_⟩
  rw [exec_sendcmd ready ha, word]
  dsimp only
  rw [runs]

/-- The completion poll runs out. -/
theorem sendcmd_pollRunsOut (busy : BusyEnds s 0 m)
    (quiet : PollQuiet s (m + 1) (dataCarrying s.params.cmdBits w) s.params.nPoll) :
    ∃ t, exec (.sendcmd idx shape dir) s = .next t ∧ t.fsm = .halted ∧ t.halted = true ∧
      Drives t .fatalTimeout 0 0 ∧ t.rspCount = .zero ∧
      t.hist = s.hist ++ (statusReads c s 0 (m + 1) ++ issueEvents c (low32 a) w ++
        pollEvents c s (m + 1) (dataCarrying s.params.cmdBits w) s.params.nPoll) ∧
      t.trace = s.trace ++ [.busyWait, .issue, .pollCompletion, .halted] ∧
      KeepsAllBut (.halted :: sendcmdStopParts) s t := by
  obtain ⟨t, ran, noReset, count, -, -, -, -, -, -, trace, runs⟩ :=
    sendcmd_issued (dir := dir) ready ha word busy
  have params : t.params = s.params := ran.same .params
  have later : PollQuiet t 0 (dataCarrying s.params.cmdBits w) t.params.nPoll := by
    rw [params]
    exact quiet.later ran.drew params
  obtain ⟨u, raises, polled, -⟩ := pollCompletion_runs_out c noReset later
  have whole := ran.trans (polled.sub (qs := sendRunParts))
  rw [params, pollEvents_later ran.drew params] at whole
  have ucount : u.rspCount = .zero := (polled.same .rspCount).trans count
  have known : ResponseKnown u := fun k below => absurd below (by simp [ucount, RespCount.toNat])
  obtain ⟨v, ends, fsm, halted, drives, hist, vtrace, keeps, frame⟩ := halt_end whole known
    ((whole.same .rst : u.rst = s.rst) ▸ ready.going) ((polled.same .trace).trans trace)
  refine ⟨v, ?_, fsm, halted, drives, (keeps .rspCount (by decide)).trans ucount, hist, vtrace,
    frame.frame.mono (by decide)⟩
  rw [runs, raises, andThen_stop, bind_stop, endOp_raised, ends]

/-- The completion poll meets an error bit (41_command_dispatch.md R210). -/
theorem sendcmd_pollFails (busy : BusyEnds s 0 m)
    (fails : PollFails s (m + 1) (dataCarrying s.params.cmdBits w) n) :
    ∃ t, exec (.sendcmd idx shape dir) s = .next t ∧ t.fsm = .idle ∧
      Drives t .hardwareError 0 (drawAt s (m + 1 + n)) ∧ t.errStatus = .holds (drawAt s (m + 1 + n)) ∧
      t.rspCount = .zero ∧ t.rspWords = s.rspWords ∧
      t.hist = s.hist ++ (statusReads c s 0 (m + 1) ++ issueEvents c (low32 a) w ++
        pollEvents c s (m + 1) (dataCarrying s.params.cmdBits w) n ++ pollRead c s (m + 1) n) ∧
      t.trace = s.trace ++ [.busyWait, .issue, .pollCompletion, .idle] ∧
      KeepsAllBut (.errStatus :: sendcmdStopParts) s t := by
  obtain ⟨t, ran, noReset, count, words, -, -, -, -, -, trace, runs⟩ :=
    sendcmd_issued (dir := dir) ready ha word busy
  have params : t.params = s.params := ran.same .params
  obtain ⟨u, raises, polled, -, status⟩ := pollCompletion_fails c noReset (fails.later ran.drew params)
  have whole := (ran.sub (qs := .errStatus :: sendRunParts)).trans polled.sub
  have draw : drawAt t n = drawAt s (m + 1 + n) := ran.drawAt n
  have read : pollRead c t 0 n = pollRead c s (m + 1) n := by rw [pollRead, pollRead, params, Nat.zero_add, draw]
  rw [draw] at status raises
  rw [pollEvents_later ran.drew params, read, ← List.append_assoc] at whole
  have ucount : u.rspCount = .zero := (polled.same .rspCount).trans count
  have known : ResponseKnown u := fun k below => absurd below (by simp [ucount, RespCount.toNat])
  obtain ⟨v, ends, fsm, drives, hist, vtrace, keeps, frame⟩ :=
    raise_end (e := .hardwareError (drawAt s (m + 1 + n)) 0) nofun whole known
      ((whole.same .rst : u.rst = s.rst) ▸ ready.going) ((polled.same .trace).trans trace)
  refine ⟨v, ?_, fsm, drives, (keeps .errStatus (by decide)).trans status, (keeps .rspCount (by decide)).trans ucount,
    (keeps .rspWords (by decide)).trans ((polled.same .rspWords).trans words), hist, vtrace,
    frame.frame.mono (by decide)⟩
  rw [runs, raises, andThen_stop, bind_stop, endOp_raised, ends]

end

/-- Settles O26. -/
theorem sendcmdReportsHardwareError : Obligations.SendcmdReportsHardwareError := by
  unfold Obligations.SendcmdReportsHardwareError
  exact fun _ _ _ _ _ _ _ _ _ ready ha word busy fails => sendcmd_pollFails ready ha word busy fails

/-- Settles O27: the busy wait or the completion poll runs out. -/
theorem sendcmdTimesOut : Obligations.SendcmdTimesOut := by
  unfold Obligations.SendcmdTimesOut
  exact fun _ _ _ _ _ _ _ ready ha word =>
    ⟨sendcmd_busyRunsOut ready ha word, fun _ busy quiet => sendcmd_pollRunsOut ready ha word busy quiet⟩

/-- SENDCMD whose completion poll ends, up to that end (41_command_dispatch.md R203). -/
theorem sendcmd_polled {idx : Nat} {shape : Shape} {dir : Dir} {c : Cfg} {s : State} {a : DWord} {w : Word}
    {m n : Nat} (ready : Ready c s) (ha : s.reqA = .holds a)
    (word : encodeCommand s.params idx shape c.dmaCapable = some w) (busy : BusyEnds s 0 m)
    (polls : PollEnds s (m + 1) (dataCarrying s.params.cmdBits w) n) : ∃ u,
    Ran sendRunParts (m + n + 2) (statusReads c s 0 (m + 1) ++ issueEvents c (low32 a) w ++
        pollEvents c s (m + 1) (dataCarrying s.params.cmdBits w) (n + 1)) s u ∧
      u.rspWords = s.rspWords ∧ u.ctl.started = startedAfter c (low32 a) w s ∧ u.cmdWord = .holds w ∧
      u.cmdData = .holds (dataCarrying s.params.cmdBits w) ∧ u.cnt = .holds (BitVec.ofNat 32 (n + 1)) ∧
      u.pollCmdDone = .holds true ∧ u.pollDto = .holds (dataCarrying s.params.cmdBits w) ∧
      u.ctl.regs.cmdarg = .holds (low32 a) ∧ u.ctl.regs.cmd = .holds w ∧
      u.trace = s.trace ++ [.busyWait, .issue, .pollCompletion] ∧
      exec (.sendcmd idx shape dir) s = endOp ((extractResponse c w
        ((commandOver c (dataCarrying s.params.cmdBits w) u).setFsm .readResponse)).bind fun _ t => .ok 0 t) := by
  obtain ⟨t, ran, noReset, -, words, started, cmdWord, cmdData, cmdarg, cmd, trace, runs⟩ :=
    sendcmd_issued (dir := dir) ready ha word busy
  have params : t.params = s.params := ran.same .params
  obtain ⟨u, returns, polled, ucnt, done, dto⟩ := pollCompletion_ends c noReset (polls.later ran.drew params)
  have whole := ran.trans (polled.sub (qs := sendRunParts))
  rw [pollEvents_later ran.drew params, show m + 1 + (n + 1) = m + n + 2 by omega] at whole
  refine ⟨u, whole, (polled.same .rspWords).trans words, (polled.same .started).trans started,
    (polled.same .cmdWord).trans cmdWord,
    (polled.same .cmdData).trans cmdData, ucnt, done, dto, (polled.same .regCmdarg).trans cmdarg,
    (polled.same .regCmd).trans cmd, (polled.same .trace).trans trace, ?_⟩
  rw [runs, returns, andThen_ok]

/-- Reading the response words and finishing, once the command is over (41_command_dispatch.md R206). -/
theorem extract_finishes (c : Cfg) (w : Word) {x : State} (hr : x.rst = none) : ∃ t,
    endOp ((extractResponse c w (x.setFsm .readResponse)).bind fun _ t => .ok 0 t) = .next t ∧
      t.fsm = .idle ∧ Drives t .ok 0 0 ∧ t.rspCount = respCount x.params.cmdBits w ∧
      t.rspWords = respLatches x 0 (respCount x.params.cmdBits w) ∧
      t.hist = x.hist ++ respReads c x 0 (respCount x.params.cmdBits w) ∧
      t.trace = x.trace ++ [.readResponse, .idle] ∧
      KeepsAllBut (endParts ++ drawParts ++ [.rspCount, .rspWords]) x t := by
  obtain ⟨y, extracts, ran, count, words⟩ :=
    extractResponse_ran c w (s := x.setFsm .readResponse) hr
  have start : Ran [.fsm, .trace] 0 [] x (x.setFsm .readResponse) := .latch (setFsm_keeps .readResponse x)
  have whole := (start.sub (qs := [.fsm, .trace, .rspCount, .rspWords])).trans ran.sub
  have noReset : y.rst = none := (ran.same .rst).trans hr
  obtain ⟨t, ends, fsm, drives, hist, trace, keeps, frame⟩ :=
    finish_end 0 whole (respLatches_known (count ▸ words)) (noReset ▸ nofun)
      (ran.same .trace : y.trace = x.trace ++ [.readResponse])
  refine ⟨t, ?_, fsm, drives, (keeps .rspCount (by decide)).trans count, (keeps .rspWords (by decide)).trans words,
    hist, trace, frame.frame.mono (by decide)⟩
  rw [extracts, bind_ok, endOp_ok, ends]

/-- Settles O25: the command runs to the end of its poll, is over, and its response words are read. -/
theorem sendcmdCompletes : Obligations.SendcmdCompletes := by
  unfold Obligations.SendcmdCompletes
  intro idx shape dir c s a w m n ready ha word busy polls data count
  obtain ⟨u, ran, words, started, cmdWord, cmdData, cnt, done, dto, cmdarg, cmd, utrace, runs⟩ :=
    sendcmd_polled (dir := dir) ready ha word busy polls
  have beside : KeepsAllBut besideParts u (commandOver c data u) := commandOver_beside c data u
  have after (p : Part) (hp : p ∉ besideParts := by decide) : p.same u (commandOver c data u) := beside p hp
  have params : (commandOver c data u).params = s.params := (after .params).trans (ran.same .params)
  have noReset : (commandOver c data u).rst = none := (after .rst).trans ((ran.same .rst).trans ready.noReset)
  have drew : Drew (m + n + 2) s (commandOver c data u) :=
    ⟨(after .answers).trans ran.drew.answers, (after .draws).trans ran.drew.draws⟩
  obtain ⟨t, ends, fsm, drives, tcount, twords, hist, trace, frame⟩ := extract_finishes c w noReset
  have last (p : Part) (hp : p ∉ besideParts ++ (endParts ++ drawParts ++ [.rspCount, .rspWords]) := by decide) :
      p.same u t := (beside.trans frame) p hp
  have uframe : KeepsAllBut sendcmdStopParts s u := ran.frame.mono (by decide)
  rw [params] at tcount twords hist
  rw [respLatches_later drew ((after .rspWords).trans words)] at twords
  rw [respReads_later drew, show (commandOver c data u).hist = _ from (after .hist).trans ran.hist,
    List.append_assoc] at hist
  rw [show (commandOver c data u).trace = _ from (after .trace).trans utrace, List.append_assoc] at trace
  refine ⟨u, t, runs.trans ends, fsm, drives, (last .cmdWord).trans cmdWord, (last .cmdData).trans cmdData,
    (last .cnt).trans cnt, (last .pollCmdDone).trans done, (last .pollDto).trans dto, tcount, twords,
    (last .regCmdarg).trans cmdarg, (last .regCmd).trans cmd, hist, trace, ?_, fun hdata hdma => ?_, uframe,
    fun starts => ?_, frame, ?_⟩
  · exact (frame .started (by decide)).trans (commandOver_started c data u)
  · exact (frame .dmaCur (by decide)).trans (commandOver_cur c (by rw [hdata, hdma]; rfl))
  · rw [startedAfter, if_pos starts] at started
    exact ⟨_, started, rfl, rfl, rfl, rfl⟩
  · have kept := uframe.trans ((commandOver_keeps c data u).trans frame)
    split_ifs at kept ⊢ <;> exact kept.mono (by decide)

/-! ## The paths of SENDCMD -/

/-- The busy wait returns at a read of its budget or runs out. -/
theorem busyWait_cases (s : State) (off : Nat) : (∃ m, BusyEnds s off m) ∨ BusyRunsOut s off := by
  by_cases h : ∃ m, m < s.params.nBusy ∧ isBusy s.params (drawAt s (off + m)) = false
  · classical
    obtain ⟨within, idle⟩ := Nat.find_spec h
    refine .inl ⟨Nat.find h, within, fun k hk => ?_, idle⟩
    by_contra notBusy
    exact Nat.find_min h hk ⟨hk.trans within, Bool.eq_false_iff.mpr notBusy⟩
  · refine .inr fun k hk => ?_
    by_contra notBusy
    exact h ⟨k, hk, Bool.eq_false_iff.mpr notBusy⟩

/-- The completion poll ends at a read, meets an error at one, or runs out. -/
theorem completionPoll_cases (s : State) (off : Nat) (data : Bool) :
    (∃ n, PollEnds s off data n) ∨ (∃ n, PollFails s off data n) ∨ PollQuiet s off data s.params.nPoll := by
  by_cases h : ∃ n, n < s.params.nPoll ∧ ¬ (isError s.params.intBits (drawAt s (off + n)) = false ∧
      pollComplete s off data (n + 1) = false)
  · classical
    obtain ⟨within, loud⟩ := Nat.find_spec h
    have quiet : PollQuiet s off data (Nat.find h) := fun k hk => by
      by_contra loud
      exact Nat.find_min h hk ⟨hk.trans within, loud⟩
    cases e : isError s.params.intBits (drawAt s (off + Nat.find h)) with
    | true => exact .inr (.inl ⟨_, within, quiet, e⟩)
    | false => exact .inl ⟨_, within, quiet, e, Bool.eq_true_of_not_eq_false fun incomplete => loud ⟨e, incomplete⟩⟩
  · refine .inr (.inr fun k hk => ?_)
    by_contra loud
    exact h ⟨k, hk, loud⟩

/-- Settles O28: the answers decide which of the ends SENDCMD takes. -/
theorem sendcmdTakesATransitionPath : Obligations.SendcmdTakesATransitionPath := by
  unfold Obligations.SendcmdTakesATransitionPath
  intro idx shape dir c s a ready ha
  cases word : encodeCommand s.params idx shape c.dmaCapable with
  | none => exact ⟨_, .notSupported, 0, 0, [.idle], sendcmd_noWord ready ha word, rfl, rfl, .inl ⟨rfl, rfl⟩⟩
  | some w =>
    rcases busyWait_cases s 0 with ⟨m, busy⟩ | busy
    · rcases completionPoll_cases s (m + 1) (dataCarrying s.params.cmdBits w) with ⟨n, ends⟩ | ⟨n, fails⟩ | quiet
      · obtain ⟨-, t, e, -, drives, -, -, -, -, -, -, -, -, -, -, trace, -⟩ :=
          sendcmdCompletes idx shape dir c s a w m n ready ha word busy ends
        exact ⟨t, _, _, _, _, e, drives, trace, .inr (.inl ⟨rfl, rfl⟩)⟩
      · obtain ⟨t, e, -, drives, -, -, -, -, trace, -⟩ := sendcmd_pollFails (dir := dir) ready ha word busy fails
        exact ⟨t, _, _, _, _, e, drives, trace, .inr (.inr (.inl ⟨rfl, rfl⟩))⟩
      · obtain ⟨t, e, -, -, drives, -, -, trace, -⟩ := sendcmd_pollRunsOut (dir := dir) ready ha word busy quiet
        exact ⟨t, _, _, _, _, e, drives, trace, .inr (.inr (.inr ⟨rfl, .inr rfl⟩))⟩
    · obtain ⟨t, e, -, -, drives, -, -, trace, -⟩ := sendcmd_busyRunsOut (dir := dir) ready ha word busy
      exact ⟨t, _, _, _, _, e, drives, trace, .inr (.inr (.inr ⟨rfl, .inl rfl⟩))⟩

/-! ## Polled mode -/

theorem exec_write {c : Cfg} {s : State} (ready : Ready c s) : exec .write s =
    if c.dmaCapable then finish 0 (s.setFsm .exec) else raiseError .notSupported (s.setFsm .exec) := by
  change execWrite s = _
  rw [execWrite, inExec_ready ready]

/-- Settles O52. -/
theorem writeHasNoEffect : Obligations.WriteHasNoEffect := by
  unfold Obligations.WriteHasNoEffect
  intro c s ready
  have run := ready.inExec
  refine ⟨fun dma => ?_, fun polled => ?_⟩
  · rw [exec_write ready, if_pos dma]
    exact finish_known run.response run.going 0
  · rw [exec_write ready, if_neg (by simp [polled])]
    exact raiseError_known run.response run.going nofun

/-- Settles O29: a WRITE-class index has no word, so ENCODE and SENDCMD raise; WRITE raises whatever its index. -/
theorem writeInPolledModeIsNotSupported : Obligations.WriteInPolledModeIsNotSupported := by
  unfold Obligations.WriteInPolledModeIsNotSupported
  intro idx shape dir c s a ready ha polled
  refine ⟨(writeHasNoEffect c s ready).2 polled, fun writes => ?_⟩
  have noWord : encodeCommand s.params idx shape c.dmaCapable = none := by simp [encodeCommand, writes, polled]
  refine ⟨noWord, ?_, sendcmd_noWord ready ha noWord⟩
  rw [exec_encode ready, noWord]
  exact raiseError_known ready.response ready.going nofun

end Sys2Proof.Machine
end

section
/-! PROOFS. The statements about the clock controller (42_clock_controller.md) and INIT (44_facade_transfer.md R350): the
divisor, the handshake, and the operations that run the clock sequence. -/

namespace Sys2Proof.Machine

/-! ## The divisor -/

/-- The divisor is the least of its range that reaches the target (42_clock_controller.md R270). -/
theorem divisor_eq_some {src target d : Nat} : divisor src target = some d ↔
    target ≠ 0 ∧ 1 ≤ d ∧ d ≤ 255 ∧ src / (2 * d) ≤ target ∧ ∀ e, 1 ≤ e → e < d → target < src / (2 * e) := by
  unfold divisor
  split_ifs with zero
  · simp [zero]
  · simp only [List.find?_range'_eq_some, decide_eq_true_eq, List.mem_range'_1, Bool.not_eq_true',
      decide_eq_false_iff_not,
      Nat.not_le]
    constructor
    · rintro ⟨reaches, ⟨low, high⟩, least⟩
      exact ⟨zero, low, by omega, reaches, least⟩
    · rintro ⟨-, low, high, reaches, least⟩
      exact ⟨reaches, ⟨low, by omega⟩, least⟩

/-- A divisor reaches the target exactly from the closed form's value on. -/
theorem reaches_iff {src target d : Nat} (hd : 1 ≤ d) :
    src / (2 * d) ≤ target ↔ src / (2 * (target + 1)) < d := by
  rw [← Nat.lt_succ_iff, Nat.div_lt_iff_lt_mul (by omega), Nat.div_lt_iff_lt_mul (by omega)]
  constructor <;> intro h <;> nlinarith

/-- Settles O33: the least of the range, which the closed form names since the divisors that reach the target are those
above `src / (2 (target + 1))`. -/
theorem divisorIsTheLeast : Obligations.DivisorIsTheLeast := by
  unfold Obligations.DivisorIsTheLeast
  refine ⟨fun _ _ _ => divisor_eq_some, fun src target positive => ?_⟩
  split_ifs with inRange
  · refine divisor_eq_some.mpr ⟨by omega, Nat.le_add_left _ _, inRange,
      (reaches_iff (Nat.le_add_left _ _)).mpr (Nat.lt_succ_self _), fun e low below => ?_⟩
    rw [← Nat.not_le, reaches_iff low]
    omega
  · cases e : divisor src target with
    | none => rfl
    | some d =>
      obtain ⟨-, low, high, reaches, -⟩ := divisor_eq_some.mp e
      have := (reaches_iff low).mp reaches
      omega

/-! ## The handshake -/

/-- START is a bit of the word (30_encoding.md R121). -/
theorem CmdBits.start_lt {b : CmdBits} (h : b.wf) : b.start < 32 := (h.2 _ (CmdFlag.start.pos_mem b)).2

/-- Settles O34. -/
theorem handshakeRetriesAndIsBounded : Obligations.HandshakeRetriesAndIsBounded := by
  unfold Obligations.HandshakeRetriesAndIsBounded
  refine ⟨fun c s n hr ends => ?_, fun c s hr runsOut => ?_⟩
  · obtain ⟨t, returns, ran, count, started, clock⟩ := handshake_ends c hr ends
    exact ⟨t, returns, ran.hist, count, started, fun wf => clock (CmdBits.start_lt wf), ran.frame.mono (by decide)⟩
  · obtain ⟨t, raises, ran, count⟩ := handshake_runs_out c hr runsOut
    exact ⟨t, raises, ran.hist, count, ran.frame⟩

/-! ## An operation that runs in EXEC -/

/-- What an operation's start and its run do together, and that it can then drive its response. -/
theorem Ran.fromExec {ps qs : List Part} {k : Nat} {es : List Event} {s u t : State} (ran : Ran ps k es u t)
    (start : KeepsAllBut qs s u) (hr : u.rst = none) (known : ResponseKnown u) (trace : u.trace = s.trace ++ [.exec])
    (hq : Part.answers ∉ qs ∧ Part.draws ∉ qs ∧ Part.hist ∉ qs := by decide)
    (hp : ∀ p ∈ [Part.rst, .rspCount, .rspWords, .trace], p ∉ Part.answers :: .draws :: .hist :: ps := by decide) :
    Ran (qs ++ ps) k es s t ∧ ResponseKnown t ∧ t.rst ≠ some 0 ∧ t.trace = s.trace ++ [.exec] := by
  have same (p : Part) (m : p ∈ [Part.rst, .rspCount, .rspWords, .trace] := by decide) : p.same u t :=
    ran.same p (hp p m)
  have noReset : t.rst = none := (same .rst).trans hr
  have whole := ((Ran.latch start hq).sub (qs := qs ++ ps) (List.subset_append_left _ _)).trans
    (ran.sub (List.subset_append_right _ _))
  rw [Nat.zero_add, List.nil_append] at whole
  exact ⟨whole, known.of (same .rspCount) (same .rspWords), noReset ▸ nofun, (same .trace).trans trace⟩

/-- The same for a ready block that enters EXEC. -/
theorem Ran.inExec {ps : List Part} {k : Nat} {es : List Event} {c : Cfg} {s t : State} (ready : Ready c s)
    (ran : Ran ps k es (s.setFsm .exec) t)
    (hp : ∀ p ∈ [Part.rst, .rspCount, .rspWords, .trace], p ∉ Part.answers :: .draws :: .hist :: ps := by decide) :
    Ran ([.fsm, .trace] ++ ps) k es s t ∧ ResponseKnown t ∧ t.rst ≠ some 0 ∧ t.trace = s.trace ++ [.exec] :=
  ran.fromExec (setFsm_keeps .exec s) ready.noReset ready.response rfl (by decide) hp

/-! ## UPDCLK, SETCLK, SETWIDTH, CFGBUS -/

section
variable {c : Cfg} {s : State} {a b : DWord} (ready : Ready c s)
include ready

theorem exec_updclk : exec .updclk s = endOp ((handshake c (s.setFsm .exec)).bind fun _ t => .ok 0 t) := by
  change execUpdclk s = _
  rw [execUpdclk, inExec_ready ready]

variable (ha : s.reqA = .holds a)
include ha

theorem exec_setclk : exec .setclk s = match divisor c.srcClkHz.toNat (low32 a).toNat with
    | none => raiseError .configError (s.setFsm .exec)
    | some d => endOp ((setClockSeq c d (s.setFsm .exec)).bind fun _ t => .ok (BitVec.ofNat 64 d) t) := by
  change execSetclk s = _
  rw [execSetclk, inExec_ready ready, withA_holds (s := s.setFsm .exec) ha] <;> rfl

theorem exec_setwidth : exec .setwidth s = match ctypeCode (low32 a).toNat with
    | none => raiseError .configError (s.setFsm .exec)
    | some code => endOp ((programWidth c (low32 a).toNat code (s.setFsm .exec)).bind fun _ t => .ok 0 t) := by
  change execSetwidth s = _
  rw [execSetwidth, inExec_ready ready, withA_holds (s := s.setFsm .exec) ha] <;> rfl

theorem exec_cfgbus (hb : s.reqB = .holds b) : exec .cfgbus s = match ctypeCode (low32 b).toNat with
    | none => raiseError .configError (s.setFsm .exec)
    | some code => match divisor c.srcClkHz.toNat (low32 a).toNat with
      | none => raiseError .configError (s.setFsm .exec)
      | some d => endOp ((setClockSeq c d (s.setFsm .exec)).andThen fun s =>
          (programWidth c (low32 b).toNat code s).bind fun _ t => .ok (BitVec.ofNat 64 d) t) := by
  change execCfgbus s = _
  rw [execCfgbus, inExec_ready ready, withA_holds (s := s.setFsm .exec) ha,
    withB_holds (s := s.setFsm .exec) hb] <;> rfl

end

/-- Settles O35. -/
theorem updclkCompletes : Obligations.UpdclkCompletes := by
  unfold Obligations.UpdclkCompletes
  intro c s n ready ends
  obtain ⟨t, returns, ran, count, -, clock⟩ := handshake_ends c (s := s.setFsm .exec) ready.noReset ends
  obtain ⟨whole, known, going, trace⟩ := ran.inExec ready
  obtain ⟨u, finishes, fsm, drives, hist, utrace, keeps, frame⟩ := finish_end 0 whole known going trace
  refine ⟨u, ?_, fsm, drives, (keeps .cnt (by decide)).trans count, hist,
    fun wf => (keeps .clock (by decide)).trans (clock (CmdBits.start_lt wf)), utrace, frame.frame.mono (by decide)⟩
  rw [exec_updclk ready, returns, bind_ok, endOp_ok, finishes]

/-- Settles O36. -/
theorem setclkCompletes : Obligations.SetclkCompletes := by
  unfold Obligations.SetclkCompletes
  intro c s a d r ready ha hd ends
  obtain ⟨t, returns, ran, enabled, div, clkena, clkdiv, clksrc, -, -, clock⟩ :=
    setClockSeq_ends c d (s := s.setFsm .exec) ready.noReset ends
  obtain ⟨whole, known, going, trace⟩ := ran.inExec ready
  obtain ⟨u, finishes, fsm, drives, hist, utrace, keeps, frame⟩ :=
    finish_end (BitVec.ofNat 64 d) whole known going trace
  have same (p : Part) (hp : p ∉ [Part.fsm, .resp, .trace] := by decide) : p.same t u := keeps p hp
  refine ⟨u, ?_, fsm, drives, (same .clkDiv).trans div, (same .clkEnabled).trans enabled,
    (same .regClkdiv).trans clkdiv, (same .regClkena).trans clkena, (same .regClksrc).trans clksrc, hist,
    fun wf => (same .clock).trans (clock (CmdBits.start_lt wf)), utrace, frame.frame.mono (by decide)⟩
  rw [exec_setclk ready ha, hd]
  dsimp only
  rw [returns, bind_ok, endOp_ok, finishes]

/-- A width is 1, 4 or 8 exactly when it has its code (30_encoding.md R140). -/
theorem ctypeCode_eq_none {width : Nat} : ctypeCode width = none ↔ width ≠ 1 ∧ width ≠ 4 ∧ width ≠ 8 := by
  unfold ctypeCode
  split <;> simp_all

/-- Settles O37. -/
theorem setwidthWritesTheCode : Obligations.SetwidthWritesTheCode := by
  unfold Obligations.SetwidthWritesTheCode
  refine fun c s a ready ha => ⟨fun width code hw legal => ?_, fun h1 h4 h8 => ?_⟩
  · have hcode : ctypeCode width = some code := by
      rcases legal with ⟨rfl, rfl⟩ | ⟨rfl, rfl⟩ | ⟨rfl, rfl⟩ <;> rfl
    obtain ⟨t, writes, ran, ctype, width⟩ := programWidth_ran c (s := s.setFsm .exec) ready.noReset width code
    obtain ⟨whole, known, going, trace⟩ := ran.inExec ready
    obtain ⟨u, finishes, fsm, drives, hist, utrace, keeps, -⟩ := finish_end 0 whole known going trace
    refine ⟨u, ?_, fsm, drives, (keeps .busWidth (by decide)).trans width, (keeps .regCtype (by decide)).trans ctype,
      hist, utrace, (whole.keeps.trans keeps).mono (by decide)⟩
    rw [exec_setwidth ready ha, hw, hcode]
    dsimp only
    rw [writes, bind_ok, endOp_ok, finishes]
  · rw [exec_setwidth ready ha, ctypeCode_eq_none.mpr ⟨h1, h4, h8⟩]
    exact raiseError_known ready.inExec.response ready.inExec.going nofun

/-- Settles O40: the operation raises before its procedure starts. -/
theorem unreachableClockIsConfigError : Obligations.UnreachableClockIsConfigError := by
  unfold Obligations.UnreachableClockIsConfigError
  intro c s a b ready ha hb
  have raises : raiseError .configError (s.setFsm .exec) = .next (answered .configError 0 0 (s.setFsm .exec)) :=
    raiseError_known ready.inExec.response ready.inExec.going nofun
  refine ⟨fun unreachable => ⟨?_, ?_⟩, fun noWidth => ?_⟩
  · rw [exec_setclk ready ha, unreachable]
    exact raises
  · rw [exec_cfgbus ready ha hb]
    cases ctypeCode (low32 b).toNat with
    | none => exact raises
    | some code =>
      dsimp only
      rw [unreachable]
      exact raises
  · rw [exec_cfgbus ready ha hb, noWidth]
    exact raises

/-- A clock sequence that ends, and then the width (42_clock_controller.md R285). -/
theorem sequenceThenWidth_ends (c : Cfg) (d width : Nat) (code : Word) {s : State} {r : ClockReads}
    (hr : s.rst = none) (ends : ClockEnds s r) : ∃ t,
    ((setClockSeq c d s).andThen fun t => programWidth c width code t) = .ok () t ∧
      Ran (sequenceDoneParts ++ [.regCtype, .busWidth]) r.total
        (clockEvents c s d r ++ [.regWrite c.regBase .ctype code]) s t ∧
      t.clkEnabled = .holds true ∧ t.clkDiv = .holds (BitVec.ofNat 8 d) ∧ t.ctl.regs.clkena = .holds 1 ∧
      t.ctl.regs.clkdiv = .holds (BitVec.ofNat 32 d) ∧ t.ctl.regs.clksrc = .holds 0 ∧
      t.ctl.regs.ctype = .holds code ∧ t.busWidth = .holds (BitVec.ofNat 4 width) := by
  obtain ⟨t, returns, ran, enabled, div, clkena, clkdiv, clksrc, -, -, -⟩ := setClockSeq_ends c d hr ends
  obtain ⟨u, writes, wrote, ctype, uwidth⟩ := programWidth_ran c (s := t) ((ran.same .rst).trans hr) width code
  refine ⟨u, ?_, (ran.sub).trans (wrote.sub), (wrote.same .clkEnabled).trans enabled, (wrote.same .clkDiv).trans div,
    (wrote.same .regClkena).trans clkena, (wrote.same .regClkdiv).trans clkdiv, (wrote.same .regClksrc).trans clksrc,
    ctype, uwidth⟩
  rw [returns, andThen_ok, writes]

theorem andThen_bind {α β : Type} (r : Res Unit) (f : State → Res α) (g : α → State → Res β) :
    (r.andThen fun s => (f s).bind g) = (r.andThen f).bind g := by
  cases r <;> rfl

/-- Settles O38. -/
theorem cfgbusCompletes : Obligations.CfgbusCompletes := by
  unfold Obligations.CfgbusCompletes
  intro c s a b d code r ready ha hb hcode hd ends
  obtain ⟨t, returns, ran, enabled, div, clkena, clkdiv, clksrc, ctype, width⟩ :=
    sequenceThenWidth_ends c d (low32 b).toNat code (s := s.setFsm .exec) ready.noReset ends
  obtain ⟨whole, known, going, trace⟩ := ran.inExec ready
  obtain ⟨u, finishes, fsm, drives, hist, utrace, keeps, frame⟩ :=
    finish_end (BitVec.ofNat 64 d) whole known going trace
  have same (p : Part) (hp : p ∉ [Part.fsm, .resp, .trace] := by decide) : p.same t u := keeps p hp
  refine ⟨u, ?_, fsm, drives, (same .clkDiv).trans div, (same .clkEnabled).trans enabled, (same .busWidth).trans width,
    (same .regClkdiv).trans clkdiv, (same .regClkena).trans clkena, (same .regClksrc).trans clksrc,
    (same .regCtype).trans ctype, hist, utrace, frame.frame.mono (by decide)⟩
  rw [exec_cfgbus ready ha hb, hcode]
  dsimp only
  rw [hd]
  dsimp only
  rw [andThen_bind, returns, bind_ok, endOp_ok, finishes]

/-! ## INIT -/

section
variable {s : State}

theorem exec_init_loads {d : Nat} {code : Word} (invalid : s.cfgValid = false)
    (accepted : configAccepted s.cfgIn = true)
    (hd : divisor s.cfgIn.srcClkHz.toNat s.cfgIn.initClkHz.toNat = some d)
    (hcode : ctypeCode s.cfgIn.initWidth.toNat = some code) :
    exec .init s = endOp (((setClockSeq s.cfgIn.toCfg d ((s.setFsm .exec).setCfg s.cfgIn.toCfg)).andThen fun t =>
      programWidth s.cfgIn.toCfg s.cfgIn.initWidth.toNat code t).bind fun _ t => .ok (BitVec.ofNat 64 d) t) := by
  change execInit s = _
  simp only [execInit, invalid, accepted, hd, hcode, Bool.false_eq_true, if_false, if_true]
  rfl

/-- INIT in EXEC with its configuration loaded (44_facade_transfer.md R350). -/
theorem Ran.inInit {ps : List Part} {k : Nat} {es : List Event} {t : State} {c : Cfg} (hr : s.rst = none)
    (known : ResponseKnown s) (ran : Ran ps k es ((s.setFsm .exec).setCfg c) t)
    (hp : ∀ p ∈ [Part.rst, .rspCount, .rspWords, .trace], p ∉ Part.answers :: .draws :: .hist :: ps := by decide) :
    Ran (([.fsm, .trace] ++ [.cfg, .busWidth, .cfgValid]) ++ ps) k es s t ∧ ResponseKnown t ∧ t.rst ≠ some 0 ∧
      t.trace = s.trace ++ [.exec] :=
  ran.fromExec ((setFsm_keeps .exec s).trans (setCfg_keeps c (s.setFsm .exec))) hr known rfl (by decide) hp

end

/-- Settles O41. -/
theorem initCompletes : Obligations.InitCompletes := by
  unfold Obligations.InitCompletes
  intro s d code r hr response invalid accepted hd hcode ends
  obtain ⟨t, returns, ran, enabled, div, -, -, -, ctype, width⟩ := sequenceThenWidth_ends s.cfgIn.toCfg d
    s.cfgIn.initWidth.toNat code (s := (s.setFsm .exec).setCfg s.cfgIn.toCfg) hr ends
  obtain ⟨whole, known, going, trace⟩ := ran.inInit hr response
  obtain ⟨u, finishes, fsm, drives, hist, utrace, keeps, frame⟩ :=
    finish_end (BitVec.ofNat 64 d) whole known going trace
  have same (p : Part) (hp : p ∉ [Part.fsm, .resp, .trace] := by decide) : p.same t u := keeps p hp
  have dma : s.cfgIn.toCfg.dmaCapable = true ↔ s.cfgIn.dmaCapable = 1 := beq_iff_eq
  have uwidth : u.busWidth = .holds s.cfgIn.initWidth := by
    rw [show u.busWidth = t.busWidth from same .busWidth, width, BitVec.ofNat_toNat, BitVec.setWidth_eq]
  refine ⟨s.cfgIn.toCfg, u, ?_, fsm, drives, (same .cfg).trans (ran.same .cfg),
    (same .cfgValid).trans (ran.same .cfgValid),
    uwidth, rfl, rfl, rfl, rfl, dma, rfl, rfl, rfl, rfl, rfl, (same .clkDiv).trans div,
    (same .clkEnabled).trans enabled, (same .regCtype).trans ctype, hist, utrace, frame.frame.mono (by decide)⟩
  rw [exec_init_loads invalid accepted hd hcode, returns, bind_ok, endOp_ok, finishes]

/-- Settles O42: the checks by `configAccepted_iff`; on a failed one INIT raises in EXEC. -/
theorem initRejectsBadConfigurations : Obligations.InitRejectsBadConfigurations := by
  unfold Obligations.InitRejectsBadConfigurations
  refine ⟨configAccepted_iff, fun s known going rejected => ?_⟩
  have raises : raiseError .configError (s.setFsm .exec) = .next (answered .configError 0 0 (s.setFsm .exec)) :=
    raiseError_known (s := s.setFsm .exec) known going nofun
  change execInit s = _
  unfold execInit
  dsimp only
  split_ifs with valid accepted
  · exact raises
  · have unreachable : divisor s.cfgIn.srcClkHz.toNat s.cfgIn.initClkHz.toNat = none := by
      simpa [valid, accepted] using rejected
    rw [unreachable]
    exact raises
  · exact raises

/-! ## Budgets that run out -/

/-- The parts a clock sequence out of budget may have changed, and those of the block's halt. -/
def sequenceHaltParts (written : Bool) : List Part :=
  (if written then sequenceDoneParts else sequenceRunParts) ++ [.fsm, .halted, .resp, .trace]

/-- A clock sequence that runs out of a budget in EXEC halts the block (42_clock_controller.md R272). -/
theorem sequence_halts {c : Cfg} {d : Nat} {s u : State} {r : ClockReads} {es : List Event} {enabled : Option Bool}
    {written : Bool} {qs : List Part} (stops : ClockStops c u d r es enabled written) (start : KeepsAllBut qs s u)
    (hr : u.rst = none) (known : ResponseKnown u) (trace : u.trace = s.trace ++ [.exec])
    (hq : Part.answers ∉ qs ∧ Part.draws ∉ qs ∧ Part.hist ∉ qs := by decide) :
    ∃ t v, setClockSeq c d u = .stop (.raised .fatalTimeout) t ∧ raiseError .fatalTimeout t = .next v ∧
      v.fsm = .halted ∧ v.halted = true ∧ Drives v .fatalTimeout 0 0 ∧ v.hist = s.hist ++ es ∧
      v.trace = s.trace ++ [.exec, .halted] ∧ ClockLeft d enabled written u v ∧
      KeepsAllBut (.answers :: .draws :: .hist :: sequenceHaltParts written) u v := by
  obtain ⟨t, k, raises, ran, enabledLeft, divLeft⟩ := setClockSeq_stops c d hr stops
  obtain ⟨whole, responseKnown, going, ttrace⟩ := ran.fromExec start hr known trace hq (by cases written <;> decide)
  obtain ⟨v, ends, fsm, halted, drives, hist, vtrace, keeps, -⟩ := halt_end whole responseKnown going ttrace
  exact ⟨t, v, raises, ends, fsm, halted, drives, hist, vtrace,
    ⟨(keeps .clkEnabled (by decide)).trans enabledLeft, (keeps .clkDiv (by decide)).trans divLeft⟩,
    (ran.frame.trans keeps).mono (by simp [sequenceHaltParts])⟩

/-- Settles O39. -/
theorem clockOperationsTimeOut : Obligations.ClockOperationsTimeOut := by
  unfold Obligations.ClockOperationsTimeOut
  refine ⟨fun c s ready runsOut => ?_, fun c s a d r es enabled written ready ha hd stops => ?_,
    fun s d r es enabled written hr response invalid accepted hd stops => ?_⟩
  · obtain ⟨t, raises, ran, -⟩ := handshake_runs_out c (s := s.setFsm .exec) ready.noReset runsOut
    obtain ⟨whole, known, going, trace⟩ := ran.inExec ready
    obtain ⟨u, ends, fsm, halted, drives, hist, utrace, -, frame⟩ := halt_end whole known going trace
    refine ⟨u, ?_, fsm, halted, drives, hist, utrace, frame.frame.mono (by decide)⟩
    rw [exec_updclk ready, raises, bind_stop, endOp_raised, ends]
  · have start := setFsm_keeps .exec s
    obtain ⟨t, v, raises, ends, fsm, halted, drives, hist, trace, left, keeps⟩ :=
      sequence_halts (u := s.setFsm .exec) stops start ready.noReset ready.response rfl
    have whole := start.trans keeps
    have frame : KeepsAllBut (.halted :: setclkParts) s v := whole.mono (by cases written <;> decide)
    refine ⟨⟨v, ?_, fsm, halted, drives, hist, trace, left, frame, ?_⟩, fun b hb hcode =>
      ⟨v, ?_, fsm, halted, drives, hist, trace, left, frame .busWidth (by decide), frame .regCtype (by decide), frame⟩⟩
    · rw [exec_setclk ready ha, hd]
      dsimp only
      rw [raises, bind_stop, endOp_raised, ends]
    · rintro rfl
      exact whole.mono (by decide)
    · obtain ⟨code, hcode⟩ := Option.isSome_iff_exists.mp hcode
      rw [exec_cfgbus ready ha hb, hcode]
      dsimp only
      rw [hd]
      dsimp only
      rw [raises, andThen_stop, endOp_raised, ends]
  · have start := (setFsm_keeps .exec s).trans (setCfg_keeps s.cfgIn.toCfg (s.setFsm .exec))
    obtain ⟨t, v, raises, ends, fsm, halted, drives, hist, trace, left, keeps⟩ :=
      sequence_halts (u := (s.setFsm .exec).setCfg s.cfgIn.toCfg) stops start hr response rfl
    have same (p : Part) (h1 : p ∉ .answers :: .draws :: .hist :: sequenceHaltParts true := by decide)
        (h2 : p ∉ .answers :: .draws :: .hist :: sequenceHaltParts false := by decide) :
        p.same ((s.setFsm .exec).setCfg s.cfgIn.toCfg) v := keeps p (by cases written <;> assumption)
    have width : v.busWidth.known = false := by
      rw [show v.busWidth = ((s.setFsm .exec).setCfg s.cfgIn.toCfg).busWidth from same .busWidth]
      rfl
    obtain ⟨-, -, -, -, -, -, legal, -⟩ := (configAccepted_iff s.cfgIn).mp accepted
    obtain ⟨code, hcode⟩ := Option.isSome_iff_exists.mp ((ctypeCode_isSome s.cfgIn.initWidth).mpr legal)
    refine ⟨v, ?_, fsm, halted, drives, same .cfgValid, same .cfg, width, same .regCtype, hist, trace, left,
      (start.trans keeps).mono (by cases written <;> decide)⟩
    rw [exec_init_loads invalid accepted hd hcode, raises, andThen_stop, bind_stop, endOp_raised, ends]

end Sys2Proof.Machine
end

section
/-! PROOFS. The statements about the descriptor chain (43_dma_builder.md) and the transfer operations
(44_facade_transfer.md): the chain's invariants, BUILD, PREPARE, READ, and the requests before INIT. -/

namespace Sys2Proof.Machine

/-- Settles O43: EXEC, like ENCODE and SENDCMD, is only entered with a configuration. -/
theorem requestsBeforeInitAreRefused : Obligations.RequestsBeforeInitAreRefused := by
  unfold Obligations.RequestsBeforeInitAreRefused
  intro i s block notInit notClassify invalid known going
  have raises : raiseError .configError s = .next (answered .configError 0 0 s) :=
    raiseError_known known going nofun
  cases i with
  | init => exact absurd rfl notInit
  | classify => exact absurd rfl notClassify
  | encode _ _ | sendcmd _ _ _ | extract | updclk | setclk | setwidth | cfgbus | build | prepare | read | write =>
    exact (withCfg_invalid invalid _).trans raises
  | _ => cases block

/-! ## The chain's invariants -/

/-- The last descriptor of a chain begins inside the buffer and reaches its end (43_dma_builder.md R310). -/
theorem chainLength_eq_succ {size chunk : Nat} (hchunk : 1 ≤ chunk) (hsize : 1 ≤ size) :
    ∃ m, chainLength size chunk = m + 1 ∧ m * chunk < size ∧ size ≤ m * chunk + chunk := by
  have high := Nat.lt_mul_div_succ (size + chunk - 1) hchunk
  have low := Nat.div_mul_le_self (size + chunk - 1) chunk
  have positive : 1 ≤ (size + chunk - 1) / chunk := (Nat.one_le_div_iff hchunk).mpr (by omega)
  refine ⟨(size + chunk - 1) / chunk - 1, (Nat.sub_add_cancel positive).symm, ?_, ?_⟩
  all_goals
    generalize (size + chunk - 1) / chunk = n at *
    obtain ⟨m, rfl⟩ := Nat.exists_eq_add_of_le' positive
    simp only [Nat.mul_comm chunk, Nat.add_mul, Nat.one_mul] at high low
    rw [Nat.add_sub_cancel]
    omega

/-- The bytes of segment `i` of a chain of `n` (43_dma_builder.md R316). -/
def segmentLength (size chunk n i : Nat) : Nat := if i + 1 == n then size - i * chunk else chunk

theorem segmentLength_last {size chunk n i : Nat} (last : i + 1 = n) :
    segmentLength size chunk n i = size - i * chunk := if_pos (beq_iff_eq.mpr last)

theorem segmentLength_of_ne {size chunk n i : Nat} (next : i + 1 ≠ n) : segmentLength size chunk n i = chunk :=
  if_neg (by simpa using next)

/-- The segments make up the buffer. -/
theorem sum_segmentLength {size chunk m : Nat} (inside : m * chunk < size) :
    ((List.range (m + 1)).map (segmentLength size chunk (m + 1))).sum = size := by
  have before : (List.range m).map (segmentLength size chunk (m + 1)) = (List.range m).map fun _ => chunk :=
    List.map_congr_left fun i hi =>
      have := List.mem_range.mp hi
      segmentLength_of_ne (by omega)
  rw [List.range_succ, List.map_append, List.sum_append, before, List.map_const', List.sum_replicate,
    List.map_singleton, List.sum_singleton, segmentLength_last rfl, List.length_range, smul_eq_mul]
  omega

/-- DES1 counts 13 bits (30_encoding.md R135). -/
theorem desLength_eq {w : Word} (h : w.toNat < 8192) : desLength w = w.toNat := by
  simp only [desLength, BitVec.extractLsb'_toNat, Nat.shiftRight_zero]
  exact Nat.mod_eq_of_lt h

/-- The flags of a DES0 word (43_dma_builder.md R313 to R315). -/
theorem des0Word_flags (first last : Bool) : anySet (des0Word first last) desOwn = true ∧
    anySet (des0Word first last) desFs = first ∧ anySet (des0Word first last) desLd = last ∧
    anySet (des0Word first last) desCh = !last ∧ anySet (des0Word first last) desDic = !last := by
  revert first last; decide

section
variable {c : Cfg} {buf size chunk : Nat} (legal : c.Legal) (accepted : chainAccepted c buf size chunk = true)
include accepted

theorem chainAccepted_size : 1 ≤ chunk ∧ chunk ≤ 8191 ∧ 1 ≤ size ∧ buf + size ≤ 2 ^ 32 ∧
    16 * chainLength size chunk ≤ c.descSize.toNat := by
  obtain ⟨hchunk, hsize, hend, hfoot⟩ := (chainAccepted_iff c buf size chunk).mp accepted
  simp only [bsMax, not_or, Config.dmaAddrBits, descBytes] at *
  exact ⟨by omega, by omega, by omega, by omega, hfoot⟩

/-- What a descriptor of an accepted chain says of its segment. -/
theorem descriptor_segment {i : Nat} (hi : i < chainLength size chunk) :
    let d := descriptor c buf size chunk (chainLength size chunk) i
    let len := segmentLength size chunk (chainLength size chunk) i
    d.des1.toNat = len ∧ desLength d.des1 = len ∧ d.des2.toNat = buf + i * chunk ∧ 1 ≤ len ∧ len ≤ chunk ∧
      i * chunk + len ≤ size := by
  obtain ⟨low, high, hsize, hend, -⟩ := chainAccepted_size accepted
  obtain ⟨m, count, inside, reaches⟩ := chainLength_eq_succ low hsize
  rw [count] at hi ⊢
  have start : i * chunk ≤ m * chunk := Nat.mul_le_mul_right chunk (Nat.le_of_lt_succ hi)
  have len : 1 ≤ segmentLength size chunk (m + 1) i ∧ segmentLength size chunk (m + 1) i ≤ chunk ∧
      i * chunk + segmentLength size chunk (m + 1) i ≤ size := by
    by_cases last : i = m
    · subst last
      rw [segmentLength_last rfl]
      omega
    · have next : (i + 1) * chunk ≤ m * chunk := Nat.mul_le_mul_right chunk (by omega)
      rw [segmentLength_of_ne (by omega)]
      rw [Nat.add_mul] at next
      omega
  have des1 : (descriptor c buf size chunk (m + 1) i).des1.toNat = segmentLength size chunk (m + 1) i :=
    (BitVec.toNat_ofNat _ _).trans (Nat.mod_eq_of_lt (show segmentLength size chunk (m + 1) i < 2 ^ 32 by omega))
  exact ⟨des1, (desLength_eq (by omega)).trans des1,
    (BitVec.toNat_ofNat _ _).trans (Nat.mod_eq_of_lt (by omega)), len⟩

include legal

/-- DES3 of a descriptor with one after it is that one's address (43_dma_builder.md R317). -/
theorem descriptor_next {i : Nat} (hi : i + 1 < chainLength size chunk) :
    (descriptor c buf size chunk (chainLength size chunk) i).des3.toNat = descAddr c (i + 1) := by
  obtain ⟨-, -, -, -, foot⟩ := chainAccepted_size accepted
  obtain ⟨-, -, -, -, ring, -⟩ := legal
  have notLast : (i + 1 == chainLength size chunk) = false := by simpa using hi.ne
  simp only [descriptor, notLast, Bool.false_eq_true, if_false, descAddr, descBytes, BitVec.toNat_ofNat]
  omega

end

/-- Settles O44. -/
theorem chainSatisfiesItsInvariants : Obligations.ChainSatisfiesItsInvariants := by
  unfold Obligations.ChainSatisfiesItsInvariants
  intro c buf size chunk legal accepted
  obtain ⟨low, -, hsize, -⟩ := chainAccepted_size accepted
  obtain ⟨m, count, inside, -⟩ := chainLength_eq_succ low hsize
  rw [show (size + chunk - 1) / chunk = chainLength size chunk from rfl]
  refine ⟨rfl, by omega, ?_, fun i hi => ?_⟩
  · rw [List.map_congr_left fun i hi => (descriptor_segment accepted (List.mem_range.mp hi)).2.1, count]
    exact sum_segmentLength inside
  · obtain ⟨des1, length, des2, positive, bounded, -⟩ := descriptor_segment accepted hi
    refine ⟨des1.trans length.symm, des2, fun next => ⟨?_, descriptor_next legal accepted next⟩, fun last => ?_,
      des0Word_flags _ _⟩
    · rw [length, segmentLength_of_ne next.ne]
    · exact ⟨length ▸ positive, length ▸ bounded, if_pos (by simpa using last)⟩

/-! ## BUILD -/

/-- What the engine sees depends on memory and its cleaned bytes alone. -/
theorem engineSeesChain.of {c : Cfg} {buf size chunk : Nat} {s t : State} (h : engineSeesChain s c buf size chunk)
    (hmem : t.mem = s.mem) (hdirty : t.dirty = s.dirty) : engineSeesChain t c buf size chunk := by
  unfold engineSeesChain engineSeesWord engineSees at *
  rwa [hmem, hdirty]

/-- Settles O45. -/
theorem buildWritesTheChain : Obligations.BuildWritesTheChain := by
  unfold Obligations.BuildWritesTheChain
  intro c s a b k ready ha hb hk accepted n
  obtain ⟨t, returns, ran, dbaddr, count, sees, kept, dirty⟩ :=
    buildChain_ran c (s := s.setFsm .exec) ready.noReset accepted
  obtain ⟨whole, known, going, trace⟩ := ran.inExec ready
  obtain ⟨u, finishes, fsm, drives, hist, utrace, keeps, frame⟩ :=
    finish_end (BitVec.ofNat 64 n) whole known going trace
  have umem : u.mem = t.mem := keeps .mem (by decide)
  have udirty : u.dirty = t.dirty := keeps .dirty (by decide)
  refine ⟨u, ?_, fsm, drives, (keeps .chainCount (by decide)).trans count, (keeps .regDbaddr (by decide)).trans dbaddr,
    sees.of umem udirty, MemoryKeptOutside.trans kept (.of_mem umem), fun x => udirty ▸ dirty x, hist, utrace, ?_⟩
  · rw [exec_build ready ha hb hk, returns, bind_ok, endOp_ok, finishes]
  · exact (whole.keeps.trans keeps).mono (by decide)

/-! ## PREPARE -/

/-- PREPARE of a ready block whose operands are known ends as its checks, and then its run from EXEC, do. -/
theorem exec_prepare {c : Cfg} {s : State} {b k : DWord} (ready : Ready c s) (hb : s.reqB = .holds b)
    (hk : s.reqC = .holds k) : exec .prepare s = match checkPrepare c b.toNat k.toNat with
      | some e => raiseError e (s.setFsm .exec)
      | none => endOp ((runPrepare c b.toNat k.toNat (s.setFsm .exec)).bind fun n t => .ok (BitVec.ofNat 64 n) t) := by
  change execPrepare s = _
  rw [execPrepare, inExec_ready ready, withB_holds (s := s.setFsm .exec) hb,
    withC_holds (s := s.setFsm .exec) hk] <;> rfl

/-- PREPARE's two register writes, of BYTCNT and the clear-all of RINTSTS (44_facade_transfer.md R353). -/
def preparedWrites (c : Cfg) (size : Nat) (s : State) : State :=
  (s.writeDone c .bytcnt (BitVec.ofNat 32 size)).writeDone c .rintsts clearAll

theorem preparedWrites_ran (c : Cfg) (size : Nat) (s : State) :
    Ran [.regBytcnt, .pending] 0
      [.regWrite c.regBase .bytcnt (BitVec.ofNat 32 size), .regWrite c.regBase .rintsts 0xFFFFFFFF]
      s (preparedWrites c size s) :=
  ((writeDone_ran c .bytcnt _ s).sub).trans ((writeDone_ran c .rintsts clearAll _).sub)

theorem runPrepare_writes (c : Cfg) (buf size : Nat) {s : State} (hr : s.rst = none) : runPrepare c buf size s =
    if c.dmaCapable then
      (cacheClean buf size (preparedWrites c size s)).andThen (buildChain c buf size c.chunkMax.toNat)
    else .ok 0 (preparedWrites c size s) := by
  rw [runPrepare, regWrite_none hr, andThen_ok, regWrite_none (by simpa using hr), andThen_ok]
  rfl

/-- Settles O48. -/
theorem prepareInPolledModeWritesTwoRegisters : Obligations.PrepareInPolledModeWritesTwoRegisters := by
  unfold Obligations.PrepareInPolledModeWritesTwoRegisters
  intro c s b k ready hb hk polled checked
  have ran := preparedWrites_ran c k.toNat (s.setFsm .exec)
  obtain ⟨whole, known, going, trace⟩ := ran.inExec ready
  obtain ⟨u, finishes, fsm, drives, hist, utrace, keeps, frame⟩ := finish_end 0 whole known going trace
  refine ⟨u, ?_, fsm, drives, (keeps .regBytcnt (by decide)).trans rfl, (keeps .pending (by decide)).trans rfl, hist,
    utrace, (whole.keeps.trans keeps).mono (by decide)⟩
  rw [exec_prepare ready hb hk, checked]
  dsimp only
  rw [runPrepare_writes c _ _ (s := s.setFsm .exec) ready.noReset, if_neg (by simp [polled]), bind_ok, endOp_ok]
  exact finishes

/-- PREPARE's checks pass in DMA mode only on operands the builder accepts. -/
theorem chainAccepted_of_checkPrepare {c : Cfg} {buf size : Nat} (dma : c.dmaCapable = true)
    (checked : checkPrepare c buf size = none) : chainAccepted c buf size c.chunkMax.toNat = true := by
  unfold checkPrepare at checked
  split_ifs at checked with _ _ _ accepted
  exact accepted

/-- Settles O47. -/
theorem prepareInDmaModeBuildsTheChain : Obligations.PrepareInDmaModeBuildsTheChain := by
  unfold Obligations.PrepareInDmaModeBuildsTheChain
  intro c s b k ready hb hk dma checked chunk n
  have wrote := preparedWrites_ran c k.toNat (s.setFsm .exec)
  have noReset : (preparedWrites c k.toNat (s.setFsm .exec)).rst = none := (wrote.same .rst).trans ready.noReset
  obtain ⟨t, returns, built, dbaddr, count, sees, kept, dirty⟩ := buildChain_ran c
    (s := (preparedWrites c k.toNat (s.setFsm .exec)).cleanDone b.toNat k.toNat) noReset
    (chainAccepted_of_checkPrepare dma checked)
  have ran := ((wrote.sub (qs := [.regBytcnt, .pending, .mem, .dirty, .regDbaddr, .chainCount])).trans
    (cleanDone_ran b.toNat k.toNat _).sub).trans built.sub
  obtain ⟨whole, known, going, trace⟩ := ran.inExec ready
  obtain ⟨u, finishes, fsm, drives, hist, utrace, keeps, frame⟩ :=
    finish_end (BitVec.ofNat 64 n) whole known going trace
  have same (p : Part) (hp : p ∉ [Part.fsm, .resp, .trace] := by decide) : p.same t u := keeps p hp
  have umem : u.mem = t.mem := same .mem
  have udirty : u.dirty = t.dirty := same .dirty
  refine ⟨u, ?_, fsm, drives, (same .regBytcnt).trans ((built.same .regBytcnt).trans rfl),
    (same .pending).trans ((built.same .pending).trans rfl), (same .regDbaddr).trans dbaddr,
    (same .chainCount).trans count, sees.of umem udirty, fun x => ?_, MemoryKeptOutside.trans kept (.of_mem umem),
    hist, utrace, (whole.keeps.trans keeps).mono (by decide)⟩
  · rw [exec_prepare ready hb hk, checked]
    dsimp only
    rw [runPrepare_writes c _ _ (s := s.setFsm .exec) ready.noReset, if_pos dma, cacheClean_none noReset, andThen_ok,
      returns, bind_ok, endOp_ok]
    exact finishes
  · rw [udirty, dirty, cleanDone_dirty, Dirty.mem_clean, and_assoc]
    rfl

/-- A buffer that is misplaced, or whose size is, fails PREPARE's first three checks. -/
theorem checkPrepare_misplaced {c : Cfg} {buf size : Nat} (bad : buf % c.blockSize.toNat ≠ 0 ∨
    size % c.blockSize.toNat ≠ 0 ∨ size = 0 ∨ size ≥ 2 ^ 32) : checkPrepare c buf size = some .invalidArgument := by
  unfold checkPrepare
  split_ifs with start whole sized
  · rfl
  · rfl
  · rfl
  all_goals exact absurd (bad.resolve_left start |>.resolve_left whole) sized

/-- Settles O49: the checks in the order of `checkPrepare`; the first that fails is answered from EXEC. -/
theorem prepareRejectsBadOperands : Obligations.PrepareRejectsBadOperands := by
  unfold Obligations.PrepareRejectsBadOperands
  intro c s b k ready hb hk buf size bs
  have rejects {e : Err} (h : checkPrepare c buf size = some e) (notFatal : e ≠ .fatalTimeout) :
      exec .prepare s = .next (answered e.code (e.value.setWidth 64) e.status (s.setFsm .exec)) := by
    rw [exec_prepare ready hb hk, h]
    exact raiseError_known ready.inExec.response ready.inExec.going notFatal
  refine ⟨fun bad => rejects (e := .invalidArgument) ?_ nofun, fun aligned whole positive small =>
    ⟨fun polled deep => rejects (e := .invalidArgument) ?_ nofun,
      fun dma refused => rejects (e := .configError) ?_ nofun, fun fits accepted => ?_⟩⟩
  · exact checkPrepare_misplaced bad
  all_goals
    have sized : ¬ (size = 0 ∨ size ≥ 2 ^ 32) := by omega
    rw [checkPrepare, if_neg (not_not.mpr aligned), if_neg (not_not.mpr whole), if_neg sized]
  · rw [if_neg (by simp [polled]), if_pos deep]
  · rw [if_pos dma, if_neg (by simp [refused])]
  · split_ifs with dma taken deep
    · rfl
    · exact absurd (accepted dma) taken
    · exact absurd (fits (Bool.eq_false_of_not_eq_true dma)) (Nat.not_le.mpr deep)
    · rfl

/-! ## READ -/

/-- READ of a ready block whose operands are known (44_facade_transfer.md R356). -/
theorem exec_read {c : Cfg} {s : State} {a b : DWord} (ready : Ready c s) (ha : s.reqA = .holds a)
    (hb : s.reqB = .holds b) : exec .read s =
      if c.dmaCapable then finish 0 (s.setFsm .exec)
      else if b.toNat % 4 ≠ 0 then raiseError .invalidArgument (s.setFsm .exec)
      else if a.toNat + b.toNat > 2 ^ 64 then raiseError .invalidArgument (s.setFsm .exec)
      else endOp ((forRange (drainWord c a.toNat) 0 (b.toNat / 4) (s.setFsm .exec)).bind fun _ t =>
        .ok (BitVec.ofNat 64 (b.toNat / 4)) t) := by
  change execRead s = _
  rw [execRead, inExec_ready ready, withA_holds (s := s.setFsm .exec) ha, withB_holds (s := s.setFsm .exec) hb]
  rfl

/-- Settles O50: by `drain_ran`, on a size that is a whole number of words. -/
theorem readDrainsTheFifo : Obligations.ReadDrainsTheFifo := by
  unfold Obligations.ReadDrainsTheFifo
  intro c s a b ready ha hb polled whole inside
  obtain ⟨t, returns, ran, words, kept, dirty⟩ :=
    drain_ran c a.toNat (b.toNat / 4) 0 (s.setFsm .exec) ready.noReset
  simp only [Nat.zero_add, Nat.mul_zero, Nat.add_zero, Nat.mul_div_cancel' (Nat.dvd_of_mod_eq_zero whole)]
    at ran words kept dirty
  obtain ⟨ran, known, going, trace⟩ := ran.inExec ready
  obtain ⟨u, finishes, fsm, drives, hist, utrace, keeps, frame⟩ :=
    finish_end (BitVec.ofNat 64 (b.toNat / 4)) ran known going trace
  have umem : u.mem = t.mem := keeps .mem (by decide)
  have udirty : u.dirty = t.dirty := keeps .dirty (by decide)
  refine ⟨u, ?_, fsm, drives, fun k hk => umem ▸ words k hk, MemoryKeptOutside.trans kept (.of_mem umem),
    fun x => udirty ▸ dirty x, hist, utrace, frame.frame.mono (by decide)⟩
  rw [exec_read ready ha hb, if_neg (by simp [polled]), if_neg (not_not.mpr whole), if_neg (Nat.not_lt.mpr inside),
    returns, bind_ok, endOp_ok, finishes]

/-- Settles O51. -/
theorem readOtherwiseMakesNoAccess : Obligations.ReadOtherwiseMakesNoAccess := by
  unfold Obligations.ReadOtherwiseMakesNoAccess
  refine fun c s a b ready ha hb => ⟨fun dma => ?_, fun polled bad => ?_⟩
  · rw [exec_read ready ha hb, if_pos dma]
    exact finish_known ready.inExec.response ready.inExec.going 0
  · have raises : raiseError .invalidArgument (s.setFsm .exec) =
        .next (answered .invalidArgument 0 0 (s.setFsm .exec)) :=
      raiseError_known ready.inExec.response ready.inExec.going nofun
    rw [exec_read ready ha hb, if_neg (by simp [polled])]
    split_ifs with partWord pastEnd
    · exact raises
    · exact raises
    · exact absurd bad (not_or.mpr ⟨partWord, pastEnd⟩)

end Sys2Proof.Machine
end

section
/-! PROOFS. The statements about the controller and the DMA engine (00_scope.md R8; 20_memory.md R87, R97): a started
word carried out, a descriptor used, what the engine sees of memory, and the transfer of a whole chain. -/

namespace Sys2Proof.Machine

/-! ## The controller carries a started word out -/

theorem exec_commandInstr (cls : CmdClass) (idx : Nat) (shape : Shape) (s : State) :
    exec (commandInstr cls idx shape) s = carryOut cls idx shape s := by
  cases cls <;> rfl

theorem carryOut_started {s : State} {k : Started} {rest : List Started} (h : s.ctl.started = k :: rest)
    (cls : CmdClass) (idx : Nat) (shape : Shape) : carryOut cls idx shape s =
      .next (triggered (commandWord s.params.cmdBits cls shape idx) k (takeStarted rest s)) := by
  rw [carryOut, h]

/-- A data-carrying word in DMA mode starts the engine, in its direction, at the base given. -/
theorem triggered_starts {w : Word} {k : Started} {s : State} (dma : k.dma = true)
    (data : dataCarrying s.params.cmdBits w = true) :
    (∀ a, k.regs.dbaddr = .holds a → (triggered w k s).dma.cur = some a.toNat) ∧
      (triggered w k s).dma.toDevice = anySet w (bit s.params.cmdBits.write) := by
  simp only [triggered, dma, data, Bool.and_self, if_true]
  unfold startEngine
  constructor
  · intro a base
    simp [base]
  · split <;> rfl

/-- Any other word leaves the engine as it was. -/
theorem triggered_dma {w : Word} {k : Started} {s : State}
    (h : ¬ (k.dma = true ∧ dataCarrying s.params.cmdBits w = true)) : (triggered w k s).dma = s.dma := by
  rw [triggered, if_neg (by simpa using h)]
  rfl

/-- Settles O54. -/
theorem commandWordsAreCarriedOut : Obligations.CommandWordsAreCarriedOut := by
  unfold Obligations.CommandWordsAreCarriedOut
  intro cls idx shape s k rest started b w
  have keeps := triggered_keeps w k (takeStarted rest s)
  refine ⟨triggered w k (takeStarted rest s), ?_, keeps .started (by decide), triggered_bus w k _,
    fun dma data => triggered_starts dma data, fun other => triggered_dma other, fun wf hi word => ?_,
    (takeStarted_keeps rest s).trans keeps⟩
  · rw [exec_commandInstr, carryOut_started started]
  · rw [carryOne, if_neg (by rw [word]; exact commandWord_ne_hsWord wf hi), word]

/-- Settles O55. -/
theorem handshakeWordTakesUpTheClock : Obligations.HandshakeWordTakesUpTheClock := by
  unfold Obligations.HandshakeWordTakesUpTheClock
  intro s k rest started
  refine ⟨(takeStarted rest s).takeClock k.regs, ?_, rfl, rfl, fun word => ?_,
    (takeStarted_keeps rest s).trans (takeClock_keeps _ _)⟩
  · change execCmdwHs s = _
    rw [execCmdwHs, started]
  · exact (if_pos word).symm

/-! ## What the engine sees of memory -/

/-- Settles O58: a clean takes the range's marks away, an engine store to a marked byte stores nothing. -/
theorem dmaEngineSeesCleanedBytes : Obligations.DmaEngineSeesCleanedBytes := by
  unfold Obligations.DmaEngineSeesCleanedBytes
  refine ⟨fun a len s hr => ?_, fun x s marked => ?_, fun x b v s t marked held cleaned => ?_, fun x v s clean => ?_⟩
  · refine ⟨s.cleanDone a len, cacheClean_none hr a len, by simp, fun x b low high held => ?_, fun x outside => ?_,
      (cleanDone_keeps a len s).mono (by decide)⟩
    · exact engineByte_sees ⟨held, by simp [Dirty.mem_clean, low, high]⟩
    · rw [cleanDone_dirty, Dirty.mem_clean, and_iff_left outside]
  · rw [engineByte, if_pos (by simpa using marked), nextDatum_eq]
  · have kept := engineStore_kept (List.contains_iff_mem.mpr marked) v
    rcases tick_cases (s.engineStore x v) with ⟨-, e⟩ | ⟨-, e⟩ | ⟨k, -, e⟩
    all_goals
      rw [cacheClean, e] at cleaned
      cases cleaned
    all_goals exact engineByte_sees ⟨kept ▸ held, by simp [Dirty.mem_clean]⟩
  · have unmarked : s.dirty.contains x = false := by simpa using clean
    exact engineByte_sees ⟨by rw [engineStore_clean unmarked, Memory.read_write_same], unmarked⟩

/-! ## A descriptor used -/

/-- The DES0 rows that chain on, and those that end the chain (30_encoding.md R136). -/
theorem exec_descriptor {i : Instr} {chained : Bool} (form : (chained = true ∧ (i = .des0First ∨ i = .des0Middle)) ∨
    (chained = false ∧ (i = .des0Last ∨ i = .des0Single))) (s : State) : exec i s = consume chained s := by
  rcases form with ⟨rfl, rfl | rfl⟩ | ⟨rfl, rfl | rfl⟩ <;> rfl

/-- The release leaves a byte the CPU side has not cleaned as it was (20_memory.md R97; log 20). -/
theorem releaseDescriptor_read_marked (a : Nat) {x : Nat} {s : State} (marked : x ∈ s.dirty) :
    (releaseDescriptor a s).mem.read? x = s.mem.read? x := by
  by_cases own : x = a + 3
  · subst own
    rw [releaseDescriptor, engineStore_kept (s := s.datumDrawn) (List.contains_iff_mem.mpr marked), datumDrawn_mem]
  · exact releaseDescriptor_read a s own

/-- The release takes one value, for OWN (log 18). -/
theorem releaseDescriptor_drew (a : Nat) (s : State) : DrewData 1 s (releaseDescriptor a s) := ⟨by
  simp [releaseDescriptor], by simp [releaseDescriptor]⟩

/-- The engine sees the words of a descriptor after DES0. -/
def engineSeesPlace (s : State) (a : Nat) (des1 des2 des3 : Word) : Prop :=
  engineSeesWord s (a + 4) des1 ∧ engineSeesWord s (a + 8) des2 ∧ engineSeesWord s (a + 12) des3

section
variable {s : State} {a : Nat} {des1 des2 des3 : Word} (seen : engineSeesPlace s a des1 des2 des3) (chained : Bool)
include seen

/-- A descriptor the engine sees moves the segment it names. -/
theorem useDescriptor_seen : useDescriptor chained a s =
    (releaseDescriptor a (if s.dma.toDevice then sendBytes des2.toNat (desLength des1) s
      else receiveBytes des2.toNat (desLength des1) s)).engineAt (if chained then some des3.toNat else none) := by
  obtain ⟨h1, h2, h3⟩ := seen
  simp only [useDescriptor, engineWord_sees h1, engineWord_sees h2, engineWord_sees h3]

/-- On a read transfer: the device's bytes in the segment, but for those the CPU side holds (20_memory.md R97), one
value more for OWN, and no other byte changed. -/
theorem useDescriptor_receives (fromDevice : s.dma.toDevice = false) :
    let t := useDescriptor chained a s
    let n := desLength des1
    t.dma.cur = (if chained then some des3.toNat else none) ∧
      (∀ k, k < n → des2.toNat + k ≠ a + 3 → des2.toNat + k ∉ s.dirty →
        t.mem.read? (des2.toNat + k) = some (byteOf (datumAt s k) 0)) ∧
      (∀ x, (x < des2.toNat ∨ des2.toNat + n ≤ x) → x ≠ a + 3 → t.mem.read? x = s.mem.read? x) ∧
      (∀ x, x ∈ s.dirty → t.mem.read? x = s.mem.read? x) ∧
      DrewData (n + 1) s t ∧ KeepsAllBut [.dmaData, .dmaDraws, .mem, .dmaCur] s t := by
  intro t n
  obtain ⟨keeps, drew, moved, kept, -⟩ := receiveBytes_does n des2.toNat s
  have used : t = (releaseDescriptor a (receiveBytes des2.toNat n s)).engineAt
      (if chained then some des3.toNat else none) := by
    rw [show t = useDescriptor chained a s from rfl, useDescriptor_seen seen, fromDevice]
    rfl
  have released (x : Nat) (apart : x ≠ a + 3) : t.mem.read? x = (receiveBytes des2.toNat n s).mem.read? x := by
    rw [used]
    exact releaseDescriptor_read a _ apart
  refine ⟨by rw [used]; rfl, fun k hk apart unmarked => ?_, fun x outside apart => ?_, fun x marked => ?_, ?_, ?_⟩
  · rw [released _ apart, moved k hk (by simpa using unmarked)]
  · rw [released x apart, kept x (by omega)]
  · have stays : x ∈ (receiveBytes des2.toNat n s).dirty :=
      (show (receiveBytes des2.toNat n s).dirty = s.dirty from keeps .dirty (by decide)) ▸ marked
    rw [used, engineAt_mem, releaseDescriptor_read_marked a stays, kept x (.inr (.inr (by simpa using marked)))]
  · rw [used]
    have released := drew.trans (releaseDescriptor_drew a (receiveBytes des2.toNat n s))
    exact ⟨released.data, released.draws⟩
  · rw [used]
    exact ((keeps.trans (releaseDescriptor_keeps a _)).trans (engineAt_keeps _ _)).mono (by decide)

/-- On a write transfer: the segment's bytes are sent, and only OWN's byte may have changed. -/
theorem useDescriptor_sends (toDevice : s.dma.toDevice = true) {bytes : List Byte}
    (length : bytes.length = desLength des1)
    (sees : ∀ k (h : k < bytes.length), engineSees s (des2.toNat + k) bytes[k]) :
    let t := useDescriptor chained a s
    t.dma.cur = (if chained then some des3.toNat else none) ∧ t.dma.sent = s.dma.sent ++ bytes ∧
      (∀ x, x ≠ a + 3 → t.mem.read? x = s.mem.read? x) ∧
      KeepsAllBut [.dmaData, .dmaDraws, .mem, .dmaCur, .dmaSent] s t := by
  intro t
  obtain ⟨keeps, sent⟩ := sendBytes_sees bytes des2.toNat s sees
  have used : t = (releaseDescriptor a (sendBytes des2.toNat bytes.length s)).engineAt
      (if chained then some des3.toNat else none) := by
    rw [show t = useDescriptor chained a s from rfl, useDescriptor_seen seen, toDevice, length]
    rfl
  have whole := keeps.trans (releaseDescriptor_keeps a _)
  refine ⟨by rw [used]; rfl, ?_, fun x apart => ?_, ?_⟩
  · rw [used]
    exact (releaseDescriptor_keeps a (sendBytes des2.toNat bytes.length s) .dmaSent (by decide)).trans sent
  · rw [used, engineAt_mem, releaseDescriptor_read a _ apart,
      show (sendBytes des2.toNat bytes.length s).mem = s.mem from keeps .mem (by decide)]
  · rw [used]
    exact (whole.trans (engineAt_keeps _ _)).mono (by decide)

end

/-- Consuming the descriptor it is at uses it, and with the last one the engine signals DTO (00_scope.md R8). -/
theorem consume_used {s t : State} {a : Nat} {ps : List Part} {chained : Bool} (cur : s.dma.cur = some a)
    (used : useDescriptor chained a s = t) (keeps : KeepsAllBut ps s t)
    (hp : Part.pending ∉ ps ∧ Part.params ∉ ps := by decide) :
    ∃ u, consume chained s = .next u ∧ u.mem = t.mem ∧ u.dma = t.dma ∧
      u.ctl.pending = (if chained then s.ctl.pending else s.ctl.pending.map (· ||| bit s.params.intBits.dto)) ∧
      KeepsAllBut (ps ++ [.pending]) s u := by
  have pending : t.ctl.pending = s.ctl.pending := keeps .pending hp.1
  have params : t.params = s.params := keeps .params hp.2
  rw [consume, cur]
  dsimp only
  rw [used]
  cases chained with
  | true => exact ⟨t, rfl, rfl, rfl, pending, keeps.mono (List.subset_append_left _ _)⟩
  | false =>
    exact ⟨t.signalDone, rfl, rfl, rfl, by simp [pending, params], keeps.trans (signalDone_keeps t)⟩

/-- Settles O56. -/
theorem descriptorsReceiveTheirSegment : Obligations.DescriptorsReceiveTheirSegment := by
  unfold Obligations.DescriptorsReceiveTheirSegment
  intro i chained s a des1 des2 des3 form cur fromDevice h1 h2 h3 n
  obtain ⟨goesOn, moved, kept, marked, -, keeps⟩ := useDescriptor_receives ⟨h1, h2, h3⟩ chained fromDevice
  generalize used : useDescriptor chained a s = t at goesOn moved kept marked keeps
  obtain ⟨u, next, mem, dma, pending, whole⟩ := consume_used cur used keeps
  rw [← mem] at moved kept marked
  exact ⟨u, (exec_descriptor form s).trans next, dma ▸ goesOn, moved, kept, marked, pending, whole⟩

/-- Settles O57. -/
theorem descriptorsSendTheirSegment : Obligations.DescriptorsSendTheirSegment := by
  unfold Obligations.DescriptorsSendTheirSegment
  intro i chained s a des1 des2 des3 bytes form cur toDevice h1 h2 h3 length sees
  obtain ⟨goesOn, sent, kept, keeps⟩ := useDescriptor_sends ⟨h1, h2, h3⟩ chained toDevice length sees
  generalize used : useDescriptor chained a s = t at goesOn sent kept keeps
  obtain ⟨u, next, mem, dma, pending, whole⟩ := consume_used cur used keeps
  rw [← mem] at kept
  exact ⟨u, (exec_descriptor form s).trans next, dma ▸ goesOn, dma ▸ sent, kept, pending, whole⟩

end Sys2Proof.Machine
end

section
/-! PROOFS. The statement about a whole transfer (70_reset_and_hazards.md R466): the engine's run over a chain as the
builder writes it. -/

namespace Sys2Proof.Machine

/-! ## The engine at a descriptor of the chain -/

/-- The engine sees descriptor `d` at `a`. -/
def engineSeesDescriptor (s : State) (a : Nat) (d : Descriptor) : Prop :=
  engineSeesWord s a d.des0 ∧ engineSeesPlace s a d.des1 d.des2 d.des3

/-- The engine is at descriptor `i` of the chain, and sees it and all that follow. -/
structure AtDescriptor (c : Cfg) (buf size chunk i : Nat) (s : State) : Prop where
  cur : s.dma.cur = some (descAddr c i)
  sees : ∀ j, i ≤ j → j < chainLength size chunk →
    engineSeesDescriptor s (descAddr c j) (descriptor c buf size chunk (chainLength size chunk) j)

/-- What the engine sees at an address whose byte is kept. -/
theorem engineSeesWord.kept {s t : State} {a : Nat} {w : Word} (h : engineSeesWord s a w) (dirty : t.dirty = s.dirty)
    (kept : ∀ x, a ≤ x → x < a + 4 → t.mem.read? x = s.mem.read? x) : engineSeesWord t a w := fun k hk => by
  obtain ⟨held, clean⟩ := h k hk
  exact ⟨(kept _ (by omega) (by omega)).trans held, dirty ▸ clean⟩

theorem engineSeesDescriptor.kept {s t : State} {a : Nat} {d : Descriptor} (h : engineSeesDescriptor s a d)
    (dirty : t.dirty = s.dirty) (kept : ∀ x, a ≤ x → x < a + 16 → t.mem.read? x = s.mem.read? x) :
    engineSeesDescriptor t a d := by
  obtain ⟨h0, h1, h2, h3⟩ := h
  exact ⟨h0.kept dirty fun x _ _ => kept x (by omega) (by omega),
    h1.kept dirty fun x _ _ => kept x (by omega) (by omega),
    h2.kept dirty fun x _ _ => kept x (by omega) (by omega),
    h3.kept dirty fun x _ _ => kept x (by omega) (by omega)⟩

/-- A DES0 word as the builder writes it chains on exactly when it is not the last. -/
theorem chainsOn_des0Word (first last : Bool) : chainsOn (des0Word first last) = some !last := by
  revert first last; decide

section
variable {c : Cfg} {buf size chunk i limit : Nat} {s : State}

theorem AtDescriptor.place (here : AtDescriptor c buf size chunk i s) (hi : i < chainLength size chunk) :
    let d := descriptor c buf size chunk (chainLength size chunk) i
    engineSeesPlace s (descAddr c i) d.des1 d.des2 d.des3 := (here.sees i le_rfl hi).2

/-- The engine's run from a descriptor it sees: the last one ends it (30_encoding.md R135). -/
theorem runEngine_at (here : AtDescriptor c buf size chunk i s) (hi : i < chainLength size chunk) :
    runEngine (limit + 1) s = if i + 1 = chainLength size chunk then useDescriptor false (descAddr c i) s
      else runEngine limit (useDescriptor true (descAddr c i) s) := by
  have chains : chainsOn (descriptor c buf size chunk (chainLength size chunk) i).des0 =
      some !(i + 1 == chainLength size chunk) := chainsOn_des0Word _ _
  rw [runEngine, here.cur]
  dsimp only
  rw [engineWord_sees (here.sees i le_rfl hi).1]
  dsimp only
  rw [chains]
  by_cases last : i + 1 = chainLength size chunk
  · rw [if_pos last, beq_iff_eq.mpr last]
    rfl
  · rw [if_neg last, beq_eq_false_iff_ne.mpr last]
    rfl

end

/-! ## Over the whole chain -/

section
variable {c : Cfg} {buf size chunk : Nat} (legal : c.Legal) (accepted : chainAccepted c buf size chunk = true)
  (apart : buf + size ≤ c.descBase.toNat ∨ c.descBase.toNat + 16 * chainLength size chunk ≤ buf)
include legal accepted apart

/-- The engine goes on to the next descriptor, where it has stored only to OWN's byte and the buffer. -/
theorem AtDescriptor.next {i : Nat} {s t : State} (here : AtDescriptor c buf size chunk i s)
    (next : i + 1 < chainLength size chunk)
    (cur : t.dma.cur = some (descriptor c buf size chunk (chainLength size chunk) i).des3.toNat)
    (dirty : t.dirty = s.dirty)
    (kept : ∀ x, (x < buf ∨ buf + size ≤ x) → x ≠ descAddr c i + 3 → t.mem.read? x = s.mem.read? x) :
    AtDescriptor c buf size chunk (i + 1) t := by
  refine ⟨by rw [cur, descriptor_next legal accepted next], fun j hij hj => ?_⟩
  refine (here.sees j (by omega) hj).kept dirty fun x low high => kept x ?_ ?_
  · simp only [descAddr, descBytes] at low high
    omega
  · simp only [descAddr, descBytes] at low high ⊢
    omega

omit legal accepted in
/-- A byte of the buffer is no byte of a descriptor. -/
theorem buffer_ne_own {i k : Nat} (hi : i < chainLength size chunk) (hk : k < size) : buf + k ≠ descAddr c i + 3 := by
  simp only [descAddr, descBytes]
  omega

/-- To the device: the rest of the buffer is sent, from the segment of the descriptor the engine is at. -/
theorem runEngine_sends {bytes : List Byte} (length : bytes.length = size) (limit : Nat) : ∀ i s,
    AtDescriptor c buf size chunk i s → i < chainLength size chunk → chainLength size chunk ≤ i + limit →
    s.dma.toDevice = true → (∀ k (h : k < bytes.length), engineSees s (buf + k) bytes[k]) →
    (runEngine limit s).dma.sent = s.dma.sent ++ bytes.drop (i * chunk) := by
  induction limit with
  | zero => intros; omega
  | succ limit ih =>
    intro i s here hi enough toDevice sees
    obtain ⟨-, des1, des2, -, -, inside⟩ := descriptor_segment accepted hi
    have uses (chained : Bool) := useDescriptor_sends (here.place hi) chained toDevice
      (bytes := (bytes.drop (i * chunk)).take (segmentLength size chunk (chainLength size chunk) i))
      (by rw [List.length_take, List.length_drop, des1]; omega) fun k hk => by
        rw [List.length_take, List.length_drop] at hk
        rw [des2, Nat.add_assoc, List.getElem_take, List.getElem_drop]
        exact sees _ (by omega)
    rw [runEngine_at here hi]
    split_ifs with last
    · obtain ⟨-, sent, -⟩ := uses false
      rw [sent, segmentLength_last last, List.take_of_length_le (by rw [List.length_drop, length])]
    · obtain ⟨cur, sent, kept, keeps⟩ := uses true
      generalize useDescriptor true (descAddr c i) s = t at cur sent kept keeps ⊢
      have dirty : t.dirty = s.dirty := keeps .dirty (by decide)
      have there : AtDescriptor c buf size chunk (i + 1) t :=
        here.next legal accepted apart (by omega) cur dirty fun x _ own => kept x own
      rw [ih (i + 1) t there (by omega) (by omega) ((keeps .dmaDirection (by decide)).trans toDevice) fun k hk =>
        ⟨(kept _ (buffer_ne_own apart hi (by omega))).trans (sees k hk).1, dirty ▸ (sees k hk).2⟩,
        sent, List.append_assoc, segmentLength_of_ne last, Nat.add_mul, Nat.one_mul,
        ← List.drop_drop, List.take_append_drop]

/-- From the device: a descriptor of the chain moves the next values to its segment of the buffer, takes one more, and
keeps the buffer before the segment. -/
theorem AtDescriptor.receives {i : Nat} {s t : State} {chained : Bool} (here : AtDescriptor c buf size chunk i s)
    (hi : i < chainLength size chunk) (fromDevice : s.dma.toDevice = false)
    (used : useDescriptor chained (descAddr c i) s = t) :
    let len := segmentLength size chunk (chainLength size chunk) i
    (∀ k, i * chunk ≤ k → k < i * chunk + len → buf + k ∉ s.dirty → t.mem.read? (buf + k) =
      some (byteOf (datumAt s (k - i * chunk + (k / chunk - i))) 0)) ∧
    (∀ k, k < i * chunk → k < size → t.mem.read? (buf + k) = s.mem.read? (buf + k)) ∧
    DrewData (len + 1) s t ∧ t.dirty = s.dirty ∧ t.dma.toDevice = false ∧
    (chained = true → i + 1 < chainLength size chunk → AtDescriptor c buf size chunk (i + 1) t) := by
  intro len
  obtain ⟨-, des1, des2, -, bounded, inside⟩ := descriptor_segment accepted hi
  obtain ⟨cur, moved, kept, -, drew, keeps⟩ := useDescriptor_receives (here.place hi) chained fromDevice
  rw [used] at cur moved kept drew keeps
  rw [des1, des2] at moved kept
  rw [des1] at drew
  have dirty : t.dirty = s.dirty := keeps .dirty (by decide)
  refine ⟨fun k low high unmarked => ?_, fun k before hk => kept _ (.inl (by omega)) (buffer_ne_own apart hi hk),
    drew, dirty, (keeps .dmaDirection (by decide)).trans fromDevice, ?_⟩
  · have segment : k / chunk = i := Nat.div_eq_of_lt_le low (by rw [Nat.add_mul, Nat.one_mul]; omega)
    have received := moved (k - i * chunk) (by omega)
    rw [Nat.add_assoc, Nat.add_sub_cancel' low] at received
    rw [segment, Nat.sub_self, Nat.add_zero]
    exact received (buffer_ne_own apart hi (by omega)) unmarked
  · rintro rfl next
    exact here.next legal accepted apart next cur dirty fun x outside own => kept x (by omega) own

/-- From the device: the rest of the buffer takes its values in order, with one value more between two segments, and
the buffer before it is kept. -/
theorem runEngine_receives (limit : Nat) : ∀ i s,
    AtDescriptor c buf size chunk i s → i < chainLength size chunk → chainLength size chunk ≤ i + limit →
    s.dma.toDevice = false →
    (∀ k, i * chunk ≤ k → k < size → buf + k ∉ s.dirty → (runEngine limit s).mem.read? (buf + k) =
      some (byteOf (datumAt s (k - i * chunk + (k / chunk - i))) 0)) ∧
    (∀ k, k < i * chunk → k < size → (runEngine limit s).mem.read? (buf + k) = s.mem.read? (buf + k)) := by
  induction limit with
  | zero => intros; omega
  | succ limit ih =>
    intro i s here hi enough fromDevice
    rw [runEngine_at here hi]
    split_ifs with last
    · obtain ⟨moved, before, -⟩ := here.receives legal accepted apart hi fromDevice rfl
      rw [segmentLength_last last] at moved
      exact ⟨fun k low hk => moved k low (by omega), before⟩
    · generalize used : useDescriptor true (descAddr c i) s = t
      obtain ⟨moved, before, drew, dirty, direction, there⟩ := here.receives legal accepted apart hi fromDevice used
      rw [segmentLength_of_ne last] at moved drew
      obtain ⟨later, held⟩ := ih (i + 1) t (there rfl (by omega)) (by omega) (by omega) direction
      rw [dirty, Nat.add_mul, Nat.one_mul] at later
      rw [Nat.add_mul, Nat.one_mul] at held
      refine ⟨fun k low hk unmarked => ?_, fun k hik hk => (held k (by omega) hk).trans (before k hik hk)⟩
      by_cases inSegment : k < i * chunk + chunk
      · rw [held k inSegment hk, moved k low inSegment unmarked]
      · obtain ⟨positive, -⟩ := chainAccepted_size accepted
        have after : i + 1 ≤ k / chunk :=
          (Nat.le_div_iff_mul_le positive).mpr (by rw [Nat.add_mul, Nat.one_mul]; omega)
        rw [later k (by omega) hk unmarked, drew.datumAt,
          show chunk + 1 + (k - (i * chunk + chunk) + (k / chunk - (i + 1))) = k - i * chunk + (k / chunk - i) by omega]

end

/-- Settles O60. -/
theorem transferMovesTheWholeBuffer : Obligations.TransferMovesTheWholeBuffer := by
  unfold Obligations.TransferMovesTheWholeBuffer
  refine ⟨fun c s => ?_, fun c s buf size chunk legal accepted sees cur apart => ?_⟩
  · obtain ⟨keeps, stores, -, rests⟩ := runEngine_does (c.descSize.toNat / 16) s
    exact ⟨rests, keeps, stores⟩
  · obtain ⟨low, -, hsize, -, foot⟩ := chainAccepted_size accepted
    obtain ⟨m, count, -⟩ := chainLength_eq_succ low hsize
    have enough : chainLength size chunk ≤ 0 + c.descSize.toNat / 16 := by omega
    have here : AtDescriptor c buf size chunk 0 s := ⟨cur, fun j _ hj => sees j hj⟩
    refine ⟨fun bytes toDevice length held => ?_, fun fromDevice k hk unmarked => ?_⟩
    · have sent := runEngine_sends legal accepted apart length _ 0 s here (by omega) enough toDevice held
      rwa [Nat.zero_mul, List.drop_zero] at sent
    · obtain ⟨moved, -⟩ := runEngine_receives legal accepted apart _ 0 s here (by omega) enough fromDevice
      have := moved k (by omega) hk unmarked
      rwa [Nat.zero_mul, Nat.sub_zero, Nat.sub_zero] at this

end Sys2Proof.Machine
end
